-- ==== Sys2Proof/Word.lean ====
section
/-!
DEFINITION. The word types of the Zhevlegus (spec/00_scope.md R2, R3; spec/12_isa_formats.md R315).
-/
namespace Sys2Proof

/-- One byte of memory. -/
abbrev Byte := BitVec 8
/-- A 32-bit word: an instruction word, a vector or uniform register (R11). -/
abbrev W32 := BitVec 32
/-- A 64-bit word: an address, a token value, the predicates of a lane (R146, R100). -/
abbrev W64 := BitVec 64
/-- A 64-byte record read as one little-endian number: a continuation record or a command (R80, R94). -/
abbrev W512 := BitVec 512
/-- A set of lanes, bit L for lane L (R6). -/
abbrev Mask := BitVec 32

/-- A sparse table: keys strictly rising, no entry equal to the value an unlisted key reads as. -/
abbrev Sparse (α : Type) := List (Nat × α)

/-- A token: for each lane 0 to 31 a value of up to 64 bits, or null (R146). -/
abbrev Token := List (Option W64)

end Sys2Proof
end

