-- ==== Sys2Proof/Syntax.lean ====
section
/-!
DEFINITION. The instructions and events of the Zhevlegus: one constructor of `Instr` for each row of
spec/opcode_table.json. The first 146 rows are 32-bit instruction words (spec/12_isa_formats.md R315 to R331 and the
instruction chapters); the other 98 rows are the indivisible steps of spec/95_what_each_step_holds.md, which have no
encoding and carry what the outside world supplies.
-/
namespace Sys2Proof

/-- Predicate mode of formats G, I, M, A, B and J (R320). -/
inductive Pred where
  | always | onTrue | onFalse
  deriving DecidableEq, Repr

/-- The operand of a compute slot that a target names (Table 12.2). -/
inductive Opnd where
  | a | b | c | p
  deriving DecidableEq, Repr

/-- One consumer of a token (R318, Table 12.2). -/
inductive Target where
  | none
  | op (which : Opnd) (slot : BitVec 5)
  | write (slot : BitVec 4)
  deriving DecidableEq, Repr

/-- Integer types (Table 12.6). -/
inductive IType where
  | s32 | z32 | s64 | z64
  deriving DecidableEq, Repr

/-- The types the logic instructions other than `bfx` take (R360). -/
inductive ZType where
  | z32 | z64
  deriving DecidableEq, Repr

/-- The types `abs` takes (Table 13.7). -/
inductive SType where
  | s32 | s64
  deriving DecidableEq, Repr

/-- Float types (Table 12.6). -/
inductive FType where
  | f32 | f64 | f16 | bf16
  deriving DecidableEq, Repr

/-- The float types of `fdiv` and `fsqrt` (R370). -/
inductive FType2 where
  | f32 | f64
  deriving DecidableEq, Repr

/-- The formats of the packed dot (R376). -/
inductive HType where
  | f16 | bf16
  deriving DecidableEq, Repr

/-- Source formats of `cvtmx` (R379) and of `kvapp` (R408). -/
inductive MxSrc where
  | f32 | bf16
  deriving DecidableEq, Repr

/-- Element formats of `cvtmx` (R379). -/
inductive MxElem where
  | e4m3 | e5m2 | e2m3 | e3m2 | e2m1
  deriving DecidableEq, Repr

/-- Format codes 0x0 to 0xe (Table 12.6). -/
inductive Fmt where
  | f64 | f32 | f16 | bf16 | e4m3 | e5m2 | e2m3 | e3m2 | e2m1 | e8m0 | s32 | z32 | s64 | z64 | s8
  deriving DecidableEq, Repr

/-- Memory access widths (R322). -/
inductive Width where
  | b8 | b16 | b32 | b64 | b128
  deriving DecidableEq, Repr

/-- Scopes, narrowest first (R9, Table 12.6). -/
inductive Scope where
  | wrp | cor | cls | die | pkg | pod | sys
  deriving DecidableEq, Repr

/-- Ordering modifier of an atomic (R322). -/
inductive Order where
  | none | acq | rel | ar
  deriving DecidableEq, Repr

/-- Ordering modifier of `red` (R322). -/
inductive RedOrder where
  | none | rel
  deriving DecidableEq, Repr

/-- Fence kinds other than `.rep` (R322). -/
inductive FenceKind where
  | acq | rel | ar | sc
  deriving DecidableEq, Repr

/-- Atomic operations (Table 12.9, Table 15.5). -/
inductive AOp where
  | add | minS | minZ | maxS | maxZ | and | or | xor | exch | addF32 | addF64 | addBf16
  deriving DecidableEq, Repr

/-- Conditions of `setp` (R363). -/
inductive Cond where
  | eq | ne | lt | le | gt | ge
  deriving DecidableEq, Repr

/-- Conditions of `fsetp` (Table 14.3). -/
inductive FCond where
  | eq | ne | lt | le | gt | ge | num | nan
  deriving DecidableEq, Repr

/-- Modes of `shfl` (R381). -/
inductive ShflMode where
  | idx | up | down | xor
  deriving DecidableEq, Repr

/-- Operations of `vote` (R382). -/
inductive VoteOp where
  | every | some | same | mask | count
  deriving DecidableEq, Repr

/-- Operations of `redux` and `scan` (R383). -/
inductive ReduxOp where
  | add | min | max | and | or | xor | fadd
  deriving DecidableEq, Repr

/-- Near-bank operators (Table 10.5). -/
inductive NbOp where
  | fsum | isum | fmax | ses | dot
  deriving DecidableEq, Repr

/-- System registers readable by `sysrd` (Table 16.4). -/
inductive SysReg where
  | ctxclk | reftime | ctxnum | errcount | calends | lfsr | determ | swaprdy
  deriving DecidableEq, Repr

/-- Fields of a format G word that every G instruction with two targets has. -/
structure G where
  pred : Pred
  t1 : Target
  t0 : Target
  deriving DecidableEq, Repr

/-- Fields of a read word (format R). -/
structure RWord where
  reg : BitVec 8
  pair : Bool
  t1 : Target
  t0 : Target
  deriving DecidableEq, Repr

/-- Fields of a write word (format W). -/
structure WWord where
  reg : BitVec 8
  pair : Bool
  deriving DecidableEq, Repr

/-- Fields of a format M word: loads have a target, stores do not (then `t0` is none). -/
structure M where
  pred : Pred
  lsid : BitVec 4
  width : Width
  off : BitVec 8
  t0 : Target
  deriving DecidableEq, Repr

/-- Fields of a scoped format M word. -/
structure MS where
  pred : Pred
  lsid : BitVec 4
  width : Width
  scope : Scope
  t0 : Target
  deriving DecidableEq, Repr

/-- Fields of a format A word. -/
structure A where
  pred : Pred
  lsid : BitVec 4
  wide : Bool
  scope : Scope
  order : Order
  op : AOp
  t0 : Target
  deriving DecidableEq, Repr

/-- One virtual function: the port of its host and its number (R31). -/
structure VF where
  port : Bool
  fn : BitVec 6
  deriving DecidableEq, Repr

/-- One warp: its core and its slot. Main cores are 0 to 383 (96 × die + core, R170); pier core i of stack s is
384 + 16 × s + i. -/
structure WarpId where
  core : Nat
  slot : Nat
  deriving DecidableEq, Repr

/-- What the sensors read in one control interval (R30), in 0.1 °C, mL/min and W. -/
structure Sensors where
  power : Nat
  dieTemp : List Int
  deckTemp : List Int
  stackTemp : List Int
  inlet : Int
  outlet : Int
  flow : Nat
  rails : List Nat
  deriving DecidableEq, Repr, Inhabited

/-- A translation the host answers an ATS request with: frame address and write permission (R34). -/
structure AtsEntry where
  frame : Nat
  writable : Bool
  deriving DecidableEq, Repr

/-- Which ATS translation request a host answers: that of a die, on a port (R34). -/
structure AtsAsker where
  die : Nat
  port : Bool
  deriving DecidableEq, Repr

/-- PRI response codes (R103). -/
inductive PageCode where
  | success | invalid | failure
  deriving DecidableEq, Repr

/-- What a host's read, or a write without a row of its own, addresses (R7, R72, R73, R65, R51, R52, R79, R237, R279). -/
inductive RegTarget where
  /-- An offset of BAR 0 of a virtual function. -/
  | vfBar0 (vf : VF) (offset : Nat)
  /-- An offset of BAR 2 of a virtual function other than a whole enqueue record. -/
  | vfBar2 (vf : VF) (offset : Nat)
  /-- Bytes of the mailbox of a port: offset from the mailbox's start, and how many, up to 8. -/
  | mailbox (port : Bool) (offset size : Nat)
  /-- A pod-table entry's word: every field of it, `FENCED` among them. -/
  | podEntry (module : Nat)
  /-- A stack's near-bank mode register: 64-bit word number 0 to 3. -/
  | nbMode (stack : Nat) (word : Nat)
  /-- Eight bytes of device memory that the host reaches through a BAR, at a virtual address of a context (log 59). -/
  | memory (context : Nat) (address : W64)
  /-- Eight bytes of a host's own memory, which its program stores there without the device: the reply words of a service ring
  among them (R180). -/
  | hostMemory (port : Bool) (address : Nat)
  /-- Any other offset of the physical function. -/
  | other (port : Bool) (offset : Nat)
  deriving DecidableEq, Repr

/-- The kinds of an inbound UALink transaction (Table 2.3). A write has a byte for each byte of the request whose byte enable
is set. -/
inductive UaKind where
  | read
  | write (data : List (Option Byte))
  | atomic (op : AOp) (wide : Bool) (operand : W64) (compare : Option W64)
  | unsupported
  deriving DecidableEq, Repr

/-- The module that sends an inbound request, and the epoch that the request carries (R50). -/
structure PodSource where
  module_ : Nat
  epoch : Nat
  deriving DecidableEq, Repr

/-- An inbound UALink request (R45). -/
structure UaRequest where
  source : PodSource
  aperture : Nat
  offset : Nat
  length : Nat
  kind : UaKind
  deriving DecidableEq, Repr

/-- Where an uncorrectable or corrected error was found (Table 3.7): for a line, whether in HBM or in a cache. -/
inductive ErrorSite where
  | line (phys : Nat) (hbm : Bool)
  | unifiedStore (core : Nat) (offset : Nat)
  | accumulator (core : Nat) (offset : Nat)
  deriving DecidableEq, Repr

/-- How a reduction packet completed (R285). -/
inductive PacketStatus where
  | ok | late | unmapped | unsupported | poison
  deriving DecidableEq, Repr

/-- What a host request that timed out was for (R36): a load or an atomic with a returned value, which port 0 or 1 carried,
a write, or a copy. -/
inductive TimedOut where
  | load (port : Bool) (warp : WarpId) (strand slot : Nat) (lanes : Mask) (address : W64)
  | write (warp : WarpId) (lane : Nat)
  | copy (port : Bool) (core : Nat)
  deriving DecidableEq, Repr

/-- The instruction words and the events of the Zhevlegus. -/
inductive Instr where
  -- block structure and registers (R340 to R348)
  | blk (cnt : BitVec 5) (nrd nwr lsid : BitVec 4) (iso : Bool) (xcnt : BitVec 2) (ls : Bool)
  | rdV (r : RWord)
  | rdS (r : RWord)
  | rdP (r : RWord)
  | rdX (r : RWord)
  | wrV (w : WWord)
  | wrS (w : WWord)
  | wrP (w : WWord)
  | ext (payload : BitVec 25)
  | hintPrio (n : BitVec 2)
  | hintYield (n : BitVec 12)
  | hintLat (n : BitVec 16)
  | movi (pred : Pred) (imm : BitVec 15) (t0 : Target)
  -- exits, fan, null and rejoin (R344 to R356)
  | br (pred : Pred) (off : BitVec 23)
  | call (pred : Pred) (off : BitVec 23)
  | rjwait (pred : Pred) (j : BitVec 4) (off : BitVec 19)
  | fan (g : G)
  | null (g : G)
  | brx (pred : Pred)
  | ret (pred : Pred)
  | exit (pred : Pred)
  | trap (pred : Pred) (vector : BitVec 8)
  | rjenrol (pred : Pred) (j : BitVec 4)
  | rjstrike (pred : Pred) (j : BitVec 4)
  -- integer (R357 to R366)
  | add (g : G) (t : IType)
  | sub (g : G) (t : IType)
  | mul (g : G) (t : IType)
  | mulhi (g : G) (t : IType)
  | mad (g : G) (t : IType)
  | div (g : G) (t : IType)
  | rem (g : G) (t : IType)
  | neg (g : G) (t : IType)
  | abs (g : G) (t : SType)
  | min (g : G) (t : IType)
  | max (g : G) (t : IType)
  | lea (g : G) (t : IType)
  | and (g : G) (t : ZType)
  | or (g : G) (t : ZType)
  | xor (g : G) (t : ZType)
  | andn (g : G) (t : ZType)
  | not (g : G) (t : ZType)
  | shl (g : G) (t : ZType)
  | shr (g : G) (t : ZType)
  | sar (g : G) (t : ZType)
  | rotl (g : G) (t : ZType)
  | clz (g : G) (t : ZType)
  | ctz (g : G) (t : ZType)
  | popc (g : G) (t : ZType)
  | brev (g : G) (t : ZType)
  | bfx (g : G) (t : IType)
  | bfi (g : G) (t : ZType)
  | sel (g : G) (t : ZType)
  | setp (g : G) (c : Cond) (t : IType)
  | pand (g : G)
  | por (g : G)
  | pxor (g : G)
  | pnot (g : G)
  | isect (g : G)
  | isectX (g : G)
  -- floating point and conversion (R367 to R379)
  | fadd (g : G) (t : FType)
  | fsub (g : G) (t : FType)
  | fmul (g : G) (t : FType)
  | ffma (g : G) (t : FType)
  | fmin (g : G) (t : FType)
  | fmax (g : G) (t : FType)
  | fdiv (g : G) (t : FType2)
  | fsqrt (g : G) (t : FType2)
  | fscale (g : G) (t : FType)
  | fclass (g : G) (t : FType)
  | fsetp (g : G) (c : FCond) (t : FType)
  | frcp (g : G)
  | frsq (g : G)
  | fexp2 (g : G)
  | flog2 (g : G)
  | fsin (g : G)
  | fcos (g : G)
  | ftanh (g : G)
  | expsub (g : G)
  | fdot2 (g : G) (t : HType)
  | cvt (g : G) (dst src : Fmt)
  | cvtSourceHigh (g : G) (dst src : Fmt)
  | cvtmx (g : G) (src : MxSrc) (elem : MxElem)
  -- cross-lane (R380 to R386)
  | shfl (g : G) (wide : Bool) (mode : ShflMode)
  | vote (g : G) (op : VoteOp)
  | redux (g : G) (op : ReduxOp) (t : IType)
  | scan (g : G) (op : ReduxOp) (t : IType)
  | matchLanes (g : G) (wide : Bool)
  | elect (g : G)
  | actmask (g : G)
  -- memory, atomics, copies (R387 to R410)
  | ld (m : M)
  | st (m : M)
  | ldb (m : M)
  | ldacq (m : MS)
  | strel (m : MS)
  | stMc (m : M)
  | pref (pred : Pred) (lsid : BitVec 4) (l1 : Bool) (off : BitVec 8)
  | atom (a : A)
  | red (pred : Pred) (lsid : BitVec 4) (wide : Bool) (scope : Scope) (order : RedOrder) (op : AOp)
  | cas (pred : Pred) (lsid : BitVec 4) (wide : Bool) (scope : Scope) (order : Order) (t0 : Target)
  | fence (pred : Pred) (lsid : BitVec 4) (kind : FenceKind) (scope : Scope)
  | fenceRep (pred : Pred) (lsid : BitVec 4)
  | inval (pred : Pred) (lsid : BitVec 4) (off : BitVec 8)
  | stmap (pred : Pred) (t0 : Target)
  | stunmap (pred : Pred) (t0 : Target)
  | stflush (pred : Pred) (t0 : Target)
  | cpy (pred : Pred)
  | cpyg (g : G)
  | cpseal (pred : Pred)
  | cpwait (pred : Pred)
  | kvapp (pred : Pred) (src : MxSrc)
  -- matrix (R441)
  | mma (pred : Pred) (tile : BitVec 3) (acc : Bool) (group : BitVec 2)
  | mmas (pred : Pred) (tile : BitVec 3) (acc : Bool) (group : BitVec 2)
  | mzero (pred : Pred) (tile : BitVec 3)
  | mdrain (pred : Pred) (tile : BitVec 3) (ep f64 : Bool) (group : BitVec 2)
  | mpeer (pred : Pred) (tile : BitVec 3) (s32 : Bool)
  | mprune (pred : Pred) (group : BitVec 2)
  | mwait (pred : Pred) (tile : BitVec 3)
  | mwaitAll (pred : Pred)
  | tokpass (pred : Pred)
  -- synchronisation, work, ballot, near memory, system (R411)
  | barArrive (pred : Pred) (scope : Scope) (rel bytes so : Bool)
  | barWait (g : G) (scope : Scope) (par : Bool)
  | barReg (pred : Pred)
  | barDrop (pred : Pred)
  | barExpect (pred : Pred)
  | plwait (pred : Pred)
  | yield (pred : Pred)
  | rwrite (pred : Pred)
  | rwwait (pred : Pred) (k : BitVec 2)
  | sleep (pred : Pred)
  | deq (g : G) (group : BitVec 2)
  | enq (g : G) (group : BitVec 2)
  | join (pred : Pred) (counted : Bool)
  | sbpost (g : G)
  | sbpostFail (g : G)
  | sbquery (g : G)
  | nmcall (pred : Pred) (group : BitVec 2)
  | rred (pred : Pred)
  | nmret (pred : Pred)
  | nbop (g : G) (op : NbOp)
  | nbmode (g : G) (compute : Bool)
  | gradq (pred : Pred)
  | sysrd (g : G) (r : SysReg)
  | syswr (pred : Pred)
  | eret (pred : Pred)
  | bkpt (pred : Pred)
  | haltDbg (pred : Pred)
  -- block life and warp events
  | blockFetch (warp : WarpId) (strand : Nat)
  | blockCommit
  | serialTokenGrant (die : Nat)
  | strandRotation (warp : WarpId)
  | backoffEnd (warp : WarpId)
  | watchChange (warp : WarpId)
  | blockRetry (warp : WarpId) (strand : Nat)
  | depositApply (warp : WarpId)
  | sleepEnd (warp : WarpId) (strand : Nat)
  | deqTimeout (warp : WarpId)
  | joinRetry (die : Nat)
  | siblingPageRelease (handle : Nat) (sibling : Nat)
  -- host and privileged commands
  | hostEnqueue (vf : VF) (slot : Nat) (whole : Bool) (record : W512)
  | createContext (vf : VF) (cmd : W512)
  | destroyContext (vf : VF) (cmd : W512)
  | createQueue (vf : VF) (cmd : W512)
  | destroyQueue (vf : VF) (cmd : W512)
  | setClassAndWeight (vf : VF) (cmd : W512)
  | queryQueue (vf : VF) (cmd : W512)
  | launch (vf : VF) (cmd : W512)
  | mapWindow (vf : VF) (cmd : W512)
  | unmapWindow (vf : VF) (cmd : W512)
  | bindPodAperture (vf : VF) (cmd : W512)
  | bindSecondPort (vf : VF) (cmd : W512)
  | invalidateTranslations (vf : VF) (cmd : W512)
  | createSiblingGroup (vf : VF) (cmd : W512)
  | swapOut (vf : VF) (cmd : W512)
  | fill (vf : VF) (cmd : W512)
  | swapIn (vf : VF) (cmd : W512)
  | stop (vf : VF) (cmd : W512)
  | start (vf : VF) (cmd : W512)
  | resumeServiceCall (vf : VF) (cmd : W512)
  | restartSaveEngine (vf : VF) (cmd : W512)
  | recoverContext (vf : VF) (cmd : W512)
  | spillComplete (context : Nat)
  | saveFault (context : Nat) (core : Nat) (address : W64) (progress : W32)
  -- management
  | readSensors (port : Bool) (arglen : BitVec 24)
  | setPowerLimit (port : Bool) (arglen : BitVec 24)
  | attest (port : Bool) (arglen : BitVec 24)
  | readAlmanac (port : Bool) (arglen : BitVec 24)
  | writeUpdateChunk (port : Bool) (arglen : BitVec 24)
  | commitUpdate (port : Bool) (arglen : BitVec 24)
  | setCalends (port : Bool) (arglen : BitVec 24)
  | warmStart (port : Bool) (arglen : BitVec 24)
  | coldStart (port : Bool) (arglen : BitVec 24)
  | podControlWrite (value : W32)
  | fencedClear (module : Nat)
  | registerWrite (target : RegTarget) (value : W64)
  | powerGood
  | powerRemoval
  | startStep (ok : Bool)
  | pfReset (port : Bool)
  | functionLevelReset (vf : VF)
  | controlInterval (sensors : Sensors)
  | throttleEventTimeout (unit : Nat)
  -- host links, memory system and pod
  | atsInvalidation (port : Bool) (pasid : Nat) (address : W64) (length : W64)
  | atsTranslationCompletion (context page : Nat) (asker : AtsAsker) (entry : Option AtsEntry)
  | pageResponse (context : Nat) (page : Nat) (code : PageCode)
  | hostTimeout (what : TimedOut)
  | l2Retry (die slice request : Nat)
  | reservationGrant (die slice : Nat)
  | stashProbe (core : Nat) (context : Nat) (line : Nat) (invalidate : Bool)
  | stashAcknowledgement (core : Nat)
  | spanWriteArrival (die : Nat)
  | spanError (dieA dieB : Nat)
  | ualinkInboundRequest (r : UaRequest)
  | ualinkInboundCompletion (tag : Nat) (epoch : Nat)
  | completionTimeout (tag : Nat)
  | outboundCompletionTimeout (module : Nat)
  | portFailure (port : Nat)
  | reductionPacket (source : PodSource) (aperture : Nat) (packet : W512)
  | packetCompletion (tag : Nat) (epoch : Nat) (status : PacketStatus)
  | uncorrectableError (site : ErrorSite)
  | calendsBoundary (context : Nat)
  | earlyBoundary (stack : Nat)
  | undoOverflow (context : Nat)
  | boundaryExchange (context : Nat) (boundaries : List (Nat × Option Nat)) (rollback : Bool)
  -- engines
  | matrixCommandStart (leader : Nat)
  | tileExpected (leader : Nat)
  | matrixCommandComplete (leader : Nat)
  | epilogueComplete (leader : Nat)
  | epilogueStoreFault (core : Nat)
  | mpeerAdd (leader : Nat)
  | mpeerTimeout (leader : Nat)
  | copyComplete (core : Nat)
  | copyFault (core : Nat)
  | nmCallQueued (stack : Nat)
  | nmCallStart (stack : Nat)
  | nmCallTimeout (stack : Nat) (call : Nat)
  | nmCallReturn (stack : Nat) (call : Nat)
  | rowStepEnd (stack : Nat)
  | modeSwitchComplete (stack : Nat) (pseudo : Nat)
  | writePerformed
  | dispatcherSummaryReport (die : Nat)
  | serviceTrapRetry (warp : WarpId)
  | correctedError (site : ErrorSite)
  | unknownPrivilegedCommand (vf : VF) (cmd : W512)
  | unknownMailboxCommand (port : Bool) (opcode : BitVec 8) (arglen : BitVec 24)
  deriving DecidableEq, Repr

end Sys2Proof
end

