-- ==== Sys2Proof/Config.lean ====
section
/-!
DEFINITION. What one Zhevlegus fixes and the spec does not give: free values (opaque, so that no proof can know them),
and the figures of spec/00_scope.md R11 that the model uses.
-/
namespace Sys2Proof.Config

/-- Reference ticks of 10 ns that pass in step number `n` (log 1): the spec gives no time to any step. -/
opaque elapsed (n : Nat) : Nat

/-- Arithmetic cycles that the cores of a die count in step number `n` (log 1; R17, %clock of R325). -/
opaque cycles (die n : Nat) : Nat

/-- Pier cycles that the pier cores of a stack count in step number `n` (log 1; R17, %clock of R325). -/
opaque pierCycles (stack n : Nat) : Nat

/-- Which of several ready candidates goes next, at step number `n` (log 2; R78, R143, R119 across schedulers). -/
opaque pick (n : Nat) : Nat

/-- Whether, at step number `n`, the device uses a translation of page `page` that it caches (log 22; R102). -/
opaque usesCached (n page : Nat) : Bool

/-- Whether, in step number `n`, an ordinary access of a physical address reaches its DRAM bank (log 56; R277, R278). -/
opaque reachesDram (n phys : Nat) : Bool

/-- How much later than it must a lane's plain load in step number `n` is performed (log 21; R219, R221). -/
opaque later (n lane : Nat) : Nat

/-- Which of the values that a near-memory call leaves open a racing read in step number `n` obtains of a byte (log 61;
R268). -/
opaque raced (n phys : Nat) : Nat

/-- Whether a write of a byte that races a near-memory call in step number `n` lasts (log 61; R268). -/
opaque raceLasts (n phys : Nat) : Bool

/-- What a host answers in step number `n` when the device itself translates a host page of PASID `pasid`: none where the
page is not present (log 53; R82, R83, R190, R472). -/
opaque hostEntry (n : Nat) (port : Bool) (pasid page : Nat) : Option AtsEntry

/-- The context and page whose translation the device caches in step number `n`, if any (log 22; R102). -/
opaque caches (n : Nat) : Option (Nat × Nat)

/-- Which line of a stack's undo region holds the old contents of line `line` in a segment (log 42; R67 gives no layout). -/
opaque undoSlot (ctx boundary line : Nat) : Nat

/-- Whether the start step begun at step number `n` succeeds (log 3; R55, R58). -/
opaque startOk (n : Nat) : Bool

/-- What the sensors read at step number `n` (log 4; R30). -/
opaque sensors (n : Nat) : Sensors

/-- The correctly rounded FP32 result of special function `f` on operands `a`, `b`, where the model's intervals do not
decide it (log 5; R305, R308). -/
opaque hardCase (f : Nat) (a b : W32) : W32

/-- The value `stmap`, `stunmap` and `stflush` send to `T0` (log 6; Table 15.1 gives the target, no rule the value). -/
opaque stashToken (n : Nat) : W64

/-- The hash of R44 that picks the UALink port of a request, by its module and the 256-byte region of its address (log 10). -/
opaque portHash (module_ region : Nat) : Nat

/-- The bytes of firmware image `k` (0 to 6: M0 and M2 to M6 of Table 3.2) in a flash slot's contents (log 7). -/
opaque image (slot : Sparse Byte) (k : Nat) : List Byte

/-- The version and security version of firmware image `k` in a flash slot's contents (R60; log 7). -/
opaque imageVersion (slot : Sparse Byte) (k : Nat) : W32 × W32

/-- Whether every image of a flash slot bears a signature that verifies (R60; log 7). -/
opaque signaturesOk (slot : Sparse Byte) : Bool

/-- The fused key digest (R60; log 7). -/
opaque keyDigest : BitVec 256

/-- The DER certificate chain of the device (Table 3.3; log 7). -/
opaque certificates : List Byte

/-- The RSASSA-PSS signature of a report with the device identity key (R62; log 7). -/
opaque reportSignature (report : List Byte) : List Byte

/-- The stored results of start steps 0x05, 0x06 and 0x08 (R59; log 7). -/
opaque storedResults (n : Nat) : List Byte

/-- Whether the CRC-32 of the stored result of start step `k` matches at step number `n` (R56; log 3). -/
opaque storedOk (k n : Nat) : Bool

/-- What the read-sensors command returns beside the two limits: the layout of its result is not given (log 4). -/
opaque sensorBytes (s : Sensors) (n : Nat) : List Byte


/-- Main cores of the package (R11). -/
def mainCores : Nat := 384
/-- Span of one core's logical storage offsets (log 15): a core's store holds 1 MiB (R196), each allocation under an
offset of its own. -/
def storeSpan : Nat := 2 ^ 64
/-- Bytes of the top of physical memory (R203). -/
def hbmBytes : Nat := 2 ^ 40
/-- Bytes of one stack (R16). -/
def stackBytes : Nat := 2 ^ 36
/-- Bytes of the save area, at least (R187). -/
def saveBytes : Nat := 604045312

end Sys2Proof.Config
end

