-- ==== Sys2Proof/WellFormed.lean ====
section
/-!
DEFINITION. Which instructions are legal words: the limits of spec/12_isa_formats.md (R318 to R331) and of the
instruction entries that the types of Syntax.lean do not already carry. The checks that concern a whole block
(R145, R317, R331) are in Machine/BlockCheck.lean.
-/
namespace Sys2Proof

/-- The number of a format code (Table 12.6). -/
def Fmt.code : Fmt → Nat
  | .f64 => 0 | .f32 => 1 | .f16 => 2 | .bf16 => 3 | .e4m3 => 4 | .e5m2 => 5 | .e2m3 => 6 | .e3m2 => 7
  | .e2m1 => 8 | .e8m0 => 9 | .s32 => 10 | .z32 => 11 | .s64 => 12 | .z64 => 13 | .s8 => 14

/-- The float formats 0x0 to 0x8. -/
def Fmt.isFloat (f : Fmt) : Bool := f.code ≤ 8

/-- The integer formats 0xa to 0xd. -/
def Fmt.isInt (f : Fmt) : Bool := 10 ≤ f.code && f.code ≤ 13

/-- The legal pairs of `cvt` (Table 14.5). -/
def cvtPairOk (dst src : Fmt) : Bool :=
  if src.isFloat then (dst.isFloat && dst != src) || dst == .e8m0 || dst.isInt
  else if src == .e8m0 then dst == .f32
  else dst.isFloat

/-- Read numbers and pairs of `rd.x` (Table 12.5, R325): 64-bit registers take `PAIR`, the others must not. -/
def rdXOk (r : RWord) : Bool :=
  let n := r.reg.toNat
  if n = 0x10 ∨ n = 0x18 then r.pair
  else !r.pair && (n ≤ 0x06 || (0x08 ≤ n && n ≤ 0x0f) || n = 0x12 || (0x14 ≤ n && n ≤ 0x17) || (0x20 ≤ n && n ≤ 0x2f))

/-- Uniform registers: 0 to 63, pairs even (Table 12.4). -/
def sRegOk (reg : BitVec 8) (pair : Bool) : Bool :=
  reg.toNat < 64 && (!pair || reg.toNat % 2 = 0)

/-- Predicate registers: 0 to 63, the pair only at 0 (Table 12.4). -/
def pRegOk (reg : BitVec 8) (pair : Bool) : Bool :=
  if pair then reg.toNat = 0 else reg.toNat < 64

/-- The target of a load: with 128 bits, not operand c, not a predicate, not write slot 15 (R322). -/
def loadTargetOk (w : Width) (t : Target) : Bool :=
  match w, t with
  | .b128, .op .c _ => false
  | .b128, .op .p _ => false
  | .b128, .write n => n.toNat < 15
  | _, _ => true

/-- The widths an atomic operation allows (Table 15.5). -/
def aopWidthOk (op : AOp) (wide : Bool) : Bool :=
  match op with
  | .addF32 | .addBf16 => !wide
  | .addF64 => wide
  | _ => true

/-- Byte `n` of a 64-byte record. -/
def W512.byte (r : W512) (n : Nat) : Byte := r.extractLsb' (8 * n) 8

/-- Is the instruction a 32-bit word (rows 0 to 145 of the opcode table) and not an event? -/
def Instr.isWord : Instr → Bool
  | .blockFetch .. | .blockCommit | .serialTokenGrant .. | .strandRotation .. | .backoffEnd .. | .watchChange ..
  | .blockRetry .. | .depositApply .. | .sleepEnd .. | .deqTimeout .. | .joinRetry .. | .siblingPageRelease ..
  | .hostEnqueue .. | .createContext .. | .destroyContext .. | .createQueue .. | .destroyQueue ..
  | .setClassAndWeight .. | .queryQueue .. | .launch .. | .mapWindow .. | .unmapWindow .. | .bindPodAperture ..
  | .bindSecondPort .. | .invalidateTranslations .. | .createSiblingGroup .. | .swapOut .. | .fill .. | .swapIn ..
  | .stop .. | .start .. | .resumeServiceCall .. | .restartSaveEngine .. | .recoverContext .. | .spillComplete ..
  | .saveFault .. | .readSensors .. | .setPowerLimit .. | .attest .. | .readAlmanac .. | .writeUpdateChunk ..
  | .commitUpdate .. | .setCalends .. | .warmStart .. | .coldStart .. | .podControlWrite .. | .fencedClear ..
  | .registerWrite .. | .powerGood | .powerRemoval | .startStep .. | .pfReset .. | .functionLevelReset ..
  | .controlInterval .. | .throttleEventTimeout .. | .atsInvalidation .. | .atsTranslationCompletion ..
  | .pageResponse .. | .hostTimeout .. | .l2Retry .. | .reservationGrant .. | .stashProbe ..
  | .stashAcknowledgement .. | .spanWriteArrival .. | .spanError .. | .ualinkInboundRequest ..
  | .ualinkInboundCompletion .. | .completionTimeout .. | .outboundCompletionTimeout .. | .portFailure ..
  | .reductionPacket .. | .packetCompletion .. | .uncorrectableError .. | .calendsBoundary .. | .earlyBoundary ..
  | .undoOverflow .. | .boundaryExchange .. | .matrixCommandStart .. | .tileExpected .. | .matrixCommandComplete ..
  | .epilogueComplete .. | .epilogueStoreFault .. | .mpeerAdd .. | .mpeerTimeout .. | .copyComplete ..
  | .copyFault .. | .nmCallQueued .. | .nmCallStart .. | .nmCallTimeout .. | .nmCallReturn .. | .rowStepEnd ..
  | .modeSwitchComplete .. | .writePerformed | .dispatcherSummaryReport .. | .serviceTrapRetry ..
  | .correctedError .. | .unknownPrivilegedCommand .. | .unknownMailboxCommand .. => false
  | _ => true

/-- The instruction is one that some legal word, or some event, stands for. -/
def Instr.wf : Instr → Bool
  | .blk _ _ _ lsid _ _ ls => ls || lsid = 0
  | .rdS r => sRegOk r.reg r.pair
  | .rdP r => pRegOk r.reg r.pair
  | .rdX r => rdXOk r
  | .wrS w => sRegOk w.reg w.pair
  | .wrP w => pRegOk w.reg w.pair || (!w.pair && 0x40 ≤ w.reg.toNat && w.reg.toNat ≤ 0x4f)
  | .trap _ n => 0x40 ≤ n.toNat
  | .cvt _ d s => s.code ≤ 7 && cvtPairOk d s
  | .cvtSourceHigh _ d s => 8 ≤ s.code && cvtPairOk d s
  | .redux _ op t => op != .fadd || t == .s32
  | .scan _ op t => op != .fadd || t == .s32
  | .ld m => loadTargetOk m.width m.t0
  | .ldb m => loadTargetOk m.width m.t0
  | .ldacq m => loadTargetOk m.width m.t0
  | .st m => m.t0 == .none
  | .stMc m => m.t0 == .none
  | .strel m => m.t0 == .none
  | .atom a => aopWidthOk a.op a.wide
  | .red _ _ wide _ _ op => op != .exch && aopWidthOk op wide
  | .mdrain _ _ ep _ g => ep || g = 0
  | .createContext _ c => c.byte 0 = 0x01
  | .destroyContext _ c => c.byte 0 = 0x02
  | .createQueue _ c => c.byte 0 = 0x03
  | .destroyQueue _ c => c.byte 0 = 0x04
  | .setClassAndWeight _ c => c.byte 0 = 0x05
  | .queryQueue _ c => c.byte 0 = 0x06
  | .launch _ c => c.byte 0 = 0x07
  | .mapWindow _ c => c.byte 0 = 0x08
  | .unmapWindow _ c => c.byte 0 = 0x09
  | .bindPodAperture _ c => c.byte 0 = 0x0a
  | .bindSecondPort _ c => c.byte 0 = 0x0b
  | .invalidateTranslations _ c => c.byte 0 = 0x0c
  | .createSiblingGroup _ c => c.byte 0 = 0x0d
  | .swapOut _ c => c.byte 0 = 0x0e && c.byte 0x12 = 0
  | .fill _ c => c.byte 0 = 0x0e && c.byte 0x12 = 1
  | .swapIn _ c => c.byte 0 = 0x0e && c.byte 0x12 = 2
  | .stop _ c => c.byte 0 = 0x0e && c.byte 0x12 = 3
  | .start _ c => c.byte 0 = 0x0e && c.byte 0x12 = 4
  | .resumeServiceCall _ c => c.byte 0 = 0x0e && c.byte 0x12 = 5
  | .restartSaveEngine _ c => c.byte 0 = 0x0f
  | .recoverContext _ c => c.byte 0 = 0x10
  | .unknownPrivilegedCommand _ c =>
      (c.byte 0).toNat = 0 || 0x10 < (c.byte 0).toNat || (c.byte 0 = 0x0e && 5 < (c.byte 0x12).toNat)
  | .unknownMailboxCommand _ op _ => op.toNat = 0 || 0x09 < op.toNat
  | _ => true

end Sys2Proof
end

