-- ==== Sys2Proof/Decode.lean ====
section
/-!
DEFINITION. The decoder of one 32-bit instruction word, total and refusing by name, and the encoder of the same
tables (spec/12_isa_formats.md R315 to R331; Tables 12.1 to 12.9, 13.1 to 17.1). A word's format follows from its
major opcode, bits [31:25].
-/
namespace Sys2Proof

/-- Why a word is illegal (R331). -/
inductive DecodeError where
  /-- A major opcode that Table 12.8 does not assign. -/
  | major
  /-- Predicate mode 11 (R320). -/
  | predicate
  /-- A target of an illegal kind or index (R318), or one where 0xff is required. -/
  | target
  /-- A non-zero reserved field (R319, R411). -/
  | reserved
  /-- A register number or pair that Table 12.4 or 12.5 does not list. -/
  | register
  /-- An operation, type, format, width, scope or order code that is not assigned. -/
  | code
  /-- A combination of fields that the entry makes illegal. -/
  | combination
  deriving DecidableEq, Repr

/-- Bits [lo + n − 1 : lo] of an instruction word (R2). -/
abbrev fld (w : W32) (lo n : Nat) : BitVec n := w.extractLsb' lo n

/-- A required condition of a word. -/
def need (c : Bool) (e : DecodeError) : Except DecodeError Unit := if c then .ok () else .error e

/-- Predicate mode (R320). -/
def decPred (b : BitVec 2) : Except DecodeError Pred :=
  if b = 0 then .ok .always else if b = 1 then .ok .onTrue else if b = 2 then .ok .onFalse else .error .predicate

/-- A target byte (Table 12.2). -/
def decTarget (b : BitVec 8) : Except DecodeError Target :=
  let k := b.extractLsb' 5 3
  let i := b.extractLsb' 0 5
  if k = 0 then .ok (.op .a i) else if k = 1 then .ok (.op .b i) else if k = 2 then .ok (.op .c i)
  else if k = 3 then .ok (.op .p i)
  else if k = 4 then (if b.extractLsb' 4 1 = 0 then .ok (.write (b.extractLsb' 0 4)) else .error .target)
  else if b = 0xff then .ok .none else .error .target

/-- Codes of `IType`. -/
def decIType (b : BitVec 2) : Except DecodeError IType :=
  if b = 0 then .ok .s32 else if b = 1 then .ok .z32 else if b = 2 then .ok .s64 else if b = 3 then .ok .z64 else .error .code

/-- Code of a `IType`. -/
def encIType : IType → BitVec 2
  | .s32 => 0 | .z32 => 1 | .s64 => 2 | .z64 => 3

/-- Codes of `FType`. -/
def decFType (b : BitVec 2) : Except DecodeError FType :=
  if b = 0 then .ok .f32 else if b = 1 then .ok .f64 else if b = 2 then .ok .f16 else if b = 3 then .ok .bf16 else .error .code

/-- Code of a `FType`. -/
def encFType : FType → BitVec 2
  | .f32 => 0 | .f64 => 1 | .f16 => 2 | .bf16 => 3

/-- Codes of `Width`. -/
def decWidth (b : BitVec 3) : Except DecodeError Width :=
  if b = 0 then .ok .b8 else if b = 1 then .ok .b16 else if b = 2 then .ok .b32 else if b = 3 then .ok .b64 else if b = 4 then .ok .b128 else .error .code

/-- Code of a `Width`. -/
def encWidth : Width → BitVec 3
  | .b8 => 0 | .b16 => 1 | .b32 => 2 | .b64 => 3 | .b128 => 4

/-- Codes of `Scope`. -/
def decScope (b : BitVec 3) : Except DecodeError Scope :=
  if b = 0 then .ok .wrp else if b = 1 then .ok .cor else if b = 2 then .ok .cls else if b = 3 then .ok .die else if b = 4 then .ok .pkg else if b = 5 then .ok .pod else if b = 6 then .ok .sys else .error .code

/-- Code of a `Scope`. -/
def encScope : Scope → BitVec 3
  | .wrp => 0 | .cor => 1 | .cls => 2 | .die => 3 | .pkg => 4 | .pod => 5 | .sys => 6

/-- Codes of `Order`. -/
def decOrder (b : BitVec 2) : Except DecodeError Order :=
  if b = 0 then .ok .none else if b = 1 then .ok .acq else if b = 2 then .ok .rel else if b = 3 then .ok .ar else .error .code

/-- Code of a `Order`. -/
def encOrder : Order → BitVec 2
  | .none => 0 | .acq => 1 | .rel => 2 | .ar => 3

/-- Codes of `FenceKind`. -/
def decFenceKind (b : BitVec 3) : Except DecodeError FenceKind :=
  if b = 0 then .ok .acq else if b = 1 then .ok .rel else if b = 2 then .ok .ar else if b = 3 then .ok .sc else .error .code

/-- Code of a `FenceKind`. -/
def encFenceKind : FenceKind → BitVec 3
  | .acq => 0 | .rel => 1 | .ar => 2 | .sc => 3

/-- Codes of `AOp`. -/
def decAOp (b : BitVec 5) : Except DecodeError AOp :=
  if b = 0 then .ok .add else if b = 1 then .ok .minS else if b = 2 then .ok .minZ else if b = 3 then .ok .maxS else if b = 4 then .ok .maxZ else if b = 5 then .ok .and else if b = 6 then .ok .or else if b = 7 then .ok .xor else if b = 8 then .ok .exch else if b = 9 then .ok .addF32 else if b = 10 then .ok .addF64 else if b = 11 then .ok .addBf16 else .error .code

/-- Code of a `AOp`. -/
def encAOp : AOp → BitVec 5
  | .add => 0 | .minS => 1 | .minZ => 2 | .maxS => 3 | .maxZ => 4 | .and => 5 | .or => 6 | .xor => 7 | .exch => 8 | .addF32 => 9 | .addF64 => 10 | .addBf16 => 11

/-- Codes of `Cond`. -/
def decCond (b : BitVec 5) : Except DecodeError Cond :=
  if b = 0 then .ok .eq else if b = 1 then .ok .ne else if b = 2 then .ok .lt else if b = 3 then .ok .le else if b = 4 then .ok .gt else if b = 5 then .ok .ge else .error .code

/-- Code of a `Cond`. -/
def encCond : Cond → BitVec 5
  | .eq => 0 | .ne => 1 | .lt => 2 | .le => 3 | .gt => 4 | .ge => 5

/-- Codes of `FCond`. -/
def decFCond (b : BitVec 5) : Except DecodeError FCond :=
  if b = 0 then .ok .eq else if b = 1 then .ok .ne else if b = 2 then .ok .lt else if b = 3 then .ok .le else if b = 4 then .ok .gt else if b = 5 then .ok .ge else if b = 6 then .ok .num else if b = 7 then .ok .nan else .error .code

/-- Code of a `FCond`. -/
def encFCond : FCond → BitVec 5
  | .eq => 0 | .ne => 1 | .lt => 2 | .le => 3 | .gt => 4 | .ge => 5 | .num => 6 | .nan => 7

/-- Codes of `ShflMode`. -/
def decShflMode (b : BitVec 2) : Except DecodeError ShflMode :=
  if b = 0 then .ok .idx else if b = 1 then .ok .up else if b = 2 then .ok .down else if b = 3 then .ok .xor else .error .code

/-- Code of a `ShflMode`. -/
def encShflMode : ShflMode → BitVec 2
  | .idx => 0 | .up => 1 | .down => 2 | .xor => 3

/-- Codes of `VoteOp`. -/
def decVoteOp (b : BitVec 3) : Except DecodeError VoteOp :=
  if b = 0 then .ok .every else if b = 1 then .ok .some else if b = 2 then .ok .same else if b = 3 then .ok .mask else if b = 4 then .ok .count else .error .code

/-- Code of a `VoteOp`. -/
def encVoteOp : VoteOp → BitVec 3
  | .every => 0 | .some => 1 | .same => 2 | .mask => 3 | .count => 4

/-- Codes of `ReduxOp`. -/
def decReduxOp (b : BitVec 5) : Except DecodeError ReduxOp :=
  if b = 0 then .ok .add else if b = 1 then .ok .min else if b = 2 then .ok .max else if b = 3 then .ok .and else if b = 4 then .ok .or else if b = 5 then .ok .xor else if b = 6 then .ok .fadd else .error .code

/-- Code of a `ReduxOp`. -/
def encReduxOp : ReduxOp → BitVec 5
  | .add => 0 | .min => 1 | .max => 2 | .and => 3 | .or => 4 | .xor => 5 | .fadd => 6

/-- Codes of `MxElem`. -/
def decMxElem (b : BitVec 3) : Except DecodeError MxElem :=
  if b = 0 then .ok .e4m3 else if b = 1 then .ok .e5m2 else if b = 2 then .ok .e2m3 else if b = 3 then .ok .e3m2 else if b = 4 then .ok .e2m1 else .error .code

/-- Code of a `MxElem`. -/
def encMxElem : MxElem → BitVec 3
  | .e4m3 => 0 | .e5m2 => 1 | .e2m3 => 2 | .e3m2 => 3 | .e2m1 => 4

/-- Codes of `NbOp`. -/
def decNbOp (b : BitVec 4) : Except DecodeError NbOp :=
  if b = 0 then .ok .fsum else if b = 1 then .ok .isum else if b = 2 then .ok .fmax else if b = 3 then .ok .ses else if b = 4 then .ok .dot else .error .code

/-- Code of a `NbOp`. -/
def encNbOp : NbOp → BitVec 4
  | .fsum => 0 | .isum => 1 | .fmax => 2 | .ses => 3 | .dot => 4

/-- Codes of `SysReg`. -/
def decSysReg (b : BitVec 7) : Except DecodeError SysReg :=
  if b = 0 then .ok .ctxclk else if b = 1 then .ok .reftime else if b = 2 then .ok .ctxnum else if b = 3 then .ok .errcount else if b = 4 then .ok .calends else if b = 5 then .ok .lfsr else if b = 6 then .ok .determ else if b = 7 then .ok .swaprdy else .error .code

/-- Code of a `SysReg`. -/
def encSysReg : SysReg → BitVec 7
  | .ctxclk => 0 | .reftime => 1 | .ctxnum => 2 | .errcount => 3 | .calends => 4 | .lfsr => 5 | .determ => 6 | .swaprdy => 7

/-- Codes of `Fmt`. -/
def decFmt (b : BitVec 4) : Except DecodeError Fmt :=
  if b = 0 then .ok .f64 else if b = 1 then .ok .f32 else if b = 2 then .ok .f16 else if b = 3 then .ok .bf16 else if b = 4 then .ok .e4m3 else if b = 5 then .ok .e5m2 else if b = 6 then .ok .e2m3 else if b = 7 then .ok .e3m2 else if b = 8 then .ok .e2m1 else if b = 9 then .ok .e8m0 else if b = 10 then .ok .s32 else if b = 11 then .ok .z32 else if b = 12 then .ok .s64 else if b = 13 then .ok .z64 else if b = 14 then .ok .s8 else .error .code

/-- Code of a `Fmt`. -/
def encFmt : Fmt → BitVec 4
  | .f64 => 0 | .f32 => 1 | .f16 => 2 | .bf16 => 3 | .e4m3 => 4 | .e5m2 => 5 | .e2m3 => 6 | .e3m2 => 7 | .e2m1 => 8 | .e8m0 => 9 | .s32 => 10 | .z32 => 11 | .s64 => 12 | .z64 => 13 | .s8 => 14

/-- One-bit code of `ZType`. -/
def decZType (b : BitVec 1) : ZType := if b = 0 then .z32 else .z64

/-- One-bit code of a `ZType`. -/
def encZType : ZType → BitVec 1
  | .z32 => 0 | .z64 => 1

/-- One-bit code of `SType`. -/
def decSType (b : BitVec 1) : SType := if b = 0 then .s32 else .s64

/-- One-bit code of a `SType`. -/
def encSType : SType → BitVec 1
  | .s32 => 0 | .s64 => 1

/-- One-bit code of `FType2`. -/
def decFType2 (b : BitVec 1) : FType2 := if b = 0 then .f32 else .f64

/-- One-bit code of a `FType2`. -/
def encFType2 : FType2 → BitVec 1
  | .f32 => 0 | .f64 => 1

/-- One-bit code of `HType`. -/
def decHType (b : BitVec 1) : HType := if b = 0 then .f16 else .bf16

/-- One-bit code of a `HType`. -/
def encHType : HType → BitVec 1
  | .f16 => 0 | .bf16 => 1

/-- One-bit code of `MxSrc`. -/
def decMxSrc (b : BitVec 1) : MxSrc := if b = 0 then .f32 else .bf16

/-- One-bit code of a `MxSrc`. -/
def encMxSrc : MxSrc → BitVec 1
  | .f32 => 0 | .bf16 => 1

/-- A bit as a truth value. -/
def bit1 (b : BitVec 1) : Bool := b = 1

/-- A truth value as a bit. -/
def ofBool1 (b : Bool) : BitVec 1 := if b then 1 else 0

/-- Format G with two targets (R319): the fields other than `XOP`. -/
def decG (w : W32) : Except DecodeError G :=
  match decPred (fld w 23 2), decTarget (fld w 8 8), decTarget (fld w 0 8) with
  | .ok p, .ok t1, .ok t0 => .ok ⟨p, t1, t0⟩
  | .error e, _, _ => .error e
  | _, .error e, _ => .error e
  | _, _, .error e => .error e

/-- Format G whose targets must both be 0xff: the predicate alone. -/
def decP (w : W32) : Except DecodeError Pred :=
  if fld w 0 16 = 0xffff then decPred (fld w 23 2) else .error .target

/-- Apply a constructor to a decoded part. -/
def lift {α β : Type} (f : α → β) : Except DecodeError α → Except DecodeError β
  | .ok a => .ok (f a)
  | .error e => .error e

/-- Apply a two-argument constructor to two decoded parts. -/
def lift2 {α β γ : Type} (f : α → β → γ) : Except DecodeError α → Except DecodeError β → Except DecodeError γ
  | .ok a, .ok b => .ok (f a b)
  | .error e, _ => .error e
  | _, .error e => .error e

/-- Apply a three-argument constructor to three decoded parts. -/
def lift3 {α β γ δ : Type} (f : α → β → γ → δ) :
    Except DecodeError α → Except DecodeError β → Except DecodeError γ → Except DecodeError δ
  | .ok a, .ok b, .ok c => .ok (f a b c)
  | .error e, _, _ => .error e
  | _, .error e, _ => .error e
  | _, _, .error e => .error e

/-- Refuse unless a condition holds. -/
def guardE {α : Type} (c : Bool) (e : DecodeError) (x : Except DecodeError α) : Except DecodeError α :=
  if c then x else .error e

/-- A read word (format R). -/
def decR (w : W32) : Except DecodeError RWord :=
  lift2 (RWord.mk (fld w 17 8) (bit1 (fld w 16 1))) (decTarget (fld w 8 8)) (decTarget (fld w 0 8))

/-- A write word (format W). -/
def decW (w : W32) : Except DecodeError WWord :=
  guardE (fld w 0 16 = 0) .reserved (.ok ⟨fld w 17 8, bit1 (fld w 16 1)⟩)

/-- A load (format M). -/
def decM (w : W32) : Except DecodeError M :=
  lift3 (fun p wd t => M.mk p (fld w 19 4) wd (fld w 8 8) t)
    (decPred (fld w 23 2)) (decWidth (fld w 16 3)) (decTarget (fld w 0 8))

/-- A scoped load or store. -/
def decMS (w : W32) : Except DecodeError MS :=
  guardE (fld w 11 5 = 0) .reserved
    (match decScope (fld w 8 3) with
     | .ok sc => lift3 (fun p wd t => MS.mk p (fld w 19 4) wd sc t)
        (decPred (fld w 23 2)) (decWidth (fld w 16 3)) (decTarget (fld w 0 8))
     | .error e => .error e)

/-- The scope, order and operation of a format A word. -/
def decA (w : W32) : Except DecodeError A :=
  match decScope (fld w 15 3), decOrder (fld w 13 2) with
  | .ok sc, .ok od => lift3 (fun p op t => A.mk p (fld w 19 4) (bit1 (fld w 18 1)) sc od op t)
      (decPred (fld w 23 2)) (decAOp (fld w 8 5)) (decTarget (fld w 0 8))
  | .error e, _ => .error e
  | _, .error e => .error e

/-- Major 0x0a (R348). -/
def decHint (w : W32) : Except DecodeError Instr :=
  if fld w 22 3 = 0 then guardE (fld w 2 20 = 0) .reserved (.ok (.hintPrio (fld w 0 2)))
  else if fld w 22 3 = 1 then guardE (fld w 12 10 = 0) .reserved (.ok (.hintYield (fld w 0 12)))
  else if fld w 22 3 = 2 then guardE (fld w 16 6 = 0) .reserved (.ok (.hintLat (fld w 0 16)))
  else .error .code

/-- A rejoin register in `T1` with `T0` none (Table 12.9). -/
def decRj (f : Pred → BitVec 4 → Instr) (w : W32) : Except DecodeError Instr :=
  guardE (fld w 0 8 = 0xff && fld w 12 4 = 0) .reserved (lift (fun p => f p (fld w 8 4)) (decPred (fld w 23 2)))

/-- Major 0x0f (Table 12.9): `XOP`[6:4] the mnemonic, `XOP`[3:0] zero. -/
def decMajor0f (w : W32) : Except DecodeError Instr :=
  guardE (fld w 16 4 = 0) .reserved
    (if fld w 20 3 = 0 then lift .fan (decG w)
     else if fld w 20 3 = 1 then lift .null (decG w)
     else if fld w 20 3 = 2 then lift .brx (decP w)
     else if fld w 20 3 = 3 then lift .ret (decP w)
     else if fld w 20 3 = 4 then lift .exit (decP w)
     else if fld w 20 3 = 5 then
       guardE (fld w 0 8 = 0xff) .target (lift (fun p => .trap p (fld w 8 8)) (decPred (fld w 23 2)))
     else if fld w 20 3 = 6 then decRj .rjenrol w
     else decRj .rjstrike w)

/-- Major 0x10 (Table 13.7). -/
def decMajor10 (w : W32) : Except DecodeError Instr :=
  if fld w 18 5 = 0 then lift2 .add (decG w) (decIType (fld w 16 2))
  else if fld w 18 5 = 1 then lift2 .sub (decG w) (decIType (fld w 16 2))
  else if fld w 18 5 = 2 then lift2 .mul (decG w) (decIType (fld w 16 2))
  else if fld w 18 5 = 3 then lift2 .mulhi (decG w) (decIType (fld w 16 2))
  else if fld w 18 5 = 4 then lift2 .mad (decG w) (decIType (fld w 16 2))
  else if fld w 18 5 = 5 then lift2 .div (decG w) (decIType (fld w 16 2))
  else if fld w 18 5 = 6 then lift2 .rem (decG w) (decIType (fld w 16 2))
  else if fld w 18 5 = 7 then lift2 .neg (decG w) (decIType (fld w 16 2))
  else if fld w 18 5 = 8 then guardE (fld w 16 1 = 0) .code (lift (fun g => .abs g (decSType (fld w 17 1))) (decG w))
  else if fld w 18 5 = 9 then lift2 .min (decG w) (decIType (fld w 16 2))
  else if fld w 18 5 = 10 then lift2 .max (decG w) (decIType (fld w 16 2))
  else if fld w 18 5 = 11 then lift2 .lea (decG w) (decIType (fld w 16 2))
  else .error .code

/-- Major 0x11 (Table 13.9). -/
def decMajor11 (w : W32) : Except DecodeError Instr :=
  if fld w 18 5 = 0 then guardE (fld w 16 1 = 1) .code (lift (fun g => .and g (decZType (fld w 17 1))) (decG w))
  else if fld w 18 5 = 1 then guardE (fld w 16 1 = 1) .code (lift (fun g => .or g (decZType (fld w 17 1))) (decG w))
  else if fld w 18 5 = 2 then guardE (fld w 16 1 = 1) .code (lift (fun g => .xor g (decZType (fld w 17 1))) (decG w))
  else if fld w 18 5 = 3 then guardE (fld w 16 1 = 1) .code (lift (fun g => .andn g (decZType (fld w 17 1))) (decG w))
  else if fld w 18 5 = 4 then guardE (fld w 16 1 = 1) .code (lift (fun g => .not g (decZType (fld w 17 1))) (decG w))
  else if fld w 18 5 = 5 then guardE (fld w 16 1 = 1) .code (lift (fun g => .shl g (decZType (fld w 17 1))) (decG w))
  else if fld w 18 5 = 6 then guardE (fld w 16 1 = 1) .code (lift (fun g => .shr g (decZType (fld w 17 1))) (decG w))
  else if fld w 18 5 = 7 then guardE (fld w 16 1 = 1) .code (lift (fun g => .sar g (decZType (fld w 17 1))) (decG w))
  else if fld w 18 5 = 8 then guardE (fld w 16 1 = 1) .code (lift (fun g => .rotl g (decZType (fld w 17 1))) (decG w))
  else if fld w 18 5 = 9 then guardE (fld w 16 1 = 1) .code (lift (fun g => .clz g (decZType (fld w 17 1))) (decG w))
  else if fld w 18 5 = 10 then guardE (fld w 16 1 = 1) .code (lift (fun g => .ctz g (decZType (fld w 17 1))) (decG w))
  else if fld w 18 5 = 11 then guardE (fld w 16 1 = 1) .code (lift (fun g => .popc g (decZType (fld w 17 1))) (decG w))
  else if fld w 18 5 = 12 then guardE (fld w 16 1 = 1) .code (lift (fun g => .brev g (decZType (fld w 17 1))) (decG w))
  else if fld w 18 5 = 13 then lift2 .bfx (decG w) (decIType (fld w 16 2))
  else if fld w 18 5 = 14 then guardE (fld w 16 1 = 1) .code (lift (fun g => .bfi g (decZType (fld w 17 1))) (decG w))
  else if fld w 18 5 = 15 then guardE (fld w 16 1 = 1) .code (lift (fun g => .sel g (decZType (fld w 17 1))) (decG w))
  else .error .code

/-- Major 0x28 (Table 14.2). -/
def decMajor28 (w : W32) : Except DecodeError Instr :=
  if fld w 18 5 = 0 then lift2 .fadd (decG w) (decFType (fld w 16 2))
  else if fld w 18 5 = 1 then lift2 .fsub (decG w) (decFType (fld w 16 2))
  else if fld w 18 5 = 2 then lift2 .fmul (decG w) (decFType (fld w 16 2))
  else if fld w 18 5 = 3 then lift2 .ffma (decG w) (decFType (fld w 16 2))
  else if fld w 18 5 = 4 then lift2 .fmin (decG w) (decFType (fld w 16 2))
  else if fld w 18 5 = 5 then lift2 .fmax (decG w) (decFType (fld w 16 2))
  else if fld w 18 5 = 6 then guardE (fld w 17 1 = 0) .code (lift (fun g => .fdiv g (decFType2 (fld w 16 1))) (decG w))
  else if fld w 18 5 = 7 then guardE (fld w 17 1 = 0) .code (lift (fun g => .fsqrt g (decFType2 (fld w 16 1))) (decG w))
  else if fld w 18 5 = 8 then lift2 .fscale (decG w) (decFType (fld w 16 2))
  else if fld w 18 5 = 9 then lift2 .fclass (decG w) (decFType (fld w 16 2))
  else .error .code

/-- Major 0x13 (R364). -/
def decMajor13 (w : W32) : Except DecodeError Instr :=
  guardE (fld w 16 4 = 0) .reserved
    (if fld w 20 3 = 0 then lift .pand (decG w)
     else if fld w 20 3 = 1 then lift .por (decG w)
     else if fld w 20 3 = 2 then lift .pxor (decG w)
     else if fld w 20 3 = 3 then lift .pnot (decG w)
     else .error .code)

/-- Major 0x14 (R365, R366). -/
def decMajor14 (w : W32) : Except DecodeError Instr :=
  guardE (fld w 16 4 = 0) .reserved
    (if fld w 20 3 = 0 then lift .isect (decG w)
     else if fld w 20 3 = 1 then lift .isectX (decG w)
     else .error .code)

/-- Major 0x2a (Table 14.4). -/
def decMajor2a (w : W32) : Except DecodeError Instr :=
  guardE (fld w 16 4 = 0) .reserved
    (if fld w 20 3 = 0 then lift .frcp (decG w)
     else if fld w 20 3 = 1 then lift .frsq (decG w)
     else if fld w 20 3 = 2 then lift .fexp2 (decG w)
     else if fld w 20 3 = 3 then lift .flog2 (decG w)
     else if fld w 20 3 = 4 then lift .fsin (decG w)
     else if fld w 20 3 = 5 then lift .fcos (decG w)
     else if fld w 20 3 = 6 then lift .ftanh (decG w)
     else if fld w 20 3 = 7 then lift .expsub (decG w)
     else .error .code)

/-- Major 0x6a (Table 16.1). -/
def decMajor6a (w : W32) : Except DecodeError Instr :=
  guardE (fld w 16 4 = 0) .reserved
    (if fld w 20 3 = 0 then lift .barReg (decP w)
     else if fld w 20 3 = 1 then lift .barDrop (decP w)
     else if fld w 20 3 = 2 then lift .barExpect (decP w)
     else .error .code)

/-- Major 0x44 (R386). -/
def decMajor44 (w : W32) : Except DecodeError Instr :=
  if fld w 20 3 = 0 then guardE (fld w 17 3 = 0) .reserved (lift (fun g => .matchLanes g (bit1 (fld w 16 1))) (decG w))
  else guardE (fld w 16 4 = 0) .reserved
    (if fld w 20 3 = 1 then lift .elect (decG w) else if fld w 20 3 = 2 then lift .actmask (decG w) else .error .code)

/-- Major 0x52 (R322, R398, R399). -/
def decFence (w : W32) : Except DecodeError Instr :=
  guardE (fld w 14 5 = 0) .reserved (guardE (fld w 0 8 = 0xff) .target
    (if fld w 11 3 = 4 then
       guardE (fld w 8 3 = 4) .combination (lift (fun p => .fenceRep p (fld w 19 4)) (decPred (fld w 23 2)))
     else lift3 (fun p k sc => .fence p (fld w 19 4) k sc)
       (decPred (fld w 23 2)) (decFenceKind (fld w 11 3)) (decScope (fld w 8 3))))

/-- Major 0x57 (R401, R402). -/
def decMajor57 (w : W32) : Except DecodeError Instr :=
  guardE (fld w 16 4 = 0) .reserved (guardE (fld w 8 8 = 0xff) .target
    (if fld w 20 3 = 0 then lift2 .stmap (decPred (fld w 23 2)) (decTarget (fld w 0 8))
     else if fld w 20 3 = 1 then lift2 .stunmap (decPred (fld w 23 2)) (decTarget (fld w 0 8))
     else if fld w 20 3 = 2 then lift2 .stflush (decPred (fld w 23 2)) (decTarget (fld w 0 8))
     else .error .code))

/-- Majors 0x60 to 0x67 (Table 17.1). -/
def decMatrix (n : BitVec 3) (w : W32) : Except DecodeError Instr :=
  if n = 0 then guardE (fld w 18 1 = 0) .reserved
    (lift (fun p => .mma p (fld w 20 3) (bit1 (fld w 19 1)) (fld w 16 2)) (decP w))
  else if n = 1 then guardE (fld w 18 1 = 0) .reserved
    (lift (fun p => .mmas p (fld w 20 3) (bit1 (fld w 19 1)) (fld w 16 2)) (decP w))
  else if n = 2 then guardE (fld w 16 4 = 0) .reserved (lift (fun p => .mzero p (fld w 20 3)) (decP w))
  else if n = 3 then guardE (bit1 (fld w 19 1) || fld w 16 2 = 0) .reserved
    (lift (fun p => .mdrain p (fld w 20 3) (bit1 (fld w 19 1)) (bit1 (fld w 18 1)) (fld w 16 2)) (decP w))
  else if n = 4 then guardE (fld w 17 3 = 0) .reserved
    (lift (fun p => .mpeer p (fld w 20 3) (bit1 (fld w 16 1))) (decP w))
  else if n = 5 then guardE (fld w 18 5 = 0) .reserved (lift (fun p => .mprune p (fld w 16 2)) (decP w))
  else if n = 6 then guardE (fld w 16 3 = 0) .reserved
    (if fld w 19 1 = 0 then lift (fun p => .mwait p (fld w 20 3)) (decP w)
     else guardE (fld w 20 3 = 0) .reserved (lift .mwaitAll (decP w)))
  else guardE (fld w 16 7 = 0) .reserved (lift .tokpass (decP w))

/-- Major 0x76 (pier only, Table 16.1). -/
def decMajor76 (w : W32) : Except DecodeError Instr :=
  if fld w 20 3 = 0 then guardE (fld w 16 4 = 0) .reserved (lift .nmret (decP w))
  else if fld w 20 3 = 1 then lift2 .nbop (decG w) (decNbOp (fld w 16 4))
  else if fld w 20 3 = 2 then guardE (fld w 17 3 = 0) .reserved (lift (fun g => .nbmode g (bit1 (fld w 16 1))) (decG w))
  else if fld w 20 3 = 3 then guardE (fld w 16 4 = 0) .reserved (lift .gradq (decP w))
  else .error .code

/-- Majors 0x01 to 0x0f (block and control). -/
def decBlock (n : BitVec 4) (w : W32) : Except DecodeError Instr :=
  if n = 1 then guardE (fld w 3 4 = 0) .reserved
    (.ok (.blk (fld w 20 5) (fld w 16 4) (fld w 12 4) (fld w 8 4) (bit1 (fld w 7 1)) (fld w 1 2) (bit1 (fld w 0 1))))
  else if n = 2 then lift .rdV (decR w)
  else if n = 3 then lift .rdS (decR w)
  else if n = 4 then lift .rdP (decR w)
  else if n = 5 then lift .rdX (decR w)
  else if n = 6 then lift .wrV (decW w)
  else if n = 7 then lift .wrS (decW w)
  else if n = 8 then lift .wrP (decW w)
  else if n = 9 then .ok (.ext (fld w 0 25))
  else if n = 10 then decHint w
  else if n = 11 then lift2 (fun p t => .movi p (fld w 8 15) t) (decPred (fld w 23 2)) (decTarget (fld w 0 8))
  else if n = 12 then lift (fun p => .br p (fld w 0 23)) (decPred (fld w 23 2))
  else if n = 13 then lift (fun p => .call p (fld w 0 23)) (decPred (fld w 23 2))
  else if n = 14 then lift (fun p => .rjwait p (fld w 19 4) (fld w 0 19)) (decPred (fld w 23 2))
  else if n = 15 then decMajor0f w
  else .error .major

/-- Majors 0x10 to 0x14 (integer). -/
def decInteger (n : BitVec 4) (w : W32) : Except DecodeError Instr :=
  if n = 0 then decMajor10 w
  else if n = 1 then decMajor11 w
  else if n = 2 then lift3 .setp (decG w) (decCond (fld w 18 5)) (decIType (fld w 16 2))
  else if n = 3 then decMajor13 w
  else if n = 4 then decMajor14 w
  else .error .major

/-- Majors 0x28 to 0x2e (floating point and conversion). -/
def decFloat (n : BitVec 3) (w : W32) : Except DecodeError Instr :=
  if n = 0 then decMajor28 w
  else if n = 1 then lift3 .fsetp (decG w) (decFCond (fld w 18 5)) (decFType (fld w 16 2))
  else if n = 2 then decMajor2a w
  else if n = 3 then guardE (fld w 17 6 = 0) .reserved (lift (fun g => .fdot2 g (decHType (fld w 16 1))) (decG w))
  else if n = 4 then lift3 .cvt (decG w) (decFmt (fld w 19 4)) (decFmt (0#1 ++ fld w 16 3))
  else if n = 5 then lift3 .cvtSourceHigh (decG w) (decFmt (fld w 19 4)) (decFmt (1#1 ++ fld w 16 3))
  else if n = 6 then guardE (fld w 20 3 = 0) .reserved
    (lift2 (fun g e => .cvtmx g (decMxSrc (fld w 19 1)) e) (decG w) (decMxElem (fld w 16 3)))
  else .error .major

/-- Majors 0x40 to 0x44 (cross-lane). -/
def decLane (n : BitVec 3) (w : W32) : Except DecodeError Instr :=
  if n = 0 then guardE (fld w 19 4 = 0) .reserved
    (lift2 (fun g m => .shfl g (bit1 (fld w 18 1)) m) (decG w) (decShflMode (fld w 16 2)))
  else if n = 1 then guardE (fld w 16 4 = 0) .reserved (lift2 .vote (decG w) (decVoteOp (fld w 20 3)))
  else if n = 2 then lift3 .redux (decG w) (decReduxOp (fld w 18 5)) (decIType (fld w 16 2))
  else if n = 3 then lift3 .scan (decG w) (decReduxOp (fld w 18 5)) (decIType (fld w 16 2))
  else if n = 4 then decMajor44 w
  else .error .major

/-- Majors 0x48 to 0x4f (loads and stores, `atom`). -/
def decMem (n : BitVec 3) (w : W32) : Except DecodeError Instr :=
  if n = 0 then lift .ld (decM w)
  else if n = 1 then lift .st (decM w)
  else if n = 2 then lift .ldb (decM w)
  else if n = 3 then lift .ldacq (decMS w)
  else if n = 4 then lift .strel (decMS w)
  else if n = 5 then lift .stMc (decM w)
  else if n = 6 then guardE (fld w 17 2 = 0) .code (guardE (fld w 0 8 = 0xff) .target
    (lift (fun p => .pref p (fld w 19 4) (bit1 (fld w 16 1)) (fld w 8 8)) (decPred (fld w 23 2))))
  else lift .atom (decA w)

/-- Majors 0x50 to 0x53 and 0x57. -/
def decMem2 (n : BitVec 3) (w : W32) : Except DecodeError Instr :=
  if n = 0 then guardE (fld w 0 8 = 0xff) .target (guardE (fld w 13 1 = 0) .combination
    (lift3 (fun p sc op => .red p (fld w 19 4) (bit1 (fld w 18 1)) sc (if fld w 14 1 = 0 then .none else .rel) op)
      (decPred (fld w 23 2)) (decScope (fld w 15 3)) (decAOp (fld w 8 5))))
  else if n = 1 then guardE (fld w 8 5 = 0) .code
    (match decScope (fld w 15 3) with
     | .ok sc => lift3 (fun p od t => .cas p (fld w 19 4) (bit1 (fld w 18 1)) sc od t)
        (decPred (fld w 23 2)) (decOrder (fld w 13 2)) (decTarget (fld w 0 8))
     | .error e => .error e)
  else if n = 2 then decFence w
  else if n = 3 then guardE (fld w 16 3 = 0) .code (guardE (fld w 0 8 = 0xff) .target
    (lift (fun p => .inval p (fld w 19 4) (fld w 8 8)) (decPred (fld w 23 2))))
  else if n = 7 then decMajor57 w
  else .error .major

/-- Majors 0x58 to 0x5c. -/
def decCopy (n : BitVec 3) (w : W32) : Except DecodeError Instr :=
  if n = 0 then guardE (fld w 16 7 = 0) .reserved (lift .cpy (decP w))
  else if n = 1 then guardE (fld w 16 7 = 0) .reserved (lift .cpyg (decG w))
  else if n = 2 then guardE (fld w 16 7 = 0) .reserved (lift .cpseal (decP w))
  else if n = 3 then guardE (fld w 16 7 = 0) .reserved (lift .cpwait (decP w))
  else if n = 4 then guardE (fld w 17 6 = 0) .reserved (lift (fun p => .kvapp p (decMxSrc (fld w 16 1))) (decP w))
  else .error .major

/-- Majors 0x68 to 0x6f (synchronisation). -/
def decSync (n : BitVec 3) (w : W32) : Except DecodeError Instr :=
  if n = 0 then guardE (fld w 16 1 = 0) .reserved
    (lift2 (fun p sc => .barArrive p sc (bit1 (fld w 19 1)) (bit1 (fld w 18 1)) (bit1 (fld w 17 1)))
      (decP w) (decScope (fld w 20 3)))
  else if n = 1 then guardE (fld w 16 3 = 0) .reserved
    (lift2 (fun g sc => .barWait g sc (bit1 (fld w 19 1))) (decG w) (decScope (fld w 20 3)))
  else if n = 2 then decMajor6a w
  else if n = 3 then guardE (fld w 16 7 = 0) .reserved (lift .plwait (decP w))
  else if n = 4 then guardE (fld w 16 7 = 0) .reserved (lift .yield (decP w))
  else if n = 5 then guardE (fld w 16 7 = 0) .reserved (lift .rwrite (decP w))
  else if n = 6 then guardE (fld w 18 5 = 0) .reserved (lift (fun p => .rwwait p (fld w 16 2)) (decP w))
  else guardE (fld w 16 7 = 0) .reserved (lift .sleep (decP w))

/-- Majors 0x70 to 0x76 (work, ballot, near memory). -/
def decWork (n : BitVec 3) (w : W32) : Except DecodeError Instr :=
  if n = 0 then guardE (fld w 18 5 = 0) .reserved (lift (fun g => .deq g (fld w 16 2)) (decG w))
  else if n = 1 then guardE (fld w 18 5 = 0) .reserved (lift (fun g => .enq g (fld w 16 2)) (decG w))
  else if n = 2 then guardE (fld w 17 6 = 0) .reserved (lift (fun p => .join p (bit1 (fld w 16 1))) (decP w))
  else if n = 3 then
    (if fld w 16 7 = 0 then lift .sbpost (decG w) else if fld w 16 7 = 1 then lift .sbpostFail (decG w)
     else if fld w 16 7 = 0x10 then lift .sbquery (decG w) else .error .code)
  else if n = 4 then guardE (fld w 18 5 = 0) .reserved (lift (fun p => .nmcall p (fld w 16 2)) (decP w))
  else if n = 5 then guardE (fld w 16 7 = 0) .reserved (lift .rred (decP w))
  else if n = 6 then decMajor76 w
  else .error .major

/-- Majors 0x78 to 0x7c (system). -/
def decSystem (n : BitVec 3) (w : W32) : Except DecodeError Instr :=
  if n = 0 then lift2 .sysrd (decG w) (decSysReg (fld w 16 7))
  else if n = 1 then guardE (fld w 16 7 = 5) .code (lift .syswr (decP w))
  else if n = 2 then guardE (fld w 16 7 = 0) .reserved (lift .eret (decP w))
  else if n = 3 then guardE (fld w 16 7 = 0) .reserved (lift .bkpt (decP w))
  else if n = 4 then guardE (fld w 16 7 = 0) .reserved (lift .haltDbg (decP w))
  else .error .major

/-- The fields of a word, before the limits of `Instr.wf` (Table 12.8). -/
def decodeFields (w : W32) : Except DecodeError Instr :=
  if fld w 29 3 = 0 then decBlock (fld w 25 4) w
  else if fld w 29 3 = 1 then decInteger (fld w 25 4) w
  else if fld w 28 4 = 5 then decFloat (fld w 25 3) w
  else if fld w 28 4 = 8 then decLane (fld w 25 3) w
  else if fld w 28 4 = 9 then decMem (fld w 25 3) w
  else if fld w 28 4 = 10 then decMem2 (fld w 25 3) w
  else if fld w 28 4 = 11 then decCopy (fld w 25 3) w
  else if fld w 28 4 = 12 then decMatrix (fld w 25 3) w
  else if fld w 28 4 = 13 then decSync (fld w 25 3) w
  else if fld w 28 4 = 14 then decWork (fld w 25 3) w
  else if fld w 28 4 = 15 then decSystem (fld w 25 3) w
  else .error .major

/-- The instruction a word stands for, or why it is illegal (R331). -/
def decode (w : W32) : Except DecodeError Instr :=
  match decodeFields w with
  | .ok i => if i.wf then .ok i else .error .combination
  | .error e => .error e

/-- The instruction the decoder reads from the bits `w` of a word of `nbits` bits, as spec/opcode_table.json numbers
them; every word is 32 bits (R315), the bits above `nbits` zero. -/
def decodeTableWord (nbits w : Nat) : Option Instr :=
  match decode (BitVec.ofNat 32 (w % 2 ^ nbits)) with
  | .ok i => some i
  | .error _ => none

/-- A target as its byte (Table 12.2). -/
def encTarget : Target → BitVec 8
  | .none => 0xff
  | .op .a i => 0#3 ++ i
  | .op .b i => 1#3 ++ i
  | .op .c i => 2#3 ++ i
  | .op .p i => 3#3 ++ i
  | .write n => 8#4 ++ n

/-- Predicate mode (R320). -/
def encPred : Pred → BitVec 2
  | .always => 0 | .onTrue => 1 | .onFalse => 2

/-- A format G word with two targets. -/
def encG (major : BitVec 7) (xop : BitVec 7) (g : G) : W32 :=
  major ++ encPred g.pred ++ xop ++ encTarget g.t1 ++ encTarget g.t0

/-- A format G word without targets. -/
def encP (major : BitVec 7) (xop : BitVec 7) (p : Pred) : W32 :=
  major ++ encPred p ++ xop ++ 0xffff#16

/-- A read word. -/
def encR (major : BitVec 7) (r : RWord) : W32 :=
  major ++ r.reg ++ ofBool1 r.pair ++ encTarget r.t1 ++ encTarget r.t0

/-- A write word. -/
def encW (major : BitVec 7) (r : WWord) : W32 :=
  major ++ r.reg ++ ofBool1 r.pair ++ 0#16

/-- A format M word. -/
def encM (major : BitVec 7) (m : M) : W32 :=
  major ++ encPred m.pred ++ m.lsid ++ encWidth m.width ++ m.off ++ encTarget m.t0

/-- A scoped word. -/
def encMS (major : BitVec 7) (m : MS) : W32 :=
  major ++ encPred m.pred ++ m.lsid ++ encWidth m.width ++ 0#5 ++ encScope m.scope ++ encTarget m.t0

/-- A format A word. -/
def encA (major : BitVec 7) (a : A) : W32 :=
  major ++ encPred a.pred ++ a.lsid ++ ofBool1 a.wide ++ encScope a.scope ++ encOrder a.order ++ encAOp a.op
    ++ encTarget a.t0

/-- The word of a well-formed instruction (R319; Tables 13.1 to 17.1). An event has no word: 0, which is illegal. -/
def encode : Instr → W32
  | .blk cnt nrd nwr lsid iso xcnt ls =>
      0x01#7 ++ cnt ++ nrd ++ nwr ++ lsid ++ ofBool1 iso ++ 0#4 ++ xcnt ++ ofBool1 ls
  | .rdV r => encR 0x02 r
  | .rdS r => encR 0x03 r
  | .rdP r => encR 0x04 r
  | .rdX r => encR 0x05 r
  | .wrV w => encW 0x06 w
  | .wrS w => encW 0x07 w
  | .wrP w => encW 0x08 w
  | .ext d => 0x09#7 ++ d
  | .hintPrio n => 0x0a#7 ++ 0#3 ++ 0#20 ++ n
  | .hintYield n => 0x0a#7 ++ 1#3 ++ 0#10 ++ n
  | .hintLat n => 0x0a#7 ++ 2#3 ++ 0#6 ++ n
  | .movi p imm t => 0x0b#7 ++ encPred p ++ imm ++ encTarget t
  | .br p o => 0x0c#7 ++ encPred p ++ o
  | .call p o => 0x0d#7 ++ encPred p ++ o
  | .rjwait p j o => 0x0e#7 ++ encPred p ++ j ++ o
  | .fan g => encG 0x0f 0x00 g
  | .null g => encG 0x0f 0x10 g
  | .brx p => encP 0x0f 0x20 p
  | .ret p => encP 0x0f 0x30 p
  | .exit p => encP 0x0f 0x40 p
  | .trap p n => 0x0f#7 ++ encPred p ++ 0x50#7 ++ n ++ 0xff#8
  | .rjenrol p j => 0x0f#7 ++ encPred p ++ 0x60#7 ++ 0#4 ++ j ++ 0xff#8
  | .rjstrike p j => 0x0f#7 ++ encPred p ++ 0x70#7 ++ 0#4 ++ j ++ 0xff#8
  | .add g t => encG 0x10 (0#5 ++ (encIType t)) g
  | .sub g t => encG 0x10 (1#5 ++ (encIType t)) g
  | .mul g t => encG 0x10 (2#5 ++ (encIType t)) g
  | .mulhi g t => encG 0x10 (3#5 ++ (encIType t)) g
  | .mad g t => encG 0x10 (4#5 ++ (encIType t)) g
  | .div g t => encG 0x10 (5#5 ++ (encIType t)) g
  | .rem g t => encG 0x10 (6#5 ++ (encIType t)) g
  | .neg g t => encG 0x10 (7#5 ++ (encIType t)) g
  | .abs g t => encG 0x10 (8#5 ++ (encSType t ++ 0#1)) g
  | .min g t => encG 0x10 (9#5 ++ (encIType t)) g
  | .max g t => encG 0x10 (10#5 ++ (encIType t)) g
  | .lea g t => encG 0x10 (11#5 ++ (encIType t)) g
  | .and g t => encG 0x11 (0#5 ++ (encZType t ++ 1#1)) g
  | .or g t => encG 0x11 (1#5 ++ (encZType t ++ 1#1)) g
  | .xor g t => encG 0x11 (2#5 ++ (encZType t ++ 1#1)) g
  | .andn g t => encG 0x11 (3#5 ++ (encZType t ++ 1#1)) g
  | .not g t => encG 0x11 (4#5 ++ (encZType t ++ 1#1)) g
  | .shl g t => encG 0x11 (5#5 ++ (encZType t ++ 1#1)) g
  | .shr g t => encG 0x11 (6#5 ++ (encZType t ++ 1#1)) g
  | .sar g t => encG 0x11 (7#5 ++ (encZType t ++ 1#1)) g
  | .rotl g t => encG 0x11 (8#5 ++ (encZType t ++ 1#1)) g
  | .clz g t => encG 0x11 (9#5 ++ (encZType t ++ 1#1)) g
  | .ctz g t => encG 0x11 (10#5 ++ (encZType t ++ 1#1)) g
  | .popc g t => encG 0x11 (11#5 ++ (encZType t ++ 1#1)) g
  | .brev g t => encG 0x11 (12#5 ++ (encZType t ++ 1#1)) g
  | .bfx g t => encG 0x11 (13#5 ++ (encIType t)) g
  | .bfi g t => encG 0x11 (14#5 ++ (encZType t ++ 1#1)) g
  | .sel g t => encG 0x11 (15#5 ++ (encZType t ++ 1#1)) g
  | .setp g c t => encG 0x12 (encCond c ++ encIType t) g
  | .pand g => encG 0x13 0x0 g
  | .por g => encG 0x13 0x10 g
  | .pxor g => encG 0x13 0x20 g
  | .pnot g => encG 0x13 0x30 g
  | .isect g => encG 0x14 0x00 g
  | .isectX g => encG 0x14 0x10 g
  | .fadd g t => encG 0x28 (0#5 ++ (encFType t)) g
  | .fsub g t => encG 0x28 (1#5 ++ (encFType t)) g
  | .fmul g t => encG 0x28 (2#5 ++ (encFType t)) g
  | .ffma g t => encG 0x28 (3#5 ++ (encFType t)) g
  | .fmin g t => encG 0x28 (4#5 ++ (encFType t)) g
  | .fmax g t => encG 0x28 (5#5 ++ (encFType t)) g
  | .fdiv g t => encG 0x28 (6#5 ++ (0#1 ++ encFType2 t)) g
  | .fsqrt g t => encG 0x28 (7#5 ++ (0#1 ++ encFType2 t)) g
  | .fscale g t => encG 0x28 (8#5 ++ (encFType t)) g
  | .fclass g t => encG 0x28 (9#5 ++ (encFType t)) g
  | .fsetp g c t => encG 0x29 (encFCond c ++ encFType t) g
  | .frcp g => encG 0x2a 0x0 g
  | .frsq g => encG 0x2a 0x10 g
  | .fexp2 g => encG 0x2a 0x20 g
  | .flog2 g => encG 0x2a 0x30 g
  | .fsin g => encG 0x2a 0x40 g
  | .fcos g => encG 0x2a 0x50 g
  | .ftanh g => encG 0x2a 0x60 g
  | .expsub g => encG 0x2a 0x70 g
  | .fdot2 g t => encG 0x2b (0#6 ++ encHType t) g
  | .cvt g d s => encG 0x2c (encFmt d ++ (encFmt s).extractLsb' 0 3) g
  | .cvtSourceHigh g d s => encG 0x2d (encFmt d ++ (encFmt s).extractLsb' 0 3) g
  | .cvtmx g s e => encG 0x2e (0#3 ++ encMxSrc s ++ encMxElem e) g
  | .shfl g wide m => encG 0x40 (0#4 ++ ofBool1 wide ++ encShflMode m) g
  | .vote g op => encG 0x41 (encVoteOp op ++ 0#4) g
  | .redux g op t => encG 0x42 (encReduxOp op ++ encIType t) g
  | .scan g op t => encG 0x43 (encReduxOp op ++ encIType t) g
  | .matchLanes g wide => encG 0x44 (0#6 ++ ofBool1 wide) g
  | .elect g => encG 0x44 0x10 g
  | .actmask g => encG 0x44 0x20 g
  | .ld m => encM 0x48 m
  | .st m => encM 0x49 m
  | .ldb m => encM 0x4a m
  | .ldacq m => encMS 0x4b m
  | .strel m => encMS 0x4c m
  | .stMc m => encM 0x4d m
  | .pref p l l1 off => 0x4e#7 ++ encPred p ++ l ++ 0#2 ++ ofBool1 l1 ++ off ++ 0xff#8
  | .atom a => encA 0x4f a
  | .red p l wide sc od op => 0x50#7 ++ encPred p ++ l ++ ofBool1 wide ++ encScope sc
      ++ (match od with | .none => 0#1 | .rel => 1#1) ++ 0#1 ++ encAOp op ++ 0xff#8
  | .cas p l wide sc od t => 0x51#7 ++ encPred p ++ l ++ ofBool1 wide ++ encScope sc ++ encOrder od ++ 0#5 ++ encTarget t
  | .fence p l k sc => 0x52#7 ++ encPred p ++ l ++ 0#5 ++ encFenceKind k ++ encScope sc ++ 0xff#8
  | .fenceRep p l => 0x52#7 ++ encPred p ++ l ++ 0#5 ++ 4#3 ++ 4#3 ++ 0xff#8
  | .inval p l off => 0x53#7 ++ encPred p ++ l ++ 0#3 ++ off ++ 0xff#8
  | .stmap p t => 0x57#7 ++ encPred p ++ 0x00#7 ++ 0xff#8 ++ encTarget t
  | .stunmap p t => 0x57#7 ++ encPred p ++ 0x10#7 ++ 0xff#8 ++ encTarget t
  | .stflush p t => 0x57#7 ++ encPred p ++ 0x20#7 ++ 0xff#8 ++ encTarget t
  | .cpy p => encP 0x58 0 p
  | .cpyg g => encG 0x59 0 g
  | .cpseal p => encP 0x5a 0 p
  | .cpwait p => encP 0x5b 0 p
  | .kvapp p s => encP 0x5c (0#6 ++ encMxSrc s) p
  | .mma p t acc g => encP 0x60 (t ++ ofBool1 acc ++ 0#1 ++ g) p
  | .mmas p t acc g => encP 0x61 (t ++ ofBool1 acc ++ 0#1 ++ g) p
  | .mzero p t => encP 0x62 (t ++ 0#4) p
  | .mdrain p t ep f g => encP 0x63 (t ++ ofBool1 ep ++ ofBool1 f ++ g) p
  | .mpeer p t s => encP 0x64 (t ++ 0#3 ++ ofBool1 s) p
  | .mprune p g => encP 0x65 (0#5 ++ g) p
  | .mwait p t => encP 0x66 (t ++ 0#4) p
  | .mwaitAll p => encP 0x66 0x08 p
  | .tokpass p => encP 0x67 0 p
  | .barArrive p sc rel bytes so => encP 0x68 (encScope sc ++ ofBool1 rel ++ ofBool1 bytes ++ ofBool1 so ++ 0#1) p
  | .barWait g sc par => encG 0x69 (encScope sc ++ ofBool1 par ++ 0#3) g
  | .barReg p => encP 0x6a 0x00 p
  | .barDrop p => encP 0x6a 0x10 p
  | .barExpect p => encP 0x6a 0x20 p
  | .plwait p => encP 0x6b 0 p
  | .yield p => encP 0x6c 0 p
  | .rwrite p => encP 0x6d 0 p
  | .rwwait p k => encP 0x6e (0#5 ++ k) p
  | .sleep p => encP 0x6f 0 p
  | .deq g n => encG 0x70 (0#5 ++ n) g
  | .enq g n => encG 0x71 (0#5 ++ n) g
  | .join p c => encP 0x72 (0#6 ++ ofBool1 c) p
  | .sbpost g => encG 0x73 0x00 g
  | .sbpostFail g => encG 0x73 0x01 g
  | .sbquery g => encG 0x73 0x10 g
  | .nmcall p n => encP 0x74 (0#5 ++ n) p
  | .rred p => encP 0x75 0 p
  | .nmret p => encP 0x76 0 p
  | .nbop g op => encG 0x76 (1#3 ++ encNbOp op) g
  | .nbmode g c => encG 0x76 (2#3 ++ 0#3 ++ ofBool1 c) g
  | .gradq p => encP 0x76 0x30 p
  | .sysrd g r => encG 0x78 (encSysReg r) g
  | .syswr p => encP 0x79 0x05 p
  | .eret p => encP 0x7a 0 p
  | .bkpt p => encP 0x7b 0 p
  | .haltDbg p => encP 0x7c 0 p
  | _ => 0

end Sys2Proof
end

