-- ==== Sys2Proof/Machine/State.lean ====
section
/-!
DEFINITION. The state of one Zhevlegus module as plain data, the reasons a step can stop, and the state at power-good.
Every structure's docstring names the rules of spec/ that give it. Sparse tables hold no entry equal to their default.
-/
namespace Sys2Proof.Machine

/-- Reasons a run stops. -/
inductive Fault where
  /-- Raised by the meaning of an instruction word when no block is in flight: a stuck state. Safe: the step never runs
  a word without a block. -/
  | noBlock
  deriving DecidableEq, Repr

/-- Reasons an instruction has no meaning. -/
inductive Refusal where
  /-- Raised by an arm of `exec` whose instruction has no meaning yet. Safe. -/
  | notModelled (mnemonic : String)
  /-- Raised by `step` when the next word of a block in flight is not a legal word. Safe: a fetched block has been
  checked (R145), so the step reaches it in no state that a fetch has built. -/
  | illegalWord
  deriving DecidableEq, Repr

/-- Fault causes (Table 7.2). -/
inductive Cause where
  /-- 0x01 -/
  | illegal : Cause
  /-- 0x02 -/
  | malformed : Cause
  /-- 0x03 -/
  | register : Cause
  /-- 0x04 -/
  | address : Cause
  /-- 0x05 -/
  | pageTable : Cause
  /-- 0x06 -/
  | protection : Cause
  /-- 0x07 -/
  | pageFault : Cause
  /-- 0x08 -/
  | window : Cause
  /-- 0x09 -/
  | windowCrossing : Cause
  /-- 0x0a -/
  | alignment : Cause
  /-- 0x0b -/
  | poison : Cause
  /-- 0x0c -/
  | hostTimeout : Cause
  /-- 0x0d -/
  | remotePoison : Cause
  /-- 0x0e -/
  | remoteWriteLost : Cause
  /-- 0x0f -/
  | queue : Cause
  /-- 0x10 -/
  | remote : Cause
  /-- 0x11 -/
  | sparsityHeader : Cause
  /-- 0x12 -/
  | barrier : Cause
  /-- 0x13 -/
  | determinism : Cause
  /-- 0x14 -/
  | bounds : Cause
  /-- 0x15 -/
  | breakpoint : Cause
  /-- 0x16 -/
  | epiloguePending : Cause
  /-- 0x17 -/
  | nested : Cause
  /-- 0x18 -/
  | softwareTrap : Cause
  /-- 0x19 -/
  | saveFault : Cause
  /-- 0x1a -/
  | undoOverflow : Cause
  /-- 0x1b -/
  | uncorrectable : Cause
  deriving DecidableEq, Repr

/-- Attributes of a translated page (Table 4.15). -/
structure PageAttr where
  w : Bool
  x : Bool
  exact : Bool
  memside : Bool
  kv : Bool
  pin : Bool
  repl : Bool
  deriving DecidableEq, Repr

/-- Where one byte of an access lies (R200 to R204, R217, R237, R260). -/
inductive Place where
  /-- A byte of the device's HBM, by physical address. -/
  | hbm (phys : Nat) (attr : PageAttr)
  /-- A byte of a unified store: main core or pier core, and storage offset. -/
  | store (core offset : Nat)
  /-- A byte of the register region of a warp of the same core: slot and offset (Table 6.6). -/
  | regWin (slot offset : Nat)
  /-- A byte of a host page, by port and host address (R34). -/
  | host (port : Bool) (address : Nat)
  deriving DecidableEq, Repr

/-- One fault of a block: the slot it is met at, and what the record holds (R169, R170). `park` marks an absent page,
which parks the warp in place of being reported (R103). -/
structure FaultInfo where
  cause : Cause
  slot : Nat
  lanes : Mask
  address : W64
  lsid : Nat
  detail : W64
  epilogue : Bool
  park : Option Nat
  deriving DecidableEq, Repr

/-- Tokens collected for one operand or write slot: its target, the values, and the slot each value came from (R146). -/
structure Collected where
  target : Target
  tok : Token
  src : List Nat
  deriving DecidableEq, Repr

/-- One buffered store of one lane: its LSID, lane, the places of its bytes with their virtual address, the bytes,
whether it is a release, a multicast, and its scope (R148, R151, R392). -/
structure BufStore where
  lsid : Nat
  lane : Nat
  address : W64
  places : List Place
  bytes : List Byte
  release : Option Scope
  multicast : Bool
  deriving DecidableEq, Repr

/-- A matrix command (R438 to R458). -/
inductive MatrixOp where
  | mma (sparse acc : Bool) (desc : W512)
  | zero
  | drain (f64 : Bool) (ctl : W32) (lanes : Mask)
  | epilogue (f64 : Bool) (desc : W512)
  | peer (s32 : Bool) (dst : W32) (seq : W64)
  | prune (desc : W512)
  deriving DecidableEq, Repr

/-- How a lane leaves a block (R144, R349). -/
inductive ExitKind where
  /-- Goes on at the address. -/
  | go (pc : W64)
  /-- `call`: goes on at the address, with the link (R351). -/
  | call (pc link : W64)
  /-- `rjwait` (R356). -/
  | rejoin (j : Nat) (pc : W64)
  /-- The thread ends (R353). -/
  | done
  /-- `trap` (R354), with its slot. -/
  | trap (vector : Nat) (slot : Nat)
  /-- `eret` (R435). -/
  | eret
  deriving DecidableEq, Repr

/-- An action deferred to commit, in slot order (R220, R343). Lane values are (lane, value) pairs in ascending lane. -/
inductive Deferred where
  | rjenrol (j : Nat) (s : Mask)
  | rjstrike (j : Nat) (s : Mask)
  | atomic (lsid : Nat) (op : AOp) (wide : Bool) (isCas : Bool) (order : Order) (scope : Scope)
      (lanes : List (Nat × W64 × List Place × W64 × W64))
  | fenceRep (lsid : Nat) (a b : W64)
  | stmap (base len off : W64)
  | stunmap (base : W64)
  | stflush (a b : W64)
  | cpy (lanes : List (Nat × W64 × W64 × W64))
  | cpyg (desc : W512) (lanes : List (Nat × W32))
  | cpseal (s : Mask)
  | kvapp (bf16 : Bool) (lanes : List (Nat × W64 × W64 × W32 × W32))
  | matrix (tile : Nat) (op : MatrixOp)
  | tokpass
  | arrive (signalOnly rel : Bool) (scope : Scope) (lanes : List (Nat × Nat × W32 × W64))
  | barReg (lanes : List (Nat × Nat × W32))
  | barDrop (lanes : List (Nat × Nat × W32))
  | barExpect (lanes : List (Nat × Nat × W64))
  | plwait (a : W64) (places : List Place) (lanes : Mask)
  | yield (cycles : Nat)
  | sleep (ticks : Nat)
  | rwrite (descriptor : W32) (lanes : List (Nat × W32))
  | rwwait (k : Nat) (count : W32)
  | deqDone (group : Nat) (record : Option W512) (queue : Nat)
  | join (lanes : List (Nat × W64 × List Place × W64))
  | nmcall (ret : W64) (call : W64) (entry : W64) (msg : W512) (refused : Bool)
  | rred (lanes : List (Nat × W64 × W64 × W64))
  | nmret
  | nbDot (offset : Nat) (results : List W32)
  | gradq (lanes : List (Nat × W64 × W64 × W64))
  | syswr (value : W32)
  | haltDbg (slot : Nat) (s : Mask)
  deriving DecidableEq, Repr

/-- A register write of a block: which file, the register number of its write word, and `PAIR` (R342). -/
inductive WriteKind where
  | v | s | p
  deriving DecidableEq, Repr

/-- The shape of a block, from its header and the words it holds (R144, R317). `deps` gives, for each compute slot, the
slots that must have fired before it; `mems` the memory instructions as (slot, LSID, waits on lower LSIDs); `irrevocable` the slot of
the irrevocable instruction; `waits` the slots of `bar.wait`, `mwait` and `cpwait`. -/
structure Shape where
  cnt : Nat
  nrd : Nat
  nwr : Nat
  lsids : Nat
  iso : Bool
  exits : Nat
  deps : List (List Nat)
  mems : List (Nat × Nat × Bool)
  irrevocable : Option Nat
  waits : List Nat
  deriving DecidableEq, Repr

/-- What an irrevocable instruction of the block at `block` returned: kept while its block is bound, and as the
strand's replay entry once that block is discarded (R153, R421). `deq` tells a `deq`, whose entry has a form of its own. -/
structure Replay where
  block : W64
  lanes : Mask
  tok : Token
  record : Option W512
  queue : Nat
  deq : Bool
  deriving DecidableEq, Repr

/-- A block in flight (R152, R154). `performed` lists which LSID and lane performed at which slot (R148). `at_` is the index of the word that runs next; it equals the number of words when
the block has fired all its slots, and exceeds it when no slot is ready. `uniform` has the uniform registers as they were
read before the block (R341), and `returned` the lanes, by slot, in which a `bar.wait` has fired, with the phase number that it
sends there (R416). -/
structure Frame where
  warp : WarpId
  strand : Nat
  pc : W64
  words : List W32
  at_ : Nat
  shape : Shape
  active : Mask
  tokens : List Collected
  fired : List Nat
  performed : List (Nat × Nat × Nat)
  writes : List (WriteKind × BitVec 8 × Bool)
  exts : List (Nat × BitVec 25)
  stores : List BufStore
  deferred : List (Nat × Deferred)
  exits : List (Nat × Nat × ExitKind)
  flags : List (Nat × BitVec 5)
  faults : List FaultInfo
  bound : Option Replay
  rounded : Bool
  waiting : Bool
  readSig : List Nat
  writeSig : List Nat
  startCommit : Option Nat
  firstCommit : Option Nat
  uniform : Sparse W32
  returned : List (Nat × Nat × BitVec 16)
  deriving DecidableEq, Repr

/-- A strand's next block, fetched before its current one has committed (R152, R154). -/
structure EarlyFetch where
  warp : WarpId
  strand : Nat
  pc : W64
  words : List W32
  deriving DecidableEq, Repr

/-- Why a strand is held under R175, with its place in the order in which the warp's strands were held. -/
inductive HeldKind where
  /-- Its faulting block was discarded. -/
  | faulting (order : Nat)
  /-- Its trapping block is committed: vector, slot, block address. -/
  | trapping (order vector slot : Nat) (block : W64)
  deriving DecidableEq, Repr

/-- Where a strand stands (R140, R122, R159, R418). A rotating strand is active and joins the waiting list once its
resident block has committed. -/
inductive StrandPlace where
  | active
  | rotating
  | waiting
  | parked (j : Nat)
  | sleeping (ticks : Nat)
  deriving DecidableEq, Repr

/-- A strand (R140, R173). `held` is R175's hold, `hold` those of `rwwait` (R420): counter and
count. -/
structure Strand where
  id : Nat
  pc : W64
  trapRet : W64
  mask : Mask
  place : StrandPlace
  inHandler : Bool
  held : Option HeldKind
  hold : List (Nat × W32)
  replay : Option Replay
  restarts : Nat
  deriving DecidableEq, Repr

/-- What a parked `deq` asks for (R105, R112, R421). -/
structure DeqRequest where
  strand : Nat
  first : Nat
  count : Nat
  timeout : W32
  since : Nat
  deriving DecidableEq, Repr

/-- The state of a warp (Table 6.1). -/
inductive WarpStatus where
  | running
  | parkedDeq (r : DeqRequest)
  | parkedPage (page strand : Nat) (info : FaultInfo)
  | offCore (seq : W64) (lanes : Mask) (vector : Nat) (words : Nat)
  | serviceWait (vector : Nat) (lanes : Mask) (strand slot : Nat) (block : W64)
  deriving DecidableEq, Repr

/-- The record a warp holds (R422). -/
structure HeldRecord where
  record : W512
  block : W64
  excl : Option Nat
  deriving DecidableEq, Repr

/-- A pending remote register write (R165 to R167). -/
structure Deposit where
  reg : Nat
  counter : Nat
  lanes : List (Nat × W32)
  deriving DecidableEq, Repr

/-- A warp's near-memory call (R262, R265): stack and call number. -/
structure PierRef where
  stack : Nat
  call : Nat
  index : Nat
  deriving DecidableEq, Repr

/-- A fault of a matrix command that its warp has not been told of (R440): the tile that the command names and the one that
goes with it (R442), and whether it is a command without a tile of its own. -/
structure HeldFault where
  info : FaultInfo
  tile : Nat
  partner : Nat
  unnamed : Bool
  deriving DecidableEq, Repr

/-- A warp: its registers, strands and everything kept for it (R139, R141, R163, Table 7.10). `lostHost` has the lanes whose
write a host timeout lost (R36), `lostRemote` those whose write a module lost, by module (R49, R170). -/
structure Warp where
  id : WarpId
  serial : Nat
  ctx : Nat
  pier : Option PierRef
  status : WarpStatus
  vregs : Nat
  v : Sparse W32
  p : Sparse W64
  s : Sparse W32
  jE : Sparse W32
  arrive : Sparse W32
  lvl : List W32
  lfsr : W32
  launchSeed : W32
  launchDet : Bool
  swapReady : Bool
  launchFirst : Nat
  launchCount : Nat
  strands : List Strand
  nextStrand : Nat
  commits : Nat
  backoff : Nat
  inBackoff : Bool
  plBackoff : Bool
  watch : Option Nat
  lastWatch : Option Nat
  deposits : List Deposit
  held : Option HeldRecord
  cpbatch : Sparse W32
  heldFault : Option HeldFault
  lostHost : Mask
  lostRemote : List (Nat × Mask)
  scratch : Option (Nat × Nat)
  clusterScratch : List (Nat × Nat × Nat)
  phasers : List Nat
  tiles : List Nat
  stash : Option (Nat × Nat)
  relSeq : Sparse Nat
  readyAt : Option (List Nat)
  deqLeft : Option (Nat × W32)
  deriving DecidableEq, Repr

/-- A write of a copy or a matrix command, still on its way, for which its warp has not waited yet (R242, R243, R458): the lane
and batch of the copy, or the tiles that the command names. -/
structure Finished where
  copy : Option (Nat × W32)
  tiles : List Nat
  id : Nat
  deriving DecidableEq, Repr

/-- What the reads and writes of a warp must follow: `knows` has the writes that its reads have obtained or that happen before
it (R233), `after` those of them still pending (R225), `readsFrom` by lane the moment before which no read of the lane is
performed (R224), and `floors` the same for single bytes (R229), under the key of `floorKey`. -/
structure Reader where
  warp : WarpId
  knows : List Nat
  after : List Nat
  readsFrom : Sparse Nat
  floors : Sparse Nat
  finished : List Finished
  deriving DecidableEq, Repr

/-- A phaser (R244, R412): the core that holds it and its context. -/
structure Phaser where
  id : Nat
  core : Nat
  ctx : Nat
  phase : BitVec 16
  members : Nat
  yet : Nat
  early : Nat
  pending : BitVec 48
  deriving DecidableEq, Repr

/-- A line of a first-level data cache (R205): its physical line, the virtual lines it was reached at (R400), and the
moment that it shows (R221, R229). `fresh` has the bytes that the latest store instruction has written to it (R210). -/
structure L1Line where
  core : Nat
  ctx : Nat
  line : Nat
  vas : List Nat
  bytes : List Byte
  poison : Bool
  moment : Nat
  fresh : Nat × W64
  deriving DecidableEq, Repr

/-- A stash mapping, or a reservation of one by the block of `owner` that has not yet committed (R211, R401). `alloc` is
the storage offset of the stash allocation, `off` the offset in it. -/
structure StashMap where
  core : Nat
  ctx : Nat
  base : Nat
  len : Nat
  alloc : Nat
  off : Nat
  owner : Option (WarpId × Nat)
  deriving DecidableEq, Repr

/-- A stash line: physical line, data and dirty bytes (R212). `rel` marks that a release at `.pkg` or wider is among the
dirty bytes (R225, R227), `cause` has the writes that its stores causally follow (R233), and `fresh` is that of a
first-level line. -/
structure StashLine where
  core : Nat
  ctx : Nat
  va : Nat
  line : Nat
  bytes : List Byte
  dirty : List Nat
  poison : Bool
  rel : Bool
  cause : List Nat
  fresh : Nat × W64
  deriving DecidableEq, Repr

/-- What an atomic without a returned value does at its place (R394): operation, width, whether it is a `cas`, operands. -/
structure Rmw where
  op : AOp
  wide : Bool
  isCas : Bool
  b : W64
  c : W64
  deriving DecidableEq, Repr

/-- A write that a committed block entered into the memory system and that is not yet performed (R151, R225, R230).
`commit` is the number that the arbiter of the core's die gives that block (R156), `block` the number of that block,
`group` that of its store instruction (R210), and `lanes` the threads whose write it is. `needs` gives, by rank of a scope,
the number below which the writes that the issuing thread has made or seen become visible to that scope first (R225, R226).
`after` and `cause` have the pending and the performed writes that the thread knew when the block committed (R233), and
`base` is the die's clock at that time (R234). `reach` is the rank of the widest scope to which the write is already
visible: a read of that scope performs it first. `rmw` is an atomic without a returned value. -/
structure PendingWrite where
  seq : Nat
  commit : Nat
  block : Nat
  group : Nat
  core : Nat
  ctx : Nat
  warp : WarpId
  lanes : Mask
  needs : Sparse Nat
  after : List Nat
  cause : List Nat
  reach : Nat
  places : List Place
  bytes : List Byte
  multicast : Bool
  base : List Nat
  rmw : Option Rmw
  deriving DecidableEq, Repr

/-- A performed write's byte that has not yet arrived on a die (R232): the value the die's L2 still shows. `seq` is the
number under which it was performed, `id` the one by which `cause` names a write, and `by_` the warp that made it, if any.
`stamp` is the write's stamp (R234), `cause` the writes that causally precede it (R233), `rel` marks a release at `.pkg` or
wider and what follows it in its release sequence (R227), and `due` that a thread of the die has obtained the write at its
home: the die's next read of the byte obtains it too (R229). -/
structure Unarrived where
  die : Nat
  phys : Nat
  old : Byte
  seq : Nat
  id : Nat
  by_ : Option WarpId
  stamp : List Nat
  cause : List Nat
  rel : Bool
  due : Bool
  deriving DecidableEq, Repr

/-- What the L2 of a die showed of a byte before moment `moment`, at which it came to show something else (R219, R221). -/
structure Past where
  moment : Nat
  die : Nat
  phys : Nat
  old : Byte
  deriving DecidableEq, Repr

/-- What an asynchronous copy moves (R403, R409). -/
inductive CopyKind where
  | flat (dst src : W64) (len : Nat)
  | gather (desc : W512) (lanes : List (Nat × W32))
  deriving DecidableEq, Repr

/-- How far a gather copy has come (R410): the lanes whose page has been read, the element writes that are left of what was
read, the lanes with status *retry* and out of bounds, and the poisoned pages (R290). -/
structure GatherRun where
  slots : List Nat
  staged : List (W64 × List Byte)
  retry : Mask
  bounds : Mask
  regen : List W64
  deriving DecidableEq, Repr

/-- Who makes an access: what the address windows of R200 and R260 depend on. `serial` tells a warp from every other warp
that has held or will hold its slot. `scratch` is the storage offset and
size of the core-level unit's scratch, `clusterScratch` the same for each core that the cluster window reaches. -/
structure Issuer where
  warp : WarpId
  serial : Nat
  ctx : Nat
  pier : Option PierRef
  scratch : Option (Nat × Nat)
  clusterScratch : List (Nat × Nat × Nat)
  deriving DecidableEq, Repr

/-- A copy in a core's copy queue (R404): its thread, batch once sealed, phaser, and its fault once it has stopped. `moved`
has the elements of a flat copy that have been moved (R240), `run` how far a gather copy has come; `group` marks the writes of
one copy (R210). -/
structure Copy where
  who : Issuer
  lanes : Mask
  batch : List (Nat × W32)
  unsealed : Mask
  kind : CopyKind
  phaser : Option Nat
  bytes : Nat
  moved : List Nat
  run : GatherRun
  group : Nat
  fault : Option FaultInfo
  deriving DecidableEq, Repr

/-- A command in a core pair's matrix queue, or one completed and held as faulted (R439, R440). -/
structure MatrixCmd where
  leader : Nat
  who : Issuer
  tile : Nat
  partner : Nat
  op : MatrixOp
  started : Bool
  predicted : Option Nat
  expected : Bool
  since : Nat
  deriving DecidableEq, Repr

/-- A core's epilogue staging buffer in use (R192 to R194, R453); `pieces` has the element writes that are left of the unit
being stored. -/
structure Epilogue where
  core : Nat
  leader : Nat
  who : Issuer
  tile : Nat
  f64 : Bool
  desc : W512
  data : List Byte
  stored : Nat
  total : Nat
  pieces : List (W64 × List Byte)
  fault : Option FaultInfo
  reported : Bool
  deriving DecidableEq, Repr

/-- A near-memory call (R262 to R269); `since` is the tick count of its start, and `moment` the moment at which its range had
been written back (R264, R268). -/
structure Call where
  stack : Nat
  id : Nat
  ctx : Nat
  core : Nat
  windowIdx : Nat
  entry : W64
  msg : W512
  ret : W64
  phaser : Nat
  queued : Bool
  moment : Nat
  started : Bool
  since : Nat
  refused : Bool
  timedOut : Bool
  payload : List Byte
  fault : Option (Nat × FaultInfo)
  deriving DecidableEq, Repr

/-- A near-memory window (R99): its captured translation, with the `X` and `EXACT` bit of each 4 KiB page. A closing window
is unbound for new calls and stays for those that run. -/
structure Window where
  ctx : Nat
  stack : Nat
  idx : Nat
  readable : Bool
  writable : Bool
  va : Nat
  len : Nat
  phys : Nat
  exec : List Bool
  exact : List Bool
  closing : Bool
  deriving DecidableEq, Repr

/-- A pod aperture (R45, R281). -/
structure PodAperture where
  idx : Nat
  ctx : Nat
  readable : Bool
  writable : Bool
  reduction : Bool
  va : Nat
  len : Nat
  deriving DecidableEq, Repr

/-- A work queue (Table 4.4, R107): `phys` is the translation captured at creation. -/
structure WorkQueue where
  num : Nat
  ctx : Nat
  base : W64
  pages : List Nat
  log2n : Nat
  cls : Nat
  weight : Nat
  home : Nat
  aperture : Option (VF × Nat)
  head : W32
  tail : W32
  enable : Bool
  overflow : Nat
  malformed : Nat
  discarded : Nat
  waitStart : Nat
  exclHolder : Option WarpId
  deriving DecidableEq, Repr

/-- A sibling's state (R127). -/
inductive SibState where
  | running | finished | cancelled | failed
  deriving DecidableEq, Repr

/-- One sibling of a group (R127, Table 5.6). -/
structure Sibling where
  state : SibState
  posted : Bool
  after : Nat
  tokens : Nat
  retired : Bool
  released : Bool
  deriving DecidableEq, Repr

/-- A group's decision (R129), with its reference time since the creation of the context and die 0's cycles. -/
structure Decision where
  method : Nat
  hash : W64
  votes : Nat
  firstSeq : W64
  time : Nat
  cycle : Nat
  deriving DecidableEq, Repr

/-- A sibling group in the ballot table (R125 to R137). -/
structure Group where
  handle : Nat
  ctx : Nat
  quorum : Nat
  record : W64
  shared : List W64
  freeList : W64
  privList : W64
  siblings : List Sibling
  hashes : List (W64 × Nat × W64)
  decided : Option Decision
  lost : Nat
  cancelLat : Nat
  deriving DecidableEq, Repr

/-- The states of a context (Table 7.4). -/
inductive CtxState where
  | resident | spilling | saved | filled | faulted | saveIncomplete
  deriving DecidableEq, Repr

/-- The part of a placed unit that one core holds (R88, R89): the logical storage offset and bytes of its scratch and
stash (log 15), its tile numbers and phasers, and the warps that live in the unit. -/
structure Alloc where
  ctx : Nat
  core : Nat
  scratch : Option (Nat × Nat)
  stash : Option (Nat × Nat)
  tiles : List Nat
  phasers : List Nat
  members : List Nat
  deriving DecidableEq, Repr

/-- Where a register region, a scratch or a stash lies in the unified store of a core (R196): a region is named by the
serial number of its warp, the others by their logical offset (log 15). -/
structure Piece where
  core : Nat
  ctx : Nat
  region : Bool
  key : Nat
  at_ : Nat
  size : Nat
  deriving DecidableEq, Repr

/-- The saved or shadowed execution state of a context (R184, R193): its warps, units, phasers, scheduler tokens and stash
maps, its faulted copies and epilogues, and its scratch and tile bytes. -/
structure Saved where
  warps : List Warp
  allocs : List Alloc
  phasers : List Phaser
  tokens : List (Nat × Nat)
  stash : List StashMap
  copies : List Copy
  epilogues : List Epilogue
  store : List Host.Cell
  tiles : List Host.Cell
  deriving DecidableEq, Repr

/-- A run of pages of a save area that lie in device memory, as create context found them (R102, R187): the first page of
the area, how many, the physical address of the first, and their attributes. -/
structure SaveRun where
  first : Nat
  count : Nat
  phys : Nat
  attr : PageAttr
  deriving DecidableEq, Repr

/-- A context (R33, R98, R187). `faulting` marks a context that a context fault stops (R176), `recovering` one that an
unrecoverable fault has stopped until its rollback (R177), `lost` one that no boundary can bring back (R69), `boundaryDue`
one that is being saved for a boundary (R67); `boundaryAt` is the tick count of its last boundary, or of its creation.
`ring` is the service ring that the last service trap found in the header (address, log2 of its entries), and `rings` the
ring of each outstanding request (R187). Of a spill, `saveDone` has the cores whose engine has finished, `saveFaults` those
whose engine has stopped with its progress, and `resumeAt` the progress from which a restarted one goes on (R190, R191). -/
structure Context where
  num : Nat
  vf : VF
  pasid : Nat
  root : Nat
  save : W64
  saveLen : W64
  state : CtxState
  created : Nat
  errors : W32
  secondPort : Bool
  det : Bool
  swapReady : Bool
  boundary : W64
  nextSeq : W64
  requests : List (W64 × WarpId)
  saved : Option Saved
  faulting : Bool
  recovering : Bool
  boundaryDue : Bool
  boundaryAt : Nat
  faultedSave : Option (Nat × W64)
  capture : List SaveRun
  ring : Option (Nat × Nat)
  rings : List (W64 × Nat × Nat)
  lost : Bool
  saveDone : List Nat
  saveFaults : List (Nat × W32)
  resumeAt : List (Nat × W32)
  deriving DecidableEq, Repr

/-- A translation of a 4 KiB page that the device caches: the leaf entry, its address, and the physical page (R102). -/
structure TlbLine where
  ctx : Nat
  page : Nat
  entry : Nat
  entryAddr : Nat
  phys : Nat
  deriving DecidableEq, Repr

/-- An ATS translation cached in a die's second-level TLB (R34), or the host's refusal of one for a page with `PIN`, which
raises no page request (R103; log 53). -/
structure AtsLine where
  die : Nat
  ctx : Nat
  page : Nat
  port : Bool
  entry : Option AtsEntry
  deriving DecidableEq, Repr

/-- A page request and the warps parked on its page, longest parked first (R103, R195). An answered one is no longer
outstanding, and keeps how many consecutive Success responses have left the page absent. -/
structure PageRequest where
  ctx : Nat
  page : Nat
  successes : Nat
  answered : Bool
  parked : List WarpId
  deriving DecidableEq, Repr

/-- One die's commit arbiter (R156, R158): the commit number, the write signatures kept, the serial token's queue. -/
structure Arbiter where
  number : Nat
  history : List (Nat × List Nat)
  serial : List (WarpId × Nat)
  holder : Option (WarpId × Nat)
  deriving DecidableEq, Repr

/-- A stack's near-bank state (R271, R276 to R279). `recompute` holds the pseudo-channels that return to compute mode once
their pending switch to normal is done, `rows` the units that are in the middle of a
row step, and `held` those whose row an access they held has closed (R277). -/
structure NearBank where
  cmode : W64
  pending : W64
  recompute : W64
  stalls : Nat
  switches : Nat
  rows : List Nat
  held : List Nat
  deriving DecidableEq, Repr

/-- One virtual function's privileged queue (R72, R95): `busy` is the command whose completion is outstanding, an unmap that
waits for running calls (R99) or a stop whose blocks still run (R181); the others wait behind it. -/
structure PrivQueue where
  dropped : Nat
  pending : List W512
  busy : Option W512
  deriving DecidableEq, Repr

/-- One port's mailbox (Table 3.5): `cmd` is the command in progress, while `BUSY` is 1, and `serving` marks that the
management processor runs it now (R65). -/
structure Mailbox where
  busy : Bool
  cmd : Option Instr
  serving : Bool
  done : Bool
  overrun : Bool
  code : BitVec 8
  reslen : BitVec 16
  data : Sparse Byte
  deriving DecidableEq, Repr

/-- Start-up, firmware and trust (R55 to R61): `trying` is the pending slot that the attempt runs from, `holds` the start
steps whose stored results' checksums hold in this attempt (R56). -/
structure Startup where
  ready : Bool
  warm : Bool
  step : Nat
  fails : Nat
  locked : Bool
  lockedSince : Bool
  slot : Bool
  pendingSlot : Option Bool
  trying : Option Bool
  holds : List Nat
  counter : W64
  slotA : Sparse Byte
  slotB : Sparse Byte
  log : List (BitVec 256)
  reused : List Nat
  coldAt : Nat
  deriving DecidableEq, Repr

/-- An almanac entry (Table 3.4). -/
structure AlmanacEntry where
  time : W64
  seq : W32
  event : BitVec 16
  source : BitVec 16
  detail : BitVec 128
  deriving DecidableEq, Repr

/-- A run of clock steps not yet written to the almanac (R28): unit 0 to 3 a die, 4 to 19 a stack. -/
structure ThrottleEvent where
  unit : Nat
  cause : Nat
  up : Bool
  before : Nat
  after : Nat
  first : Nat
  steps : Nat
  deriving DecidableEq, Repr

/-- Power, clocks and limits (R19, R22 to R30). For units 0 to 3 the dies and 4 to 19 the stacks, `calm` counts control
intervals since a cause last called for less, and `lowered` is the cause of the last step down. `flowOk` and `flowBelow`
count intervals of sufficient and of tripping flow, `warned` those since the last flow warning; `controlAt` is the tick
count of the last control interval. -/
structure Power where
  on : Bool
  tripped : Bool
  hostLimit : Nat
  flowLow : Bool
  flowOk : Nat
  flowBelow : Nat
  warned : Nat
  dieClock : List Nat
  pierClock : List Nat
  calm : List Nat
  gated : List Bool
  refresh : List Bool
  events : List ThrottleEvent
  lowered : List Nat
  latest : Sensors
  controlAt : Nat
  deriving DecidableEq, Repr

/-- One module's entry in the pod table (Table 2.7). -/
structure PodEntry where
  valid : Bool
  fenced : Bool
  dropped : Nat
  timeouts : Nat
  epoch : Nat
  deriving DecidableEq, Repr

/-- A reduction packet that a step record has accepted and that is not closed yet (R284): the receiving context and step
record, its element and shadow windows, the next addend, whether an add has met poison, the sending module, and for a packet
that a thread of this module has sent itself (R281) its thread, lane and error values. -/
structure PacketRun where
  ctx : Nat
  record : W64
  packet : W512
  element : Window
  shadow : Window
  next : Nat
  poison : Bool
  source : PodSource
  sender : Option (Issuer × Nat × W64)
  deriving DecidableEq, Repr

/-- A `bar.arrive` with release at `.pod` or `.sys` whose block also sent packets: it acts once they have completed (R46,
R220). The lanes are those of `Deferred.arrive`. -/
structure LateArrival where
  ctx : Nat
  serial : Nat
  signalOnly : Bool
  lanes : List (Nat × Nat × W32 × W64)
  deriving DecidableEq, Repr

/-- An outstanding outbound UALink request: a reduction packet of one lane (R46 to R50, R288, R429), with the ticks of its
issue and the timeout it was issued with. A dead one has been completed with poison and waits for nothing: a completion
that still comes is dropped. -/
structure UaRequestOut where
  tag : Nat
  module_ : Nat
  epoch : Nat
  port : Nat
  issued : Nat
  timeout : Nat
  who : Issuer
  lane : Nat
  packet : W512
  errors : W64
  dead : Bool
  deriving DecidableEq, Repr

/-- The last completion the device sent to a peer (R45, R285): the module and the epoch of its request (R50), status and
data. -/
structure UaReply where
  to_ : PodSource
  status : PacketStatus
  data : List Byte
  deriving DecidableEq, Repr

/-- UALink and the pod (R43 to R54). -/
structure Pod where
  timeout : Nat
  self : BitVec 10
  enable : Bool
  entries : List (Nat × PodEntry)
  out : List UaRequestOut
  nextTag : Nat
  portsDown : List Nat
  reply : Option UaReply
  deriving DecidableEq, Repr

/-- One line's old contents in an undo segment, and the stack whose undo region holds them (R67); `former` marks the
segments that a warm start has kept, of contexts that the start ended (R56, R57). -/
structure UndoLine where
  stack : Nat
  former : Bool
  ctx : Nat
  boundary : W64
  place : Place
  line : Nat
  old : List Byte
  deriving DecidableEq, Repr

/-- What a boundary's save leaves of a context beside the save area (R67); `former` as in an undo line. -/
structure Snapshot where
  former : Bool
  ctx : Nat
  boundary : W64
  context : Context
  deriving DecidableEq, Repr

/-- Calends settings and undo logs (R67 to R70). `waits` gives the contexts whose first writes wait for a full region, with
the stack and since when (R68). -/
structure Calends where
  interval : Nat
  fraction : Nat
  nextFraction : Nat
  lines : List UndoLine
  snapshots : List Snapshot
  complete : List (Nat × W64)
  waits : List (Nat × Nat × Nat)
  deriving DecidableEq, Repr

/-- A join decrement of a discarded record: one whose enqueue waits for room, or one that waits for a retry entry (R118). -/
structure JoinWait where
  die : Nat
  ctx : Nat
  object : W64
  deriving DecidableEq, Repr

/-- An L2 slice's refusals and reservation queue (R39). -/
structure L2Slice where
  die : Nat
  slice : Nat
  refusals : List (Nat × Nat)
  queue : List Nat
  granted : List Nat
  deriving DecidableEq, Repr

/-- The whole machine. -/
structure State where
  /-- Step number, and the time counters: reference ticks, each die's arithmetic and each stack's pier cycles
  since the last start (R17, R325, log 1). -/
  stepNo : Nat
  ticks : Nat
  cycles : List Nat
  pierCycles : List Nat
  /-- What the outside world and time do next, in order (log 2). -/
  inputs : List Instr
  power : Power
  startup : Startup
  mailboxes : List Mailbox
  /-- The port whose mailbox the management processor served last (R65). -/
  lastServed : Bool
  almanac : List AlmanacEntry
  almanacSeq : W32
  calends : Calends
  corrected : List (Nat × Nat)
  pod : Pod
  /-- Reduction packets between their accept step and their closing step (R284). -/
  packets : List PacketRun
  /-- Arrivals that wait for the packets of their own block (R46). -/
  lateArrivals : List LateArrival
  priv : List (Nat × PrivQueue)
  contexts : List Context
  queues : List WorkQueue
  wrr : List (Nat × Nat × Nat)
  joinWaits : List JoinWait
  /-- Decrements that wait for one of their dispatcher's 64 retry entries, oldest first (R118). -/
  discards : List JoinWait
  summaries : List (Nat × List (Nat × Nat × W32))
  groups : List Group
  ballotSeq : W64
  windows : List Window
  apertures : List PodAperture
  pageRequests : List PageRequest
  ats : List AtsLine
  tlb : List TlbLine
  warps : List Warp
  frames : List Frame
  /-- Blocks in fetch frames (R152). -/
  early : List EarlyFetch
  tokens : List (Nat × Nat)
  arbiters : List Arbiter
  /-- The vector clock of each die (R234). -/
  clocks : List (List Nat)
  phasers : List Phaser
  nextPhaser : Nat
  copies : List Copy
  matrix : List MatrixCmd
  epilogues : List Epilogue
  tiles : List Host.Cell
  allocs : List Alloc
  /-- Storage offsets given out on each core; one whose owner is gone is free (R196). -/
  pieces : List Piece
  nextAlloc : Nat
  nextWarp : Nat
  calls : List Call
  nextCall : Nat
  nearBanks : List (Nat × NearBank)
  l1 : List L1Line
  stashMaps : List StashMap
  stashLines : List StashLine
  /-- By core the pending-acknowledgement counter, and the probes outstanding: who asked, and the cluster that still owes
  its acknowledgement (R215). -/
  acks : List (Nat × Nat)
  probes : List (Nat × Nat)
  l2 : List L2Slice
  writes : List PendingWrite
  nextWrite : Nat
  unarrived : List Unarrived
  /-- What the dies' L2 showed before, and how many moments there have been (R219, R221). -/
  past : List Past
  moments : Nat
  readers : List Reader
  /-- Poisoned lines (R66), and by line and write the bytes of a larger write to it that have been performed (R210). -/
  poisoned : List Nat
  rewritten : List (Nat × Nat × W64)
  stamps : List (Nat × (Nat × List Nat))
  hbm : List Host.Cell
  host : List Host.Cell
  store : List Host.Cell
  deriving DecidableEq, Repr

/-- The latest sensor sample before any control interval has run (log 4). -/
def noSensors : Sensors := ⟨0, [], [], [], 0, 0, 0, []⟩

/-- A mailbox at reset (Table 3.5). -/
def Mailbox.reset : Mailbox := ⟨false, none, false, false, false, 0, 0, []⟩

/-- A commit arbiter before any commit. -/
def Arbiter.reset : Arbiter := ⟨0, [], [], none⟩

/-- The module at power-good (R55): the rails are up, the cold start stands before its first step, every register has
its table's reset value, and memory lists nothing. -/
def State.reset : State where
  stepNo := 0
  ticks := 0
  cycles := List.replicate 4 0
  pierCycles := List.replicate 16 0
  inputs := []
  power := ⟨true, false, 4200, false, 0, 0, 0, List.replicate 4 1750, List.replicate 16 1200, List.replicate 20 0,
    List.replicate 16 false, List.replicate 16 false, [], List.replicate 20 0, noSensors, 0⟩
  startup := ⟨false, false, 0, 0, false, false, false, none, none, [], 0, [], [], List.replicate 8 0, [], 0⟩
  mailboxes := [Mailbox.reset, Mailbox.reset]
  lastServed := true
  almanac := []
  almanacSeq := 0
  calends := ⟨200, 20, 20, [], [], [], []⟩
  corrected := []
  pod := ⟨5000, 0x3ff, false, [], [], 0, [], none⟩
  packets := []
  lateArrivals := []
  priv := []
  contexts := []
  queues := []
  wrr := []
  joinWaits := []
  discards := []
  summaries := []
  groups := []
  ballotSeq := 0
  windows := []
  apertures := []
  pageRequests := []
  ats := []
  tlb := []
  warps := []
  frames := []
  early := []
  tokens := []
  arbiters := List.replicate 4 Arbiter.reset
  clocks := List.replicate 4 [0, 0, 0, 0]
  phasers := []
  nextPhaser := 0
  copies := []
  matrix := []
  epilogues := []
  tiles := []
  allocs := []
  pieces := []
  nextAlloc := 1
  nextWarp := 1
  calls := []
  nextCall := 0
  nearBanks := []
  l1 := []
  stashMaps := []
  stashLines := []
  acks := []
  probes := []
  l2 := []
  writes := []
  nextWrite := 0
  unarrived := []
  past := []
  moments := 0
  readers := []
  poisoned := []
  rewritten := []
  stamps := []
  hbm := []
  host := []
  store := []

end Sys2Proof.Machine
end

