-- ==== Sys2Proof/Machine/Base.lean ====
section
/-!
DEFINITION. Helpers that the rest of the machine uses: sparse tables, bytes in little-endian order (spec/00_scope.md R3),
lane sets and tokens (spec/06_execution_model.md R146), bit fields and `mix64` (spec/04_host_interface.md R92).
-/
namespace Sys2Proof.Machine

/-- The value a sparse table gives key `k`; `d` where the table lists nothing. -/
def sget {α : Type} (d : α) : Sparse α → Nat → α
  | [], _ => d
  | (j, w) :: m, k => if k = j then w else sget d m k

/-- Sets key `k` to `v`, keeping the canonical form: keys rising, no entry equal to the default `d`. -/
def sset {α : Type} [DecidableEq α] (d : α) : Sparse α → Nat → α → Sparse α
  | [], k, v => if v = d then [] else [(k, v)]
  | (j, w) :: m, k, v =>
    if k < j then (if v = d then (j, w) :: m else (k, v) :: (j, w) :: m)
    else if k = j then (if v = d then m else (k, v) :: m)
    else (j, w) :: sset d m k v

/-- Keys of a table all exceed `lo` and rise, and no value equals the default. -/
def swfFrom {α : Type} [DecidableEq α] (d : α) : Option Nat → Sparse α → Bool
  | _, [] => true
  | lo, (j, w) :: m => (match lo with | none => true | some k => decide (k < j)) && !decide (w = d) && swfFrom d (some j) m

/-- The canonical form of a sparse table. -/
def swf {α : Type} [DecidableEq α] (d : α) (m : Sparse α) : Bool := swfFrom d none m

/-- Writes a run of bytes from `k` upwards. -/
def setBytes (m : Sparse Byte) (k : Nat) : List Byte → Sparse Byte
  | [] => m
  | b :: bs => setBytes (sset 0 m k b) (k + 1) bs

/-- Reads `n` bytes from `k` upwards. -/
def getBytes (m : Sparse Byte) (k n : Nat) : List Byte := (List.range n).map fun i => sget 0 m (k + i)

/-- The number that bytes hold in little-endian order (R3). -/
def leNat : List Byte → Nat
  | [] => 0
  | b :: bs => b.toNat + 256 * leNat bs

/-- The `n` low bytes of a number in little-endian order (R3). -/
def leBytes (n v : Nat) : List Byte := (List.range n).map fun i => BitVec.ofNat 8 (v / 256 ^ i)

/-- Bits `h` down to `l` of a number. -/
def bits (v h l : Nat) : Nat := v / 2 ^ l % 2 ^ (h + 1 - l)

/-- The number with bits `h` down to `l` replaced. -/
def setBits (v h l x : Nat) : Nat := v - bits v h l * 2 ^ l + x % 2 ^ (h + 1 - l) * 2 ^ l

/-- Bits [n-1:0], sign-extended to 64 bits (Table 12.10). -/
def sext {w : Nat} (x : BitVec w) : W64 := x.signExtend 64

/-- Zero-extended to 64 bits. -/
def zext {w : Nat} (x : BitVec w) : W64 := x.setWidth 64

/-- The low 32 bits. -/
def lo32 (x : W64) : W32 := x.extractLsb' 0 32

/-- The high 32 bits. -/
def hi32 (x : W64) : W32 := x.extractLsb' 32 32

/-- 64 bits from two 32-bit halves. -/
def join32 (hi lo : W32) : W64 := hi ++ lo

/-- The mixing function of R92. -/
def mix64 (z : W64) : W64 :=
  let z := (z ^^^ (z >>> 30)) * 0xbf58476d1ce4e5b9
  let z := (z ^^^ (z >>> 27)) * 0x94d049bb133111eb
  z ^^^ (z >>> 31)

/-- The lanes 0 to 31. -/
def allLanes : List Nat := List.range 32

/-- The lanes of a set, ascending. -/
def lanesOf (m : Mask) : List Nat := allLanes.filter fun l => m.getLsbD l

/-- The set of a list of lanes. -/
def maskOf (ls : List Nat) : Mask := ls.foldl (fun m l => m ||| (1 <<< l)) 0

/-- The token that is null in every lane (R146). -/
def nullToken : Token := List.replicate 32 none

/-- The token with the value `f l` in lane `l`. -/
def tokenOf (f : Nat → Option W64) : Token := allLanes.map f

/-- The value of a token in a lane; none is null. -/
def tokenAt (t : Token) (l : Nat) : Option W64 := (t[l]?).getD none

/-- The lowest lane of a set, or none. -/
def lowestLane (m : Mask) : Option Nat := allLanes.find? fun l => m.getLsbD l

/-- The least of a list of numbers, or none. -/
def minimum? (l : List Nat) : Option Nat :=
  l.foldl (fun a x => match a with | none => some x | some y => some (Nat.min x y)) none

/-- The sum of a list. -/
def total (l : List Nat) : Nat := l.foldl (· + ·) 0

/-- Replaces the elements that satisfy `p`. -/
def update {α : Type} (p : α → Bool) (f : α → α) (l : List α) : List α := l.map fun x => if p x then f x else x

/-- The elements of a list, each once, first occurrence kept. -/
def dedup {α : Type} [DecidableEq α] (l : List α) : List α :=
  l.foldl (fun acc x => if x ∈ acc then acc else acc ++ [x]) []

/-- Inserts into a list sorted by key, after the equal keys. -/
def insertBy {α : Type} (key : α → Nat) (x : α) : List α → List α
  | [] => [x]
  | y :: ys => if key x < key y then x :: y :: ys else y :: insertBy key x ys

/-- Stable sort by a key. -/
def sortBy {α : Type} (key : α → Nat) (l : List α) : List α := l.foldl (fun acc x => insertBy key x acc) []

/-- Runs `f` over a list, threading a state. -/
def foldState {σ α : Type} (s : σ) (l : List α) (f : σ → α → σ) : σ := l.foldl f s

/-- The candidate that a free number picks, where there is more than one (log 2). -/
def choose {α : Type} (n : Nat) : List α → Option α
  | [] => none
  | [x] => some x
  | l => l[n % l.length]?

/-- The smallest power of two's exponent at or above: bits needed to hold the number. -/
def bitLen (n : Nat) : Nat := if n = 0 then 0 else Nat.log2 n + 1

/-- Adds to a 16-bit counter that saturates. -/
def satAdd16 (a b : Nat) : Nat := Nat.min (a + b) 0xffff

end Sys2Proof.Machine
end

