-- ==== Sys2Proof/Machine/Warp.lean ====
section
/-!
DEFINITION. Warps, strands and registers (spec/06_execution_model.md): the one home of every register read and write,
the rejoin-mask registers, the active set and the register region of the unified store.
-/
namespace Sys2Proof.Machine

/-- The die of a core; a pier core belongs to die s div 4 (R222). -/
def coreDie (core : Nat) : Nat := if core < Config.mainCores then core / 96 else (core - Config.mainCores) / 64

/-- The number of pier core `i` of stack `s`. -/
def pierCore (stack i : Nat) : Nat := Config.mainCores + 16 * stack + i

/-- Is the core a pier core? -/
def isPier (core : Nat) : Bool := Config.mainCores ≤ core

/-- The arithmetic cycles of a die since the last start (R17, R325). -/
def State.cyclesOf (s : State) (die : Nat) : Nat := (s.cycles[die]?).getD 0

/-- The pier cycles of a stack since the last start (R17, R325). -/
def State.pierCyclesOf (s : State) (stack : Nat) : Nat := (s.pierCycles[stack]?).getD 0

/-- The commit arbiter of a die. -/
def State.arbiter (s : State) (die : Nat) : Arbiter := (s.arbiters[die]?).getD Arbiter.reset

/-- The warp in a slot. -/
def State.warp? (s : State) (id : WarpId) : Option Warp := s.warps.find? fun w => w.id = id

/-- Puts a warp back into its slot. -/
def State.setWarp (s : State) (w : Warp) : State := { s with warps := update (fun x => x.id = w.id) (fun _ => w) s.warps }

/-- Applies `f` to the warp in a slot, if there is one. -/
def State.onWarp (s : State) (id : WarpId) (f : Warp → Warp) : State :=
  { s with warps := update (fun x => x.id = id) f s.warps }

/-- The context of a number. -/
def State.context? (s : State) (n : Nat) : Option Context := s.contexts.find? fun c => c.num = n

/-- Applies `f` to a context. -/
def State.onContext (s : State) (n : Nat) (f : Context → Context) : State :=
  { s with contexts := update (fun c => c.num = n) f s.contexts }

/-- Adds 1 to a context's error count (Table 7.8). -/
def State.countError (s : State) (ctx : Nat) : State := s.onContext ctx fun c => { c with errors := c.errors + 1 }

/-- Who a warp is to the memory system. -/
def Warp.issuer (w : Warp) : Issuer := ⟨w.id, w.serial, w.ctx, w.pier, w.scratch, w.clusterScratch⟩

/-- The serial number of the warp in a slot; 0 where there is none. -/
def State.serialOf (s : State) (id : WarpId) : Nat := ((s.warp? id).map fun w => w.serial).getD 0

/-- The warp that issued something, in its slot or saved with its context (R183). -/
def State.owner? (s : State) (who : Issuer) : Option Warp :=
  match s.warps.find? fun w => w.serial = who.serial with
  | some w => some w
  | none => ((s.context? who.ctx).bind fun c => c.saved).bind fun v => v.warps.find? fun w => w.serial = who.serial

/-- Applies `f` to the warp that issued something (R183). -/
def State.onOwner (s : State) (who : Issuer) (f : Warp → Warp) : State :=
  let g := update (fun w : Warp => w.serial = who.serial) f
  let onSaved := fun (c : Context) => { c with saved := c.saved.map fun v => { v with warps := g v.warps } }
  ({ s with warps := g s.warps } : State).onContext who.ctx onSaved

/-- Vector register `n` of a lane (R139). -/
def Warp.vreg (w : Warp) (n l : Nat) : W32 := sget 0 w.v (32 * n + l)

/-- Writes a vector register of a lane. -/
def Warp.setV (w : Warp) (n l : Nat) (x : W32) : Warp := { w with v := sset 0 w.v (32 * n + l) x }

/-- Uniform register `n`. -/
def Warp.sreg (w : Warp) (n : Nat) : W32 := sget 0 w.s n

/-- Writes a uniform register. -/
def Warp.setS (w : Warp) (n : Nat) (x : W32) : Warp := { w with s := sset 0 w.s n x }

/-- The 64 predicates of a lane. -/
def Warp.preds (w : Warp) (l : Nat) : W64 := sget 0 w.p l

/-- Writes the 64 predicates of a lane. -/
def Warp.setPreds (w : Warp) (l : Nat) (x : W64) : Warp := { w with p := sset 0 w.p l x }

/-- Writes one predicate of a lane. -/
def Warp.setPred (w : Warp) (n l : Nat) (b : Bool) : Warp :=
  let x := w.preds l
  w.setPreds l (if b then x ||| ((1 : W64) <<< n) else x &&& ~~~((1 : W64) <<< n))

/-- The 64-byte record held in uniform group `g`, word i in s(16g + i) (R411). -/
def Warp.group (w : Warp) (g : Nat) : W512 :=
  BitVec.ofNat 512 (total ((List.range 16).map fun i => (w.sreg (16 * g + i)).toNat * 2 ^ (32 * i)))

/-- Writes a 64-byte record into uniform group `g`. -/
def Warp.setGroup (w : Warp) (g : Nat) (r : W512) : Warp :=
  foldState w (List.range 16) fun w i => w.setS (16 * g + i) (r.extractLsb' (32 * i) 32)

/-- Arrival counter `k` (R167). -/
def Warp.arrival (w : Warp) (k : Nat) : W32 := sget 0 w.arrive k

/-- The enrolment mask E of jn (R159). -/
def Warp.enrol (w : Warp) (j : Nat) : Mask := sget 0 w.jE j

/-- The arrival mask A of jn: the lanes parked on it (R159). -/
def Warp.arrived (w : Warp) (j : Nat) : Mask :=
  w.strands.foldl (fun m st => if st.place = .parked j then m ||| st.mask else m) 0

/-- The threads that have not ended. -/
def Warp.living (w : Warp) : Mask := w.strands.foldl (fun m st => m ||| st.mask) 0

/-- The strand of a number. -/
def Warp.strand? (w : Warp) (id : Nat) : Option Strand := w.strands.find? fun st => st.id = id

/-- Applies `f` to a strand. -/
def Warp.onStrand (w : Warp) (id : Nat) (f : Strand → Strand) : Warp :=
  { w with strands := update (fun st => st.id = id) f w.strands }

/-- Strands in the active set (R122). -/
def Warp.activeCount (w : Warp) : Nat := (w.strands.filter fun st => st.place = .active || st.place = .rotating).length

/-- A strand's three pieces that keep strands of a release apart (R142). -/
def Strand.key (st : Strand) : W64 × W64 × Bool := (st.pc, st.trapRet, st.inHandler)

/-- Two replay entries of one block together; where they are of two blocks, the first (R153). -/
def mergeReplay (a b : Option Replay) : Option Replay :=
  match a, b with
  | some x, some y =>
    if x.block = y.block then
      some { x with lanes := x.lanes ||| y.lanes, tok := tokenOf fun l => (tokenAt x.tok l).or (tokenAt y.tok l) }
    else some x
  | some x, none => some x
  | none, y => y

/-- Appends a new waiting strand for a set of lanes; nothing for the empty set. -/
def Warp.addWaiting (w : Warp) (pc trapRet : W64) (inHandler : Bool) (replay : Option Replay) (m : Mask) : Warp :=
  if m = 0 then w
  else { w with
    strands := w.strands ++ [⟨w.nextStrand, pc, trapRet, m, .waiting, inHandler, none, [], replay, 0⟩]
    nextStrand := w.nextStrand + 1 }

/-- Makes the head of the waiting list active while fewer than four strands are (R122). -/
def Warp.promote (w : Warp) : Warp :=
  foldState w (List.range 4) fun w _ =>
    if 4 ≤ w.activeCount then w
    else match w.strands.find? fun st => st.place = .waiting with
      | none => w
      | some st => { w with
          strands := (w.strands.filter fun x => x.id != st.id) ++ [{ st with place := .active }] }

/-- A strand joins the tail of the waiting list, and the head of the list takes its place (R122). -/
def Warp.toTail (w : Warp) (id : Nat) : Warp :=
  match w.strand? id with
  | none => w
  | some st => ({ w with
      strands := (w.strands.filter fun x => x.id != id) ++ [{ st with place := .waiting }] } : Warp).promote

/-- Releases the parked lanes of jn: one ready strand for each distinct successor, trap return and in-handler flag, in
ascending order of lowest lane, and E becomes 0 (R159, R142). Replay entries stay with their lanes (R153). -/
def Warp.release (w : Warp) (j : Nat) : Warp :=
  let parked := w.strands.filter fun st => st.place = .parked j
  let rest := { w with strands := w.strands.filter fun st => st.place != .parked j, jE := sset 0 w.jE j 0 }
  let keys := dedup (parked.map Strand.key)
  let groups := keys.map fun k =>
    let mine := parked.filter fun st => st.key = k
    (k, mine.foldl (fun r st => mergeReplay r st.replay) none, mine.foldl (fun m st => m ||| st.mask) (0 : Mask))
  foldState rest (sortBy (fun g => (lowestLane g.2.2).getD 32) groups) fun w g => w.addWaiting g.1.1 g.1.2.1 g.1.2.2 g.2.1 g.2.2

/-- Checks jn: when A is not empty and equals E, it is released (R159). -/
def Warp.checkRejoin (w : Warp) (j : Nat) : Warp :=
  if w.arrived j != 0 && w.arrived j == w.enrol j then w.release j else w

/-- Takes lanes out of every strand. -/
def Warp.dropLanes (w : Warp) (m : Mask) : Warp :=
  { w with strands := (w.strands.map fun (st : Strand) => { st with mask := st.mask &&& ~~~m }).filter fun st => st.mask != 0 }

/-- `rjenrol` (R159). -/
def Warp.rejoinEnrol (w : Warp) (j : Nat) (m : Mask) : Warp :=
  ({ w with jE := sset 0 w.jE j (w.enrol j ||| m) } : Warp).checkRejoin j

/-- Takes lanes out of E; a lane that was parked on jn is released alone (R159). -/
def Warp.rejoinClear (w : Warp) (j : Nat) (m : Mask) : Warp :=
  let freed := (w.strands.filter fun st => st.place = .parked j && st.mask &&& m != 0)
  let lanes := sortBy (fun x => x.1) ((freed.map fun st => (lanesOf (st.mask &&& m)).map fun l => (l, st)).flatten)
  let w := { w with
    jE := sset 0 w.jE j (w.enrol j &&& ~~~m)
    strands := (w.strands.map fun (st : Strand) =>
      if st.place = StrandPlace.parked j then { st with mask := st.mask &&& ~~~m } else st).filter fun st => st.mask != 0 }
  (foldState w lanes fun w x => w.addWaiting x.2.pc x.2.trapRet x.2.inHandler x.2.replay (maskOf [x.1])).checkRejoin j

/-- Sets E: bits of ended lanes are cleared, and parked lanes that lose their bit are released alone (R159, R160). -/
def Warp.setEnrol (w : Warp) (j : Nat) (x : Mask) : Warp :=
  let x := x &&& w.living
  ({ w with jE := sset 0 w.jE j (x ||| w.enrol j) } : Warp).rejoinClear j (~~~x)

/-- Threads end: they leave every strand and every enrolment mask (R142, R160). -/
def Warp.endLanes (w : Warp) (m : Mask) : Warp :=
  let w := w.dropLanes m
  let w := { w with jE := (List.range 16).foldl (fun t j => sset 0 t j (sget 0 t j &&& ~~~m)) w.jE }
  foldState w (List.range 16) fun w j => w.checkRejoin j

/-- Bytes of a warp's register region (R163). -/
def Warp.regionSize (w : Warp) : Nat := 128 * w.vregs + 640

/-- The 32-bit word at a word-aligned offset of the register region (Table 6.6). -/
def Warp.regionWord (w : Warp) (off : Nat) : W32 :=
  let v := 128 * w.vregs
  if off < v then w.vreg (off / 128) (off % 128 / 4)
  else
    let o := off - v
    if o < 0x100 then (if o % 8 = 0 then lo32 (w.preds (o / 8)) else hi32 (w.preds (o / 8)))
    else if o < 0x200 then w.sreg ((o - 0x100) / 4)
    else if o < 0x240 then w.enrol ((o - 0x200) / 4)
    else if o < 0x250 then w.arrival ((o - 0x240) / 4)
    else 0

/-- Stores a 32-bit word into the register region; the device's last 48 bytes ignore it (Table 6.6). -/
def Warp.setRegionWord (w : Warp) (off : Nat) (x : W32) : Warp :=
  let v := 128 * w.vregs
  if off < v then w.setV (off / 128) (off % 128 / 4) x
  else
    let o := off - v
    if o < 0x100 then
      let p := w.preds (o / 8)
      w.setPreds (o / 8) (if o % 8 = 0 then join32 (hi32 p) x else join32 x (lo32 p))
    else if o < 0x200 then w.setS ((o - 0x100) / 4) x
    else if o < 0x240 then w.setEnrol ((o - 0x200) / 4) x
    else if o < 0x250 then { w with arrive := sset 0 w.arrive ((o - 0x240) / 4) x }
    else w

/-- One byte of the register region. -/
def Warp.regionByte (w : Warp) (off : Nat) : Byte := (w.regionWord (off / 4 * 4)).extractLsb' (8 * (off % 4)) 8

/-- Stores one byte of the register region. -/
def Warp.setRegionByte (w : Warp) (off : Nat) (b : Byte) : Warp :=
  let k := off % 4
  let x := (w.regionWord (off / 4 * 4)).toNat
  w.setRegionWord (off / 4 * 4) (BitVec.ofNat 32 (setBits x (8 * k + 7) (8 * k) b.toNat))

/-- Stores bytes into the register region, each word once (R202, R231). -/
def Warp.setRegionBytes (w : Warp) (cells : List (Nat × Byte)) : Warp :=
  foldState w (dedup (cells.map fun c => c.1 / 4)) fun w k =>
    let merge := fun (x : Nat) (c : Nat × Byte) =>
      if c.1 / 4 = k then setBits x (8 * (c.1 % 4) + 7) (8 * (c.1 % 4)) c.2.toNat else x
    w.setRegionWord (4 * k) (BitVec.ofNat 32 (cells.foldl merge (w.regionWord (4 * k)).toNat))

/-- A fresh warp with one strand of all 32 threads at the entry (R90, R139). -/
def Warp.fresh (id : WarpId) (serial ctx vregs : Nat) (entry : W64) : Warp where
  id := id
  serial := serial
  ctx := ctx
  pier := none
  status := .running
  vregs := vregs
  v := []
  p := []
  s := []
  jE := []
  arrive := []
  lvl := List.replicate 8 0
  lfsr := 1
  launchSeed := 0
  launchDet := false
  swapReady := false
  launchFirst := 0
  launchCount := 0
  strands := [⟨0, entry, 0, BitVec.allOnes 32, .active, false, none, [], none, 0⟩]
  nextStrand := 1
  commits := 0
  backoff := 0
  inBackoff := false
  plBackoff := false
  watch := none
  lastWatch := none
  deposits := []
  held := none
  cpbatch := []
  heldFault := none
  lostHost := 0
  lostRemote := []
  scratch := none
  clusterScratch := []
  phasers := []
  tiles := []
  stash := none
  relSeq := []
  readyAt := none
  deqLeft := none

end Sys2Proof.Machine
end

