-- ==== Sys2Proof/Machine/Flags.lean ====
section
/-!
DEFINITION. The five sticky floating-point flags and their conditions' bits (spec/11_arithmetic.md R298, Table 11.9):
bit 0 inexact (p59), 1 underflow (p60), 2 overflow (p61), 3 divide-by-zero (p62), 4 invalid (p63).
-/
namespace Sys2Proof.Machine

/-- A set of floating-point flags; bit i stands for predicate register p(59 + i) (Table 11.9). -/
abbrev FlagSet := BitVec 5

/-- p59. -/
def flagInexact : FlagSet := 1
/-- p60. -/
def flagUnderflow : FlagSet := 2
/-- p61. -/
def flagOverflow : FlagSet := 4
/-- p62. -/
def flagDivZero : FlagSet := 8
/-- p63. -/
def flagInvalid : FlagSet := 16

/-- A flag where its condition is met. -/
def flagIf (b : Bool) (f : FlagSet) : FlagSet := if b then f else 0

/-- Sets flags in a lane; none is ever cleared (R298). -/
def Warp.setFlags (w : Warp) (l : Nat) (f : FlagSet) : Warp := w.setPreds l (w.preds l ||| (zext f <<< 59))

/-- Sets the flags that a block raised, after its register writes (R298). -/
def Warp.applyFlags (w : Warp) (fl : List (Nat × FlagSet)) : Warp := foldState w fl fun w x => w.setFlags x.1 x.2

end Sys2Proof.Machine
end

