-- ==== Sys2Proof/Machine/FloatCore.lean ====
section
/-!
DEFINITION. Floating-point formats, exact values and the one rounding of every result
(spec/11_arithmetic.md R292 to R304, R310, R311; spec/12_isa_formats.md R327).
-/
namespace Sys2Proof

/-- Bits of a format (Table 11.1; R295 for the integers). -/
def Fmt.width : Fmt → Nat
  | .f64 | .s64 | .z64 => 64
  | .f32 | .s32 | .z32 => 32
  | .f16 | .bf16 => 16
  | .e4m3 | .e5m2 | .e8m0 | .s8 => 8
  | .e2m3 | .e3m2 => 6
  | .e2m1 => 4

/-- Mantissa width w (Table 11.1). -/
def Fmt.man : Fmt → Nat
  | .f64 => 52 | .f32 => 23 | .f16 => 10 | .bf16 => 7 | .e4m3 => 3 | .e5m2 => 2 | .e2m3 => 3 | .e3m2 => 2 | .e2m1 => 1
  | _ => 0

/-- Exponent bias (Table 11.1). -/
def Fmt.bias : Fmt → Nat
  | .f64 => 1023 | .f32 => 127 | .f16 => 15 | .bf16 => 127 | .e4m3 => 7 | .e5m2 => 15 | .e2m3 => 1 | .e3m2 => 3 | .e2m1 => 1
  | _ => 127

/-- Exponent of the largest binade (Table 11.1). -/
def Fmt.emax : Fmt → Nat
  | .f64 => 1023 | .f32 => 127 | .f16 => 15 | .bf16 => 127 | .e4m3 => 8 | .e5m2 => 15 | .e2m3 => 2 | .e3m2 => 4 | .e2m1 => 2
  | _ => 127

/-- Does the format have infinities (Table 11.2)? -/
def Fmt.hasInf : Fmt → Bool
  | .f64 | .f32 | .f16 | .bf16 | .e5m2 => true
  | _ => false

/-- Does the format have NaNs (R293)? -/
def Fmt.hasNan : Fmt → Bool
  | .e2m3 | .e3m2 | .e2m1 => false
  | _ => true

/-- The code of +∞: the exponent field all ones (Table 11.2). -/
def Fmt.infCode (f : Fmt) : Nat := 2 ^ (f.width - 1) - 2 ^ f.man

/-- The code of the largest finite value (Tables 11.1 and 11.2). -/
def Fmt.maxCode (f : Fmt) : Nat :=
  if f.hasInf then f.infCode - 1 else if f.hasNan then 2 ^ (f.width - 1) - 2 else 2 ^ (f.width - 1) - 1

/-- The default quiet NaN (Table 11.2); 0 for the formats without one, as conversions give it (Table 11.10). -/
def Fmt.quietNan (f : Fmt) : Nat :=
  if f.hasInf then f.infCode + 2 ^ (f.man - 1) else if f.hasNan then 2 ^ (f.width - 1) - 1 else 0

/-- The weight of the last place of the subnormal grid, as a power of two (R292). -/
def Fmt.qmin (f : Fmt) : Int := 1 - (f.bias : Int) - f.man

/-- The float format of a float type. -/
def FType.fmt : FType → Fmt
  | .f32 => .f32 | .f64 => .f64 | .f16 => .f16 | .bf16 => .bf16

/-- The float format of `fdiv` and `fsqrt`. -/
def FType2.fmt : FType2 → Fmt
  | .f32 => .f32 | .f64 => .f64

/-- The element format of the packed dot. -/
def HType.fmt : HType → Fmt
  | .f16 => .f16 | .bf16 => .bf16

/-- The source format of `cvtmx` and `kvapp`. -/
def MxSrc.fmt : MxSrc → Fmt
  | .f32 => .f32 | .bf16 => .bf16

/-- The element format of a scale group. -/
def MxElem.fmt : MxElem → Fmt
  | .e4m3 => .e4m3 | .e5m2 => .e5m2 | .e2m3 => .e2m3 | .e3m2 => .e3m2 | .e2m1 => .e2m1

end Sys2Proof

namespace Sys2Proof.Machine

/-- What a floating-point operand stands for: (−1)^neg × m × 2^e where finite (R292, R293). -/
inductive Val where
  | nan (signalling : Bool)
  | inf (neg : Bool)
  | fin (neg : Bool) (m : Nat) (e : Int)
  deriving DecidableEq, Repr

/-- A format's low bits of a token. -/
def low (f : Fmt) (x : W64) : Nat := x.toNat % 2 ^ f.width

/-- The sign bit of a code. -/
def signOf (f : Fmt) (n : Nat) : Bool := n / 2 ^ (f.width - 1) % 2 = 1

/-- The code without its sign. -/
def magOf (f : Fmt) (n : Nat) : Nat := n % 2 ^ (f.width - 1)

/-- A code with a sign put on it. -/
def withSign (f : Fmt) (neg : Bool) (mag : Nat) : Nat := if neg then 2 ^ (f.width - 1) + mag else mag

/-- The value of a code (R292, R293). -/
def readFloat (f : Fmt) (n : Nat) : Val :=
  let mag := magOf f n
  let e := mag / 2 ^ f.man
  let m := mag % 2 ^ f.man
  if f.hasInf && mag = f.infCode then .inf (signOf f n)
  else if f.hasInf && f.infCode < mag then .nan (m / 2 ^ (f.man - 1) = 0)
  else if !f.hasInf && f.hasNan && f.maxCode < mag then .nan false
  else if e = 0 then .fin (signOf f n) m f.qmin
  else .fin (signOf f n) (2 ^ f.man + m) (f.qmin + e - 1)

/-- Is the code a subnormal? -/
def isSubnormal (f : Fmt) (n : Nat) : Bool := magOf f n / 2 ^ f.man = 0 && magOf f n ≠ 0

/-- An operand as read: under `.ftz` a subnormal is a zero of its own sign (R299). -/
def flushed (f : Fmt) (ftz : Bool) (n : Nat) : Nat := if ftz && isSubnormal f n then withSign f (signOf f n) 0 else n

/-- Rounding modes (Table 11.7); stochastic rounding carries its 32 random bits (R301). -/
inductive Rounding where
  | rne | rz | rup | rdn
  | rs (r : W32)
  deriving DecidableEq, Repr

/-- An exact magnitude with its sign: m × 2^e, or with `sticky` a value strictly between it and (m + 1) × 2^e. -/
structure Exact where
  neg : Bool
  m : Nat
  e : Int
  sticky : Bool
  deriving DecidableEq, Repr

/-- An exact result: NaN, an infinity, or a number (R300). -/
inductive Ideal where
  | nan
  | inf (neg : Bool)
  | num (x : Exact)
  deriving DecidableEq, Repr

/-- Does a magnitude between grid points go up? `lo` is the lower point, `rem` / 2^sh the fraction (Table 11.7, R301). -/
def Rounding.up (r : Rounding) (neg : Bool) (lo rem sh : Nat) (sticky : Bool) : Bool :=
  let inexact : Bool := rem ≠ 0 || sticky
  match r with
  | .rne => decide (2 ^ sh < 2 * rem) || (decide (2 * rem = 2 ^ sh) && (sticky || lo % 2 = 1))
  | .rz => false
  | .rup => inexact && !neg
  | .rdn => inexact && neg
  | .rs b => inexact && decide (2 ^ 32 ≤ rem * 2 ^ 32 / 2 ^ sh + b.toNat)

/-- Rounds a magnitude to a multiple of 2^q: the multiple, and whether it differs from the exact value. -/
def Exact.onGrid (x : Exact) (r : Rounding) (q : Int) : Nat × Bool :=
  if q ≤ x.e then (x.m * 2 ^ (x.e - q).toNat, x.sticky)
  else
    let sh := (q - x.e).toNat
    let lo := x.m / 2 ^ sh
    let rem := x.m % 2 ^ sh
    (if r.up x.neg lo rem sh x.sticky then lo + 1 else lo, rem ≠ 0 || x.sticky)

/-- The result of an overflow (R297, Table 11.8). -/
def overflowCode (f : Fmt) (r : Rounding) (sat neg : Bool) : Nat :=
  let inf := f.hasInf && !sat &&
    match r with
    | .rne | .rs _ => true
    | .rz => false
    | .rup => !neg
    | .rdn => neg
  withSign f neg (if inf then f.infCode else f.maxCode)

/-- Rounds an exact number once to a format, with the flags of Table 11.9 (R296 to R298). -/
def Exact.round (x : Exact) (f : Fmt) (r : Rounding) (sat : Bool) : Nat × FlagSet :=
  if x.m = 0 && !x.sticky then (withSign f x.neg 0, 0)
  else
    let free : Int := (bitLen x.m : Int) + x.e - (f.man + 1)
    let q := max free f.qmin
    let g := x.onGrid r q
    let code := g.1 + (q - f.qmin).toNat * 2 ^ f.man
    if f.maxCode < code then (overflowCode f r sat x.neg, flagOverflow ||| flagInexact)
    else
      let t := x.onGrid r free
      let tiny : Bool := free < f.qmin && decide (t.1 * 2 ^ (free - f.qmin + 2100).toNat < 2 ^ (f.man + 2100))
      (withSign f x.neg code, flagIf g.2 flagInexact ||| flagIf (tiny && g.2) flagUnderflow)

/-- The random bits of stochastic rounding (R301). -/
def srbits (lfsr : W32) (l k : Nat) (pc x : W64) : W32 :=
  let z := mix64 (zext lfsr ^^^ (BitVec.ofNat 64 l <<< 32) ^^^ (BitVec.ofNat 64 k <<< 37) ^^^ (zext (pc.extractLsb' 4 20) <<< 42))
  lo32 (mix64 (z ^^^ x))

/-- One step of the stochastic-rounding register (R301). -/
def lfsrStep (v : W32) : W32 := (v >>> 1) ^^^ (if v.getLsbD 0 then 0x80200003 else 0)

/-- Writes an exact result in a format: the default quiet NaN, an infinity, or the rounded number, with `.ftz`
(R297, R299, R300). -/
def Ideal.write (v : Ideal) (f : Fmt) (r : Rounding) (ftz : Bool) (fl : FlagSet) : W64 × FlagSet :=
  match v with
  | .nan => (BitVec.ofNat 64 f.quietNan, fl)
  | .inf neg => (BitVec.ofNat 64 (withSign f neg f.infCode), fl)
  | .num x =>
    let o := x.round f r false
    if ftz && isSubnormal f o.1 then
      (BitVec.ofNat 64 (withSign f (signOf f o.1) 0), fl ||| o.2 ||| flagUnderflow ||| flagInexact)
    else (BitVec.ofNat 64 o.1, fl ||| o.2)

/-- Is a value a signalling NaN? -/
def Val.signals : Val → Bool
  | .nan b => b
  | _ => false

/-- Is a value a NaN? -/
def Val.isNan : Val → Bool
  | .nan _ => true
  | _ => false

/-- The sign of a value that is no NaN. -/
def Val.neg : Val → Bool
  | .nan _ => false
  | .inf n => n
  | .fin n _ _ => n

/-- Is a value a zero of either sign? -/
def Val.isZero : Val → Bool
  | .fin _ m _ => m = 0
  | _ => false

/-- Is a value finite? -/
def Val.isFinite : Val → Bool
  | .fin _ _ _ => true
  | _ => false

/-- A finite value as an exact number. -/
def Val.ideal : Val → Ideal
  | .nan _ => .nan
  | .inf n => .inf n
  | .fin n m e => .num ⟨n, m, e, false⟩

/-- The value with its sign turned. -/
def Val.flip : Val → Val
  | .nan b => .nan b
  | .inf n => .inf !n
  | .fin n m e => .fin (!n) m e

/-- The invalid flag where an operand is a signalling NaN (Table 11.9). -/
def signalling (vs : List Val) : FlagSet := flagIf (vs.any Val.signals) flagInvalid

/-- The exact product; 0 × ∞ is an invalid NaN (R371). -/
def mulVal (a b : Val) : Val × FlagSet :=
  let neg := a.neg != b.neg
  match a, b with
  | .nan _, _ => (.nan false, 0)
  | _, .nan _ => (.nan false, 0)
  | .inf _, .inf _ => (.inf neg, 0)
  | .inf _, .fin _ m _ => if m = 0 then (.nan false, flagInvalid) else (.inf neg, 0)
  | .fin _ m _, .inf _ => if m = 0 then (.nan false, flagInvalid) else (.inf neg, 0)
  | .fin _ m e, .fin _ n k => (.fin neg (m * n) (e + k), 0)

/-- The smallest exponent of the finite non-zero values of a list. -/
def minExp (vs : List Val) : Int :=
  (vs.filterMap fun v => match v with | .fin _ m e => if m = 0 then none else some e | _ => none).foldl
    (fun (a : Option Int) e => match a with | none => some e | some b => some (min b e)) none |>.getD 0

/-- A finite value in units of 2^e, for an e not above its own exponent. -/
def Val.scaled (v : Val) (e : Int) : Int :=
  match v with
  | .fin n m k => if m = 0 then 0 else if n then -((m * 2 ^ (k - e).toNat : Nat) : Int) else ((m * 2 ^ (k - e).toNat : Nat) : Int)
  | _ => 0

/-- The exact sum of a list of terms (R311, R371): NaN, an infinity, or the number; `zeroNeg` is the sign of an exact
zero. Infinite terms of both signs are an invalid NaN. -/
def sumVals (vs : List Val) (zeroNeg : Bool) : Ideal × FlagSet :=
  let pos := vs.any fun v => v = .inf false
  let neg := vs.any fun v => v = .inf true
  if pos && neg then (.nan, flagInvalid)
  else if vs.any Val.isNan then (.nan, 0)
  else if pos then (.inf false, 0)
  else if neg then (.inf true, 0)
  else
    let e := minExp vs
    let t := vs.foldl (fun (a : Int) v => a + v.scaled e) 0
    if t = 0 then (.num ⟨zeroNeg, 0, 0, false⟩, 0) else (.num ⟨t < 0, t.natAbs, e, false⟩, 0)

/-- The sign of an exact zero sum of two terms (R371). -/
def zeroSign (r : Rounding) (a b : Val) : Bool :=
  if a.isZero && b.isZero && a.neg = b.neg then a.neg else decide (r = .rdn)

/-- The integer square root, bit by bit from bit `k - 1`. -/
def isqrt (n k : Nat) : Nat :=
  (List.range k).foldl (fun r i => let t := r + 2 ^ (k - 1 - i); if t * t ≤ n then t else r) 0

/-- The exact quotient of magnitudes, to more bits than any format holds. -/
def divExact (neg : Bool) (m : Nat) (e : Int) (n : Nat) (k : Int) : Exact :=
  let up := bitLen n + 64
  let a := m * 2 ^ up
  ⟨neg, a / n, e - k - up, a % n ≠ 0⟩

/-- The exact square root of m × 2^e, to more bits than any format holds. -/
def sqrtExact (m : Nat) (e : Int) : Exact :=
  let odd := e % 2 = 1
  let n := (if odd then 2 * m else m) * 2 ^ 128
  let h := (if odd then e - 1 else e) / 2
  let r := isqrt n 128
  ⟨false, r, h - 64, r * r ≠ n⟩

/-- The exponent of a finite non-zero magnitude's leading bit. -/
def Exact.log2 (x : Exact) : Int := (bitLen x.m : Int) - 1 + x.e

end Sys2Proof.Machine
end

