-- ==== Sys2Proof/Machine/AtomicValue.lean ====
section
/-!
DEFINITION. What an atomic computes (spec/15_isa_memory.md R394 to R397, Table 15.5; spec/11_arithmetic.md R312 to R314),
over integers read and written as their types give them (spec/13_isa_block_control_integer.md R357).
-/
namespace Sys2Proof

/-- Operand width of an integer type (R357). -/
def IType.width : IType → Nat
  | .s32 | .z32 => 32
  | .s64 | .z64 => 64

/-- Is the type signed (R357)? -/
def IType.signed : IType → Bool
  | .s32 | .s64 => true
  | .z32 | .z64 => false

/-- The integer type of a logic type. -/
def ZType.toI : ZType → IType
  | .z32 => .z32
  | .z64 => .z64

/-- The operand's low w bits, as a natural number. -/
def IType.nat (t : IType) (x : W64) : Nat := x.toNat % 2 ^ t.width

/-- The operand read as the type gives: two's complement or unsigned (R357). -/
def IType.int (t : IType) (x : W64) : Int :=
  if t.signed ∧ 2 ^ (t.width - 1) ≤ t.nat x then (t.nat x : Int) - 2 ^ t.width else t.nat x

/-- A w-bit result, the bits above zero (R357). -/
def IType.wrap (t : IType) (x : Int) : W64 := BitVec.ofNat 64 (x % (2 ^ t.width : Int)).toNat

end Sys2Proof

namespace Sys2Proof.Machine

/-- a + b (R371). -/
def addIdeal (r : Rounding) (a b : Val) : Ideal × FlagSet :=
  let t := sumVals [a, b] (zeroSign r a b)
  (t.1, t.2 ||| signalling [a, b])

/-- Width of an atomic in bytes (Table 15.5). -/
def atomBytes (op : AOp) (wide : Bool) : Nat :=
  match op with
  | .addF32 => 4
  | .addF64 => 8
  | .addBf16 => 2
  | _ => if wide then 8 else 4

/-- The float format of an add, where the operation is one (Table 15.5). -/
def atomFormat : AOp → Option Fmt
  | .addF32 => some .f32
  | .addF64 => some .f64
  | .addBf16 => some .bf16
  | _ => none

/-- round(old + b) in a format, to nearest even (R396). -/
def floatSum (f : Fmt) (a b : W64) : W64 :=
  let v := addIdeal .rne (readFloat f (low f a)) (readFloat f (low f b))
  (v.1.write f .rne false 0).1

/-- The new value of an atomic (Table 15.5). -/
def atomNew (op : AOp) (wide : Bool) (old b : W64) : W64 :=
  let s : IType := if wide then .s64 else .s32
  let z : IType := if wide then .z64 else .z32
  match op with
  | .add => z.wrap (z.int old + z.int b)
  | .minS => z.wrap (min (s.int old) (s.int b))
  | .minZ => z.wrap (min (z.int old) (z.int b))
  | .maxS => z.wrap (max (s.int old) (s.int b))
  | .maxZ => z.wrap (max (z.int old) (z.int b))
  | .and => z.wrap (z.int (old &&& b))
  | .or => z.wrap (z.int (old ||| b))
  | .xor => z.wrap (z.int (old ^^^ b))
  | .exch => z.wrap (z.int b)
  | .addF32 => floatSum .f32 old b
  | .addF64 => floatSum .f64 old b
  | .addBf16 => floatSum .bf16 old b

/-- The special values of a shadow (R312). -/
def shadowNan : Int := -2 ^ 511
/-- +∞ as a shadow. -/
def shadowInf : Int := -2 ^ 511 + 1
/-- −∞ as a shadow. -/
def shadowNegInf : Int := -2 ^ 511 + 2

/-- A 512-bit two's-complement number. -/
def wrap512 (x : Int) : Int :=
  let m := x % 2 ^ 512
  if 2 ^ 511 ≤ m then m - 2 ^ 512 else m

/-- An exact add (R313). -/
def shadowAdd (x : Int) (a : Val) : Int :=
  if x = shadowNan || a.isNan then shadowNan
  else if x = shadowInf || a = .inf false then (if x = shadowNegInf || a = .inf true then shadowNan else shadowInf)
  else if x = shadowNegInf || a = .inf true then shadowNegInf
  else wrap512 (x + a.scaled (-160))

/-- The visible element of a shadow (R314). -/
def shadowValue (f : Fmt) (x : Int) : W64 :=
  if x = shadowNan then BitVec.ofNat 64 f.quietNan
  else if x = shadowInf then BitVec.ofNat 64 f.infCode
  else if x = shadowNegInf then BitVec.ofNat 64 (withSign f true f.infCode)
  else BitVec.ofNat 64 (Exact.round ⟨x < 0, x.natAbs, -160, false⟩ f .rne false).1

/-- The address of the shadow of an exact element (R251). -/
def shadowAddress (op : AOp) (a : W64) : W64 :=
  0x0000400000000000 + (if op = .addBf16 then 32 else 16) * zext (a.extractLsb' 0 41)

end Sys2Proof.Machine
end

