-- ==== Sys2Proof/Machine/NearBank.lean ====
section
/-!
DEFINITION. The near-bank units of each stack: the modes of its pseudo-channels and the row steps of its units
(spec/10_near_memory.md R270, R271, R276 to R279).
-/
namespace Sys2Proof.Machine

/-- Near-bank state after a start (Table 10.6). -/
def NearBank.reset : NearBank := ⟨0, 0, 0, 0, 0, [], []⟩

/-- A stack's near-bank state. -/
def State.nearBank (s : State) (stack : Nat) : NearBank := sget NearBank.reset s.nearBanks stack

/-- Puts a stack's near-bank state back. -/
def State.setNearBank (s : State) (stack : Nat) (n : NearBank) : State :=
  { s with nearBanks := sset NearBank.reset s.nearBanks stack n }

/-- Bits set in a mask. -/
def countBits (x : W64) : Nat := ((List.range 64).filter fun i => x.getLsbD i).length

/-- Adds switches to a saturating counter (Table 10.6). -/
def satAdd32 (a b : Nat) : Nat := Nat.min (a + b) 0xffffffff

/-- A request for normal or compute mode (R276, R278). -/
def NearBank.request (n : NearBank) (compute : Bool) (mask : W64) : NearBank :=
  if compute then
    let late := mask &&& n.pending
    let now := mask &&& ~~~n.pending &&& ~~~n.cmode
    { n with cmode := n.cmode ||| now, recompute := n.recompute ||| late, switches := satAdd32 n.switches (countBits now) }
  else { n with pending := n.pending ||| (mask &&& n.cmode), recompute := n.recompute &&& ~~~mask }

/-- A deferred switch of some pseudo-channels to normal takes effect, their units' row steps over (R278); those asked back to
compute mode go there. -/
def NearBank.complete (n : NearBank) (mask : W64) : NearBank :=
  let done := mask &&& n.pending
  let back := done &&& n.recompute
  { n with
    cmode := (n.cmode &&& ~~~done) ||| back
    pending := n.pending &&& ~~~done
    recompute := n.recompute &&& ~~~done
    switches := satAdd32 n.switches (countBits done + countBits back)
    rows := n.rows.filter fun u => !done.getLsbD (u / 4)
    held := n.held.filter fun u => !done.getLsbD (u / 4) }

/-- Pseudo-channel of a window offset, counted over the stack, with its bank group (R270, Table 8.4). -/
def nbUnit (o : Nat) : Nat := (8 * Nat.xor (bits o 11 7) (bits o 20 16)) + 4 * bits o 6 6 + bits o 13 12

/-- An ordinary access reaches the DRAM bank of a physical address. It waits until the bank's unit has ended its row step,
which counts it in `STALLS` (R277), and until a pending switch of its pseudo-channel has taken effect (R278): both have
happened when it is served, and the access's own step performs them. The unit reopens its row afterwards. -/
def NearBank.serve (n : NearBank) (phys : Nat) : NearBank :=
  let u := nbUnit phys
  let n := if n.rows.contains u then
      { n with rows := n.rows.filter fun x => x ≠ u, held := n.held ++ [u], stalls := satAdd32 n.stalls 1 }
    else n
  n.complete ((1 : W64) <<< (u / 4))

/-- The units that have served what they held go on with the next row step (R277). -/
def NearBank.reopen (n : NearBank) : NearBank := { n with rows := n.rows ++ n.held, held := [] }

/-- An ordinary access of a line by its DRAM bank: where `sure`, because it is performed at the controller (R217, R261), and
otherwise where it passes the caches above, which are not modelled: which ones do is free (log 56). -/
def State.reachBank (s : State) (sure : Bool) (phys : Nat) : State :=
  let k := phys / Config.stackBytes % 16
  { s with nearBanks :=
      if sure || Config.reachesDram s.stepNo phys then sset NearBank.reset s.nearBanks k ((s.nearBank k).serve phys) else s.nearBanks }

end Sys2Proof.Machine
end

