-- ==== Sys2Proof/Machine/Memory.lean ====
section
/-!
DEFINITION. The memory system: address windows (spec/08_memory_hierarchy.md R200, R201), translation
(spec/04_host_interface.md R100 to R103), the places writes are performed and when they arrive on each die
(spec/09_memory_model.md R229 to R238), the first-level cache (R205, R206) and the stash (R211 to R216).
-/
namespace Sys2Proof

/-- Ranks of the scopes, narrowest first (R9). -/
def Scope.rank : Scope → Nat
  | .wrp => 0 | .cor => 1 | .cls => 2 | .die => 3 | .pkg => 4 | .pod => 5 | .sys => 6

/-- Where a load is performed (Table 15.2). -/
inductive LoadAt where
  | l1 | l2 | home
  deriving DecidableEq, Repr

/-- Where an acquire load is performed, by its scope (R224). -/
def Scope.loadAt : Scope → LoadAt
  | .wrp | .cor => .l1
  | .cls | .die => .l2
  | _ => .home

end Sys2Proof

namespace Sys2Proof.Machine

/-- Kinds of access that `access` checks (Table 12.10). -/
inductive AKind where
  | read | write | fetch | atomic
  deriving DecidableEq, Repr

/-- Does the access need write permission? -/
def AKind.writes : AKind → Bool
  | .write | .atomic => true
  | _ => false

/-- What a check answers: the places, a fault with its address, an absent page, or a wait for an ATS completion. -/
inductive Res (α : Type) where
  | ok (v : α)
  | bad (c : Cause) (a : W64)
  | absent (page : Nat)
  | wait
  deriving DecidableEq, Repr

/-- Goes on with the answer of a check that passed. -/
def Res.bind {α β : Type} (r : Res α) (f : α → Res β) : Res β :=
  match r with
  | .ok v => f v
  | .bad c a => .bad c a
  | .absent p => .absent p
  | .wait => .wait

/-- First byte of the scratch window (Table 8.2). -/
def scratchBase : Nat := 0xffffff0000000000
/-- First byte of the cluster scratch window (Table 8.2). -/
def clusterBase : Nat := 0xffffff0000800000

/-- The address windows of Table 8.2. -/
inductive AddrWindow where
  | global | scratch | cluster
  deriving DecidableEq, Repr

/-- The window of an address (R200). -/
def windowOf (a : Nat) : AddrWindow :=
  if scratchBase ≤ a ∧ a < clusterBase then .scratch
  else if clusterBase ≤ a ∧ a < clusterBase + 0x400000 then .cluster
  else .global

/-- Bits [63:48] all equal bit 47 (R100). -/
def canonical (a : Nat) : Bool := a < 2 ^ 47 || (2 ^ 64 - 2 ^ 47 ≤ a && a < 2 ^ 64)

/-- Home die of a physical address (Table 8.4). -/
def homeDie (phys : Nat) : Nat := phys / 2 ^ 38 % 4

/-- Stack of a physical address (Table 8.4). -/
def stackOf (phys : Nat) : Nat := phys / 2 ^ 36 % 16

/-- Home slice of a physical address (R204). -/
def homeSlice (phys : Nat) : Nat :=
  Nat.xor (Nat.xor (bits phys 9 6) (bits phys 13 10)) (Nat.xor (bits phys 17 14) (bits phys 21 18))

/-- The physical line of an address. -/
def lineOf (phys : Nat) : Nat := phys / 64 * 64

/-- Bytes of each stack's undo region (R203). -/
def State.undoBytes (s : State) : Nat :=
  (2 ^ 36 * s.calends.fraction + 1000 * 2 ^ 21 - 1) / (1000 * 2 ^ 21) * 2 ^ 21

/-- Lines that the undo region of a stack holds (R67). -/
def State.undoLines (s : State) (stack : Nat) : List UndoLine := s.calends.lines.filter fun u => u.stack = stack

/-- Is the undo region of a stack full (R68)? -/
def State.undoFull (s : State) (stack : Nat) : Bool := decide (s.undoBytes ≤ 64 * (s.undoLines stack).length)

/-- First writes stop waiting for a region that has room again (R68). -/
def State.settleWaits (s : State) : State :=
  { s with calends := { s.calends with waits := s.calends.waits.filter fun x => s.undoFull x.2.1 } }

/-- May a leaf's frame lie there (R203)? -/
def State.frameOk (s : State) (phys : Nat) : Bool :=
  phys < Config.hbmBytes && phys % 2 ^ 36 < 2 ^ 36 - s.undoBytes

/-- A table entry in HBM: entry `idx` of the table at a physical address. -/
def State.tableEntry (s : State) (table idx : Nat) : Nat := leNat (getBytes s.hbm (table + 8 * idx) 8)

/-- What a table walk meets (R100, R101): a leaf entry with its own address and the physical address of the 4 KiB page, an
absent page (with `PIN`), or a malformed entry. -/
inductive Walk where
  | leaf (entry entryAddr phys : Nat)
  | absent (pin : Bool)
  | malformed
  deriving DecidableEq, Repr

/-- Bits [51:12] of an entry, in place. -/
def entryFrame (e : Nat) : Nat := bits e 51 12 * 4096

/-- Does the entry have the attribute bit? -/
def entryBit (e i : Nat) : Bool := e / 2 ^ i % 2 = 1

/-- The sixteen entries of a `C64` group agree in attributes and hold consecutive frames (R101). -/
def State.c64Ok (s : State) (table idx : Nat) : Bool :=
  let first := s.tableEntry table (idx / 16 * 16)
  (List.range 16).all fun i =>
    let e := s.tableEntry table (idx / 16 * 16 + i)
    e % 4096 = first % 4096 && e / 2 ^ 60 = 0 && (entryBit first 8 || entryFrame e = entryFrame first + 4096 * i)

/-- Walks the tables for 4 KiB page `page` from the table of `level` down (R100, R101). -/
def State.walk (s : State) : Nat → Nat → Nat → Walk
  | 0, _, _ => .malformed
  | below + 1, table, page =>
    let idx := page / 2 ^ (9 * below) % 512
    let e := s.tableEntry table idx
    if Config.hbmBytes ≤ table then .malformed
    else if !entryBit e 0 then .absent (entryBit e 10)
    else if e / 2 ^ 60 ≠ 0 then .malformed
    else if entryBit e 3 then
      let size := 2 ^ (9 * below)
      let phys := entryFrame e / (4096 * size) * (4096 * size) + page % size * 4096
      if below = 3 then .malformed
      else if below = 0 && entryBit e 4 && !s.c64Ok table idx then .malformed
      else if !entryBit e 8 && !s.frameOk phys then .malformed
      else if entryBit e 11 && !entryBit e 8 &&
          !(List.range 4).all (fun d => s.frameOk (setBits phys 39 38 d)) then .malformed
      else .leaf e (table + 8 * idx) phys
    else if below = 0 then .malformed
    else s.walk below (entryFrame e) page

/-- The attributes of a leaf entry (Table 4.15). -/
def entryAttr (e : Nat) : PageAttr where
  w := entryBit e 1
  x := entryBit e 2
  exact := entryBit e 5
  memside := entryBit e 6
  kv := entryBit e 7
  pin := entryBit e 10
  repl := entryBit e 11

/-- A translated 4 KiB page: its base in HBM, or on a host. -/
inductive PageBase where
  | dev (base : Nat) (attr : PageAttr)
  | host (port : Bool) (base : Nat) (attr : PageAttr)
  deriving DecidableEq, Repr

/-- Is the page mapped to a host (R34)? -/
def PageBase.isHost : PageBase → Bool
  | .dev .. => false
  | .host .. => true

/-- The attributes of a translated page. -/
def PageBase.attr : PageBase → PageAttr
  | .dev _ a => a
  | .host _ _ a => a

/-- The translation of a 4 KiB page: a walk of the tables, or a translation that the device still caches (R102). Which of
the two is not given where they differ (log 22). -/
def State.lookup (s : State) (c : Context) (page : Nat) : Walk :=
  match s.tlb.find? fun t => t.ctx = c.num && t.page = page with
  | none => s.walk 4 c.root page
  | some t => if Config.usesCached s.stepNo page then .leaf t.entry t.entryAddr t.phys else s.walk 4 c.root page

/-- The device caches the translation of a page, where its entry has `V` set (R102). -/
def State.cacheTranslation (s : State) (ctx page : Nat) : List TlbLine :=
  match s.context? ctx with
  | none => s.tlb
  | some c => match s.walk 4 c.root page with
    | .leaf e a phys => (s.tlb.filter fun t => !(t.ctx = ctx && t.page = page)) ++ [⟨ctx, page, e, a, phys⟩]
    | _ => s.tlb

/-- Translates a 4 KiB page of a context for an access made on a die (R34, R100 to R103, R237). -/
def State.translate (s : State) (ctx die : Nat) (kind : AKind) (page : Nat) : Res PageBase :=
  match s.context? ctx with
  | none => .bad .address 0
  | some c =>
    match s.lookup c (page % 2 ^ 36) with
    | .malformed => .bad .pageTable 0
    | .absent pin => if pin then .bad .pageFault 0 else .absent page
    | .leaf e _ phys =>
      let attr := entryAttr e
      if kind.writes && !attr.w then .bad .protection 0
      else if kind = .fetch && !attr.x then .bad .protection 0
      else if entryBit e 8 then
        let port := if c.secondPort then entryBit e 9 else c.vf.port
        match s.ats.find? fun t => t.die = die && t.ctx = ctx && t.page = page && t.port = port with
        | some ⟨_, _, _, _, none⟩ => .bad .pageFault 0
        | some ⟨_, _, _, _, some t⟩ =>
          if kind.writes && !t.writable then (if attr.pin then .bad .pageFault 0 else .absent page)
          else .ok (.host port t.frame attr)
        | none =>
          match s.pageRequests.find? fun r => r.ctx = ctx && r.page = page && !r.answered with
          | some r => if attr.pin || decide (3 ≤ r.successes) then .bad .pageFault 0 else .absent page
          | none => .wait
      else .ok (.dev (if attr.repl then setBits phys 39 38 die else phys) attr)

/-- The refusals that a die remembers of pages of a context are gone (R102, R103): the next access asks the host again. -/
def State.dropRefusals (s : State) (ctx : Nat) (p : Nat → Bool) : State :=
  if s.ats.all fun t => t.entry.isSome then s
  else { s with ats := s.ats.filter fun t => t.entry.isSome || t.ctx ≠ ctx || !p t.die }

/-- Translates a page for an access that the device makes on a context's behalf, which asks the owning host itself where no
translation is cached (R34, R82, R83, R472; log 53). -/
def State.translateNow (s : State) (ctx die : Nat) (kind : AKind) (page : Nat) : Res PageBase :=
  match (s.dropRefusals ctx fun _ => true).translate ctx die kind page with
  | .wait =>
    match s.context? ctx with
    | none => .bad .address 0
    | some c =>
      match s.lookup c (page % 2 ^ 36) with
      | .leaf e _ _ =>
        let port := if c.secondPort then entryBit e 9 else c.vf.port
        match Config.hostEntry s.stepNo port c.pasid page with
        | some t => if kind.writes && !t.writable then .absent page else .ok (.host port t.frame (entryAttr e))
        | none => .absent page
      | _ => .wait
  | r => r

/-- The place of byte `off` of a translated page. -/
def PageBase.place (p : PageBase) (off : Nat) : Place :=
  match p with
  | .dev base attr => .hbm (base + off) attr
  | .host port base _ => .host port (base + off)

/-- The places of bytes [x, x + n) of the global window, page by page as `tr` translates them; an address that is not
canonical names none (R100). -/
def placesBy (tr : Nat → Res PageBase) (x n : Nat) : Res (List Place) :=
  if !(canonical x && canonical (x + n - 1)) then .bad .address 0 else
  (List.range ((x + n - 1) / 4096 - x / 4096 + 1)).foldl (fun acc i =>
    acc.bind fun ps =>
      let page := x / 4096 + i
      (tr page).bind fun p =>
        let lo := Nat.max x (page * 4096)
        let hi := Nat.min (x + n) (page * 4096 + 4096)
        .ok (ps ++ (List.range (hi - lo)).map fun k => p.place (lo - page * 4096 + k))) (.ok [])

/-- The places of an access of a thread to the global window (R100). -/
def State.globalPlaces (s : State) (ctx die : Nat) (kind : AKind) (x n : Nat) : Res (List Place) :=
  placesBy (s.translate ctx die kind) x n

/-- The places of an access that the device makes on a context's behalf (R472). -/
def State.devPlaces (s : State) (ctx die : Nat) (kind : AKind) (x n : Nat) : Res (List Place) :=
  placesBy (s.translateNow ctx die kind) x n

/-- The window of a running call (R260). -/
def State.callWindow? (s : State) (p : PierRef) : Option Window :=
  match s.calls.find? fun c => c.stack = p.stack && c.id = p.call with
  | none => none
  | some c => s.windows.find? fun w => w.ctx = c.ctx && w.stack = c.stack && w.idx = c.windowIdx

/-- The attributes of a byte of a near-memory window: memory-side, with the bits captured at binding (R99, R261). -/
def Window.attrAt (w : Window) (off : Nat) : PageAttr :=
  ⟨w.writable, (w.exec[off / 4096]?).getD false, (w.exact[off / 4096]?).getD false, true, false, true, false⟩

/-- The checks of a pier access (R260). -/
def State.pierPlaces (s : State) (p : PierRef) (kind : AKind) (x n : Nat) : Res (List Place) :=
  match s.callWindow? p with
  | none => .bad .bounds (BitVec.ofNat 64 x)
  | some w =>
    if w.len < x + n ∨ 2 ^ 34 ≤ x then .bad .bounds (BitVec.ofNat 64 x)
    else if kind.writes && !w.writable then .bad .protection (BitVec.ofNat 64 x)
    else if !kind.writes && !w.readable then .bad .protection (BitVec.ofNat 64 x)
    else if kind = .fetch && !(List.range n).all fun i => (w.attrAt (x + i)).x then
      .bad .protection (BitVec.ofNat 64 x)
    else .ok ((List.range n).map fun i => .hbm (w.phys + x + i) (w.attrAt (x + i)))

/-- The checks of an access in the scratch and cluster scratch windows, after the crossing and alignment checks
(R200, R201). -/
def State.windowPlaces (s : State) (who : Issuer) (x n : Nat) : Res (List Place) :=
  let a := BitVec.ofNat 64 x
  match windowOf x with
  | .scratch =>
    let off := x - scratchBase
    if off < 0x400000 ∨ who.pier.isSome then
      match who.scratch with
      | none => .bad .address a
      | some (base, len) =>
        if off + n ≤ len then .ok ((List.range n).map fun i => .store who.warp.core (base + off + i))
        else .bad .address a
    else
      let slot := (off - 0x400000) / 0x10000
      let r := off % 0x10000
      match s.warp? ⟨who.warp.core, slot⟩ with
      | none => .bad .register a
      | some w =>
        let off' : Bool := match w.status with | .offCore .. => true | _ => false
        if w.ctx ≠ who.ctx ∨ off' ∨ w.regionSize < r + n then .bad .register a
        else .ok ((List.range n).map fun i => .regWin slot (r + i))
  | _ =>
    let off := x - clusterBase
    match who.clusterScratch.find? fun c => c.1 % 4 = off / 0x100000 with
    | none => .bad .address a
    | some (core, base, len) =>
      if off % 0x100000 + n ≤ len then .ok ((List.range n).map fun i => .store core (base + off % 0x100000 + i))
      else .bad .address a

/-- The checks of R100 to R103, R201 and R260 for `n` bytes at `a`, in their order; the places of the bytes. -/
def State.access (s : State) (who : Issuer) (kind : AKind) (a : W64) (n : Nat) : Res (List Place) :=
  let x := a.toNat
  let y := (x + n - 1) % 2 ^ 64
  match who.pier with
  | some p =>
    if windowOf x = .scratch then
      if windowOf y ≠ .scratch then .bad .windowCrossing a
      else if 4 ≤ n ∧ x % 4 ≠ 0 then .bad .alignment a
      else s.windowPlaces who x n
    else s.pierPlaces p kind x n
  | none =>
    if windowOf x ≠ windowOf y then .bad .windowCrossing a
    else if windowOf x ≠ .global then
      if 4 ≤ n ∧ x % 4 ≠ 0 then .bad .alignment a else s.windowPlaces who x n
    else if !(canonical x && canonical y && x + n - 1 < 2 ^ 64) then .bad .address a
    else
      match s.globalPlaces who.ctx (coreDie who.warp.core) kind x n with
      | .bad c _ => .bad c a
      | r => r

/-- The location of a place, whatever attributes it was reached with. -/
def Place.key : Place → Nat × Nat
  | .hbm p _ => (0, p)
  | .store c o => (1, c * Config.storeSpan + o)
  | .regWin slot o => (2, slot * 0x10000 + o)
  | .host port a => (3, (if port then 2 ^ 64 else 0) + a)

/-- Is the byte performed at its line's controller (R217, R261)? -/
def Place.memside : Place → Bool
  | .hbm _ a => a.memside
  | _ => false

/-- The performed value of a byte of HBM, at its home. -/
def State.homeByte (s : State) (phys : Nat) : Byte := sget 0 s.hbm phys

/-- What the L2 of a die shows of a byte: the value before the oldest write that has not arrived there (R232). -/
def State.l2Byte (s : State) (die phys : Nat) : Byte :=
  match s.unarrived.find? fun u => u.die = die && u.phys = phys with
  | some u => u.old
  | none => s.homeByte phys

/-- Is the line poisoned (R66)? -/
def State.isPoisoned (s : State) (phys : Nat) : Bool := s.poisoned.contains (lineOf phys)

/-- Keeps the old contents of a line that a context first writes in its calends (R67). Before its first boundary a context
has no calends, and nothing is kept (log 42). -/
def State.logUndo (s : State) (ctx : Nat) (line : Nat) : State :=
  match s.context? ctx with
  | none => s
  | some c =>
    let kept := fun (u : UndoLine) => !u.former && decide (u.ctx = ctx) && decide (u.boundary = c.boundary) && decide (u.line = line)
    if c.boundary = 0 ∨ s.calends.lines.any kept then s
    else
      let old := (List.range 64).map fun i => s.homeByte (line + i)
      let place : Place := .hbm line ⟨true, false, false, false, false, true, false⟩
      { s with calends := { s.calends with lines := s.calends.lines ++ [⟨stackOf line, false, ctx, c.boundary, place, line, old⟩] } }

/-- Is a clock at most another, counter by counter (R234)? -/
def clockLe (a b : List Nat) : Bool := (List.range 4).all fun i => decide ((a[i]?).getD 0 ≤ (b[i]?).getD 0)

/-- Raises each counter of one clock to at least another's (R234). -/
def clockMax (a b : List Nat) : List Nat := (List.range 4).map fun i => Nat.max ((a[i]?).getD 0) ((b[i]?).getD 0)

/-- A clock with 1 added to counter `d`. -/
def clockNext (a : List Nat) (d : Nat) : List Nat := (List.range 4).map fun i => (a[i]?).getD 0 + (if i = d then 1 else 0)

/-- The vector clock of a die (R234). -/
def State.clock (s : State) (die : Nat) : List Nat := (s.clocks[die]?).getD [0, 0, 0, 0]

/-- Sets a die's clock. -/
def State.setClock (s : State) (die : Nat) (c : List Nat) : State :=
  { s with clocks := (List.range 4).map fun d => if d = die then c else s.clock d }

/-- Adds 1 to die `d`'s counter of its own clock; the counters have 32 bits (R234). -/
def State.tickClock (s : State) (d : Nat) : State := s.setClock d ((clockNext (s.clock d) d).map fun n => n % 2 ^ 32)

/-- What the reads and writes of a warp must follow (R224, R229, R233). -/
def State.reader (s : State) (id : WarpId) : Reader := (s.readers.find? fun r => r.warp = id).getD ⟨id, [], [], [], [], []⟩

/-- Changes what the reads and writes of a warp must follow. -/
def State.onReader (s : State) (id : WarpId) (f : Reader → Reader) : State :=
  { s with readers := (s.readers.filter fun r => r.warp ≠ id) ++ [f (s.reader id)] }

/-- The key in `floors` of a byte that a lane has read, or that every lane follows (lane 32). -/
def floorKey (phys lane : Nat) : Nat := 33 * phys + lane

/-- A lane of a reader, or every lane where it is 32, reads some bytes no earlier than at a moment (R229). -/
def Reader.raise (r : Reader) (lane moment : Nat) (phys : List Nat) : Reader :=
  { r with floors := phys.foldl (fun m x => sset 0 m (floorKey x lane) (Nat.max moment (sget 0 m (floorKey x lane)))) r.floors }

/-- The readers that `p` picks read some bytes no earlier than now (R229). -/
def State.raiseFloors (s : State) (p : Reader → Bool) (phys : List Nat) : State :=
  { s with readers := update p (fun r => r.raise 32 s.moments phys) s.readers }

/-- The writes that have not arrived everywhere, by the numbers that causes name (R233). -/
def State.underway (s : State) : List Nat := dedup (s.unarrived.map fun u => u.id)

/-- A warp has learned of some writes: those that matter are still on their way, or pending (R233). -/
def State.learn (s : State) (id : WarpId) (ids : List Nat) : State :=
  let matter := s.underway ++ s.writes.map fun q => q.seq
  if ids.all fun i => !matter.contains i then s
  else s.onReader id fun r => { r with knows := dedup ((r.knows ++ ids).filter matter.contains) }

/-- The write whose value a die's L2 shows of a byte, while it is still on its way elsewhere, and what precedes it (R233). -/
def State.source (s : State) (die phys : Nat) : List Nat :=
  let arrived := s.unarrived.filter fun u => u.phys = phys && s.unarrived.all fun v => v.die ≠ die || v.id ≠ u.id
  match arrived.getLast? with
  | some u => u.id :: u.cause
  | none => []

/-- The latest write of a byte in coherence order, while it is on its way anywhere, and what precedes it (R233). -/
def State.latest (s : State) (phys : Nat) : List Nat :=
  match (s.unarrived.filter fun u => u.phys = phys).getLast? with
  | some u => u.id :: u.cause
  | none => []

/-- A new moment of some dies' L2, or of the controllers (4): what they show of some bytes now is what they showed before
(R219, R221, R268). -/
def State.newMoment (s : State) (dies phys : List Nat) : State :=
  { s with
    moments := s.moments + 1
    past := s.past ++ (dies.map fun d => phys.map fun p => (⟨s.moments + 1, d, p, s.l2Byte d p⟩ : Past)).flatten }

/-- What the L2 of a die showed of a byte at a moment (R219, R221). -/
def State.l2At (s : State) (die phys moment : Nat) : Byte :=
  match s.past.find? fun x => decide (moment < x.moment) && x.die = die && x.phys = phys with
  | some x => x.old
  | none => s.l2Byte die phys

/-- The stash copies on a die show what its L2 shows of some bytes, except where they are dirty (R229). -/
def State.refreshStash (s : State) (die : Nat) (phys : List Nat) : State :=
  { s with stashLines := update (fun l => decide (coreDie l.core = die) && phys.any fun x => lineOf x = l.line) (fun l =>
      { l with bytes := l.bytes.zipIdx.map fun b =>
          if phys.contains (l.line + b.2) && !l.dirty.contains b.2 then s.l2Byte die (l.line + b.2) else b.1 }) s.stashLines }

/-- Does a write arrive on each die no later than another that has `cause` and `stamp`: because it causally precedes it
(R233), or because the other's stamp shows that its sender had seen it (R234)? -/
def Unarrived.before (u : Unarrived) (cause stamp : List Nat) : Bool :=
  cause.contains u.id || (u.stamp != [] && stamp != [] && clockLe u.stamp stamp)

/-- Of the writes that have not arrived on a die, those that arrive with the ones `p` picks: a write arrives whole, after
every earlier write of one of its bytes and every write that precedes it (R229, R233, R234). Answers the numbers of the
writes. -/
def arriving (us : List Unarrived) (p : Unarrived → Bool) : List Nat :=
  (dedup (us.map fun u => u.seq)).foldr (fun q later =>
    let mine := us.filter fun u => u.seq = q
    let after := us.filter fun u => later.contains u.seq
    if mine.any fun v => p v || after.any fun u => v.phys = u.phys || v.before u.cause u.stamp then q :: later else later) []

/-- The writes that `p` picks arrive on a die, with those before them: the die's clock is raised (R234). What a thread of the
die was owed, every thread of the die reads from then on (R229; log 21). -/
def State.arriveOn (s : State) (die : Nat) (p : Unarrived → Bool) : State :=
  let here := s.unarrived.filter fun u => u.die = die
  if here.all fun u => !p u then s
  else
    let seqs := arriving here p
    let gone := here.filter fun u => seqs.contains u.seq
    let s := s.newMoment [die] (dedup (gone.map fun u => u.phys))
    let s := foldState s gone fun s u => s.setClock die (clockMax (s.clock die) u.stamp)
    let s := { s with unarrived := s.unarrived.filter fun u => !(decide (u.die = die) && seqs.contains u.seq) }
    let s := s.raiseFloors (fun r => coreDie r.warp.core = die) ((gone.filter fun u => u.due).map fun u => u.phys)
    s.refreshStash die (gone.map fun u => u.phys)

/-- Every write arrives on the dies that `p` picks (R232). -/
def State.arriveAll (s : State) (p : Nat → Bool) : State :=
  foldState s ((List.range 4).filter p) fun s d => s.arriveOn d fun _ => true

/-- A read performed at a byte's home for a thread of a die (R224): what the thread has obtained, the die's next read of
the byte obtains too (R229), and where it was a release, everything before the release is visible with it (R227). -/
def State.obtain (s : State) (die phys : Nat) : State :=
  match (s.unarrived.filter fun u => u.die = die && u.phys = phys).getLast? with
  | none => s
  | some u =>
    let owed := fun (v : Unarrived) => decide (v.die = die) && (decide (v.phys = phys) || (u.rel && u.cause.contains v.id))
    { s with unarrived := update owed (fun v => { v with due := true }) s.unarrived }

/-- What a write carries beside its bytes: the stamp it has (R234), or the clock of its die when its block committed, from
which its stamp is made; whether it is a release at `.pkg` or wider, and whether it is the write of an atomic, which carries
on the release sequence of the write it read (R227); the store instruction, copy or write-back of which it is a part (R210);
what it causally follows (R233), its own number, and the warp that makes it. -/
structure WriteTag where
  stamp : Option (List Nat) := none
  base : Option (List Nat) := none
  rel : Bool := false
  rmw : Bool := false
  group : Option Nat := none
  cause : List Nat := []
  id : Option Nat := none
  by_ : Option WarpId := none
  deriving DecidableEq, Repr

/-- The bytes that a write by a die leaves not yet arrived on the dies other than its own and the home `h` (R232). What
precedes it arrives first where it arrives itself (R233, R234). -/
def State.spread (s : State) (h die : Nat) (stamp : List Nat) (tag : WriteTag) (cells : List (Nat × Byte)) : State :=
  let first := fun (u : Unarrived) => (cells.any fun c => c.1 = u.phys) || u.before tag.cause stamp
  let s := foldState s (dedup [h, die]) fun s d => s.arriveOn d first
  let goesOn := fun (d p : Nat) => tag.rmw &&
    ((s.unarrived.filter fun u => u.die = d && u.phys = p).getLast?.map fun u => u.rel).getD false
  let id := tag.id.getD s.nextWrite
  let late := ((List.range 4).filter fun d => d ≠ h && d ≠ die).map fun d => cells.map fun c =>
    (⟨d, c.1, s.homeByte c.1, s.nextWrite, id, tag.by_, stamp, tag.cause, tag.rel || goesOn d c.1, false⟩ : Unarrived)
  { s with unarrived := s.unarrived ++ late.flatten }

/-- The bits of a line's 64 bytes that some offsets name. -/
def byteMask (offsets : List Nat) : W64 := offsets.foldl (fun m o => m ||| ((1 : W64) <<< (o % 64))) 0

/-- The bytes of a line that a write has covered so far, of the instruction, copy or write-back that `group` names (R210). -/
def State.covered (s : State) (line : Nat) (group : Option Nat) : W64 :=
  match group with
  | none => 0
  | some g => ((s.rewritten.find? fun x => x.1 = line && x.2.1 = g).map fun x => x.2.2).getD 0

/-- The poison of a line goes with a write of the whole line, and with no smaller one (R66, R210, R289, R291). The lanes of
one store instruction and the elements of one copy are one write for that purpose (log 52). -/
def State.heal (s : State) (group : Option Nat) (cells : List (Nat × Byte)) : State :=
  foldState s ((dedup (cells.map fun c => lineOf c.1)).filter fun l => s.poisoned.contains l) fun s l =>
    let m := s.covered l group ||| byteMask ((cells.filter fun c => lineOf c.1 = l).map Prod.fst)
    if m = BitVec.allOnes 64 then
      { s with poisoned := s.poisoned.filter fun x => x ≠ l, rewritten := s.rewritten.filter fun x => x.1 ≠ l }
    else match group with
      | none => s
      | some g => { s with rewritten := (s.rewritten.filter fun x => !(x.1 = l && x.2.1 = g)) ++ [(l, g, m)] }

/-- A line that a warp watches, on chip or saved, has been written: its back-off level will not rise (R121). -/
def State.breakWatches (s : State) (lines : List Nat) : State :=
  let watching := fun (w : Warp) => match w.watch with | some l => lines.contains l | none => false
  let clear := update watching fun w => { w with lastWatch := none }
  let savedIn := fun (c : Context) => ((c.saved.map fun v => v.warps).getD []).any watching
  { s with
    warps := clear s.warps
    contexts := update savedIn (fun c => { c with saved := c.saved.map fun v => { v with warps := clear v.warps } }) s.contexts }

/-- Writes bytes of lines whose home is die `h`, by die `die`: the old contents go to the undo log (R67), the home's clock
is raised (R234), a replica line keeps its stamp (R238), and from then on the home and the writing die show the bytes. -/
def State.writeHome (s : State) (h die : Nat) (ctx : Option Nat) (memside repl : Bool) (stamp : List Nat) (tag : WriteTag)
    (cells : List (Nat × Byte)) : State :=
  if cells = [] then s
  else
    let lines := dedup (cells.map fun c => lineOf c.1)
    let s := match ctx with
      | none => s
      | some c => foldState s lines fun s l => s.logUndo c l
    let s := if stamp = [] then s else s.setClock h (clockMax (s.clock h) stamp)
    let s := if repl then { s with stamps := foldState s.stamps lines fun t l => sset (0, []) t l (die, stamp) } else s
    let s := if memside then s.newMoment [4] (cells.map Prod.fst)
      else (s.spread h die stamp tag cells).newMoment (dedup [h, die]) (cells.map Prod.fst)
    let s := (s.breakWatches lines).heal tag.group cells
    let s := { s with nextWrite := s.nextWrite + 1, hbm := cells.foldl (fun m c => sset 0 m c.1 c.2) s.hbm }
    if memside then s else foldState s (dedup [h, die]) fun s d => s.refreshStash d (cells.map Prod.fst)

/-- The stamp of a write (R234): the one it was given, or the die's clock with its own counter ticked, where it crosses Span or
goes to a replicated line; none otherwise. A write of a committed block shows of the other dies what its die had seen when
the block committed. -/
def State.stampFor (s : State) (die : Nat) (repl : Bool) (phys : List Nat) (tag : WriteTag) : State × List Nat :=
  match tag.stamp with
  | some c => (s, c)
  | none =>
    if repl || phys.any fun p => homeDie p ≠ die then
      let t := s.tickClock die
      let own := t.clock die
      (t, match tag.base with | some c => (List.range 4).map fun i => ((if i = die then own else c)[i]?).getD 0 | none => own)
    else (s, [])

/-- Performs a write of HBM, at the home of each of its bytes (R229). -/
def State.storeHome (s : State) (die : Nat) (ctx : Option Nat) (memside repl : Bool) (cells : List (Nat × Byte))
    (tag : WriteTag := {}) : State :=
  let r := s.stampFor die repl (cells.map Prod.fst) tag
  let s := foldState r.1 (dedup (cells.map fun c => lineOf c.1)) fun s l => s.reachBank memside l
  foldState s (List.range 4) fun s h => s.writeHome h die ctx memside repl r.2 tag (cells.filter fun c => homeDie c.1 = h)

/-- Writes back the dirty bytes of a stash line as one store (R212). -/
def State.stashWriteBack (s : State) (l : StashLine) : State :=
  let s := s.storeHome (coreDie l.core) (some l.ctx) false false (l.dirty.map fun i => (l.line + i, (l.bytes[i]?).getD 0))
    { rel := l.rel, cause := l.cause }
  s.raiseFloors (fun r => r.warp.core = l.core) (l.dirty.map fun i => l.line + i)

/-- Evicts the stash copies of a line that `p` picks, writing dirty bytes back first (R212, R214). -/
def State.evictStash (s : State) (line : Nat) (p : StashLine → Bool) : State :=
  let hit := s.stashLines.filter fun l => l.line = line && p l
  let s := foldState s hit fun s l => s.stashWriteBack l
  { s with stashLines := s.stashLines.filter fun l => !(l.line = line && p l) }

/-- Writes back the dirty stash lines that `p` picks and leaves them shared (R212, R214). -/
def State.stashClean (s : State) (p : StashLine → Bool) : State :=
  let hit := s.stashLines.filter fun l => p l && l.dirty != []
  if hit = [] then s
  else
    let s := foldState s hit fun s l => s.stashWriteBack l
    { s with stashLines := update p (fun l => { l with dirty := [], rel := false, cause := [] }) s.stashLines }

/-- A read probe on a die: its stash copies of the line write back and stay shared (R214). -/
def State.probeRead (s : State) (die line : Nat) : State := s.stashClean fun l => l.line = line && coreDie l.core = die

/-- Performs bytes of HBM: the stash copies of their lines on the writing die and on the home die are evicted first, since
the write passes the slices of both (R207, R214), unless it is memory-side. -/
def State.performHbm (s : State) (die : Nat) (ctx : Option Nat) (memside repl : Bool) (cells : List (Nat × Byte))
    (tag : WriteTag := {}) : State :=
  let s := if memside then s
    else foldState s (dedup (cells.map fun c => lineOf c.1)) fun s l =>
      s.evictStash l fun x => coreDie x.core = die || coreDie x.core = homeDie l
  s.storeHome die ctx memside repl cells tag

/-- Stores bytes into register regions, word by word, and lets go on the strands that this frees (R159, R202, R231). -/
def State.putRegions (s : State) (core : Nat) (cells : List (Place × Byte)) : State :=
  let mine := cells.filterMap fun c => match c.1 with | .regWin slot o => some (slot, o, c.2) | _ => none
  foldState s (dedup (mine.map fun c => c.1)) fun s slot =>
    s.onWarp ⟨core, slot⟩ fun w => (w.setRegionBytes ((mine.filter fun c => c.1 = slot).map fun c => c.2)).promote

/-- The call that an access by a main core to a byte races: one on a window with the byte, between the write-back of its
range and the drop at its return (R268). -/
def State.racedCall? (s : State) (core phys : Nat) : Option Call :=
  if isPier core then none
  else s.calls.find? fun c => c.queued && s.windows.any fun w =>
    w.ctx = c.ctx && w.stack = c.stack && w.idx = c.windowIdx && decide (w.phys ≤ phys) && decide (phys < w.phys + w.len)

/-- What a read of a byte at its home gives an access of a core: the byte, or under a race any value that it has had since
the call's range was written back (R268; log 61). -/
def State.racedByte (s : State) (core phys : Nat) (b : Byte) : Byte :=
  match s.racedCall? core phys with
  | none => b
  | some c =>
    let had := (s.past.filter fun x => decide (c.moment < x.moment) && x.die = 4 && x.phys = phys).map fun x => x.old
    (choose (Config.raced s.stepNo phys) (s.homeByte phys :: had)).getD b

/-- The bytes of a write that last: one that races a near-memory call may be lost (R268; log 61). -/
def State.lasting (s : State) (core : Nat) (cells : List (Place × Byte)) : List (Place × Byte) :=
  cells.filter fun c => match c.1 with
    | .hbm p _ => (s.racedCall? core p).isNone || Config.raceLasts s.stepNo p
    | _ => true

/-- Performs bytes at their places, by an issuer on a core. A multicast store is one write with one stamp (R234, R237). -/
def State.performBytes (s : State) (core ctx : Nat) (multicast : Bool) (cells : List (Place × Byte)) (tag : WriteTag := {}) :
    State :=
  let cells := s.lasting core cells
  let s := foldState s cells fun s c =>
    match c.1 with
    | .store k o => { s with store := sset 0 s.store (k * Config.storeSpan + o) c.2 }
    | .host .. => { s with host := sset 0 s.host c.1.key.2 c.2 }
    | .regWin .. => s
    | .hbm .. => s
  let s := s.putRegions core cells
  let pick := fun (ms rp : Bool) => cells.filterMap fun c =>
    match c.1 with
    | .hbm p a => if a.memside = ms ∧ a.repl = rp then some (p, c.2) else none
    | _ => none
  let die := coreDie core
  let put := fun (s : State) (ms rp : Bool) =>
    let bs := pick ms rp
    if bs = [] then s
    else if rp && multicast then
      let r := s.stampFor die true [] tag
      foldState r.1 (List.range 4) fun s d =>
        s.performHbm die (some ctx) ms true (bs.map fun c => (setBits c.1 39 38 d, c.2)) { tag with stamp := some r.2 }
    else s.performHbm die (some ctx) ms rp bs tag
  put (put (put (put s false false) true false) true true) false true

/-- The rank of the narrowest scope whose instance holds two cores (R9, R222). -/
def scopeRank (a b : Nat) : Nat :=
  if a = b then 1
  else if coreDie a ≠ coreDie b then 4
  else if isPier a || isPier b then 3
  else if a / 4 = b / 4 then 2
  else 3

/-- Is a pending write already visible to the threads of a core (R225)? -/
def PendingWrite.seenBy (q : PendingWrite) (core : Nat) : Bool := decide (scopeRank q.core core ≤ q.reach)

/-- Is a pending write one that a warp has made, or that it sees (R225)? -/
def PendingWrite.known (q : PendingWrite) (id : WarpId) : Bool := decide (q.warp = id) || q.seenBy id.core

/-- Do a pending write and a list of places share a byte? -/
def PendingWrite.overlaps (p : PendingWrite) (places : List Place) : Bool :=
  p.places.any fun x => places.any fun y => x.key = y.key

/-- The pending-acknowledgement counter of a core (R215). -/
def State.pendingAcks (s : State) (core : Nat) : Nat := sget 0 s.acks core

/-- The probe count of a cluster: the probes whose acknowledgement it owes (R215). -/
def State.probeCount (s : State) (cluster : Nat) : Nat := (s.probes.filter fun x => x.2 = cluster).length

/-- Every acknowledgement that a core waits for has come in (R215). -/
def State.settleAcks (s : State) (core : Nat) : State :=
  { s with acks := sset 0 s.acks core 0, probes := s.probes.filter fun x => x.1 ≠ core }

/-- The writes below number `n` that a warp knows become visible to the threads of a scope narrower than `.pkg` (R225). -/
def State.expose (s : State) (id : WarpId) (rank n : Nat) : State :=
  { s with
    writes := update (fun q => decide (q.seq < n) && q.known id) (fun q => { q with reach := Nat.max q.reach (Nat.min rank 3) }) s.writes }

/-- The byte at a place as it stands in coherence order (R229). -/
def State.placeByte (s : State) (core : Nat) : Place → Byte
  | .hbm phys _ => s.racedByte core phys (s.homeByte phys)
  | .store k o => sget 0 s.store (k * Config.storeSpan + o)
  | .regWin slot o => match s.warp? ⟨core, slot⟩ with | some w => w.regionByte o | none => 0
  | p => sget 0 s.host p.key.2

/-- Drops a context's first-level copy of a line. -/
def State.dropL1 (s : State) (core ctx line : Nat) : State :=
  { s with l1 := s.l1.filter fun x => !(x.core = core && x.ctx = ctx && x.line = line) }

/-- The lines of the HBM bytes among some places. -/
def linesAt (places : List Place) : List Nat :=
  dedup (places.filterMap fun p => match p with | .hbm x _ => some (lineOf x) | _ => none)

/-- What the warps that run on a die know (R233). -/
def State.dieKnows (s : State) (die : Nat) : List Nat :=
  (((s.readers.filter fun r => coreDie r.warp.core = die).map fun r => r.knows).flatten) ++
  (s.unarrived.filter fun u => match u.by_ with | some w => coreDie w.core = die | none => false).map fun u => u.id

/-- What a read performed at a byte's controller, at its home, in an on-core window or at a host tells the reader (R233): of
what is not an ordinary byte of HBM nothing is kept, and the reader may have learned whatever others know. -/
def State.told (s : State) (core : Nat) : Place → List Nat
  | .hbm phys attr => if attr.memside then s.underway else s.latest phys
  | .host .. => s.underway
  | _ => s.dieKnows (coreDie core)

/-- A thread of a die reads a place where its coherence order is kept (R224, R229). -/
def State.readHome (s : State) (die : Nat) : Place → State
  | .hbm phys attr => if attr.memside then s else s.obtain die phys
  | _ => s

/-- An access to a place where its coherence order is kept, by its DRAM bank (R277, R278). -/
def State.reachLine (s : State) (p : Place) : State :=
  match p with
  | .hbm phys attr => s.reachBank attr.memside phys
  | _ => s

/-- The bytes of HBM among some places. -/
def hbmBytes (places : List Place) : List Nat := places.filterMap fun p => match p with | .hbm x _ => some x | _ => none

/-- Performs one atomic of a warp as one step at its place (R249, R395): every stash copy of its line is evicted (R216), the
issuing context's first-level copy is dropped (R206). Answers the old value. `places` holds the element, and for an exact
add the 64 bytes of its shadow after it (R252). -/
def State.rmw (s : State) (id : WarpId) (ctx : Nat) (r : Rmw) (places : List Place) (tag : WriteTag) : State × W64 :=
  let core := id.core
  let n := atomBytes r.op r.wide
  let s := foldState s (linesAt places) fun s l => (s.evictStash l fun _ => true).dropL1 core ctx l
  let s := foldState s places fun s p => ((s.readHome (coreDie core) p).learn id (s.told core p)).reachLine p
  let elem := places.take n
  let shadow := places.drop n
  let read := fun (ps : List Place) => leNat (ps.map (s.placeByte core))
  let put := fun (s : State) (ps : List Place) (bs : List Byte) =>
    s.performBytes core ctx false (ps.zip bs) { tag with rmw := true, cause := tag.cause ++ (s.reader id).knows, by_ := some id }
  let done := fun (s : State) => s.raiseFloors (fun x => x.warp = id) (hbmBytes places)
  if shadow = [] then
    let old := BitVec.ofNat 64 (read elem)
    let b := BitVec.ofNat 64 (r.b.toNat % 2 ^ (8 * n))
    if r.isCas then (if old = b then done (put s elem (leBytes n r.c.toNat)) else done s, old)
    else (done (put s elem (leBytes n (atomNew r.op r.wide old b).toNat)), old)
  else
    let f := (atomFormat r.op).getD .f32
    let x := wrap512 (read shadow)
    let y := shadowAdd x (readFloat f (low f r.b))
    (done (put (put s shadow (leBytes 64 (y % 2 ^ 512).toNat)) elem (leBytes n (shadowValue f y).toNat)), shadowValue f x)

/-- Is a release among what orders a write (R225) one at `.pkg` or wider? -/
def wideNeeds (needs : Sparse Nat) : Bool := needs.any fun n => decide (Scope.rank .pkg ≤ n.1)

/-- The writes of a warp that a release at `.pkg` or wider puts before a write, and that are still on their way (R225,
R233). -/
def State.releasedBy (s : State) (id : WarpId) (needs : Sparse Nat) : List Nat :=
  (s.unarrived.filter fun u => u.by_ = some id && needs.any fun n => decide (Scope.rank .pkg ≤ n.1) && decide (u.id < n.2)).map
    fun u => u.id

/-- What a write of a warp performed now causally follows (R233). -/
def State.causeNow (s : State) (id : WarpId) (needs : Sparse Nat) : List Nat :=
  dedup ((s.reader id).knows ++ s.releasedBy id needs)

/-- A warp's own write of some bytes, of number `n`, has been performed: no later read of the warp, nor of one that it
happens before, obtains an older value (R228, R229), and those know it (R233). The context's own copies show the new bytes. -/
def State.madeWrite (s : State) (id : WarpId) (ctx n : Nat) (places : List Place) : State :=
  let phys := hbmBytes places
  let mine := fun (r : Reader) => decide (r.warp = id) || r.after.contains n
  let s := s.raiseFloors mine phys
  { s with
    readers := update (fun r => r.after.contains n) (fun r =>
      { r with after := r.after.filter fun x => x ≠ n, knows := dedup (r.knows ++ [n]) }) s.readers
    l1 := update (fun l => l.core = id.core && l.ctx = ctx && phys.any fun x => lineOf x = l.line) (fun l =>
      { l with moment := s.moments }) s.l1 }

/-- Performs a pending write (R230): what it releases to a narrower scope is visible there first, and the core's
acknowledgements have come in where it releases at `.cor` or wider (R225). -/
def State.perform (s : State) (p : PendingWrite) : State :=
  let s := { s with writes := s.writes.filter fun q => q.seq ≠ p.seq }
  let s := foldState s p.needs fun s n => s.expose p.warp n.1 n.2
  let s := if p.needs.any fun n => n.1 ≠ 0 then s.settleAcks p.core else s
  let tag : WriteTag := {
    base := some p.base, rel := wideNeeds p.needs, group := some p.group, id := some p.seq
    cause := dedup (p.cause ++ s.releasedBy p.warp p.needs), by_ := some p.warp }
  let s := match p.rmw with
    | some r => (s.rmw p.warp p.ctx r p.places tag).1
    | none => s.performBytes p.core p.ctx p.multicast (p.places.zip p.bytes) tag
  s.madeWrite p.warp p.ctx p.seq p.places

/-- Must a pending write be performed before another (R225, R229, R233)? One of the other's core, or that the core sees, to
one of its bytes: a core's cache sends its stores to a byte in the order in which it took them (R205); one that the other's
releases at `.pkg` or wider cover; and one that happens before the other. -/
def PendingWrite.precedes (q p : PendingWrite) : Bool :=
  decide (q.seq < p.seq) &&
  (((decide (q.core = p.core) || q.seenBy p.core) && q.overlaps p.places) ||
   (p.needs.any fun n => decide (Scope.rank .pkg ≤ n.1) && decide (q.seq < n.2) && q.known p.warp) ||
   p.after.contains q.seq)

/-- The pending writes that `p` picks, with every one that must be performed before one of them, in order. -/
def closure (ws : List PendingWrite) (p : PendingWrite → Bool) : List PendingWrite :=
  ws.foldr (fun q later => if p q || later.any q.precedes then q :: later else later) []

/-- Performs the pending writes that `p` picks, each with those that must be performed before it. -/
def State.drain (s : State) (p : PendingWrite → Bool) : State := foldState s (closure s.writes p) State.perform

/-- Performs the pending writes that overlap some places, of the core where they satisfy `p` and of every core whose writes
this one sees (R225). -/
def State.drainOver (s : State) (core : Nat) (places : List Place) (p : PendingWrite → Bool) : State :=
  s.drain fun q => ((decide (q.core = core) && p q) || q.seenBy core) && q.overlaps places

/-- Performs every pending write of a warp. -/
def State.drainWarp (s : State) (id : WarpId) : State := s.drain fun q => q.warp = id

/-- What precedes a release of a warp, below write number `n`, is done (R225): from `.cor` the core's acknowledgements have
come in; from `.pkg` the writes that the warp knows are performed, and at narrower scopes they are visible to the scope. -/
def State.releaseUpTo (s : State) (id : WarpId) (rank n : Nat) : State :=
  let s := if rank = 0 then s else s.settleAcks id.core
  if rank < Scope.rank .pkg then s.expose id rank n
  else s.drain fun q => decide (q.seq < n) && q.known id

/-- A write that is performed now does what its releases ask for first (R225, R226), and the pending writes that happen
before it are performed (R233). -/
def State.releaseFor (s : State) (id : WarpId) (needs : Sparse Nat) : State :=
  let s := foldState s needs fun s n => s.releaseUpTo id n.1 n.2
  s.drain fun q => (s.reader id).after.contains q.seq

/-- Is a pending write one of a die's own cores to a line homed on the die (R235)? -/
def PendingWrite.homed (p : PendingWrite) (die : Nat) : Bool :=
  !isPier p.core && coreDie p.core = die && p.places.any fun x => match x with
    | .hbm phys _ => homeDie phys = die
    | _ => false

/-- Performs the writes of a die's own cores to lines homed on the die that satisfy `p` (R235). -/
def State.drainHomed (s : State) (die : Nat) (p : PendingWrite → Bool) : State := s.drain fun q => q.homed die && p q

/-- The commit number that the arbiter of a die has reached: it goes past a commit only once that block's writes to lines
homed on the die have been performed (R235). -/
def State.reachedCommit (s : State) (die : Nat) : Nat :=
  match minimum? ((s.writes.filter fun q => q.homed die).map fun q => q.commit) with
  | some n => n - 1
  | none => (s.arbiter die).number

/-- The last pending byte of a core and context for a place. -/
def State.pendingByte (s : State) (core ctx : Nat) (key : Nat × Nat) : Option Byte :=
  s.writes.foldl (fun acc p =>
    if p.core = core ∧ p.ctx = ctx then
      match (p.places.zip p.bytes).find? fun x => x.1.key = key with
      | some x => some x.2
      | none => acc
    else acc) none

/-- The places of a line's bytes. -/
def linePlaces (line : Nat) : List Place :=
  (List.range 64).map fun i => .hbm (line + i) ⟨true, false, false, false, false, false, false⟩

/-- What comes before an access to a line at the L2 of a core's die: the pending writes that the access must see are
performed, the stash copies on the die and on the home die answer the probe (R214), and what they wrote back, and what a
thread of the die has obtained at the home, is there (R229). `p` picks the core's own pending writes. -/
def State.l2Access (s : State) (core line : Nat) (p : PendingWrite → Bool) : State :=
  let die := coreDie core
  let s := (s.drainOver core (linePlaces line) p).reachBank false line
  let n := s.nextWrite
  let s := foldState s (dedup [die, homeDie line]) fun s d => s.probeRead d line
  s.arriveOn die fun u => lineOf u.phys = line && (u.due || decide (n ≤ u.seq))

/-- The 64 bytes of a line as the L2 of a die showed them at a moment. -/
def State.l2Line (s : State) (die line moment : Nat) : List Byte := (List.range 64).map fun i => s.l2At die (line + i) moment

/-- A context's first-level copy of a line. -/
def State.l1Line? (s : State) (core ctx line : Nat) : Option L1Line :=
  s.l1.find? fun l => l.core = core && l.ctx = ctx && l.line = line

/-- The lines that a context's share of a core's first-level cache holds: what the register regions, scratch and stash leave
of the unified store, or of its half for a context launched swap-ready (R88, R196). -/
def State.l1Lines (s : State) (core ctx : Nat) : Nat :=
  let swapReady : Bool := ((s.context? ctx).map fun c => c.swapReady).getD false
  let taken := s.pieces.filter fun p => p.core = core && (!swapReady || p.ctx = ctx)
  ((if swapReady then 2 ^ 19 else 2 ^ 20) - total (taken.map fun p => p.size)) / 64

/-- Room in a context's share of a first-level cache for a line: which lines go is not given (R205; log 51). -/
def State.l1Room (s : State) (core ctx line : Nat) : State :=
  let mine := s.l1.filter fun l => l.core = core && l.ctx = ctx && l.line ≠ line
  let excess := mine.length + 1 - s.l1Lines core ctx
  if excess = 0 then s
  else
    let k := Config.pick s.stepNo % mine.length
    let gone := ((mine.drop k ++ mine.take k).take excess).map fun l => l.line
    { s with l1 := s.l1.filter fun l => !(l.core = core && l.ctx = ctx && gone.contains l.line) }

/-- Fills, or refreshes, a first-level line from the die's L2 as it stands at a moment, or now, with the bytes of stores
still being sent (R205, R206). `vas` are the virtual lines that it is reached at. -/
def State.fillL1 (s : State) (core ctx line : Nat) (vas : List Nat) (moment : Option Nat) : State :=
  let die := coreDie core
  let s := s.l2Access core line fun q => q.rmw.isSome
  let m := moment.getD s.moments
  let bytes := (List.range 64).map fun i => (s.pendingByte core ctx (0, line + i)).getD (s.l2At die (line + i) m)
  let old := ((s.l1Line? core ctx line).map fun l => l.vas).getD []
  let l : L1Line := ⟨core, ctx, line, dedup (old ++ vas), bytes, s.isPoisoned line, m, (0, 0)⟩
  let s := s.l1Room core ctx line
  { s with l1 := (s.l1.filter fun x => !(x.core = core && x.ctx = ctx && x.line = line)) ++ [l] }

/-- Does a pending write of the core and context cover a byte of the line? -/
def State.lineSending (s : State) (core ctx line : Nat) : Bool :=
  s.writes.any fun p => p.core = core && p.ctx = ctx && p.places.any fun x => x.key.1 = 0 && lineOf x.key.2 = line

/-- The invalidation of an acquire at `.cls` or wider: lines with no store still being sent are dropped, the others show
nothing older than the L2 from then on (R206). -/
def State.invalidateL1 (s : State) (core ctx : Nat) : State :=
  let keep := s.l1.filter fun l => l.core = core && l.ctx = ctx && s.lineSending core ctx l.line
  let s' := { s with l1 := s.l1.filter fun l => !(l.core = core && l.ctx = ctx) }
  foldState s' keep fun s l => s.fillL1 core ctx l.line l.vas none

/-- What an acquire at a scope does to the first-level lines (R206). -/
def State.acquireL1 (s : State) (core ctx : Nat) (sc : Scope) : State :=
  if Scope.rank .cls ≤ sc.rank then s.invalidateL1 core ctx else s

/-- The later reads of some lanes are performed no earlier than at a moment (R224, R242). -/
def Reader.from_ (r : Reader) (m : Mask) (moment : Nat) : Reader :=
  { r with readsFrom := (lanesOf m).foldl (fun t l => sset 0 t l moment) r.readsFrom }

/-- From an acquire on, the reads of some lanes of a warp are performed no earlier than now (R224), and its accesses follow
what it may have synchronised with: the pending writes that its core sees, and the writes that others know (R227, R233). -/
def State.acquired (s : State) (id : WarpId) (m : Mask) (sc : Scope) : State :=
  let ids := if Scope.rank .pkg ≤ sc.rank then s.underway else s.dieKnows (coreDie id.core)
  (s.onReader id fun r => { r.from_ m s.moments with
    after := dedup (r.after ++ (s.writes.filter fun q => q.seenBy id.core).map fun q => q.seq) }).learn id ids

/-- The writes that a copy or a matrix command has performed from write number `n` on are kept for the wait that will cover
them (R243, R458). `marks` has the lanes and batches of the copy, or none, and the tiles of the command. -/
def State.finishedBy (s : State) (who : Issuer) (marks : List (Option (Nat × W32) × List Nat)) (n : Nat) : State :=
  let ids := dedup ((s.unarrived.filter fun u => decide (n ≤ u.id) && u.by_.isNone).map fun u => u.id)
  if ids = [] ∨ s.serialOf who.warp ≠ who.serial then s
  else s.onReader who.warp fun r =>
    { r with finished := (r.finished.filter fun x => s.underway.contains x.id) ++
        (marks.map fun m => ids.map fun i => (⟨m.1, m.2, i⟩ : Finished)).flatten }

/-- A wait by some lanes of a warp is over: the writes that it covers are visible to the lanes' later reads (R242), and later
releases cover them (R243). -/
def State.waitedFor (s : State) (id : WarpId) (m : Mask) (p : Finished → Bool) : State :=
  if m = 0 then s
  else
    let ids := ((s.reader id).finished.filter p).map fun x => x.id
    (s.onReader id fun r => { r.from_ m s.moments with finished := r.finished.filter fun x => !p x }).learn id ids

/-- A warp comes onto a core: its accesses follow everything that it may have seen before (R224, R233). -/
def State.newReader (s : State) (id : WarpId) : State :=
  ({ s with readers := s.readers.filter fun r => r.warp ≠ id } : State).acquired id (BitVec.allOnes 32) .pkg

/-- What an acquire at a scope by some lanes of a warp does to the caches (R206, R224): at `.cls` and wider the first-level
lines go, and at `.pkg` and wider what has been performed has arrived on the issuing die. -/
def State.acquire (s : State) (id : WarpId) (ctx : Nat) (m : Mask) (sc : Scope) : State :=
  let s := if Scope.rank .pkg ≤ sc.rank then s.arriveAll fun d => d = coreDie id.core else s
  (s.acquireL1 id.core ctx sc).acquired id m sc

/-- What an acquire read of some places does (R224, R227): where each is an ordinary byte of HBM, the read itself has fixed
what must be visible, and only the first-level lines go; otherwise everything performed has arrived. -/
def State.acquireRead (s : State) (id : WarpId) (ctx : Nat) (m : Mask) (sc : Scope) (places : List Place) : State :=
  if places.all fun p => match p with | .hbm _ a => !a.memside | _ => false then (s.acquireL1 id.core ctx sc).acquired id m sc
  else s.acquire id ctx m sc

/-- The stash mapping of a context on a core that holds an address (R211). -/
def State.stashMap? (s : State) (core ctx a : Nat) : Option StashMap :=
  s.stashMaps.find? fun m => m.core = core && m.ctx = ctx && m.owner == none && m.base ≤ a && a < m.base + m.len

/-- The storage offset that holds the byte of an address of a mapping (R211). -/
def StashMap.storageOf (m : StashMap) (a : Nat) : Nat := m.alloc + m.off + (a - m.base)

/-- May lines of the page be stashed (R212)? -/
def PageAttr.stashable (a : PageAttr) : Bool := !(a.memside || a.exact || a.repl || a.kv)

/-- Is the byte at `a`, at a place, served by the stash (R211, R212)? -/
def State.stashed (s : State) (core ctx a : Nat) (p : Place) : Bool :=
  match p with
  | .hbm _ attr => attr.stashable && (s.stashMap? core ctx a).isSome
  | _ => false

/-- The stash line of a core and context. -/
def State.stashLine? (s : State) (core ctx line : Nat) : Option StashLine :=
  s.stashLines.find? fun l => l.core = core && l.ctx = ctx && l.line = line

/-- The directory entry of a 512-byte region on a die: the clusters that hold a stash line of it (R213). -/
def State.directory (s : State) (die region : Nat) : List Nat :=
  dedup ((s.stashLines.filter fun l => coreDie l.core = die && l.line / 512 = region).map fun l => l.core / 4)

/-- The filter entry of a line in a cluster: the cores that hold it (R213). -/
def State.filterEntry (s : State) (cluster line : Nat) : List Nat :=
  dedup ((s.stashLines.filter fun l => l.core / 4 = cluster && l.line = line).map fun l => l.core)

/-- The regions that the directory of a slice of a die lists (R213). -/
def State.listed (s : State) (die slice : Nat) : List Nat :=
  dedup ((s.stashLines.filter fun l => coreDie l.core = die && homeSlice l.line = slice).map fun l => l.line / 512)

/-- Evicts a directory entry: every stash line of its region goes from every listed cluster of the die (R213). -/
def State.evictRegion (s : State) (die region : Nat) : State :=
  let lines := dedup ((s.stashLines.filter fun l => coreDie l.core = die && l.line / 512 = region).map fun l => l.line)
  foldState s lines fun s l => s.evictStash l fun x => coreDie x.core = die

/-- Room in the directory for a line's region: a slice keeps 32,768 entries (R213), and which one goes is not given
(log 51). -/
def State.directoryRoom (s : State) (die line : Nat) : State :=
  let regions := s.listed die (homeSlice line)
  if regions.contains (line / 512) || decide (regions.length < 32768) then s
  else match choose (Config.pick s.stepNo) regions with
    | some r => s.evictRegion die r
    | none => s

/-- A touch of a stash line. The pending writes that the access must see come first, and no first-level copy of the line is
shown from then on (R205, R225, R229). A line that is there shows what a thread of the die has obtained (R229); the first
touch fills one from the die's L2 as shared, with its poison (R210, R212). -/
def State.touchStash (s : State) (core ctx a phys : Nat) : State :=
  let line := lineOf phys
  let die := coreDie core
  let s := (s.drainOver core (linePlaces line) fun _ => true).dropL1 core ctx line
  if (s.stashLine? core ctx line).isSome then s.arriveOn die fun u => lineOf u.phys = line && u.due
  else
    let s := (s.l2Access core line fun _ => true).directoryRoom die line
    let l : StashLine := ⟨core, ctx, a / 64 * 64, line, s.l2Line die line s.moments, [], s.isPoisoned line, false, [], (0, 0)⟩
    { s with stashLines := s.stashLines ++ [l] }

/-- Does the byte at a place lie in a poisoned line (R66)? -/
def State.placePoisoned (s : State) : Place → Bool
  | .hbm phys _ => s.isPoisoned phys
  | _ => false

/-- The address that a *poison* fault of an access at `a` reports: on a pier core the window offset of the first poisoned
line (R289), and otherwise the access's own address. -/
def State.poisonAddress (s : State) (who : Issuer) (a : W64) (places : List Place) : W64 :=
  match who.pier, places.zipIdx.find? fun p => s.placePoisoned p.1 with
  | some _, some p => BitVec.ofNat 64 ((a.toNat + p.2) / 64 * 64)
  | _, _ => a

/-- A first-level copy is reached at a virtual line (R400). -/
def State.reachL1 (s : State) (core ctx line va : Nat) : State :=
  { s with l1 := update (fun l => l.core = core && l.ctx = ctx && l.line = line && !l.vas.contains va) (fun l =>
      { l with vas := l.vas ++ [va] }) s.l1 }

/-- Reads one byte for a load, filling lines as Table 15.2 gives; none where the line is poisoned (R66, R210). `fresh` makes
an ordinary load obtain the line again from L2, as the loads of an isolated block do (R235). A read of an ordinary byte
at the die's L2 is performed at `moment`, or now. -/
def State.loadByte (s : State) (who : Issuer) (at_ : LoadAt) (fresh : Bool) (a : Nat) (p : Place) (moment : Option Nat := none) :
    State × Option Byte :=
  let core := who.warp.core
  let die := coreDie core
  match p with
  | .store k o => (s, some (sget 0 s.store (k * Config.storeSpan + o)))
  | .regWin slot o => (s, some (match s.warp? ⟨core, slot⟩ with | some w => w.regionByte o | none => 0))
  | .host .. =>
    let s := s.drainOver core [p] fun _ => true
    (s, some (sget 0 s.host p.key.2))
  | .hbm phys attr =>
    let line := lineOf phys
    let va := a / 64 * 64
    if attr.memside then
      let s := ((s.drainOver core [p] fun _ => true).reachBank true phys).dropL1 core who.ctx line
      (s, if s.isPoisoned phys then none else some (s.racedByte core phys (s.homeByte phys)))
    else if s.stashed core who.ctx a p && at_ = .l1 then
      let s := s.touchStash core who.ctx a phys
      match s.stashLine? core who.ctx line with
      | some l => (s, if l.poison then none else (l.bytes[phys % 64]?).map (s.racedByte core phys))
      | none => (s, none)
    else
      match at_ with
      | .l1 =>
        let s := s.drainOver core [p] fun q => decide (q.warp ≠ who.warp) || q.rmw.isSome
        let again := fresh && homeDie phys = die
        let s := if (s.l1Line? core who.ctx line).isSome && !again then s.reachL1 core who.ctx line va
          else s.fillL1 core who.ctx line [va] moment
        match s.l1Line? core who.ctx line with
        | some l => (s, if l.poison then none else (l.bytes[phys % 64]?).map (s.racedByte core phys))
        | none => (s, none)
      | .l2 =>
        let s := s.l2Access core line fun _ => true
        let m := moment.getD s.moments
        let s := if (s.l1Line? core who.ctx line).isSome then s.fillL1 core who.ctx line [va] (some m) else s
        (s, if s.isPoisoned phys then none else some (s.racedByte core phys (s.l2At die phys m)))
      | .home =>
        let s := (s.l2Access core line fun _ => true).obtain die phys
        (s, if s.isPoisoned phys then none else some (s.racedByte core phys (s.homeByte phys)))

/-- What a thread's read of a place tells it (R233). -/
def State.readTells (s : State) (core : Nat) (at_ : LoadAt) (p : Place) : List Nat :=
  match p with
  | .hbm phys attr => if attr.memside || at_ = .home then s.told core p else s.source (coreDie core) phys
  | _ => s.told core p

/-- Reads the bytes of a load at places, the first at address `a`; none where a line is poisoned. -/
def State.loadBytes (s : State) (who : Issuer) (at_ : LoadAt) (fresh : Bool) (a : Nat) (places : List Place) :
    State × Option (List Byte) :=
  places.zipIdx.foldl (fun acc x =>
    let r := acc.1.loadByte who at_ fresh (a + x.2) x.1
    (r.1, match acc.2, r.2 with
      | some bs, some b => some (bs ++ [b])
      | _, _ => none)) (s, some [])

/-- Checks a range and reads it at the issuing die's L2, as the device's own reads on a thread's behalf do. -/
def State.readChecked (s : State) (who : Issuer) (a : W64) (n : Nat) : Res (List Byte) :=
  (s.access who .read a n).bind fun ps =>
    match (s.loadBytes who .l2 false a.toNat ps).2 with
    | some bs => .ok bs
    | none => .bad .poison a

/-- What a copy of a line has of its latest store instruction once some offsets more of it have been stored: the poison goes
when the instruction has covered the line (R210). -/
def freshBytes (old : Nat × W64) (group : Nat) (offsets : List Nat) : Nat × W64 :=
  (group, byteMask offsets ||| (if old.1 = group then old.2 else 0))

/-- Sets the bytes of a context's first-level copies that a store covers (R205, R210). -/
def State.updateL1 (s : State) (core ctx group : Nat) (cells : List (Place × Byte)) : State :=
  { s with l1 := update (fun l => l.core = core && l.ctx = ctx) (fun l =>
      let mine := (List.range 64).filter fun i => cells.any fun c => c.1.key = (0, l.line + i)
      let now := freshBytes l.fresh group mine
      { l with
        bytes := l.bytes.zipIdx.map fun b =>
          match cells.find? fun c => c.1.key = (0, l.line + b.2) with
          | some c => c.2
          | none => b.1
        fresh := if mine = [] then l.fresh else now
        poison := l.poison && (decide (mine = []) || decide (now.2 ≠ BitVec.allOnes 64)) }) s.l1 }

/-- The clusters that an ownership request for a line probes: those its region's directory entry lists, the requester's own
only for another core of it (R213, R214, R215; log 51). -/
def State.probed (s : State) (core line : Nat) : List Nat :=
  dedup ((s.stashLines.filter fun l => l.line / 512 = line / 512 && coreDie l.core = coreDie core && l.core ≠ core).map
    fun l => l.core / 4)

/-- Stores bytes of a store instruction, given by their offset, into the stash line at `phys` and asks the home slice for
ownership: the other holders of the die write back and invalidate, and each probed cluster owes an acknowledgement (R212,
R214, R215). `rel` marks a release at `.pkg` or wider. -/
def State.storeStash (s : State) (id : WarpId) (ctx a phys group : Nat) (rel : Bool) (cells : List (Nat × Byte)) : State :=
  let core := id.core
  let s := s.touchStash core ctx a phys
  let line := lineOf phys
  let probed := s.probed core line
  let s := s.evictStash line fun l => coreDie l.core = coreDie core && l.core ≠ core
  let store := fun (l : StashLine) =>
    let now := freshBytes l.fresh group (cells.map Prod.fst)
    { l with
      bytes := cells.foldl (fun bs c => bs.set c.1 c.2) l.bytes
      dirty := dedup (l.dirty ++ cells.map Prod.fst)
      poison := l.poison && decide (now.2 ≠ BitVec.allOnes 64)
      rel := l.rel || rel
      cause := dedup (l.cause ++ (s.reader id).knows)
      fresh := now }
  { s with
    acks := sset 0 s.acks core (s.pendingAcks core + probed.length)
    probes := s.probes ++ probed.map fun c => (core, c)
    stashLines := update (fun l => l.core = core && l.ctx = ctx && l.line = line) store s.stashLines }

/-- The pieces of a store that are each single-copy atomic (R230): a naturally aligned one of at most 64 bits is whole, one
of 128 bits goes by its aligned halves, any other byte by byte. -/
def BufStore.pieces (st : BufStore) (cells : List (Place × Byte)) : List (List (Place × Byte)) :=
  let n := st.bytes.length
  if st.address.toNat % n = 0 ∧ n ≤ 8 then [cells]
  else if st.address.toNat % 8 = 0 then [cells.take 8, cells.drop 8]
  else cells.map fun c => [c]

/-- Is a place on the line of a host page that starts at `a` (R209)? -/
def Place.onHostLine (a : Nat × Nat) : Place → Bool
  | .host port x => decide ((Place.host port (x / 64 * 64)).key = a)
  | _ => false

/-- What a committed block gives each write that it enters into the memory system: who makes it, the block and the store
instruction, the lanes, and what its releases ask for. -/
structure Entry where
  who : Issuer
  block : Nat
  group : Nat
  lanes : Mask
  needs : Sparse Nat
  deriving DecidableEq, Repr

/-- Appends a pending write of a committed block. -/
def State.addWrite (s : State) (e : Entry) (places : List Place) (bytes : List Byte) (multicast : Bool) (rmw : Option Rmw) : State :=
  let id := e.who.warp
  let die := coreDie id.core
  let r := s.reader id
  let p : PendingWrite := {
    seq := s.nextWrite, commit := (s.arbiter die).number + 1, block := e.block, group := e.group, core := id.core
    ctx := e.who.ctx, warp := id, lanes := e.lanes, needs := e.needs
    after := r.after, cause := r.knows, reach := 0, places := places, bytes := bytes, multicast := multicast
    base := s.clock die, rmw := rmw }
  { s with writes := s.writes ++ [p], nextWrite := s.nextWrite + 1 }

/-- What the releases of two writes that are merged ask for. -/
def joinNeeds (a b : Sparse Nat) : Sparse Nat := b.foldl (fun m n => sset 0 m n.1 (Nat.max n.2 (sget 0 m n.1))) a

/-- The write of some bytes of a host line, with later bytes of the same block's stores over it (R209). -/
def PendingWrite.merge (q : PendingWrite) (lanes : Mask) (cells : List (Place × Byte)) : PendingWrite :=
  let kept := (q.places.zip q.bytes).filter fun x => cells.all fun c => c.1.key ≠ x.1.key
  { q with
    lanes := q.lanes ||| lanes
    places := kept.map Prod.fst ++ cells.map Prod.fst
    bytes := kept.map Prod.snd ++ cells.map Prod.snd }

/-- Enters bytes of a host page: the stores of one block to one 64-byte line are one write (R209). With a release of its own
the later store takes the earlier ones of its line along, behind what it releases; only where a release between them has
put those first does it stay a write of its own (R225; log 51). -/
def State.addHostWrite (s : State) (e : Entry) (cells : List (Place × Byte)) : State :=
  let lines := dedup (cells.filterMap fun c => match c.1 with | .host port x => some (Place.host port (x / 64 * 64)).key | _ => none)
  foldState s lines fun s a =>
    let mine := cells.filter fun c => c.1.onHostLine a
    let joins := fun (q : PendingWrite) => decide (q.block = e.block) && decide (q.warp = e.who.warp) && q.rmw.isNone &&
      q.places.any (Place.onHostLine a)
    match (s.writes.filter joins).getLast? with
    | none => s.addWrite e (mine.map Prod.fst) (mine.map Prod.snd) false none
    | some q =>
      if q.needs = e.needs then
        { s with writes := update (fun x => x.seq = q.seq) (fun x => x.merge e.lanes mine) s.writes }
      else if s.writes.all fun p => !q.precedes p then
        let p := { q.merge e.lanes mine with seq := s.nextWrite, needs := joinNeeds q.needs e.needs }
        { s with writes := (s.writes.filter fun x => x.seq ≠ q.seq) ++ [p], nextWrite := s.nextWrite + 1 }
      else s.addWrite e (mine.map Prod.fst) (mine.map Prod.snd) false none

/-- Enters bytes of HBM that the stash does not serve: the first-level copies are updated, those of a memory-side line
dropped (R205, R206), and each piece is sent on (R230). -/
def State.addHbmWrites (s : State) (e : Entry) (st : BufStore) (cells : List (Place × Byte)) : State :=
  if cells = [] then s
  else
    let core := e.who.warp.core
    let s := s.updateL1 core e.who.ctx e.group (cells.filter fun c => !c.1.memside)
    let s := foldState s (linesAt ((cells.map Prod.fst).filter Place.memside)) fun s l => s.dropL1 core e.who.ctx l
    foldState s ((st.pieces cells).filter fun x => x != []) fun s x =>
      s.addWrite e (x.map Prod.fst) (x.map Prod.snd) st.multicast none

/-- Enters one store of a committed block into the memory system (R151, R202, R205, R212, R231). -/
def State.enterStore (s : State) (e : Entry) (st : BufStore) : State :=
  let id := e.who.warp
  let ctx := e.who.ctx
  let cells := st.places.zip st.bytes
  let tagged := cells.zipIdx.map fun c => (c.1, s.stashed id.core ctx (st.address.toNat + c.2) c.1.1, st.address.toNat + c.2)
  let onCore := cells.filter fun c => match c.1 with | .store .. => true | .regWin .. => true | _ => false
  let inStash := tagged.filterMap fun c => match c.1.1 with
    | .hbm phys _ => if c.2.1 then some (phys, c.2.2, c.1.2) else none
    | _ => none
  let s := if onCore = [] ∧ inStash = [] then s else s.releaseFor id e.needs
  let s := s.performBytes id.core ctx false onCore
  let s := foldState s (dedup (inStash.map fun c => (lineOf c.1, c.2.1 / 64 * 64))) fun s l =>
    s.storeStash id ctx l.2 l.1 e.group (wideNeeds e.needs) ((inStash.filter fun c => lineOf c.1 = l.1).map fun c => (c.1 % 64, c.2.2))
  let s := s.addHostWrite e cells
  let rest := tagged.filterMap fun c => match c.1.1 with | .hbm .. => if c.2.1 then none else some c.1 | _ => none
  s.addHbmWrites e st rest

/-- Does an atomic that finds an old value only read? A `cas` that finds another value than b does (R397). -/
def Rmw.failed (r : Rmw) (old : W64) : Bool :=
  r.isCas && decide (old ≠ BitVec.ofNat 64 (r.b.toNat % 2 ^ (8 * atomBytes r.op r.wide)))

/-- One atomic by a thread, after what its releases ask for (R225): the release of a failed `cas` applies to no write
(R397). -/
def State.rmwAfter (s : State) (who : Issuer) (r : Rmw) (places : List Place) (needs : Sparse Nat) : State × W64 :=
  let o := s.rmw who.warp who.ctx r places {}
  if r.failed o.2 then o
  else
    let s := s.releaseFor who.warp needs
    s.rmw who.warp who.ctx r places { rel := wideNeeds needs, cause := s.causeNow who.warp needs }

/-- A write that an instruction of a warp makes at once: what its releases ask for comes first (R225, R226), and the warp's
later reads follow it (R229). `rmw` marks the write of a read-modify-write (R227). -/
def State.ownWrite (s : State) (id : WarpId) (ctx : Nat) (needs : Sparse Nat) (rmw : Bool) (cells : List (Place × Byte)) : State :=
  let s := s.releaseFor id needs
  let s := s.performBytes id.core ctx false cells { rel := wideNeeds needs, rmw := rmw, cause := s.causeNow id needs, by_ := some id }
  s.raiseFloors (fun r => r.warp = id) (hbmBytes (cells.map Prod.fst))

/-- Enters an atomic of a committed block that returns no value (R394): what lies in the on-core windows is performed at
once, and the rest is sent on; the issuing context's first-level copies of the lines are dropped (R206). -/
def State.enterRmw (s : State) (e : Entry) (r : Rmw) (places : List Place) : State :=
  if places.any fun p => match p with | .store .. => true | .regWin .. => true | _ => false then
    (s.rmwAfter e.who r places e.needs).1
  else
    (foldState s (linesAt places) fun s l => s.dropL1 e.who.warp.core e.who.ctx l).addWrite e places [] false (some r)

/-- Device writes on a thread's behalf, and element writes of copies and epilogues: performed at once at the place
Table 15.2 gives for `ldb`; first-level copies of the lines are dropped on the core (R404). -/
def State.writeNow (s : State) (who : Issuer) (places : List Place) (bytes : List Byte) (tag : WriteTag := {}) : State :=
  let s := s.drainOver who.warp.core places fun _ => true
  let s := s.performBytes who.warp.core who.ctx false (places.zip bytes)
    { tag with cause := tag.cause ++ (s.reader who.warp).knows }
  foldState s (linesAt places) fun s l => s.dropL1 who.warp.core who.ctx l

/-- May a pending write be performed before those pending with it (R221, R225, R229, R233)? Not where one of them must come
first, and where it releases at `.cor` or wider not before the core's acknowledgements have come in. -/
def State.eligible (s : State) (p : PendingWrite) : Bool :=
  (s.writes.all fun q => !q.precedes p) && ((p.needs.all fun n => n.1 = 0) || s.pendingAcks p.core = 0)

/-- The owning host's memory, by port and host address. -/
def hostAddr (port : Bool) (a : Nat) : Nat := (if port then 2 ^ 64 else 0) + a

/-- Writes bytes into a host's memory without a PASID: completion records and service-ring entries (R94, R178). -/
def State.writeHost (s : State) (port : Bool) (a : Nat) (bytes : List Byte) : State :=
  { s with host := setBytes s.host (hostAddr port a) bytes }

/-- The canonical form of a memory: addresses strictly rising, no listed zero. -/
def Memory.wf (m : List Host.Cell) : Bool := swf (0 : Byte) m

end Sys2Proof.Machine
end

