-- ==== Sys2Proof/Machine/Frame.lean ====
section
/-!
DEFINITION. A block in flight (spec/06_execution_model.md R144 to R154): the tokens its slots have collected, which
slots are ready, and what firing a slot does. These functions concern one frame; the machine around it is in Ops.lean.
-/
namespace Sys2Proof.Machine

/-- The block in flight that runs next. -/
def State.frame? (s : State) : Option Frame := s.frames.head?

/-- Replaces the block in flight that runs next. -/
def State.setFrame (s : State) (f : Frame) : State := { s with frames := f :: s.frames.tail }

/-- Applies `f` to the block in flight of a strand. -/
def State.onFrame (s : State) (id : WarpId) (strand : Nat) (f : Frame → Frame) : State :=
  { s with frames := update (fun x => x.warp = id && x.strand = strand) f s.frames }

/-- Index of the word of compute slot 0 (R316). -/
def Frame.base (f : Frame) : Nat := 1 + f.shape.nrd + f.shape.nwr

/-- The compute slot of the word that runs next (R316). -/
def Frame.slot (f : Frame) : Nat := f.at_ - f.base

/-- What a target has collected; null in every lane before any delivery (R146). -/
def Frame.collected (f : Frame) (t : Target) : Token :=
  match f.tokens.find? fun c => c.target = t with
  | some c => c.tok
  | none => nullToken

/-- The 64-byte record that stood in uniform group `g` before the block, word i in s(16g + i) (R324, R341, R411). -/
def Frame.group (f : Frame) (g : Nat) : W512 :=
  BitVec.ofNat 512 (total ((List.range 16).map fun i => (sget 0 f.uniform (16 * g + i)).toNat * 2 ^ (32 * i)))

/-- The value of an operand of the running slot in a lane, or none for null. -/
def Frame.arg (f : Frame) (o : Opnd) (l : Nat) : Option W64 := tokenAt (f.collected (.op o (BitVec.ofNat 5 f.slot))) l

/-- The lane is active and its predicate passes (R147, R320). -/
def Frame.passes (f : Frame) (p : Pred) (l : Nat) : Bool :=
  f.active.getLsbD l &&
  match p with
  | .always => true
  | .onTrue => match f.arg .p l with | some v => v.getLsbD 0 | none => false
  | .onFalse => match f.arg .p l with | some v => !v.getLsbD 0 | none => false

/-- The payload of an `ext` in the slot before (R327). -/
def Frame.ext? (f : Frame) : Option (BitVec 25) := (f.exts.find? fun e => e.1 = f.slot).map fun e => e.2

/-- The LSID of a slot's memory instruction, or 0xff (R169). -/
def Frame.lsidOf (f : Frame) (slot : Nat) : Nat :=
  match f.shape.mems.find? fun m => m.1 = slot with
  | some m => m.2.1
  | none => 0xff

/-- A fault of one lane at a slot. -/
def Frame.faultAt (f : Frame) (slot : Nat) (c : Cause) (l : Nat) (a : W64) : FaultInfo :=
  ⟨c, slot, maskOf [l], a, f.lsidOf slot, 0, false, none⟩

/-- Records a fault of the running slot in a lane (R169). -/
def Frame.addFault (f : Frame) (c : Cause) (l : Nat) (a : W64) : Frame :=
  { f with faults := f.faults ++ [f.faultAt f.slot c l a] }

/-- Records a fault of the running slot, of an instruction that acts once for its strand: every performing lane is
named (R169). -/
def Frame.addFaults (f : Frame) (c : Cause) (m : Mask) (a : W64) : Frame :=
  { f with faults := f.faults ++ [{ f.faultAt f.slot c 0 a with lanes := m }] }

/-- Records that the running slot met an absent page in a lane (R103). -/
def Frame.addPark (f : Frame) (page l : Nat) (a : W64) : Frame :=
  { f with faults := f.faults ++ [{ f.faultAt f.slot .pageFault l a with park := some page }] }

/-- The slot at which two producers of one target are reported (R169): the consuming slot, or for a write slot the
higher of the two producers. Producers are numbered slot + 1, and 0 for a read word. -/
def clashSlot (t : Target) (p q : Nat) : Nat :=
  match t with
  | .op _ k => k.toNat
  | _ => if Nat.max p q = 0 then 0xff else Nat.max p q - 1

/-- Delivers a token to a target, lane by lane: the one value that is not null stands, and two make the block faulty
with cause *malformed* (R146). -/
def Frame.deliver (f : Frame) (producer : Nat) (t : Target) (v : Token) : Frame :=
  if t = .none then f
  else
    let c := (f.tokens.find? fun c => c.target = t).getD ⟨t, nullToken, List.replicate 32 0⟩
    let clash := allLanes.filter fun l => (tokenAt c.tok l).isSome && (tokenAt v l).isSome
    let c' : Collected := ⟨t, tokenOf fun l => match tokenAt v l with | some x => some x | none => tokenAt c.tok l,
      allLanes.map fun l =>
        let old := (c.src[l]?).getD 0
        if (tokenAt v l).isNone then old
        else if (tokenAt c.tok l).isSome then Nat.min old producer else producer⟩
    { f with
      tokens := (f.tokens.filter fun x => x.target ≠ t) ++ [c']
      faults := f.faults ++ clash.map fun l => f.faultAt (clashSlot t ((c.src[l]?).getD 0) producer) .malformed l 0 }

/-- The running slot sends a token to a target. -/
def Frame.send (f : Frame) (t : Target) (v : Token) : Frame := f.deliver (f.slot + 1) t v

/-- Marks the running slot as fired (R146). -/
def Frame.fire (f : Frame) : Frame := { f with fired := f.fired ++ [f.slot] }

/-- Raises floating-point flags in lanes, to be set at commit (R298). -/
def Frame.raise (f : Frame) (fl : List (Nat × BitVec 5)) : Frame :=
  { f with flags := f.flags ++ fl.filter fun x => x.2 != 0 }

/-- The memory instructions below an LSID have all fired (R149). -/
def Frame.lowerResolved (f : Frame) (lsid : Nat) : Bool :=
  f.shape.mems.all fun m => lsid ≤ m.2.1 || f.fired.contains m.1

/-- The slots that cannot fire before slot `k` has: fed by it through other slots, or held behind it by R149. -/
def Shape.behind (sh : Shape) (k : Nat) : List Nat :=
  let step := fun (acc : List Nat) =>
    (List.range sh.cnt).filter fun m =>
      acc.contains m ||
      (((sh.deps[m]?).getD []).any fun d => acc.contains d) ||
      sh.mems.any fun x => x.1 = m && x.2.2 && sh.mems.any fun y => y.2.1 < x.2.1 && acc.contains y.1
  (List.range 32).foldl (fun acc _ => step acc) [k]

/-- May slot `k` fire now? Its producers have fired, what R149 makes it wait for has, and an irrevocable instruction has
every check of R153 behind it. -/
def Frame.ready (f : Frame) (k : Nat) : Bool :=
  k < f.shape.cnt && !f.fired.contains k &&
  (((f.shape.deps[k]?).getD []).all fun d => f.fired.contains d) &&
  (f.shape.mems.all fun m => m.1 ≠ k || !m.2.2 || f.lowerResolved m.2.1) &&
  (f.shape.irrevocable ≠ some k ||
    (f.faults = [] &&
     (f.shape.mems.all fun m => m.1 ≠ k || f.lowerResolved m.2.1) &&
     (let late := f.shape.behind k
      f.shape.mems.all fun m => m.1 = k || f.fired.contains m.1 || late.contains m.1) &&
     (f.shape.waits.all fun w => f.fired.contains w)))

/-- The order in which faults are reported: those with slot 0xff come before every slot (R169). -/
def FaultInfo.order (i : FaultInfo) : Nat := if i.slot = 0xff then 0 else i.slot + 1

/-- The lowest lane of a fault. -/
def FaultInfo.lane (i : FaultInfo) : Nat := (lowestLane i.lanes).getD 32

/-- The fault that R169 reports among those recorded: lowest slot, then lowest lane; the mask holds every lane with that
cause at that slot. -/
def Frame.worst? (f : Frame) : Option FaultInfo :=
  match sortBy (fun i => i.order * 64 + i.lane) f.faults with
  | [] => none
  | i :: rest =>
    let same := (i :: rest).filter fun x => x.slot = i.slot && x.cause = i.cause && x.park = i.park
    some { i with lanes := same.foldl (fun m x => m ||| x.lanes) 0 }

/-- Slots that may still fire: all, or with a fault recorded those below it (R169). -/
def Frame.open_ (f : Frame) (k : Nat) : Bool :=
  match f.worst? with
  | none => true
  | some i => k + 1 < i.order

/-- The slot that fires next: the lowest ready one, waits of R416 and their like last. -/
def Frame.nextSlot? (f : Frame) : Option Nat :=
  let c := (List.range f.shape.cnt).filter fun k => f.ready k && f.open_ k
  match c.find? fun k => !f.shape.waits.contains k with
  | some k => some k
  | none => c.head?

/-- The ready wait after slot `k`, if there is one. -/
def Frame.nextWait? (f : Frame) (k : Nat) : Option Nat :=
  (List.range f.shape.cnt).find? fun m => k < m && f.ready m && f.open_ m && f.shape.waits.contains m

/-- Have all slots fired (R150)? -/
def Frame.allFired (f : Frame) : Bool := (List.range f.shape.cnt).all fun k => f.fired.contains k

/-- Moves on to the word that runs next: the next header, read or write word, the next ready slot, the end of the words
when all slots have fired, and beyond it when none can fire. -/
def Frame.step (f : Frame) : Frame :=
  if f.at_ + 1 < f.base then { f with at_ := f.at_ + 1 }
  else match f.nextSlot? with
    | some k => { f with at_ := f.base + k }
    | none => { f with at_ := if f.allFired then f.words.length else f.words.length + 1 }

/-- The fault to be taken now: one is recorded and no slot below it can still fire (R169). -/
def Frame.due? (f : Frame) : Option FaultInfo :=
  if f.at_ + 1 < f.base then none
  else match f.worst? with
    | none => none
    | some i => if (f.nextSlot?).isSome then none else some i

/-- Adds a line to the read signature of an isolated block (R155): the four bits of each line key. -/
def sigBits (key : Nat × Nat) (core : Nat) : List Nat :=
  let k : Nat := match key with
    | (0, p) => p
    | (3, a) => 2 ^ 47 + (if 2 ^ 64 ≤ a then 2 ^ 46 else 0) + a % 2 ^ 46
    | (1, o) => 2 ^ 46 + (o / Config.storeSpan % 96) * 2 ^ 20 + o % 2 ^ 20
    | (_, o) => 2 ^ 46 + (core % 96) * 2 ^ 20 + o % 2 ^ 20
  let h := (mix64 (BitVec.ofNat 64 (k / 64))).toNat
  [bits h 9 0, bits h 19 10, bits h 29 20, bits h 39 30]

/-- The storage offset of a logical offset on a core (R196, log 15). -/
def State.storageAt (s : State) (core o : Nat) : Nat :=
  match s.pieces.find? fun p => p.core = core && !p.region && decide (p.key ≤ o) && decide (o < p.key + p.size) with
  | some p => p.at_ + (o - p.key)
  | none => o % 2 ^ 20

/-- The location of a place as the commit arbiters know it: on-core bytes by their storage offset (R155, R196). -/
def State.arbiterKey (s : State) (core : Nat) (p : Place) : Nat × Nat :=
  match p with
  | .store k o => (1, k * Config.storeSpan + s.storageAt k o)
  | .regWin slot o =>
    match s.pieces.find? fun x => x.core = core && x.region && x.key = s.serialOf ⟨core, slot⟩ with
    | some x => (1, core * Config.storeSpan + x.at_ + o)
    | none => p.key
  | _ => p.key

/-- The signature bits of a list of places (R155). -/
def State.sigOf (s : State) (core : Nat) (places : List Place) : List Nat :=
  let keys := dedup (places.map fun p => ((s.arbiterKey core p).1, (s.arbiterKey core p).2 / 64 * 64))
  dedup ((keys.map fun k => sigBits k core).flatten)

/-- Keeps the lines of a write in the block's write signature, and those of a read in the read signature of an isolated
block (R155, R156). -/
def State.note (s : State) (f : Frame) (writes : Bool) (places : List Place) : Frame :=
  if writes then { f with writeSig := dedup (f.writeSig ++ s.sigOf f.warp.core places) }
  else if f.shape.iso then { f with readSig := dedup (f.readSig ++ s.sigOf f.warp.core places) }
  else f

/-- A load of an isolated block: the first records the arbiter's commit number (R156, R235). -/
def State.noteLoad (s : State) (f : Frame) (places : List Place) : Frame :=
  let f := s.note f false places
  if f.shape.iso && f.startCommit.isNone then { f with startCommit := some (s.reachedCommit (coreDie f.warp.core)) } else f

end Sys2Proof.Machine
end

