-- ==== Sys2Proof/Machine/Ballot.lean ====
section
/-!
DEFINITION. Clocks of a context (R81, R170), the device's own reads and writes on a context's behalf (R472), and the
sibling ballot table (spec/05_scheduler.md R125 to R138).
-/
namespace Sys2Proof.Machine

/-- Reference ticks of 10 ns since the creation of a context (R170). -/
def State.refTime (s : State) (ctx : Nat) : Nat :=
  match s.context? ctx with
  | some c => (s.ticks - c.created) % 2 ^ 64
  | none => 0

/-- The context clock in µs, modulo 2^32 (R81). -/
def State.ctxClock (s : State) (ctx : Nat) : W32 := BitVec.ofNat 32 (s.refTime ctx / 100)

/-- Has a deadline passed at a time of the context clock (R81)? -/
def passed (t d : W32) : Bool := (t - d).toNat < 2 ^ 31

/-- Does deadline `a` fall before `b` (R108)? -/
def earlier (a b : W32) : Bool := 2 ^ 31 ≤ (a - b).toNat

/-- The device reads bytes of a context's memory at their home; none where a page is not present. -/
def State.devRead (s : State) (ctx die : Nat) (va : W64) (n : Nat) : Option (List Byte) :=
  match s.devPlaces ctx die .read va.toNat n with
  | .ok ps => some (ps.map fun p => match p with
      | .hbm x _ => s.homeByte x
      | _ => sget 0 s.host p.key.2)
  | _ => none

/-- What an acquire at `.pkg` of a range by the device makes visible first (R132): the writes that blocks have committed to it
are performed, and the dirty stash bytes of its lines are written back (R214). -/
def State.devAcquire (s : State) (ctx die : Nat) (va : W64) (n : Nat) : State :=
  match s.devPlaces ctx die .read va.toNat n with
  | .ok ps =>
    let s := s.drain fun q => q.overlaps ps
    s.stashClean fun l => (linesAt ps).contains l.line
  | _ => s

/-- The device writes bytes of a context's memory, without checking `W` again (R472); nothing where a page is absent. -/
def State.devWrite (s : State) (ctx die : Nat) (va : W64) (bytes : List Byte) (tag : WriteTag := {}) : State :=
  match s.devPlaces ctx die .read va.toNat bytes.length with
  | .ok ps => s.performBytes (96 * die) ctx false (ps.zip bytes) tag
  | _ => s

/-- A write that the device makes with release at `.pkg` (R133, R134): what has been performed before it is visible with it. -/
def State.releaseTag (s : State) : WriteTag := { rel := true, cause := s.underway }

/-- A little-endian number of the device's own read; 0 where the page is absent. -/
def State.devNat (s : State) (ctx die : Nat) (va : W64) (n : Nat) : Nat :=
  match s.devRead ctx die va n with
  | some bs => leNat bs
  | none => 0

/-- `GROUP` of a record (Table 4.6). -/
def recGroup (r : W512) : Nat := (r.extractLsb' 320 16).toNat
/-- `SIBIDX` of a record (Table 4.6). -/
def recSib (r : W512) : Nat := (r.extractLsb' 336 6).toNat
/-- `JOIN` of a record (Table 4.6). -/
def recJoin (r : W512) : W64 := r.extractLsb' 128 64
/-- `LAUNCH` of a record (Table 4.6). -/
def recLaunch (r : W512) : W64 := r.extractLsb' 192 64
/-- `DEADLINE` of a record (Table 4.6). -/
def recDeadline (r : W512) : W32 := r.extractLsb' 256 32
/-- `ESTIMATE` of a record (Table 4.6). -/
def recEstimate (r : W512) : W32 := r.extractLsb' 288 32
/-- Coordinate of level `i` of a record (Table 4.6). -/
def recLevel (r : W512) (i : Nat) : W32 := BitVec.setWidth 32 (r.extractLsb' (352 + 16 * i) 16)
/-- A record with its `CLASS` field replaced (R81). -/
def recSetClass (r : W512) (c : Nat) : W512 :=
  (r &&& ~~~((3 : W512) <<< 344)) ||| (BitVec.ofNat 512 (c % 4) <<< 344)

/-- The live group of a handle in a context. -/
def State.group? (s : State) (ctx handle : Nat) : Option Group :=
  s.groups.find? fun g => g.handle = handle && g.ctx = ctx

/-- Code of a sibling's state (Table 5.6). -/
def SibState.code : SibState → Nat
  | .running => 0 | .finished => 1 | .cancelled => 2 | .failed => 3

/-- A mask of the siblings in a state (Table 5.5). -/
def Group.maskOf (g : Group) (st : SibState) : Nat :=
  total (g.siblings.zipIdx.map fun x => if x.1.state = st then 2 ^ x.2 else 0)

/-- A sibling entry (Table 5.6). -/
def Sibling.entry (x : Sibling) : Nat :=
  Nat.min x.after 0xffff + Nat.min x.tokens 0xffffffff * 2 ^ 16 + x.state.code * 2 ^ 48 + (if x.posted then 2 ^ 50 else 0)

/-- The bytes of a ballot record and its sibling entries (Tables 5.5 and 5.6). -/
def Group.bytes (g : Group) (final : Bool) : List Byte :=
  let d := g.decided.getD ⟨0, 0, 0, 0, 0, 0⟩
  leBytes 8 d.hash.toNat ++ leBytes 1 (d.method + if final then 128 else 0) ++ leBytes 1 g.siblings.length ++
  leBytes 1 g.quorum ++ leBytes 1 d.votes ++ leBytes 4 (Nat.min g.cancelLat 0xffffffff) ++ leBytes 8 d.time ++
  leBytes 8 (g.maskOf .finished) ++ leBytes 8 (g.maskOf .cancelled) ++ leBytes 8 (g.maskOf .failed) ++
  leBytes 8 d.firstSeq.toNat ++ leBytes 4 g.lost ++ leBytes 4 (g.siblings.filter fun x => x.retired).length ++
  List.replicate 64 0 ++ (g.siblings.map fun x => leBytes 8 x.entry).flatten

/-- Puts a group back and writes its record with release at `.pkg` (R134). -/
def State.putGroup (s : State) (g : Group) : State :=
  let s := { s with groups := update (fun x => x.handle = g.handle && x.ctx = g.ctx) (fun _ => g) s.groups }
  s.devWrite g.ctx 0 g.record (g.bytes false) s.releaseTag

/-- Does some warp of the context hold a record of the sibling (R127), or has a `deq` that has not yet committed delivered
one to it (R138, R153)? -/
def State.holdsSibling (s : State) (ctx handle sib : Nat) : Bool :=
  let mine := fun (r : W512) => decide (recGroup r = handle) && decide (recSib r = sib)
  let kept := fun (r : Option Replay) => match r.bind fun x => x.record with | some x => mine x | none => false
  let holds := fun (w : Warp) => decide (w.ctx = ctx) &&
    ((match w.held with | some h => mine h.record | none => false) || (w.strands.any fun st => kept st.replay) ||
      s.frames.any fun f => decide (f.warp = w.id) && kept f.bound)
  s.warps.any holds || s.contexts.any fun c => match c.saved with
    | some v => v.warps.any holds
    | none => false

/-- When every sibling has retired and been released the record is final, by a write with release at `.pkg`, and the group is
freed (R134, R137). -/
def State.finishGroup (s : State) (ctx handle : Nat) : State :=
  match s.group? ctx handle with
  | none => s
  | some g =>
    if g.siblings.all fun x => x.retired && x.released then
      let s := s.devWrite ctx 0 g.record (g.bytes true) s.releaseTag
      { s with groups := s.groups.filter fun x => !(x.handle = handle && x.ctx = ctx) }
    else s

/-- Siblings that are not running and of which no warp holds a record retire (R127); their pages are then released by
a later step (R132). -/
def State.retireSiblings (s : State) (ctx handle : Nat) : State :=
  match s.group? ctx handle with
  | none => s
  | some g =>
    let gone := fun (i : Nat) (x : Sibling) => x.state ≠ .running && !x.retired && !s.holdsSibling ctx handle i
    if g.siblings.zipIdx.any fun x => gone x.2 x.1 then
      let sibs := g.siblings.zipIdx.map fun x => if gone x.2 x.1 then { x.1 with retired := true } else x.1
      let lat := match g.decided with
        | some d => if g.siblings.zipIdx.any fun x => gone x.2 x.1 && x.1.state = .cancelled then s.cyclesOf 0 - d.cycle
            else g.cancelLat
        | none => g.cancelLat
      s.putGroup { g with siblings := sibs, cancelLat := lat }
    else s

/-- The group's decision by plurality when its last running sibling has left (R129): most posts, then the lower
sequence number of the first. -/
def State.plurality (s : State) (g : Group) : Group :=
  if g.decided.isSome || g.siblings.any (fun x => x.state = .running) then g
  else
    let best := g.hashes.foldl (fun (acc : Option (W64 × Nat × W64)) h =>
      match acc with
      | none => some h
      | some b => if b.2.1 < h.2.1 || (b.2.1 = h.2.1 && h.2.2 < b.2.2) then some h else some b) none
    match best with
    | some (h, n, q) => { g with decided := some ⟨2, h, n, q, s.refTime g.ctx, s.cyclesOf 0⟩ }
    | none => { g with decided := some ⟨3, 0, 0, 0, s.refTime g.ctx, s.cyclesOf 0⟩ }

/-- Replaces the state of a sibling. -/
def Group.setSibling (g : Group) (i : Nat) (f : Sibling → Sibling) : Group :=
  { g with siblings := g.siblings.zipIdx.map fun x => if x.2 = i then f x.1 else x.1 }

/-- A running sibling becomes failed (R127), with the decision and the retirement that may follow. -/
def State.failSibling (s : State) (ctx handle sib : Nat) : State :=
  match s.group? ctx handle with
  | none => s
  | some g =>
    match g.siblings[sib]? with
    | none => s
    | some x =>
      if x.state = .running then
        let g := g.setSibling sib fun x => { x with state := .failed }
        (s.putGroup (s.plurality g)).retireSiblings ctx handle
      else s.retireSiblings ctx handle

/-- A post of the sibling of the held record (R128, R129): the new state, and the status of R426. -/
def State.post (s : State) (ctx handle sib : Nat) (hash : Option W64) : State × Nat :=
  match s.group? ctx handle with
  | none => (s, 3)
  | some g =>
    match g.siblings[sib]? with
    | none => (s, 3)
    | some x =>
      match x.state with
      | .cancelled => (s, 2)
      | .finished => (s, 3)
      | .failed => (s, 3)
      | .running =>
        let q := s.ballotSeq
        let s := { s with ballotSeq := s.ballotSeq + 1 }
        match hash with
        | none =>
          let g := g.setSibling sib fun x => { x with state := .failed, posted := true }
          (s.putGroup (s.plurality g), 0)
        | some h =>
          let g := g.setSibling sib fun x => { x with state := .finished, posted := true }
          let old := g.hashes.find? fun e => e.1 = h
          let n := match old with | some e => e.2.1 + 1 | none => 1
          let first := match old with | some e => e.2.2 | none => q
          let hs := if old.isSome then update (fun e => e.1 = h) (fun e => (e.1, n, e.2.2)) g.hashes
            else g.hashes ++ [(h, n, q)]
          let g := { g with hashes := hs }
          if g.decided.isNone && n = g.quorum then
            let g := { g with
              decided := some ⟨1, h, n, first, s.refTime ctx, s.cyclesOf 0⟩
              siblings := g.siblings.map fun x => if x.state = .running then { x with state := .cancelled } else x }
            (s.putGroup g, 1)
          else
            let g := match g.decided with
              | some d => if d.method ≠ 3 ∧ d.hash = h then { g with decided := some { d with votes := n } } else g
              | none => g
            (s.putGroup (s.plurality g), 0)

/-- The retirement check of every group of a context (R127), after a warp has let go of a record. -/
def State.retireAll (s : State) (ctx : Nat) : State :=
  foldState s ((s.groups.filter fun g => g.ctx = ctx).map fun g => g.handle) fun s h => s.retireSiblings ctx h

/-- Is the sibling that a record of a context names no longer running (R130)? -/
def State.siblingStopped (s : State) (ctx : Nat) (record : W512) : Bool :=
  recGroup record ≠ 0 &&
  match s.group? ctx (recGroup record) with
  | none => false
  | some g => match g.siblings[recSib record]? with
    | some x => x.state ≠ .running
    | none => false

/-- The state of the sibling of a warp's held record, when it is not running (R130). -/
def State.cancelledRecord (s : State) (w : Warp) : Bool :=
  match w.held with
  | none => false
  | some h => s.siblingStopped w.ctx h.record

/-- A block of a warp that holds a sibling's record commits after the decision: `AFTER` rises (R135). -/
def State.countAfter (s : State) (w : Warp) : State :=
  match w.held with
  | none => s
  | some h =>
    match s.group? w.ctx (recGroup h.record) with
    | none => s
    | some g =>
      if g.decided.isSome then s.putGroup (g.setSibling (recSib h.record) fun x => { x with after := x.after + 1 })
      else s

/-- Appends committed by the sibling's blocks: `TOKENS` rises (R408). -/
def State.countTokens (s : State) (w : Warp) (n : Nat) : State :=
  match w.held with
  | none => s
  | some h =>
    match s.group? w.ctx (recGroup h.record) with
    | none => s
    | some g => if n = 0 then s
      else s.putGroup (g.setSibling (recSib h.record) fun x => { x with tokens := x.tokens + n })

end Sys2Proof.Machine
end

