-- ==== Sys2Proof/Machine/Launch.lean ====
section
/-!
DEFINITION. Launch records (spec/04_host_interface.md R86 to R88) and the affinity function (R92).
-/
namespace Sys2Proof.Machine

/-- A field of `n` bytes of a byte list, little-endian. -/
def field (bs : List Byte) (off n : Nat) : Nat := leNat ((bs.drop off).take n)

/-- Level descriptor `i` of a launch record, as one number (Table 4.9). -/
def levelDesc (bs : List Byte) (i : Nat) : Nat := field bs (0x20 + 24 * i) 24

/-- Level count L (Table 4.8). -/
def launchLevels (bs : List Byte) : Nat := field bs 0 1
/-- `EXTENT` of a level. -/
def lvExtent (d : Nat) : Nat := bits d 31 0
/-- `DOMAIN` of a level: 0 warp, 1 core, 2 core pair, 3 cluster, 4 die, 5 package, 6 pod. -/
def lvDomain (d : Nat) : Nat := bits d 34 32
/-- `SCOPE` of a level. -/
def lvScope (d : Nat) : Nat := bits d 42 40
/-- `BARRIERS` of a level. -/
def lvBarriers (d : Nat) : Nat := bits d 54 48
/-- `TILES` of a level. -/
def lvTiles (d : Nat) : Nat := bits d 59 56
/-- `VREGS` of a level. -/
def lvVregs (d : Nat) : Nat := bits d 72 64
/-- `SCRATCH` of a level. -/
def lvScratch (d : Nat) : Nat := bits d 127 96
/-- `STASH` of a level. -/
def lvStash (d : Nat) : Nat := bits d 159 128

/-- Affinity form of a launch record. -/
def launchForm (bs : List Byte) : Nat := bits (field bs 1 1) 1 0
/-- Swap-ready bit of a launch record. -/
def launchSwap (bs : List Byte) : Bool := bits (field bs 1 1) 2 2 = 1
/-- Deterministic bit of a launch record. -/
def launchDetBit (bs : List Byte) : Bool := bits (field bs 1 1) 3 3 = 1

/-- Least scope of a domain (Table 4.10). -/
def domainScope : Nat → Nat
  | 0 => 0 | 1 => 1 | 2 => 2 | 3 => 2 | 4 => 3 | 5 => 4 | _ => 5

/-- A level descriptor within the limits of R87 on its own. -/
def levelOk (d : Nat) : Bool :=
  let dom := lvDomain d
  decide (1 ≤ lvExtent d) && decide (lvExtent d ≤ 65536) && dom != 7 && lvScope d != 7 &&
  decide (domainScope dom ≤ lvScope d) &&
  bits d 39 35 == 0 && bits d 47 43 == 0 && bits d 55 55 == 0 && bits d 63 60 == 0 && bits d 95 73 == 0 &&
  bits d 191 160 == 0 &&
  decide (lvBarriers d ≤ 64) && decide (lvTiles d ≤ 8) && decide (lvVregs d ≤ 256) &&
  lvScratch d % 256 == 0 && lvStash d % 4096 == 0 &&
  (lvVregs d == 0 || dom == 0) && (lvTiles d == 0 || decide (dom ≤ 2)) &&
  ((lvBarriers d == 0 && lvScratch d == 0) || (decide (1 ≤ dom) && decide (dom ≤ 3))) &&
  (lvStash d == 0 || dom == 1)

/-- A launch record that is not malformed (R87). -/
def launchOk (bs : List Byte) : Bool :=
  let n := launchLevels bs
  let ds := (List.range n).map fun i => levelDesc bs i
  bs.length == 256 && decide (1 ≤ n) && decide (n ≤ 8) &&
  bits (field bs 1 1) 7 4 == 0 && field bs 2 2 == 0 && field bs 0xe8 24 == 0 &&
  ds.all levelOk &&
  ((List.range 8).all fun i => decide (i < n) || levelDesc bs i == 0) &&
  lvDomain (levelDesc bs (n - 1)) == 0 && lvVregs (levelDesc bs (n - 1)) != 0 &&
  ((List.range (n - 1)).all fun i => decide (lvDomain (levelDesc bs (i + 1)) ≤ lvDomain (levelDesc bs i))) &&
  ((List.range n).all fun i => i == 0 || lvDomain (levelDesc bs i) != 6) &&
  (launchForm bs != 1 || decide (((ds.take 6).map lvExtent).foldl (· * ·) 1 ≤ 2 ^ 32)) &&
  (launchForm bs != 3 || decide (2 ≤ n)) &&
  decide (1 ≤ field bs 0xe4 4) && decide (field bs 0xe4 4 ≤ 65536) && field bs 0x10 8 % 16 == 0

/-- The affinity die and slice of coordinates (R92). -/
def affinity (bs : List Byte) (coord : Nat → Nat) : Nat × Nat :=
  let k := Nat.min (launchLevels bs) 6
  let e := fun i => lvExtent (levelDesc bs i)
  let lin := (List.range k).foldl (fun a i => (a * e i + coord i) % 2 ^ 64) 0
  let nn := (List.range k).foldl (fun a i => a * e i) 1
  let seed := field bs 8 8
  match launchForm bs with
  | 0 =>
    let x := (lin + bits seed 31 0) % 2 ^ 32
    (x % 4, x / 4 % 16)
  | 1 => ((lin * 4 / nn + bits seed 1 0) % 4, lin * 64 / nn % 16)
  | 2 =>
    let h := (mix64 (BitVec.ofNat 64 (Nat.xor lin seed))).toNat
    (bits h 1 0, bits h 5 2)
  | _ =>
    let rr := coord 0 / 2 ^ bits seed 3 0
    let qq := coord 1 / 2 ^ bits seed 7 4
    (Nat.xor (rr % 2 * 2 + qq % 2) (bits seed 9 8), (rr / 2 + 4 * (qq / 2) + bits seed 15 12) % 16)

/-- The launch record at an address of a context, when its page is present (R82, R91). A device that keeps launch records
cached may use the former contents of one that has been changed (R91): the model keeps none and always reads the present
contents, which is a choice of the model (log 62). -/
def State.launchAt (s : State) (ctx die : Nat) (va : W64) : Option (List Byte) :=
  if va = 0 ∨ va.toNat % 256 ≠ 0 then none else s.devRead ctx die va 256

end Sys2Proof.Machine
end

