-- ==== Sys2Proof/Machine/Queue.lean ====
section
/-!
DEFINITION. Work queues, delivery and join counters (spec/04_host_interface.md R74 to R85; spec/05_scheduler.md R104 to
R118, R131).
-/
namespace Sys2Proof.Machine

/-- A queue by number. -/
def State.queue? (s : State) (n : Nat) : Option WorkQueue := s.queues.find? fun q => q.num = n

/-- Puts a queue back. -/
def State.putQueue (s : State) (q : WorkQueue) : State :=
  { s with queues := update (fun x => x.num = q.num) (fun _ => q) s.queues }

/-- Records in a queue (Table 4.3). -/
def WorkQueue.count (q : WorkQueue) : Nat := (q.tail - q.head).toNat

/-- Physical address of the slot of an index (R75). -/
def WorkQueue.slotAddr (q : WorkQueue) (idx : W32) : Nat :=
  let o := q.base.toNat % 4096 + idx.toNat % 2 ^ q.log2n * 64
  (q.pages[o / 4096]?).getD 0 + o % 4096

/-- The record in the slot of an index. -/
def State.recordAt (s : State) (q : WorkQueue) (idx : W32) : W512 :=
  BitVec.ofNat 512 (leNat (getBytes s.hbm (q.slotAddr idx) 64))

/-- Offers a record to a queue (R75, R77): refused and counted when it holds N − 1 records or is disabled. -/
def State.enqueue (s : State) (q : WorkQueue) (r : W512) : State × Bool :=
  if !q.enable ∨ 2 ^ q.log2n - 1 ≤ q.count then
    (s.putQueue { q with overflow := satAdd16 q.overflow 1 }, false)
  else
    let a := q.slotAddr q.tail
    let s := s.performHbm q.home (some q.ctx) false false ((leBytes 64 r.toNat).zipIdx.map fun b => (a + b.2, b.1))
    let start := if q.count = 0 then s.ticks else q.waitStart
    (s.putQueue { q with tail := q.tail + 1, waitStart := start }, true)

/-- A queue's effective class (R107): less one for each 16 ms waited, never below 1 but for class 0. -/
def State.effClass (s : State) (q : WorkQueue) : Nat :=
  if q.cls = 0 then 0 else Nat.max 1 (q.cls - (s.ticks - q.waitStart) / 1600000)

/-- The coordinates of a record (Table 4.6). -/
def recCoord (r : W512) (i : Nat) : Nat := if i < 6 then (recLevel r i).toNat else 0

/-- A record is malformed when it is about to be delivered (R82). -/
def State.recordMalformed (s : State) (q : WorkQueue) (r : W512) : Bool :=
  let v := r.toNat
  match s.launchAt q.ctx q.home (recLaunch r) with
  | none => true
  | some bs =>
    bits v 343 342 != 0 || bits v 351 349 != 0 || bits v 3 0 != 0 || !launchOk bs ||
    (recJoin r != 0 && (recJoin r).toNat % 128 != 0) ||
    ((List.range 6).any fun i =>
      if i < launchLevels bs then decide (lvExtent (levelDesc bs i) ≤ recCoord r i) else recCoord r i != 0) ||
    (bits v 347 347 == 1) != launchDetBit bs ||
    (if recGroup r = 0 then recSib r != 0
     else match s.group? q.ctx (recGroup r) with
      | none => true
      | some g => decide (g.siblings.length ≤ recSib r))

/-- The record belongs to a sibling that is not running (R131). -/
def State.recordCancelled (s : State) (q : WorkQueue) (r : W512) : Bool :=
  recGroup r != 0 && match s.group? q.ctx (recGroup r) with
    | none => false
    | some g => match g.siblings[recSib r]? with
      | some x => x.state != .running
      | none => false

/-- A record that has come into a queue, as the index of its slot (R113). -/
abbrev Arrived := Nat × W32

/-- How many retry entries of a dispatcher are taken (R118). -/
def State.retryEntries (s : State) (die : Nat) : Nat := (s.joinWaits.filter fun j => j.die = die).length

/-- A decrement of a join object that the device makes for a discarded record, once it has its turn (R83, R117, R118,
R472): the new state, and the continuation that came into a queue. -/
def State.deviceJoinNow (s : State) (ctx die : Nat) (obj : W64) : State × Option Arrived :=
  match s.devPlaces ctx die .atomic obj.toNat 128 with
  | .ok ps =>
    let s := foldState s (linesAt ps) fun s l => s.evictStash l fun _ => true
    let count := s.devNat ctx die obj 8
    let qn := s.devNat ctx die (obj + 8) 4
    let new := (count + 2 ^ 64 - 1) % 2 ^ 64
    let put := fun (s : State) => s.devWrite ctx die obj (leBytes 8 new)
    if new = 0 then
      match s.queue? qn with
      | none => ((put s).countError ctx, none)
      | some q =>
        if q.ctx ≠ ctx ∨ !q.enable then ((put s).countError ctx, none)
        else if 2 ^ q.log2n - 1 ≤ q.count then ({ s with joinWaits := s.joinWaits ++ [⟨die, ctx, obj⟩] }, none)
        else
          let cont := BitVec.ofNat 512 (s.devNat ctx die (obj + 64) 64)
          let s := put s
          match s.queue? qn with
          | some q => ((s.enqueue q cont).1, some (qn, q.tail))
          | none => (s, none)
    else if 2 ^ 63 ≤ new then ((put s).countError ctx, none)
    else (put s, none)
  | _ => (s.countError ctx, none)

/-- A decrement that the device makes for a discarded record: while all 64 retry entries of the dispatcher are busy it
waits for one (R118). -/
def State.deviceJoin (s : State) (ctx die : Nat) (obj : W64) : State × Option Arrived :=
  if 64 ≤ s.retryEntries die ∨ s.discards.any (fun j => j.die = die) then
    ({ s with discards := s.discards ++ [⟨die, ctx, obj⟩] }, none)
  else s.deviceJoinNow ctx die obj

/-- Must the discard of a queue's head record wait: it makes a decrement, and all 64 retry entries of the dispatcher are
busy (R118)? -/
def State.discardWaits (s : State) (q : WorkQueue) (r : W512) : Bool :=
  recJoin r != 0 && (recJoin r).toNat % 128 == 0 &&
  (decide (64 ≤ s.retryEntries q.home) || s.discards.any fun j => j.die = q.home)

/-- Is a queue eligible for a request of a warp that names `count` queues from `first` (R106)? -/
def State.eligibleQueue (_s : State) (w : Warp) (first count : Nat) (q : WorkQueue) : Bool :=
  decide (first ≤ q.num) && decide (q.num < first + count) && q.ctx == w.ctx && q.enable && q.count != 0 &&
  q.exclHolder == none

/-- Weighted round-robin among queues homed on `h` (R110): the state, and the queue chosen. Before the first call the pointer
names no queue and the remainder is 0, so that the lowest number is refilled first: a choice of the model (log 62). -/
def State.wrrPick (s : State) (h c : Nat) (cls : List WorkQueue) : State × Option WorkQueue :=
  let qs := sortBy (fun q : WorkQueue => q.num) (cls.filter fun q => q.home = h)
  let e := sget ((0, 0) : Nat × Nat) s.wrr (4 * h + c)
  let cur := qs.find? fun q => q.num + 1 = e.1
  let chosen : Option (WorkQueue × Nat) := match cur with
    | some q => if e.2 = 0 then none else some (q, e.2)
    | none => none
  let following : Option WorkQueue := match qs.find? fun (q : WorkQueue) => decide (e.1 ≤ q.num) with
    | some q => some q
    | none => qs.head?
  let chosen : Option (WorkQueue × Nat) := match chosen with
    | some x => some x
    | none => following.map fun q => (q, q.weight)
  match chosen with
  | none => (s, none)
  | some (q, r) => ({ s with wrr := sset (0, 0) s.wrr (4 * h + c) (q.num + 1, r - 1) }, some q)

/-- The queue with the earliest head deadline, ties to the lower number (R108). -/
def State.earliestQueue (s : State) (qs : List WorkQueue) : Option WorkQueue :=
  (sortBy (fun q : WorkQueue => q.num) qs).foldl (fun acc q =>
    match acc with
    | none => some q
    | some b => if earlier (recDeadline (s.recordAt q q.head)) (recDeadline (s.recordAt b b.head)) then some q else some b) none

/-- A record is late at a context time (R114). -/
def recLate (t : W32) (r : W512) : Bool :=
  recDeadline r != 0xffffffff && decide ((t - (recDeadline r - recEstimate r)).toNat < 2 ^ 31)

/-- What a dispatcher has to report of the eligible queues it holds: effective class and head deadline (R104; log 54). -/
def State.summary (s : State) (die : Nat) : List (Nat × Nat × W32) :=
  (s.queues.filter fun q => q.home = die && q.enable && q.count != 0 && q.exclHolder == none).map fun q =>
    (q.num, s.effClass q, recDeadline (s.recordAt q q.head))

/-- A dispatcher's summary as the arbiter keeps it is brought up to date (R104). -/
def State.reportDie (s : State) (die : Nat) : State := { s with summaries := sset [] s.summaries die (s.summary die) }

/-- Every dispatcher's summary is brought up to date: later requests pass over no queue that is eligible now (R104). -/
def State.reportAll (s : State) : State := foldState s (List.range 4) fun s d => s.reportDie d

/-- The effective class and head deadline of a queue as its dispatcher has reported them last; none of a queue that was not
eligible then (R104). -/
def State.reported? (s : State) (q : WorkQueue) : Option (Nat × W32) :=
  ((sget [] s.summaries q.home).find? fun x => x.1 = q.num).map fun x => x.2

/-- The eligible queues that a request is answered from, each with the class and deadline by which it is compared: those of
the last reports. A queue that has become eligible since is passed over, unless nothing else is eligible (R104; log 54). -/
def State.offered (s : State) (elig : List WorkQueue) : List (WorkQueue × Nat × W32) :=
  match elig.filterMap fun q => (s.reported? q).map fun x => (q, x) with
  | [] => elig.map fun q => (q, s.effClass q, recDeadline (s.recordAt q q.head))
  | shown => shown

/-- The queue with the earliest deadline of those with one, ties to the lower number (R108). -/
def earliestOffer (qs : List (WorkQueue × Nat × W32)) : Option WorkQueue :=
  ((sortBy (fun q : WorkQueue × Nat × W32 => q.1.num) (qs.filter fun q => q.2.2 != 0xffffffff)).foldl (fun acc q =>
    match acc with
    | none => some q
    | some b => if earlier q.2.2 b.2.2 then some q else some b) none).map Prod.fst

/-- Which queue a request is answered from, its class and whether the record is a substitute (R108, R115): the state
after the round-robin, and the choice. -/
def State.chooseQueue (s : State) (w : Warp) (first count : Nat) : State × Option (WorkQueue × Nat) × Option Arrived :=
  let elig := s.offered (s.queues.filter fun q => s.eligibleQueue w first count q)
  match minimum? (elig.map fun q => q.2.1) with
  | none => (s, none, none)
  | some c =>
    let cls := elig.filter fun q => q.2.1 = c
    let die := coreDie w.id.core
    let pick : State × Option WorkQueue :=
      match earliestOffer cls with
      | some q => (s, some q)
      | none =>
        match ((List.range 4).map fun i => (die + i) % 4).find? fun d => cls.any fun q => q.1.home = d with
        | some h => s.wrrPick h c (cls.map Prod.fst)
        | none => (s, none)
    match pick.2 with
    | none => (pick.1, none, none)
    | some q =>
      let s := pick.1
      let t := s.ctxClock w.ctx
      let late := s.queues.filter fun x =>
        decide (x.cls ≤ 1) && s.eligibleQueue w w.launchFirst w.launchCount x && recLate t (s.recordAt x x.head)
      if (s.recordAt q q.head).getLsbD 346 && decide (2 ≤ c) then
        match s.earliestQueue late with
        | some x => (s, some (x, s.effClass x), some (q.num, q.head))
        | none => (s, some (q, c), none)
      else (s, some (q, c), none)

/-- More rounds than an answer, or the wakes that follow it, can take: each ends a record or a request, and all the queues
and join objects of the address space hold fewer. -/
def rounds : Nat := 2 ^ 64

/-- How an answer ends (R108, R112, R118): a record with its queue, no eligible queue, or a discard that waits for a retry
entry. -/
inductive AnswerEnd where
  | record (r : W512) (queue : Nat)
  | empty
  | blocked
  deriving DecidableEq, Repr

/-- The record delivered, with its queue. -/
def AnswerEnd.given : AnswerEnd → Option (W512 × Nat)
  | .record r q => some (r, q)
  | _ => none

/-- Answers a request (R108): discards the records that fail R82 or R131 and runs again; how it ends, and the records that
enqueues or re-queues of this answer brought into queues. -/
def State.answer : Nat → State → Warp → Nat → Nat → List Arrived → State × AnswerEnd × List Arrived
  | 0, s, _, _, _, woken => (s, .empty, woken)
  | fuel + 1, s, w, first, count, woken =>
    match s.chooseQueue w first count with
    | (s, none, _) => (s, .empty, woken)
    | (s, some (q, c), requeued) =>
      let r := s.recordAt q q.head
      let woken := match requeued with | some n => woken ++ [n] | none => woken
      let bad := s.recordMalformed q r
      if bad || s.recordCancelled q r then
        if s.discardWaits q r then (s, .blocked, woken)
        else
          let s := s.putQueue { q with
            head := q.head + 1
            malformed := if bad then satAdd16 q.malformed 1 else q.malformed
            discarded := if bad then q.discarded else satAdd16 q.discarded 1 }
          if recJoin r ≠ 0 ∧ (recJoin r).toNat % 128 = 0 then
            let j := s.deviceJoin q.ctx q.home (recJoin r)
            j.1.answer fuel w first count (match j.2 with | some n => woken ++ [n] | none => woken)
          else s.answer fuel w first count woken
      else
        let q := { q with
          head := q.head + 1, waitStart := s.ticks, exclHolder := if r.getLsbD 348 then some w.id else q.exclHolder }
        (s.putQueue q, .record (recSetClass r c) q.num, woken)

/-- Ends the `EXCL` hold of a warp, if it has one (R84). -/
def State.endExcl (s : State) (w : Warp) : State :=
  { s with queues := update (fun q => q.ctx = w.ctx && q.exclHolder = some w.id) (fun q => { q with exclHolder := none }) s.queues }

/-- A `deq` in its frame completes with a record or empty (R421): the status goes to both targets of every performing
lane, the block is bound, and the rest is left to its commit. -/
def Frame.finishDeq (f : Frame) (g : G) (group : Nat) (res : Option (W512 × Nat)) : Frame :=
  let st : W64 := if res.isSome then 0 else 1
  let tok := tokenOf fun l => if f.passes g.pred l && (f.arg .a l).isSome && (f.arg .b l).isSome then some st else none
  let d := Deferred.deqDone group (res.map Prod.fst) ((res.map Prod.snd).getD 0)
  let f := ((f.send g.t1 tok).send g.t0 tok)
  ({ f with bound := some ⟨f.pc, f.active, tok, res.map Prod.fst, (res.map Prod.snd).getD 0, true⟩, deferred := f.deferred ++ [(f.slot, d)] }.fire).step

/-- Lanes of the strand that a replay entry of a bound `deq` keeps (R153). -/
def Strand.deqReplay (st : Strand) (res : Option (W512 × Nat)) : Strand :=
  { st with replay := some ⟨st.pc, st.mask, tokenOf fun l => if st.mask.getLsbD l then some (if res.isSome then 0 else 1) else none,
      res.map Prod.fst, (res.map Prod.snd).getD 0, true⟩ }

/-- A parked warp's request is answered (R112, R113): it runs again, and its `deq` completes in its block, or by way of
the replay entry when the block is no longer in flight. -/
def State.completeDeq (s : State) (id : WarpId) (strand : Nat) (res : Option (W512 × Nat)) : State :=
  let s := s.onWarp id fun w => { w with status := .running }
  match s.frames.find? fun f => f.warp = id && f.strand = strand with
  | some f =>
    match decode ((f.words[f.at_]?).getD 0) with
    | .ok (.deq g n) => s.onFrame id strand fun f => { f with waiting := false }.finishDeq g n.toNat res
    | _ => s
  | none => s.onWarp id fun w => w.onStrand strand fun st => st.deqReplay res

/-- Is a context one whose parked requests are answered: it runs, and no spill has written its warps (R185)? -/
def State.answersFor (s : State) (ctx : Nat) : Bool :=
  match s.context? ctx with
  | some c => decide (c.state = .resident)
  | none => false

/-- The parked warp that the record at an index of a queue wakes (R113): nearest to that record's affinity, then longest
parked. Warps whose requests bear one count of 10 ns ticks are taken to have parked in the same fabric cycle: a choice of
the model (log 62). -/
def State.wakeChoice (s : State) (q : WorkQueue) (idx : W32) : Option (Warp × DeqRequest) :=
  let r := s.recordAt q idx
  let parked := s.warps.filterMap fun w => match w.status with
    | .parkedDeq d => if s.answersFor w.ctx && s.eligibleQueue w d.first d.count q then some (w, d) else none
    | _ => none
  let aff := (s.launchAt q.ctx q.home (recLaunch r)).map fun bs => affinity bs (recCoord r)
  let tier := fun (w : Warp) =>
    let die := coreDie w.id.core
    match aff with
    | some (d, sl) => if die = d then (if w.id.core % 96 / 4 % 16 = sl then 0 else 1) else if die = q.home then 2 else 3
    | none => if die = q.home then 2 else 3
  let order := sortBy (fun x : Warp × DeqRequest => tier x.1)
    (sortBy (fun x : Warp × DeqRequest => x.2.since) (sortBy (fun x : Warp × DeqRequest => x.1.id.core * 64 + x.1.id.slot) parked))
  order.head?

/-- Does a queue still hold the record at an index? -/
def WorkQueue.holds (q : WorkQueue) (idx : W32) : Bool := decide ((idx - q.head).toNat < q.count)

/-- Each record of the list that is still queued wakes one parked request, and again for as long as the answers leave it
queued; so do the records that those answers bring into queues (R113). A request is answered from the queues eligible at
that moment, so the summaries are current. -/
def State.wake : Nat → State → List Arrived → State
  | 0, s, _ => s
  | _, s, [] => s
  | fuel + 1, s, x :: rest =>
    match (s.queue? x.1).filter fun q => q.holds x.2 with
    | none => s.wake fuel rest
    | some q =>
      match s.wakeChoice q x.2 with
      | none => s.wake fuel rest
      | some (w, d) =>
        match s.reportAll.answer rounds w d.first d.count [] with
        | (s, .record r n, more) => (s.completeDeq w.id d.strand (some (r, n))).wake fuel (x :: rest ++ more)
        | (s, _, more) => s.wake fuel (rest ++ more)

/-- Enqueues a record and wakes parked requests. -/
def State.enqueueWake (s : State) (q : WorkQueue) (r : W512) : State × Bool :=
  match s.enqueue q r with
  | (s, true) => (s.wake rounds [(q.num, q.tail)], true)
  | (s, false) => (s, false)

/-- A decrement for a discarded record, with the wake that its enqueue may bring. -/
def State.deviceJoinWake (s : State) (ctx die : Nat) (obj : W64) : State :=
  let j := s.deviceJoin ctx die obj
  j.1.wake rounds j.2.toList

/-- A retry entry of a dispatcher has come free: the oldest discard that waits for one has its turn, and otherwise the requests
that the dispatcher's queues can answer again (R118). -/
def State.nextDiscard (s : State) (die : Nat) : State :=
  if 64 ≤ s.retryEntries die then s
  else match s.discards.find? fun j => j.die = die with
    | none => s.wake rounds ((s.queues.filter fun q => q.home = die && q.count != 0).map fun q => (q.num, q.head))
    | some j =>
      let r := ({ s with discards := s.discards.erase j } : State).deviceJoinNow j.ctx j.die j.object
      r.1.wake rounds r.2.toList

end Sys2Proof.Machine
end

