-- ==== Sys2Proof/Machine/SaveArea.lean ====
section
/-!
DEFINITION. The bytes of a saved warp: the warp area, the register tags and the payload
(spec/07_traps_and_context.md R170, R187 to R189, Tables 7.1 and 7.10), and how they are read back (R186).
-/
namespace Sys2Proof.Machine

/-- The code of a cause (Table 7.2). -/
def Cause.code : Cause → Nat
  | .illegal => 0x01 | .malformed => 0x02 | .register => 0x03 | .address => 0x04 | .pageTable => 0x05
  | .protection => 0x06 | .pageFault => 0x07 | .window => 0x08 | .windowCrossing => 0x09 | .alignment => 0x0a
  | .poison => 0x0b | .hostTimeout => 0x0c | .remotePoison => 0x0d | .remoteWriteLost => 0x0e | .queue => 0x0f
  | .remote => 0x10 | .sparsityHeader => 0x11 | .barrier => 0x12 | .determinism => 0x13 | .bounds => 0x14
  | .breakpoint => 0x15 | .epiloguePending => 0x16 | .nested => 0x17 | .softwareTrap => 0x18 | .saveFault => 0x19
  | .undoOverflow => 0x1a | .uncorrectable => 0x1b

/-- All causes. -/
def allCauses : List Cause :=
  [.illegal, .malformed, .register, .address, .pageTable, .protection, .pageFault, .window, .windowCrossing, .alignment,
    .poison, .hostTimeout, .remotePoison, .remoteWriteLost, .queue, .remote, .sparsityHeader, .barrier, .determinism, .bounds,
    .breakpoint, .epiloguePending, .nested, .softwareTrap, .saveFault, .undoOverflow, .uncorrectable]

/-- The cause of a code (Table 7.2). -/
def Cause.ofCode (n : Nat) : Option Cause := allCauses.find? fun c => c.code = n

/-- The bytes of a fault record (Table 7.1). -/
def recordBytes (pc addr : W64) (lanes active : Mask) (cause slot lsid : Nat) (epilogue inHandler : Bool) (id : WarpId)
    (detail : W64) (time : Nat) : List Byte :=
  leBytes 8 pc.toNat ++ leBytes 8 addr.toNat ++ leBytes 4 lanes.toNat ++ leBytes 4 active.toNat ++
  leBytes 1 cause ++ leBytes 1 slot ++ leBytes 1 lsid ++
  leBytes 1 ((if epilogue then 1 else 0) + (if inHandler then 2 else 0)) ++
  leBytes 2 id.core ++ leBytes 1 id.slot ++ leBytes 1 0 ++ leBytes 8 detail.toNat ++ leBytes 8 time ++ List.replicate 16 0

/-- The tag of a vector register's 32 lane values (R188): 0 uniform, 1 affine, 2 narrow, 3 full. -/
def regTag (x : Nat → W32) : Nat :=
  let d := x 1 - x 0
  if allLanes.all fun l => x l = x 0 then 0
  else if allLanes.all fun l => x l = x 0 + BitVec.ofNat 32 l * d then 1
  else if allLanes.all fun l => x l = ((x l).extractLsb' 0 8).signExtend 32 then 2
  else 3

/-- A vector register packed in its tagged form (R188). -/
def packReg (x : Nat → W32) : List Byte :=
  match regTag x with
  | 0 => leBytes 4 (x 0).toNat
  | 1 => leBytes 4 (x 0).toNat ++ leBytes 4 (x 1 - x 0).toNat
  | 2 => allLanes.map fun l => (x l).extractLsb' 0 8
  | _ => (allLanes.map fun l => leBytes 4 (x l).toNat).flatten

/-- Bytes that a tag's packed form takes (R188). -/
def packSize : Nat → Nat
  | 0 => 4 | 1 => 8 | 2 => 32 | _ => 128

/-- Lane `l` of a packed register (R188). -/
def unpackReg (tag : Nat) (bs : List Byte) (l : Nat) : W32 :=
  match tag with
  | 0 => BitVec.ofNat 32 (leNat (bs.take 4))
  | 1 => BitVec.ofNat 32 (leNat (bs.take 4)) + BitVec.ofNat 32 l * BitVec.ofNat 32 (leNat ((bs.drop 4).take 4))
  | 2 => ((bs[l]?).getD 0).signExtend 32
  | _ => BitVec.ofNat 32 (leNat ((bs.drop (4 * l)).take 4))

/-- The payload of a warp (R189). -/
def Warp.payload (w : Warp) : List Byte :=
  let v := 128 * w.vregs
  let bs := ((List.range w.vregs).map fun n => packReg (w.vreg n)).flatten ++
    (List.range 640).map fun i => w.regionByte (v + i)
  bs ++ List.replicate ((64 - bs.length % 64) % 64) 0

/-- The register tags of a warp, two bits a register (Table 7.10). -/
def Warp.tagBytes (w : Warp) : List Byte :=
  leBytes 64 (total ((List.range w.vregs).map fun n => regTag (w.vreg n) * 4 ^ n))

/-- State byte of a warp area (Table 7.10). -/
def WarpStatus.code : WarpStatus → Nat
  | .running => 1 | .parkedDeq _ => 3 | .parkedPage .. => 1 | .offCore .. => 4 | .serviceWait .. => 1

/-- What is left of a parked `deq`'s timeout, in µs, at a tick count (R185). -/
def DeqRequest.left (r : DeqRequest) (ticks : Nat) : W32 :=
  if r.timeout = 0xffffffff then r.timeout
  else BitVec.ofNat 32 (r.timeout.toNat - (ticks - r.since) / 100)

/-- Is the strand in an active position? -/
def Strand.inActive (st : Strand) : Bool := st.place = .active || st.place = .rotating

/-- The place byte and the byte after it of strand `i` of a list (Table 7.10); a sleeping strand is saved as ready. -/
def placeBytes (sts : List Strand) (i : Nat) (st : Strand) : List Byte :=
  let before := sts.take i
  match st.place with
  | .active | .rotating => leBytes 1 (before.filter Strand.inActive).length ++ leBytes 1 0
  | .waiting | .sleeping _ =>
    let ready := fun (x : Strand) => match x.place with | .waiting => true | .sleeping _ => true | _ => false
    leBytes 1 4 ++ leBytes 1 (before.filter ready).length
  | .parked j => leBytes 1 5 ++ leBytes 1 j

/-- A strand entry (Table 7.10). -/
def strandBytes (sts : List Strand) (i : Nat) (st : Strand) : List Byte :=
  leBytes 8 st.pc.toNat ++ leBytes 8 st.trapRet.toNat ++ leBytes 4 st.mask.toNat ++ placeBytes sts i st ++
  leBytes 1 ((if st.inHandler then 1 else 0) + if st.held.isSome then 2 else 0) ++ List.replicate 9 0

/-- The token area of a replay entry: one token a lane (Table 7.10), or for a `deq` its status and then its record
(R421). -/
def Replay.tokenArea (r : Replay) : List Byte :=
  if r.deq then
    leBytes 8 (if r.record.isSome then 0 else 1) ++ leBytes 64 (r.record.getD 0).toNat ++ List.replicate 184 0
  else (allLanes.map fun l => leBytes 8 ((tokenAt r.tok l).getD 0).toNat).flatten

/-- A replay entry (Table 7.10). -/
def replayBytes : Option Replay → List Byte
  | none => List.replicate 272 0
  | some r =>
    let null := maskOf (allLanes.filter fun l => (tokenAt r.tok l).isNone)
    leBytes 8 r.block.toNat ++ leBytes 4 r.lanes.toNat ++ leBytes 4 null.toNat ++ r.tokenArea

/-- A deposit (Table 7.10). -/
def Deposit.bytes (d : Deposit) : List Byte :=
  leBytes 1 d.reg ++ leBytes 1 d.counter ++ leBytes 6 0 ++ leBytes 4 (maskOf (d.lanes.map Prod.fst)).toNat ++ leBytes 4 0 ++
  (allLanes.map fun l => leBytes 4 (((d.lanes.find? fun x => x.1 = l).map Prod.snd).getD 0).toNat).flatten

/-- Pads or cuts a list of bytes to a length. -/
def fitBytes (n : Nat) (bs : List Byte) : List Byte := (bs ++ List.replicate (n - bs.length) 0).take n

/-- The warp area up to the fault record, which stays as it was written (Table 7.10). -/
def Warp.areaHead (w : Warp) (ticks off len : Nat) : List Byte :=
  let handler := ((w.strands.zipIdx.find? fun x => x.1.inHandler).map fun x => x.2).getD 0xff
  let left := match w.status, w.deqLeft with
    | .parkedDeq _, some (_, t) => t.toNat
    | .parkedDeq r, none => (r.left ticks).toNat
    | _, _ => 0
  leBytes 1 w.status.code ++ leBytes 1 w.id.slot ++ leBytes 2 w.vregs ++ leBytes 4 w.lfsr.toNat ++ leBytes 4 off ++
  leBytes 4 len ++ leBytes 1 w.backoff ++ leBytes 1 w.strands.length ++ leBytes 1 handler ++ leBytes 5 0 ++ leBytes 8 left ++
  fitBytes 1024 (w.strands.zipIdx.map fun x => strandBytes w.strands x.2 x.1).flatten ++
  w.tagBytes ++
  ((List.range 16).map fun j => leBytes 4 (w.arrived j).toNat).flatten ++
  fitBytes 1088 ((w.strands.filter Strand.inActive).map fun st => replayBytes st.replay).flatten ++
  fitBytes 576 (w.deposits.map Deposit.bytes).flatten

/-- The warp area after the fault record (Table 7.10). -/
def Warp.areaTail (w : Warp) (time : Nat) : List Byte :=
  let held := match w.held with
    | none => List.replicate 80 0
    | some h => leBytes 64 h.record.toNat ++ leBytes 8 h.block.toNat ++
        leBytes 1 (1 + if h.excl.isSome then 2 else 0) ++ leBytes 7 0
  let fault := match w.heldFault with
    | none => List.replicate 65 0
    | some h =>
      let n := ((w.tiles.zipIdx.find? fun x => x.1 = h.tile).map fun x => x.2).getD 0
      recordBytes 0 h.info.address h.info.lanes 0 h.info.cause.code 0xff 0xff false false w.id 0 time ++
        leBytes 1 (1 + 2 * (n % 8) + if h.unnamed then 16 else 0)
  (allLanes.map fun l => leBytes 4 (sget 0 w.cpbatch l).toNat).flatten ++ held ++ fault ++ List.replicate 911 0

/-- What a warp's area holds, as runs of bytes at offsets of its core section, with its payload at `off`; the fault record
between them stays as it was written (Table 7.10). -/
def Warp.areaRuns (w : Warp) (ticks time off : Nat) : List (Nat × List Byte) :=
  let area := 0x1000 * (w.id.slot + 1)
  [(area, w.areaHead ticks off w.payload.length), (area + 0xb60, w.areaTail time)]

/-- A strand read back from its entry, with what the entry does not hold taken from the strand saved (R186). -/
def strandOf (bs : List Byte) (i : Nat) (old : Option Strand) : Strand × Nat :=
  let place := field bs 20 1
  let pos := field bs 21 1
  let p : StrandPlace := if place ≤ 3 then .active else if place = 5 then .parked (pos % 16) else .waiting
  (⟨i, BitVec.ofNat 64 (field bs 0 8), BitVec.ofNat 64 (field bs 8 8), BitVec.ofNat 32 (field bs 16 4), p,
    bits (field bs 22 1) 0 0 = 1, if bits (field bs 22 1) 1 1 = 1 then old.bind fun st => st.held else none,
    (old.map fun st => st.hold).getD [], old.bind fun st => st.replay, (old.map fun st => st.restarts).getD 0⟩,
    if place ≤ 3 then place else if place = 5 then 0x200 else 0x100 + pos)

/-- A replay entry read back; none where its lane mask is zero. -/
def replayOf (bs : List Byte) (old : Option Replay) : Option Replay :=
  if field bs 8 4 = 0 then none
  else
    let null := BitVec.ofNat 32 (field bs 12 4)
    let deq := (old.map fun r => r.deq).getD false
    let tok := tokenOf fun l =>
      if null.getLsbD l then none else some (BitVec.ofNat 64 (field bs (if deq then 16 else 16 + 8 * l) 8))
    some ⟨BitVec.ofNat 64 (field bs 0 8), BitVec.ofNat 32 (field bs 8 4), tok,
      if deq && field bs 16 8 == 0 then some (BitVec.ofNat 512 (field bs 24 64)) else none,
      (old.map fun r => r.queue).getD 0, deq⟩

/-- The strands read back from a warp area, with the replay entries of the active ones. -/
def strandsOf (bs : List Byte) (old : List Strand) : List Strand :=
  let n := Nat.min (field bs 0x11 1) 32
  let sts := (List.range n).map fun i => strandOf ((bs.drop (0x20 + 32 * i)).take 32) i old[i]?
  let sts := (sortBy (fun x : Strand × Nat => x.2) sts).map Prod.fst
  sts.map fun st =>
    let k := (((sts.filter Strand.inActive).zipIdx.find? fun x => x.1.id = st.id).map fun x => x.2).getD 4
    if st.inActive then { st with replay := replayOf ((bs.drop (0x4a0 + 272 * k)).take 272) st.replay } else st

/-- The deposits read back from a warp area. -/
def depositsOf (bs : List Byte) : List Deposit :=
  ((List.range 4).map fun i => (bs.drop (0x8e0 + 144 * i)).take 144).filterMap fun e =>
    let m := BitVec.ofNat 32 (field e 8 4)
    if m = 0 then none
    else some ⟨field e 0 1, field e 1 1, (lanesOf m).map fun l => (l, BitVec.ofNat 32 (field e (16 + 4 * l) 4))⟩

/-- Writes the vector registers of a warp from a payload and its tags: what is left of the payload is the region's last
640 bytes (R189). -/
def loadRegs (tags : Nat) : List Nat → List Byte → Warp → Warp × List Byte
  | [], bs, w => (w, bs)
  | n :: ns, bs, w =>
    let tag := tags / 4 ^ n % 4
    loadRegs tags ns (bs.drop (packSize tag)) (foldState w allLanes fun w l => w.setV n l (unpackReg tag bs l))

/-- The predicate, uniform and enrolment registers and arrival counters from the last 640 bytes of a region. -/
def Warp.loadRegion (w : Warp) (bs : List Byte) : Warp :=
  let word := fun (o : Nat) => BitVec.ofNat 32 (field bs o 4)
  let w := foldState w allLanes fun w l => w.setPreds l (BitVec.ofNat 64 (field bs (8 * l) 8))
  let w := foldState w (List.range 64) fun w n => w.setS n (word (0x100 + 4 * n))
  { w with
    jE := (List.range 16).foldl (fun t j => sset 0 t j (word (0x200 + 4 * j))) w.jE
    arrive := (List.range 4).foldl (fun t k => sset 0 t k (word (0x240 + 4 * k))) w.arrive }

/-- The matrix fault a warp area holds, with its tile and whether the command was `mprune` (R440); the tile that goes with it
is the one of the fault saved. -/
def Warp.heldFaultOf (w : Warp) (area : List Byte) : Option HeldFault :=
  let flags := field area 0xc70 1
  match Cause.ofCode (field area 0xc48 1) with
  | none => none
  | some c =>
    if flags % 2 = 0 then none
    else
      let i : FaultInfo := ⟨c, 0xff, BitVec.ofNat 32 (field area 0xc40 4), BitVec.ofNat 64 (field area 0xc38 8), 0xff, 0, false, none⟩
      let tile := (w.tiles[flags / 2 % 8]?).getD 0
      some ⟨i, tile, (((w.heldFault.filter fun h => h.tile = tile).map fun h => h.partner).getD tile), flags / 16 % 2 = 1⟩

/-- A warp read back from the bytes of its warp area and payload; what they do not hold is taken from the warp saved
(R186, R189). A strand's number is that of its entry, also where a trap of it waits for a ring slot (R179). -/
def Warp.loadArea (w : Warp) (area payload : List Byte) : Warp :=
  let r := loadRegs (field area 0x420 64) (List.range w.vregs) payload w
  let w := r.1.loadRegion r.2
  let strands := strandsOf area w.strands
  let entry := fun (strand : Nat) => ((w.strands.zipIdx.find? fun x => x.1.id = strand).map fun x => x.2).getD 0
  let flags := field area 0xc28 1
  { w with
    lfsr := BitVec.ofNat 32 (field area 4 4)
    backoff := field area 0x10 1
    strands := strands
    nextStrand := strands.length
    deposits := depositsOf area
    cpbatch := allLanes.foldl (fun t l => sset 0 t l (BitVec.ofNat 32 (field area (0xb60 + 4 * l) 4))) w.cpbatch
    held := if flags % 2 = 0 then none
      else some ⟨BitVec.ofNat 512 (field area 0xbe0 64), BitVec.ofNat 64 (field area 0xc20 8), w.held.bind fun h => h.excl⟩
    heldFault := w.heldFaultOf area
    deqLeft := match w.status with
      | .parkedDeq r => some (entry r.strand, BitVec.ofNat 32 (field area 0x18 8))
      | _ => w.deqLeft
    status := match w.status with
      | .serviceWait v m strand slot block => .serviceWait v m (entry strand) slot block
      | x => x }

/-- The status a warp is restored with: parked warps come back running (R186). -/
def WarpStatus.restored : WarpStatus → WarpStatus
  | .parkedDeq _ => .running
  | .parkedPage .. => .running
  | x => x

end Sys2Proof.Machine
end

