-- ==== Sys2Proof/Machine/Ops.lean ====
section
/-!
DEFINITION. The shared operations of spec/07_traps_and_context.md: the save area, discarding a block, taking a fault or
a trap (one operation for both), the context fault, the service call, the return from an exception, parking on an
absent page; and `settle`, which every slot ends with.
-/
namespace Sys2Proof.Machine

/-- Offset of a warp area in the save area (R187, Table 7.9). -/
def warpArea (core slot : Nat) : Nat := 0x10000 + core * 0x180000 + 0x1000 * (slot + 1)

/-- Offset of a core section (R187). -/
def sectionAt (core : Nat) : Nat := 0x10000 + core * 0x180000

/-- The address of an offset in a context's save area. -/
def Context.saveAt (c : Context) (off : Nat) : W64 := c.save + BitVec.ofNat 64 off

/-- Keeps the old contents of a host line of the save area that a context first writes in its calends, in the undo region
of the first stack of the spilling core's die (R67). -/
def State.logUndoHost (s : State) (c : Context) (die : Nat) (port : Bool) (line : Nat) : State :=
  let kept := fun (u : UndoLine) =>
    !u.former && decide (u.ctx = c.num) && decide (u.boundary = c.boundary) && decide (u.place = .host port line)
  if c.boundary = 0 ∨ s.calends.lines.any kept then s
  else
    let old := (List.range 64).map fun i => sget 0 s.host (hostAddr port (line + i))
    let u : UndoLine := ⟨4 * die, false, c.num, c.boundary, .host port line, line, old⟩
    { s with calends := { s.calends with lines := s.calends.lines ++ [u] } }

/-- The die of the core whose section of the save area holds an offset (Table 7.9); die 0 for the header (log 17). -/
def sectionDie (off : Nat) : Nat := (off - 0x10000) / 0x180000 / 96

/-- A page of a context's save area: in device memory as it was captured when the context was created (R102), or a host
page that the device translates now (R190). -/
def State.savePage (s : State) (c : Context) (page : Nat) : Res PageBase :=
  match c.capture.find? fun r => decide (r.first ≤ page) && decide (page < r.first + r.count) with
  | some r => .ok (.dev (r.phys + 4096 * (page - r.first)) r.attr)
  | none => s.translateNow c.num 0 .read (c.save.toNat / 4096 + page)

/-- The places of bytes of a context's save area. -/
def State.savePlaces (s : State) (c : Context) (off n : Nat) : Res (List Place) := placesBy (s.savePage c) off n

/-- Writes device fields of the save area, logging host lines as the controllers log device lines (R67). -/
def State.writeSave (s : State) (ctx : Nat) (off : Nat) (bytes : List Byte) : State :=
  match s.context? ctx with
  | none => s
  | some c =>
    match s.savePlaces c off bytes.length with
    | .ok ps =>
      let lines := dedup (ps.filterMap fun p => match p with | .host port a => some (port, a / 64 * 64) | _ => none)
      let s := foldState s lines fun s l => s.logUndoHost c (sectionDie off) l.1 l.2
      s.performBytes (96 * sectionDie off) ctx false (ps.zip bytes)
    | _ => s

/-- Bytes of the save area; none where a page is not in reach. -/
def State.saveBytes (s : State) (c : Context) (off n : Nat) : Option (List Byte) :=
  match s.savePlaces c off n with
  | .ok ps => some (ps.map (s.placeByte 0))
  | _ => none

/-- Reads a field of the save area; 0 where it is not in reach. -/
def State.readSave (s : State) (ctx off n : Nat) : Nat :=
  match s.context? ctx with
  | some c => leNat ((s.saveBytes c off n).getD [])
  | none => 0

/-- `SSTATE` of a context state (Tables 7.4 and 7.8). -/
def CtxState.sstate : CtxState → Nat
  | .resident => 0 | .spilling => 4 | .saved => 1 | .filled => 17 | .faulted => 9 | .saveIncomplete => 2

/-- Moves a context to a state and shows it in `SSTATE`. -/
def State.setCtxState (s : State) (ctx : Nat) (st : CtxState) : State :=
  (s.onContext ctx fun c => { c with state := st }).writeSave ctx 0x8 (leBytes 4 st.sstate)

/-- The fault record of a strand's block (R169, R170). -/
def State.faultRecord (s : State) (w : Warp) (st : Strand) (pc : W64) (c : Cause) (i : FaultInfo) : List Byte :=
  recordBytes pc i.address i.lanes st.mask c.code i.slot i.lsid i.epilogue st.inHandler w.id i.detail (s.refTime w.ctx)

/-- Puts a die's commit arbiter back. -/
def State.setArbiter (s : State) (die : Nat) (a : Arbiter) : State :=
  { s with arbiters := (List.range 4).map fun d => if d = die then a else s.arbiter d }

/-- A block lets go of the serial token and of its place in the queue for it (R158). -/
def State.dropSerial (s : State) (id : WarpId) (strand : Nat) : State :=
  let d := coreDie id.core
  let a := s.arbiter d
  s.setArbiter d { a with
    serial := a.serial.filter fun x => x ≠ (id, strand)
    holder := if a.holder = some (id, strand) then none else a.holder }

/-- Discards a block (R154): the frame goes, a bound block's token becomes the strand's replay entry (R153), its stash
reservation and the serial token are released. -/
def State.discard (s : State) (f : Frame) : State :=
  let s := { s with
    frames := s.frames.filter fun x => !(x.warp = f.warp && x.strand = f.strand)
    early := s.early.filter fun x => !(x.warp = f.warp && x.strand = f.strand)
    stashMaps := s.stashMaps.filter fun m => m.owner ≠ some (f.warp, f.strand) }
  let s := s.dropSerial f.warp f.strand
  match f.bound with
  | some r => s.onWarp f.warp fun w => w.onStrand f.strand fun st => { st with replay := some r }
  | none => s

/-- Discards every block in flight that `p` picks. -/
def State.discardWhere (s : State) (p : Frame → Bool) : State :=
  foldState s (s.frames.filter p) fun s f => s.discard f

/-- A warp leaves its core, or its slot: its blocks and the words fetched early for it go, and none of its strands holds or
asks for the serial token any more (R152, R154, R158). -/
def State.clearWarp (s : State) (id : WarpId) : State :=
  let s := s.discardWhere fun f => f.warp = id
  let s := { s with early := s.early.filter fun e => e.warp ≠ id }
  let a := s.arbiter (coreDie id.core)
  s.setArbiter (coreDie id.core) { a with
    serial := a.serial.filter fun x => x.1 ≠ id
    holder := a.holder.filter fun x => x.1 ≠ id }

/-- The ring that the header names: its host address, log2 of its entries (Table 7.8). -/
def State.headerRing (s : State) (ctx : Nat) : Nat × Nat := (s.readSave ctx 0x40 8, Nat.min (s.readSave ctx 0x48 1) 12)

/-- The ring in use: the one that the last service trap found in the header, or what the header names before any (R187;
log 17). -/
def State.ring (s : State) (c : Context) : Nat × Nat := c.ring.getD (s.headerRing c.num)

/-- The host address of the entry of a sequence number in a ring (R178). -/
def ringSlot (ring : Nat × Nat) (seq : W64) : Nat := ring.1 + 1024 * (seq.toNat % 2 ^ ring.2)

/-- Is the slot of the next sequence number held by an outstanding request (R178)? -/
def Context.slotHeld (c : Context) (ring : Nat × Nat) : Bool :=
  c.rings.any fun r => ringSlot r.2 r.1 = ringSlot ring c.nextSeq

/-- A service ring entry (Table 7.3). -/
def ringEntry (seq pc : W64) (lanes : Mask) (vector kind words : Nat) (id : WarpId) (ctx time : Nat)
    (word : Nat → Nat → W32) : List Byte :=
  leBytes 8 seq.toNat ++ leBytes 8 pc.toNat ++ leBytes 4 lanes.toNat ++ leBytes 1 vector ++ leBytes 1 kind ++
  leBytes 1 words ++ leBytes 1 id.slot ++ leBytes 2 id.core ++ leBytes 2 ctx ++ leBytes 4 0 ++ leBytes 8 time ++
  List.replicate 24 0 ++
  (allLanes.map fun l => (List.range 4).map fun i =>
    leBytes 4 (if i < words ∧ lanes.getLsbD l then (word i l).toNat else 0)).flatten.flatten ++
  List.replicate 448 0

/-- Writes a ring entry under the next sequence number, and counts it (R178). -/
def State.writeRing (s : State) (c : Context) (entry : List Byte) : State :=
  let s := s.writeHost c.vf.port (ringSlot (s.ring c) c.nextSeq) entry
  let s := s.onContext c.num fun c => { c with nextSeq := c.nextSeq + 1 }
  s.writeSave c.num 0x50 (leBytes 8 (c.nextSeq + 1).toNat)

/-- A notice of kind 2 or 3; not written when its slot is held (R178). Its vector byte holds the code of the cause, and its
count of argument words is 1: Table 7.3 does not say what a notice has there, and this is the model's choice (log 62). -/
def State.notice (s : State) (ctx kind : Nat) (pc : W64) (lanes : Mask) (vector : Nat) (id : WarpId) : State :=
  match s.context? ctx with
  | none => s
  | some c =>
    if c.slotHeld (s.ring c) then s
    else s.writeRing c (ringEntry c.nextSeq pc lanes vector kind 1 id ctx (s.refTime ctx) fun _ _ => 0)

/-- A context fault of a context, without regard to a warp (R176): uncommitted blocks of its main warps are discarded,
the record goes to the header, the warps are spilled as though by stop, and a notice of kind 2 is written. So too for a
context whose blocks run to their end in a stop (R185). A context that has faulted keeps its first record. -/
def State.faultContext (s : State) (ctx : Nat) (id : WarpId) (pc : W64) (lanes : Mask) (cause : Cause) (record : List Byte) :
    State :=
  match s.context? ctx with
  | none => s
  | some c =>
    if c.faulting ∨ c.recovering ∨ (c.state ≠ .resident ∧ c.state ≠ .spilling) then s
    else
      let s := s.discardWhere fun f => match s.warp? f.warp with
        | some x => x.ctx = ctx && x.pier.isNone
        | none => false
      let s := s.writeSave ctx 0x880 record
      let s := s.onContext ctx fun c => { c with faulting := true }
      let s := s.setCtxState ctx .spilling
      s.notice ctx 2 pc lanes cause.code id

/-- A context fault raised by a strand of a warp (R176): the sibling of the held record fails (R127), and the strand's
record also stands in its warp area. -/
def State.contextFault (s : State) (id : WarpId) (pc : W64) (lanes : Mask) (cause : Cause) (record : List Byte) : State :=
  match s.warp? id with
  | none => s
  | some w =>
    let s := s.discardWhere fun f => f.warp = id
    let s := match w.held with
      | some h => if recGroup h.record = 0 then s else s.failSibling w.ctx (recGroup h.record) (recSib h.record)
      | none => s
    let s := s.writeSave w.ctx (warpArea id.core id.slot + 0xb20) record
    s.faultContext w.ctx id pc lanes cause record

/-- A vector entry of the save area header (R172): handler address, argument words, kind; kind 3, and kind 2 below
0x40, act as kind 0. -/
def State.vector (s : State) (ctx n : Nat) : W64 × Nat × Nat :=
  let e := s.readSave ctx (0x80 + 8 * n) 8
  let kind := e % 4
  (BitVec.ofNat 64 (e / 16 * 16), bits e 3 2 + 1, if kind = 3 ∨ (kind = 2 ∧ n < 0x40) then 0 else kind)

/-- Enters a handler (R173): the record is written into the warp area and dropped from the first-level cache, the strand
keeps its trap return, its in-handler flag is set, and it goes on at the handler. -/
def State.enterHandler (s : State) (w : Warp) (strand : Nat) (record : List Byte) (trapRet handler : W64) : State :=
  let off := warpArea w.id.core w.id.slot + 0xb20
  let s := s.writeSave w.ctx off record
  let s := match s.context? w.ctx with
    | some c => match s.savePlaces c off 64 with
      | .ok ps => foldState s (linesAt ps) fun s l => s.dropL1 w.id.core w.ctx l
      | _ => s
    | none => s
  s.onWarp w.id fun w => w.onStrand strand fun st => { st with
    trapRet := trapRet, inHandler := true, pc := handler, held := none }

/-- The parameters of an exception: a fault of a block at `block`, or a trap that its commit left to take. -/
structure Exception where
  cause : Cause
  block : W64
  trapRet : W64
  info : FaultInfo
  vector : Nat
  isTrap : Bool
  deriving DecidableEq, Repr

/-- Writes a warp to its warp area, and its payload at an offset of its core section (R179, R184). -/
def State.saveWarp (s : State) (w : Warp) (off : Nat) : State :=
  let at_ := 0x10000 + w.id.core * 0x180000
  foldState s (w.areaRuns s.ticks (s.refTime w.ctx) off ++ [(off, w.payload)]) fun s r => s.writeSave w.ctx (at_ + r.1) r.2

/-- Where in its core section the payload of a warp that goes off-core fits beside those of the core's off-core warps. -/
def State.payloadRoom (s : State) (w : Warp) : Nat :=
  let away := s.warps.filter fun x => x.ctx = w.ctx && x.id.core = w.id.core && x.serial ≠ w.serial && x.status.code = 4
  let taken := away.map fun x =>
    (s.readSave w.ctx (warpArea x.id.core x.id.slot + 8) 4, s.readSave w.ctx (warpArea x.id.core x.id.slot + 12) 4)
  let n := w.payload.length
  let free := fun (o : Nat) => taken.all fun t => decide (t.1 + t.2 ≤ o) || decide (o + n ≤ t.1)
  ((sortBy (fun o : Nat => o) (0x41000 :: taken.map fun t => t.1 + t.2)).find? free).getD 0x41000

/-- A warp of a save read back from the save area; as it was saved where the area cannot be read (R186). -/
def State.readWarp (s : State) (ctx : Nat) (w : Warp) : Warp :=
  match s.context? ctx with
  | none => w
  | some c =>
    match s.saveBytes c (warpArea w.id.core w.id.slot) 4096 with
    | none => w
    | some area =>
      match s.saveBytes c (sectionAt w.id.core + field area 8 4) (field area 12 4) with
      | none => w
      | some payload => w.loadArea area payload

/-- Changes the warp that issued something, in its slot or saved with its context; of an off-core warp the save area shows the
change, beside what the host has written there (R179, R180). -/
def State.onOwnerArea (s : State) (who : Issuer) (f : Warp → Warp) : State :=
  let t := s.onOwner who f
  match s.warps.find? fun w => w.serial = who.serial with
  | some w => match w.status with
    | .offCore .. =>
      let back := f (s.readWarp w.ctx w)
      t.saveWarp back (t.payloadRoom back)
    | _ => t
  | none => t

/-- The service entry of a trap (R178, R179), or a wait while the ring slot is held. Other strands' blocks are discarded,
the lanes' words go to the ring, and the warp is off-core. `slot` and `block` are those of the trap, kept for a trap that
waits. -/
def State.serviceTrap (s : State) (w : Warp) (strand vector words slot : Nat) (block : W64) : State :=
  match s.context? w.ctx, w.strand? strand with
  | some c, some st =>
    let s := s.clearWarp w.id
    let ring := s.headerRing w.ctx
    let c := { c with ring := some ring }
    let s := s.onContext w.ctx fun c => { c with ring := some ring }
    if c.slotHeld ring then
      s.onWarp w.id fun w => { w with status := .serviceWait vector st.mask strand slot block }
    else
      let s := s.writeRing c (ringEntry c.nextSeq st.pc st.mask vector 1 words w.id w.ctx (s.refTime w.ctx) fun i l => w.vreg i l)
      let s := s.onContext w.ctx fun c' => { c' with
        requests := c'.requests ++ [(c.nextSeq, w.id)]
        rings := c'.rings ++ [(c.nextSeq, ring)] }
      let s := match s.context? w.ctx with
        | some c => s.writeSave w.ctx 0x58 (leBytes 4 c.requests.length)
        | none => s
      let s := s.onWarp w.id fun w => { w with status := .offCore c.nextSeq st.mask vector words }
      match s.warp? w.id with
      | some w => s.saveWarp w (s.payloadRoom w)
      | none => s
  | _, _ => s

/-- Must an exception of a strand be held (R175): while another strand of the warp is in a handler, or the warp is
off-core? -/
def Warp.holdsFor (w : Warp) (st : Strand) : Bool :=
  !st.inHandler && ((w.strands.any fun x => x.id ≠ st.id && x.inHandler) || w.status ≠ .running)

/-- The place of a hold in the order in which strands were held (R175). -/
def HeldKind.order : HeldKind → Nat
  | .faulting n => n
  | .trapping n _ _ _ => n

/-- The place that the next hold of a warp takes. -/
def Warp.nextHold (w : Warp) : Nat := w.strands.foldl (fun n st => match st.held with | some h => Nat.max n (h.order + 1) | none => n) 0

/-- A strand is held (R175); an off-core warp's save area shows it (R174). -/
def State.holdStrand (s : State) (w : Warp) (st : Strand) (h : HeldKind) : State :=
  let s := s.onWarp w.id fun w => w.onStrand st.id fun x => { x with held := some h }
  match s.warp? w.id with
  | some w => match w.status with
    | .offCore .. => s.saveWarp w (s.payloadRoom w)
    | _ => s
  | none => s

/-- TAKING AN EXCEPTION, once for faults and traps (R172 to R176, R179): a context fault *nested* inside a handler; held
while another strand of the warp is in a handler or the warp is off-core; otherwise by the kind of its vector. -/
def State.takeException (s : State) (w : Warp) (st : Strand) (e : Exception) : State :=
  let fault := fun (c : Cause) => s.contextFault w.id e.block e.info.lanes c (s.faultRecord w st e.block c e.info)
  if st.inHandler then fault .nested
  else if w.holdsFor st then
    s.holdStrand w st (if e.isTrap then .trapping w.nextHold e.vector e.info.slot e.block else .faulting w.nextHold)
  else
    let v := s.vector w.ctx e.vector
    let own := !(e.cause = .nested || e.cause = .saveFault || e.cause = .undoOverflow || e.cause = .uncorrectable)
    if v.2.2 = 1 ∧ own then
      s.enterHandler w st.id (s.faultRecord w st e.block e.cause e.info) e.trapRet v.1
    else if v.2.2 = 2 ∧ e.isTrap then s.serviceTrap w st.id e.vector v.2.1 e.info.slot e.block
    else fault e.cause

/-- Parks a warp on an absent page (R103): one page request for each context and page; with no park entry, or with
4,096 requests of the function outstanding, the warp runs its block again. -/
def State.parkWarp (s : State) (w : Warp) (strand page : Nat) (i : FaultInfo) : State :=
  let s := s.clearWarp w.id
  let parked := (s.warps.filter fun x => coreDie x.id.core = coreDie w.id.core && match x.status with
    | .parkedPage .. => true
    | _ => false).length
  let vf := (s.context? w.ctx).map fun c => c.vf
  let mine := (s.pageRequests.filter fun r => !r.answered && ((s.context? r.ctx).map fun c => c.vf) = vf).length
  let known := s.pageRequests.any fun r => r.ctx = w.ctx && r.page = page
  let out := s.pageRequests.any fun r => r.ctx = w.ctx && r.page = page && !r.answered
  if 4096 ≤ parked ∨ (!out ∧ 4096 ≤ mine) then s
  else
    let s := if known then
        let add := fun (r : PageRequest) => { r with parked := r.parked ++ [w.id], answered := false }
        { s with pageRequests := update (fun r => r.ctx = w.ctx && r.page = page) add s.pageRequests }
      else { s with pageRequests := s.pageRequests ++ [⟨w.ctx, page, 0, false, [w.id]⟩] }
    s.onWarp w.id fun w => { w with status := .parkedPage page strand i }

/-- A pier warp ends (R266): its blocks are discarded, the slot is freed, and the call keeps the fault of its lowest
faulting warp and the payload of warp 0. -/
def State.endPierWarp (s : State) (w : Warp) (p : PierRef) (fault : Option FaultInfo) (payload : Option (List Byte)) : State :=
  let s := s.clearWarp w.id
  let s := { s with warps := s.warps.filter fun x => x.id ≠ w.id }
  let ended := fun (c : Call) => { c with
    payload := match payload with | some b => if p.index = 0 then b else c.payload | none => c.payload
    fault := match fault, c.fault with
      | some i, some (k, j) => if p.index < k then some (p.index, i) else some (k, j)
      | some i, none => some (p.index, i)
      | none, x => x }
  { s with calls := update (fun c => c.stack = p.stack && c.id = p.call) ended s.calls }

/-- Does a wait of lane `l` for batch `n` cover a copy (R242)? -/
def Copy.coveredBy (c : Copy) (l : Nat) (n : W32) : Bool := c.batch.any fun b => b.1 = l && decide ((n - b.2).toNat < 2 ^ 31)

/-- What the report of a fault ends: a faulted copy of a batch that a `cpwait` waits for (R405), a faulted
command that an `mwait` reports (R440), the first report of a faulted epilogue (R193), and the loss of a write that a release
or fence reports (R36, R49), which it has recorded when it fired. -/
def State.reported (s : State) (f : Frame) (i : FaultInfo) : State :=
  let major := (((f.words[f.base + i.slot]?).getD 0) >>> 25).toNat
  if major = 0x5b then
    let upTo := fun (l : Nat) => lo32 ((tokenAt (f.collected (.op .a (BitVec.ofNat 5 i.slot))) l).getD 0)
    let waited := fun (c : Copy) => (lanesOf i.lanes).any fun l => c.coveredBy l (upTo l)
    let gone := fun (c : Copy) => c.who.serial = s.serialOf f.warp && waited c && match c.fault with
      | some j => j.cause = i.cause && j.address = i.address
      | none => false
    { s with copies := s.copies.filter fun c => !gone c }
  else if major = 0x66 then
    if i.epilogue then
      let hit := fun (e : Epilogue) => e.who.serial = s.serialOf f.warp && e.fault.isSome && e.stored = i.detail.toNat
      { s with epilogues := update hit (fun e => { e with reported := true }) s.epilogues }
    else s.onWarp f.warp fun w => { w with heldFault := none }
  else if i.cause = .remoteWriteLost then
    s.onWarp f.warp fun w => { w with
      lostRemote := (update (fun x : Nat × Mask => BitVec.ofNat 64 x.1 = i.detail) (fun x => (x.1, x.2 &&& ~~~i.lanes)) w.lostRemote).filter
        fun x => x.2 != 0 }
  else if i.cause = .hostTimeout ∧ (f.faults.any fun x => x.cause = .hostTimeout && x.slot = i.slot) then
    s.onWarp f.warp fun w => { w with lostHost := w.lostHost &&& ~~~i.lanes }
  else s

/-- A fault of a block is taken (R154, R168): discarded, then parked on its absent page, or the pier warp ended, or the
exception taken with the block's address as trap return. A fault that is only held, or that parks, is not yet reported
(R175). Any fault but a park also ends the count of the strand's restarts, on which R158 is silent: a choice of the model
(log 62). A refused translation has done what it was for, and its page is asked for again (R102). -/
def State.takeFault (s : State) (f : Frame) (i : FaultInfo) : State :=
  let s := s.discard f
  match s.warp? f.warp with
  | none => s
  | some w =>
    let s := s.dropRefusals w.ctx fun d => d = coreDie w.id.core
    match w.pier with
    | some p => (s.reported f i).endPierWarp w p (some i) none
    | none =>
      match i.park with
      | some page => s.parkWarp w f.strand page i
      | none =>
        let s := s.onWarp f.warp fun w => w.onStrand f.strand fun st => { st with restarts := 0 }
        match w.strand? f.strand with
        | some st =>
          (if w.holdsFor st then s else s.reported f i).takeException w st ⟨i.cause, f.pc, f.pc, i, i.cause.code, false⟩
        | none => s

/-- A trap left by a commit is taken (R174): the strand stands at its trap return. -/
def State.takeTrap (s : State) (id : WarpId) (strand vector slot : Nat) (block : W64) : State :=
  match s.warp? id with
  | none => s
  | some w =>
    match w.strand? strand with
    | none => s
    | some st =>
      let i : FaultInfo := ⟨.softwareTrap, slot, st.mask, 0, 0xff, BitVec.ofNat 64 vector, false, none⟩
      match w.pier with
      | some p => s.endPierWarp w p (some i) none
      | none => s.takeException w st ⟨.softwareTrap, block, st.pc, i, vector, true⟩

/-- THE RETURN FROM AN EXCEPTION, for the held strands of a warp (R174, R175, R180): they become ready in the order in which
they were held, and trapping ones take their traps, in ascending vector order. -/
def State.releaseHeld (s : State) (id : WarpId) : State :=
  match s.warp? id with
  | none => s
  | some w =>
    let held := sortBy (fun st : Strand => (st.held.map HeldKind.order).getD 0) (w.strands.filter fun st => st.held.isSome)
    let traps := sortBy (fun x : Nat × Nat × Nat × W64 => x.2.1) (held.filterMap fun st => match st.held with
      | some (.trapping _ v k b) => some (st.id, v, k, b)
      | _ => none)
    let s := s.onWarp id fun w => { w with
      strands := (w.strands.filter fun st => st.held.isNone) ++ held.map fun st => { st with held := none } }
    foldState s traps fun s t => s.takeTrap id t.1 t.2.1 t.2.2.1 t.2.2.2

/-- Ends a slot's turn: takes the fault that is due (R169), or moves on to the word that runs next. -/
def State.settle (s : State) : State :=
  match s.frames with
  | [] => s
  | f :: _ =>
    match f.due? with
    | some i => s.takeFault f i
    | none => s.setFrame f.step

/-- The running slot waits for a condition (R416): the next ready wait is tried, or else the block stands aside until
something happens. -/
def State.waitHere (s : State) : State :=
  match s.frames with
  | [] => s
  | f :: rest =>
    match f.nextWait? f.slot with
    | some k => s.setFrame { f with at_ := f.base + k }
    | none => { s with frames := rest ++ [{ f with waiting := true }.step] }

/-- Blocks that stood aside look again (R416, R440). -/
def State.wakeWaiting (s : State) : State := { s with frames := s.frames.map fun f => { f with waiting := false } }

/-- A warp leaves its units; a unit's part on a core is free with its last warp, and so are its phasers (log 16). -/
def State.dropMember (s : State) (serial : Nat) : State :=
  let left := s.allocs.map fun (a : Alloc) => { a with members := a.members.filter fun k => k ≠ serial }
  let gone := left.filter fun a => a.members = []
  let lost := (gone.map fun a => a.phasers).flatten
  let unmapped := fun (core ctx : Nat) => gone.any fun a => a.core = core && a.ctx = ctx && a.stash.isSome
  let s := foldState s (s.stashLines.filter fun l => unmapped l.core l.ctx) fun s l => s.stashWriteBack l
  { s with
    stashMaps := s.stashMaps.filter fun m => !unmapped m.core m.ctx
    stashLines := s.stashLines.filter fun l => !unmapped l.core l.ctx
    allocs := left.filter fun a => a.members ≠ []
    phasers := s.phasers.filter fun p => !lost.contains p.id }

/-- A thread's warp retires, or a warp loses its last strand: its slot is freed, an `EXCL` hold ends (R84, R142), the
watch is disarmed (R162), a held record's sibling fails if it was running (R127). -/
def State.retireWarp (s : State) (w : Warp) : State :=
  let s := s.clearWarp w.id
  let s := s.endExcl w
  let s := ({ s with warps := s.warps.filter fun x => x.id ≠ w.id } : State).dropMember w.serial
  match w.held with
  | some h =>
    if recGroup h.record = 0 then s
    else (s.failSibling w.ctx (recGroup h.record) (recSib h.record)).retireSiblings w.ctx (recGroup h.record)
  | none => s

end Sys2Proof.Machine
end

