-- ==== Sys2Proof/Machine/Operands.lean ====
section
/-!
DEFINITION. How a compute slot takes its operands and sends its results (spec/06_execution_model.md R146, R147;
spec/12_isa_formats.md R320 to R322): the shared forms that every meaning of an instruction word is written with.
-/
namespace Sys2Proof

/-- The width of an access in bytes (R322). -/
def Width.bytes : Width → Nat
  | .b8 => 1 | .b16 => 2 | .b32 => 4 | .b64 => 8 | .b128 => 16

end Sys2Proof

namespace Sys2Proof.Machine

/-- Outcomes of this machine. -/
abbrev Out := Host.Outcome State Fault Refusal

/-- Runs a word in the block in flight at the head; without one there is nothing to act on. -/
def inBlock (s : State) (k : Frame → State) : Out :=
  match s.frames with
  | [] => .fault .noBlock
  | f :: _ => .next (k f)

/-- The arbiter's commit number at the block's first fired slot (R156). -/
def State.noteFirst (s : State) (f : Frame) : Frame :=
  match f.firstCommit with
  | some _ => f
  | none => { f with firstCommit := some (s.reachedCommit (coreDie f.warp.core)) }

/-- Ends the running slot: the frame is marked fired and put back, and the next word is chosen. -/
def State.fired (s : State) (f : Frame) : State := (s.setFrame (s.noteFirst f).fire).settle

/-- Ends the running slot with faults recorded: it does not fire (R154, R169). -/
def State.faulted (s : State) (f : Frame) : State := (s.setFrame (s.noteFirst f)).settle

/-- A lane performs: it is active, its predicate passes and the listed operands are not null (Table 12.10, R147). -/
def Frame.performs (f : Frame) (p : Pred) (need : List Opnd) (l : Nat) : Bool :=
  f.passes p l && need.all fun o => (f.arg o l).isSome

/-- The performing lanes, ascending. -/
def Frame.performing (f : Frame) (p : Pred) (need : List Opnd) : List Nat := allLanes.filter fun l => f.performs p need l

/-- The set of performing lanes. -/
def Frame.performingMask (f : Frame) (p : Pred) (need : List Opnd) : Mask := maskOf (f.performing p need)

/-- An operand's 64 bits in a lane; 0 for null. -/
def Frame.val (f : Frame) (o : Opnd) (l : Nat) : W64 := (f.arg o l).getD 0

/-- An operand's low 32 bits in a lane; 0 for null (R321). -/
def Frame.val32 (f : Frame) (o : Opnd) (l : Nat) : W32 := lo32 (f.val o l)

/-- Sends a pair of values to `T0` and `T1` in the lanes whose predicate passes, null elsewhere, and fires. -/
def State.sendPair (s : State) (f : Frame) (g : G) (r : Nat → Option W64 × Option W64) : State :=
  let on := fun l => if f.passes g.pred l then r l else (none, none)
  s.fired ((f.send g.t0 (tokenOf fun l => (on l).1)).send g.t1 (tokenOf fun l => (on l).2))

/-- An instruction word that sends one value to both targets in every performing lane. -/
def valueOp (g : G) (s : State) (r : Frame → Nat → Option W64) : Out :=
  inBlock s fun f => s.sendPair f g fun l => (r f l, r f l)

/-- One operand, one result (R147). -/
def unop (g : G) (s : State) (fn : W64 → W64) : Out := valueOp g s fun f l => (f.arg .a l).map fn

/-- Two operands, one result (R147). -/
def binop (g : G) (s : State) (fn : W64 → W64 → W64) : Out :=
  valueOp g s fun f l =>
    match f.arg .a l, f.arg .b l with
    | some a, some b => some (fn a b)
    | _, _ => none

/-- Three operands, one result (R147). -/
def triop (g : G) (s : State) (fn : W64 → W64 → W64 → W64) : Out :=
  valueOp g s fun f l =>
    match f.arg .a l, f.arg .b l, f.arg .c l with
    | some a, some b, some c => some (fn a b c)
    | _, _, _ => none

/-- Leaves an action to the commit and fires, sending nothing (R220). -/
def State.defer (s : State) (f : Frame) (d : Deferred) : State :=
  s.fired { f with deferred := f.deferred ++ [(f.slot, d)] }

/-- An instruction word that only leaves an action to the commit. -/
def deferOp (s : State) (d : Frame → Deferred) : Out := inBlock s fun f => s.defer f (d f)

/-- An exit: each performing lane leaves the block in the way given (R349). -/
def Frame.exit (f : Frame) (lanes : List Nat) (k : Nat → ExitKind) : Frame :=
  { f with exits := f.exits ++ lanes.map fun l => (l, f.slot, k l) }

/-- The following address of a block (R349). -/
def Frame.following (f : Frame) : W64 := f.pc + BitVec.ofNat 64 (16 * ((4 * f.words.length + 15) / 16))

/-- May a successor lie there (R349)? -/
def successorOk (a : W64) : Bool := canonical a.toNat && a.toNat % 16 == 0 && windowOf a.toNat == .global

/-- An exit whose successor is checked as it fires: a bad one faults the block with cause *address* (R349). -/
def State.exitTo (s : State) (f : Frame) (lanes : List Nat) (pc : Nat → W64) (k : Nat → ExitKind) : State :=
  let bad := lanes.filter fun l => !successorOk (pc l)
  if bad = [] then s.fired (f.exit lanes k)
  else s.faulted (bad.foldl (fun f l => f.addFault .address l (pc l)) f)

/-- The effective address of a lane (R322). -/
def Frame.ea (f : Frame) (off : BitVec 8) (scale : Nat) (l : Nat) : W64 := f.val .a l + sext off * BitVec.ofNat 64 scale

/-- Records the lanes that perform an LSID; the second instruction of an LSID to perform in a lane is malformed at the
higher slot (R148, R169). -/
def Frame.claim (f : Frame) (lanes : List Nat) : Frame :=
  let k := f.slot
  let lsid := f.lsidOf k
  let clash := lanes.filterMap fun l => (f.performed.find? fun x => x.1 = lsid && x.2.1 = l).map fun x => (l, x.2.2)
  { f with
    performed := f.performed ++ lanes.map fun l => (lsid, l, k)
    faults := f.faults ++ clash.map fun c => f.faultAt (Nat.max k c.2) .malformed c.1 0 }

/-- Did the running slot record a fault of its own? -/
def Frame.hasFault (f : Frame) : Bool := f.faults.any fun i => i.slot = f.slot

/-- What the checks of a list of lanes answer: the places of each, or the frame with its faults, or a wait. -/
inductive Checked where
  | ok (places : List (Nat × List Place))
  | faulted (f : Frame)
  | wait
  deriving DecidableEq, Repr

/-- Puts the answer of one more lane's check to those before it. -/
def Checked.add (c : Checked) (f : Frame) (l : Nat) (a : W64) (r : Res (List Place)) : Checked :=
  match c, r with
  | .wait, _ => .wait
  | _, .wait => .wait
  | .ok ps, .ok p => .ok (ps ++ [(l, p)])
  | .ok _, .bad c x => .faulted (f.addFault c l (if x = 0 then a else x))
  | .ok _, .absent page => .faulted (f.addPark page l a)
  | .faulted f, .ok _ => .faulted f
  | .faulted f, .bad c x => .faulted (f.addFault c l (if x = 0 then a else x))
  | .faulted f, .absent page => .faulted (f.addPark page l a)

/-- Checks an access in each of a list of lanes (R389, R169). -/
def State.checkLanes (s : State) (f : Frame) (who : Issuer) (kind : AKind) (n : Nat) (lanes : List (Nat × W64)) : Checked :=
  lanes.foldl (fun c x => c.add f x.1 x.2 (s.access who kind x.2 n)) (.ok [])

/-- The warp of a block in flight; a stand-in where it is gone. -/
def State.frameWarp (s : State) (f : Frame) : Warp := (s.warp? f.warp).getD (Warp.fresh f.warp 0 0 1 0)

/-- Who the block's accesses are made by. -/
def State.who (s : State) (f : Frame) : Issuer := (s.frameWarp f).issuer

end Sys2Proof.Machine
end

