-- ==== Sys2Proof/Machine/Float.lean ====
section
/-!
DEFINITION. Floating-point arithmetic, comparison, the packed dot and conversions
(spec/14_isa_float_lane.md R367 to R379; spec/11_arithmetic.md R296 to R304).
-/
namespace Sys2Proof.Machine

/-- Modifiers of an instruction of majors 0x28 to 0x2e (R327). -/
structure FMods where
  mode : Nat
  ftz : Bool
  prop : Bool
  sat : Bool
  deriving DecidableEq, Repr

/-- The modifiers of the running slot (R327). -/
def Frame.mods (f : Frame) : FMods :=
  match f.ext? with
  | none => ⟨0, false, false, false⟩
  | some p => ⟨(p.extractLsb' 0 3).toNat, p.getLsbD 3, p.getLsbD 4, p.getLsbD 5⟩

/-- The rounding of a lane: the modifier's mode, with the lane's random bits for `.rs` (Table 11.7). -/
def State.rounding (s : State) (f : Frame) (l : Nat) (x : W64) : Rounding :=
  match f.mods.mode with
  | 1 => .rz
  | 2 => .rup
  | 3 => .rdn
  | 4 => .rs (srbits (s.frameWarp f).lfsr l f.slot f.pc x)
  | _ => .rne

/-- An instruction word that sends one value with flags in every performing lane (R368). -/
def floatOp (g : G) (need : List Opnd) (s : State) (r : Frame → Nat → W64 × FlagSet) : Out :=
  inBlock s fun f =>
    let out := (f.performing g.pred need).map fun l => (l, r f l)
    let tok := tokenOf fun l => (out.find? fun x => x.1 = l).map fun x => x.2.1
    s.fired (((f.raise (out.map fun x => (x.1, x.2.2))).send g.t0 tok).send g.t1 tok)

/-- A float operand's code, with `.ftz` applied (R368). -/
def Frame.code (f : Frame) (o : Opnd) (l : Nat) (fmt : Fmt) : Nat := flushed fmt f.mods.ftz (low fmt (f.val o l))

/-- A float operand's value. -/
def Frame.fval (f : Frame) (o : Opnd) (l : Nat) (fmt : Fmt) : Val := readFloat fmt (f.code o l fmt)

/-- An FP32 sum rounded to nearest even, with its flags: one step of R384. -/
def add32 (a b : W64) : W64 × FlagSet :=
  let v := addIdeal .rne (readFloat .f32 (low .f32 a)) (readFloat .f32 (low .f32 b))
  v.1.write .f32 .rne false v.2

/-- `fadd`, op 0 (Table 14.2). -/
def execFadd (g : G) (t : FType) (s : State) : Out :=
  floatOp g [.a, .b] s fun f l =>
    let r := s.rounding f l 0
    let v := addIdeal r (f.fval .a l t.fmt) (f.fval .b l t.fmt)
    v.1.write t.fmt r f.mods.ftz v.2

/-- `fsub`, op 1: a − b (Table 14.2). -/
def execFsub (g : G) (t : FType) (s : State) : Out :=
  floatOp g [.a, .b] s fun f l =>
    let r := s.rounding f l 0
    let v := addIdeal r (f.fval .a l t.fmt) (f.fval .b l t.fmt).flip
    v.1.write t.fmt r f.mods.ftz v.2

/-- `fmul`, op 2 (Table 14.2). -/
def execFmul (g : G) (t : FType) (s : State) : Out :=
  floatOp g [.a, .b] s fun f l =>
    let a := f.fval .a l t.fmt
    let b := f.fval .b l t.fmt
    let p := mulVal a b
    p.1.ideal.write t.fmt (s.rounding f l 0) f.mods.ftz (p.2 ||| signalling [a, b])

/-- `ffma`, op 3: a × b + c, rounded once (R371). -/
def execFfma (g : G) (t : FType) (s : State) : Out :=
  floatOp g [.a, .b, .c] s fun f l =>
    let r := s.rounding f l 0
    let a := f.fval .a l t.fmt
    let b := f.fval .b l t.fmt
    let c := f.fval .c l t.fmt
    let p := mulVal a b
    let v := sumVals [p.1, c] (zeroSign r p.1 c)
    v.1.write t.fmt r f.mods.ftz (p.2 ||| v.2 ||| signalling [a, b, c])

/-- Is `a` below `b` in the order of `fmin` and `fmax`, where −0 is less than +0 (R304)? Codes that are no NaN. -/
def codeLess (f : Fmt) (a b : Nat) : Bool :=
  match signOf f a, signOf f b with
  | true, false => true
  | false, true => false
  | false, false => magOf f a < magOf f b
  | true, true => magOf f b < magOf f a

/-- `fmin` and `fmax` of two codes (R304). -/
def minMax (f : Fmt) (isMax prop : Bool) (a b : Nat) : W64 × FlagSet :=
  let va := readFloat f a
  let vb := readFloat f b
  let nan := BitVec.ofNat 64 f.quietNan
  if va.signals || vb.signals then (nan, flagInvalid)
  else if va.isNan && vb.isNan then (nan, 0)
  else if va.isNan || vb.isNan then (if prop then nan else BitVec.ofNat 64 (if va.isNan then b else a), 0)
  else (BitVec.ofNat 64 (if codeLess f a b != isMax then a else b), 0)

/-- `fmin`, op 4 (R304). -/
def execFmin (g : G) (t : FType) (s : State) : Out :=
  floatOp g [.a, .b] s fun f l => minMax t.fmt false f.mods.prop (f.code .a l t.fmt) (f.code .b l t.fmt)

/-- `fmax`, op 5 (R304). -/
def execFmax (g : G) (t : FType) (s : State) : Out :=
  floatOp g [.a, .b] s fun f l => minMax t.fmt true f.mods.prop (f.code .a l t.fmt) (f.code .b l t.fmt)

/-- a ÷ b (R306, R371). -/
def divIdeal (a b : Val) : Ideal × FlagSet :=
  let neg := a.neg != b.neg
  match a, b with
  | .nan _, _ => (.nan, 0)
  | _, .nan _ => (.nan, 0)
  | .inf _, .inf _ => (.nan, flagInvalid)
  | .inf _, .fin _ _ _ => (.inf neg, 0)
  | .fin _ _ _, .inf _ => (.num ⟨neg, 0, 0, false⟩, 0)
  | .fin _ m e, .fin _ n k =>
    if n = 0 then (if m = 0 then (.nan, flagInvalid) else (.inf neg, flagDivZero))
    else if m = 0 then (.num ⟨neg, 0, 0, false⟩, 0)
    else (.num (divExact neg m e n k), 0)

/-- `fdiv`, op 6 (R306). -/
def execFdiv (g : G) (t : FType2) (s : State) : Out :=
  floatOp g [.a, .b] s fun f l =>
    let a := f.fval .a l t.fmt
    let b := f.fval .b l t.fmt
    let v := divIdeal a b
    v.1.write t.fmt (s.rounding f l 0) f.mods.ftz (v.2 ||| signalling [a, b])

/-- √a (R306, R371). -/
def sqrtIdeal : Val → Ideal × FlagSet
  | .nan _ => (.nan, 0)
  | .inf neg => if neg then (.nan, flagInvalid) else (.inf false, 0)
  | .fin neg m e =>
    if m = 0 then (.num ⟨neg, 0, 0, false⟩, 0)
    else if neg then (.nan, flagInvalid)
    else (.num (sqrtExact m e), 0)

/-- `fsqrt`, op 7 (R306). -/
def execFsqrt (g : G) (t : FType2) (s : State) : Out :=
  floatOp g [.a] s fun f l =>
    let a := f.fval .a l t.fmt
    let v := sqrtIdeal a
    v.1.write t.fmt (s.rounding f l 0) f.mods.ftz (v.2 ||| signalling [a])

/-- a × 2^n (R372). Below 2^−5000 every non-zero operand of every format rounds alike. -/
def scaleIdeal (a : Val) (n : Int) : Ideal :=
  match a with
  | .fin neg m e => .num ⟨neg, m, if m = 0 then 0 else e + max n (-5000), false⟩
  | v => v.ideal

/-- `fscale`, op 8 (R372). -/
def execFscale (g : G) (t : FType) (s : State) : Out :=
  floatOp g [.a, .b] s fun f l =>
    let a := f.fval .a l t.fmt
    (scaleIdeal a (f.val32 .b l).toInt).write t.fmt (s.rounding f l 0) false (signalling [a])

/-- The bit number of a value's class (R373). -/
def classBit (f : Fmt) (n : Nat) : Nat :=
  match readFloat f n with
  | .nan sig => if sig then 0 else 1
  | .inf neg => if neg then 2 else 9
  | .fin neg m _ =>
    if m = 0 then (if neg then 5 else 6)
    else if isSubnormal f n then (if neg then 4 else 7)
    else if neg then 3 else 8

/-- `fclass`, op 9 (R373). -/
def execFclass (g : G) (t : FType) (s : State) : Out :=
  unop g s fun x => BitVec.ofNat 64 (2 ^ classBit t.fmt (low t.fmt x))

/-- How two values compare: none where unordered; −0 equals +0 (R304). -/
def compareVals (a b : Val) : Option Ordering :=
  match a, b with
  | .nan _, _ => none
  | _, .nan _ => none
  | .inf x, .inf y => some (if x = y then .eq else if x then .lt else .gt)
  | .inf x, .fin _ _ _ => some (if x then .lt else .gt)
  | .fin _ _ _, .inf y => some (if y then .gt else .lt)
  | .fin _ _ _, .fin _ _ _ =>
    let e := minExp [a, b]
    some (compare (a.scaled e) (b.scaled e))

/-- A condition of `fsetp` (Table 14.3). -/
def fcondHolds (c : FCond) (o : Option Ordering) : Bool :=
  match c, o with
  | .eq, o => o = some .eq
  | .ne, o => o ≠ some .eq
  | .lt, o => o = some .lt
  | .le, o => o = some .lt || o = some .eq
  | .gt, o => o = some .gt
  | .ge, o => o = some .gt || o = some .eq
  | .num, o => o.isSome
  | .nan, o => o.isNone

/-- `fsetp` (R374). -/
def execFsetp (g : G) (c : FCond) (t : FType) (s : State) : Out :=
  floatOp g [.a, .b] s fun f l =>
    let a := f.fval .a l t.fmt
    let b := f.fval .b l t.fmt
    (if fcondHolds c (compareVals a b) then 1 else 0, signalling [a, b])

/-- A sum of products and c with one FP32 rounding: an exact zero is −0 only where every term is (R311, R376). -/
def dotIdeal (ps : List (Val × Val)) (c : Val) : Ideal × FlagSet :=
  let prods := ps.map fun p => mulVal p.1 p.2
  let terms := prods.map (fun p => p.1) ++ [c]
  let v := sumVals terms (terms.all fun t => t.isZero && t.neg)
  (v.1, prods.foldl (fun fl p => fl ||| p.2) v.2 ||| signalling (c :: (ps.map fun p => [p.1, p.2]).flatten))

/-- `fdot2` (R376). -/
def execFdot2 (g : G) (t : HType) (s : State) : Out :=
  floatOp g [.a, .b, .c] s fun f l =>
    let el := fun (o : Opnd) (i : Nat) => readFloat t.fmt (low t.fmt (f.val o l >>> (16 * i)))
    let v := dotIdeal [(el .a 0, el .b 0), (el .a 1, el .b 1)] (readFloat .f32 (low .f32 (f.val .c l)))
    v.1.write .f32 .rne false v.2

/-- The range of an integer format. -/
def intRange (f : Fmt) : Int × Int :=
  match f with
  | .s8 => (-128, 127)
  | .s32 => (-2 ^ 31, 2 ^ 31 - 1)
  | .z32 => (0, 2 ^ 32 - 1)
  | .s64 => (-2 ^ 63, 2 ^ 63 - 1)
  | _ => (0, 2 ^ 64 - 1)

/-- An integer format's code as a number. -/
def readInt (f : Fmt) (n : Nat) : Int := if (n : Int) ≤ (intRange f).2 then n else (n : Int) - 2 ^ f.width

/-- An integer in a format's low bits. -/
def writeInt (f : Fmt) (v : Int) : W64 := BitVec.ofNat 64 (v % 2 ^ f.width).toNat

/-- A float converted to an integer (Table 11.10, R378). -/
def toInteger (dst : Fmt) (r : Rounding) (v : Val) : W64 × FlagSet :=
  let range := intRange dst
  match v with
  | .nan _ => (0, flagInvalid)
  | .inf neg => (writeInt dst (if neg then range.1 else range.2), flagInvalid)
  | .fin neg m e =>
    let g := Exact.onGrid ⟨neg, m, e, false⟩ r 0
    let n : Int := if neg then -(g.1 : Int) else g.1
    if n < range.1 then (writeInt dst range.1, flagInvalid)
    else if range.2 < n then (writeInt dst range.2, flagInvalid)
    else (writeInt dst n, flagIf g.2 flagInexact)

/-- A float converted to E8M0 (Table 11.10): the sign is ignored and nothing is rounded. A NaN and an infinity raise
what Table 11.9 gives them. -/
def toScale (v : Val) : W64 × FlagSet :=
  match v with
  | .nan sig => (0xff, flagIf sig flagInvalid)
  | .inf _ => (0xff, flagOverflow ||| flagInexact)
  | .fin _ m e => if m = 0 then (0, 0) else (BitVec.ofNat 64 (min (max ((bitLen m : Int) - 1 + e + 127) 0) 254).toNat, 0)

/-- A value converted to a float format (Table 11.10, R297, R378). -/
def toFloat (dst : Fmt) (r : Rounding) (sat : Bool) (v : Val) : W64 × FlagSet :=
  match v with
  | .nan sig => (BitVec.ofNat 64 dst.quietNan, flagIf (sig || !dst.hasNan) flagInvalid)
  | .inf neg =>
    if dst.hasInf && !sat then (BitVec.ofNat 64 (withSign dst neg dst.infCode), 0)
    else (BitVec.ofNat 64 (withSign dst neg dst.maxCode), flagOverflow ||| flagInexact)
  | .fin neg m e =>
    let o := Exact.round ⟨neg, m, e, false⟩ dst r sat
    (BitVec.ofNat 64 o.1, o.2)

/-- The source of a conversion as a value: an E8M0 scale, an integer or a float (R294, R295, R377). -/
def sourceVal (src : Fmt) (n : Nat) : Val :=
  if src = .e8m0 then (if n = 0xff then .nan false else .fin false 1 ((n : Int) - 127))
  else if src.isFloat then readFloat src n
  else
    let v := readInt src n
    .fin (v < 0) v.natAbs 0

/-- A conversion (R377, R378). -/
def convert (dst src : Fmt) (r : Rounding) (sat : Bool) (x : W64) : W64 × FlagSet :=
  let v := sourceVal src (low src x)
  if dst = .e8m0 then toScale v
  else if dst.isFloat then toFloat dst r sat v
  else toInteger dst r v

/-- Notes that a stochastic rounding performs in the block: the LFSR steps at its commit (R301). -/
def Frame.noteRounding (f : Frame) (performs : Bool) : Frame :=
  { f with rounded := f.rounded || (performs && decide (f.mods.mode = 4)) }

/-- Both majors of `cvt` (R377): the source bits are those of the low bits, zero-extended (R301, R378). -/
def convertOp (g : G) (dst src : Fmt) (s : State) : Out :=
  inBlock s fun f =>
    let out := (f.performing g.pred [.a]).map fun l =>
      let x := BitVec.ofNat 64 (low src (f.val .a l))
      (l, convert dst src (s.rounding f l x) f.mods.sat x)
    let tok := tokenOf fun l => (out.find? fun y => y.1 = l).map fun y => y.2.1
    let f' := (f.noteRounding (out ≠ [])).raise (out.map fun y => (y.1, y.2.2))
    s.fired ((f'.send g.t0 tok).send g.t1 tok)

/-- `cvt` with a source code of 0x0 to 0x7 (R377). -/
def execCvt (g : G) (dst src : Fmt) (s : State) : Out := convertOp g dst src s

/-- `cvt` with a source code of 0x8 to 0xe (R377). -/
def execCvtSourceHigh (g : G) (dst src : Fmt) (s : State) : Out := convertOp g dst src s

/-- The magnitude of a finite value compared with that of another. -/
def magLess (a b : Val) : Bool :=
  match a, b with
  | .fin _ m e, .fin _ n k =>
    let q := minExp [a, b]
    Val.scaled (.fin false m e) q < Val.scaled (.fin false n k) q
  | _, _ => false

/-- The E8M0 scale of a group's values (R302). -/
def groupScale (elem : Fmt) (vs : List Val) : Nat :=
  if vs.any fun v => !v.isFinite then 0xff
  else
    let logs := vs.filterMap fun v => match v with | .fin _ m e => if m = 0 then none else some ((bitLen m : Int) - 1 + e) | _ => none
    match logs with
    | [] => 0
    | x :: xs => (min (max (xs.foldl max x - elem.emax + 127) 0) 254).toNat

/-- One element of a scale group (R302): rounded, and ±largest past the largest finite value. -/
def groupElement (elem : Fmt) (scale : Nat) (r : Rounding) (v : Val) : W64 × FlagSet :=
  if scale = 0xff then (0, flagIf v.isNan flagInvalid)
  else
    match v with
    | .fin neg m e =>
      let y : Exact := ⟨neg, m, e + 127 - scale, false⟩
      if magLess (readFloat elem elem.maxCode) (.fin neg y.m y.e) then
        (BitVec.ofNat 64 (withSign elem neg elem.maxCode), flagOverflow ||| flagInexact)
      else
        let o := y.round elem r true
        (BitVec.ofNat 64 o.1, o.2)
    | _ => (0, 0)

/-- `cvtmx` (R302, R379). -/
def execCvtmx (g : G) (src : MxSrc) (elem : MxElem) (s : State) : Out :=
  inBlock s fun f =>
    let lanes := f.performing g.pred [.a]
    let code := fun l => low src.fmt (f.val .a l)
    let scale := groupScale elem.fmt (lanes.map fun l => readFloat src.fmt (code l))
    let out := lanes.map fun l =>
      (l, groupElement elem.fmt scale (s.rounding f l (BitVec.ofNat 64 (code l))) (readFloat src.fmt (code l)))
    let f' := (f.noteRounding (out ≠ [])).raise (out.map fun y => (y.1, y.2.2))
    let elems := tokenOf fun l => (out.find? fun y => y.1 = l).map fun y => y.2.1
    let scales := tokenOf fun l => if lanes.contains l then some (BitVec.ofNat 64 scale) else none
    s.fired ((f'.send g.t0 elems).send g.t1 scales)

end Sys2Proof.Machine
end

