-- ==== Sys2Proof/Machine/Integer.lean ====
section
/-!
DEFINITION. Integer, logic, comparison, predicate and bitmap instructions
(spec/13_isa_block_control_integer.md R357 to R366).
-/
namespace Sys2Proof

/-- The integer type of an `abs` type. -/
def SType.toI : SType → IType
  | .s32 => .s32
  | .s64 => .s64

/-- The bits of an operand of a logic instruction, as `w` booleans would give them: the low w bits. -/
def ZType.low (t : ZType) (x : W64) : W64 := BitVec.ofNat 64 (t.toI.nat x)

/-- A condition of `setp` (R363). -/
def Cond.holds (c : Cond) (a b : Int) : Bool :=
  match c with
  | .eq => a = b
  | .ne => a ≠ b
  | .lt => a < b
  | .le => a ≤ b
  | .gt => b < a
  | .ge => b ≤ a
end Sys2Proof

namespace Sys2Proof.Machine

/-- The quotient truncated toward zero, with R358's values at its corners. -/
def divide (t : IType) (a b : W64) : W64 :=
  if t.nat b = 0 then t.wrap (-1) else t.wrap ((t.int a).tdiv (t.int b))

/-- The remainder, which takes the sign of the dividend; a divisor of 0 gives the dividend (R358). -/
def remainder (t : IType) (a b : W64) : W64 :=
  if t.nat b = 0 then t.wrap (t.int a) else t.wrap ((t.int a).tmod (t.int b))

/-- The upper half of the exact product (Table 13.7). -/
def mulHigh (t : IType) (a b : W64) : W64 := t.wrap ((t.int a * t.int b) / (2 ^ t.width : Int))

/-- The lesser by type. -/
def lesser (t : IType) (a b : W64) : W64 := t.wrap (if t.int a ≤ t.int b then t.int a else t.int b)

/-- The greater by type. -/
def greater (t : IType) (a b : W64) : W64 := t.wrap (if t.int b ≤ t.int a then t.int a else t.int b)

/-- `lea` with shift `k` (R359). -/
def leaAddr (t : IType) (k : Nat) (a b : W64) : W64 :=
  let b' : W64 := match t with
    | .s32 => sext (lo32 b)
    | .z32 => zext (lo32 b)
    | _ => b
  a + (b' <<< k)

/-- `add` (Table 13.7). -/
def execAdd (g : G) (t : IType) (s : State) : Out := binop g s fun a b => t.wrap (t.int a + t.int b)
/-- `sub` (Table 13.7). -/
def execSub (g : G) (t : IType) (s : State) : Out := binop g s fun a b => t.wrap (t.int a - t.int b)
/-- `mul` (Table 13.7). -/
def execMul (g : G) (t : IType) (s : State) : Out := binop g s fun a b => t.wrap (t.int a * t.int b)
/-- `mulhi` (Table 13.7). -/
def execMulhi (g : G) (t : IType) (s : State) : Out := binop g s fun a b => mulHigh t a b
/-- `mad` (Table 13.7). -/
def execMad (g : G) (t : IType) (s : State) : Out :=
  triop g s fun a b c => t.wrap (t.int a * t.int b + t.int c)
/-- `div` (R358). -/
def execDiv (g : G) (t : IType) (s : State) : Out := binop g s fun a b => divide t a b
/-- `rem` (R358). -/
def execRem (g : G) (t : IType) (s : State) : Out := binop g s fun a b => remainder t a b
/-- `neg` (Table 13.7). -/
def execNeg (g : G) (t : IType) (s : State) : Out := unop g s fun a => t.wrap (-t.int a)
/-- `abs` (Table 13.7). -/
def execAbs (g : G) (t : SType) (s : State) : Out :=
  unop g s fun a => t.toI.wrap (if t.toI.int a < 0 then -t.toI.int a else t.toI.int a)
/-- `min` (Table 13.7). -/
def execMin (g : G) (t : IType) (s : State) : Out := binop g s fun a b => lesser t a b
/-- `max` (Table 13.7). -/
def execMax (g : G) (t : IType) (s : State) : Out := binop g s fun a b => greater t a b
/-- `lea`, with the shift of a preceding `ext` (R359). -/
def execLea (g : G) (t : IType) (s : State) : Out :=
  valueOp g s fun f l =>
    let k := match f.ext? with | some e => e.toNat % 8 | none => 0
    match f.arg .a l, f.arg .b l with
    | some a, some b => some (leaAddr t k a b)
    | _, _ => none

/-- `and` (Table 13.9). -/
def execAnd (g : G) (t : ZType) (s : State) : Out := binop g s fun a b => t.low a &&& t.low b
/-- `or` (Table 13.9). -/
def execOr (g : G) (t : ZType) (s : State) : Out := binop g s fun a b => t.low a ||| t.low b
/-- `xor` (Table 13.9). -/
def execXor (g : G) (t : ZType) (s : State) : Out := binop g s fun a b => t.low a ^^^ t.low b
/-- `andn` (Table 13.9). -/
def execAndn (g : G) (t : ZType) (s : State) : Out := binop g s fun a b => t.low a &&& ~~~t.low b
/-- `not` (Table 13.9). -/
def execNot (g : G) (t : ZType) (s : State) : Out := unop g s fun a => t.low (~~~a)
/-- `shl`, 0 from the width on (Table 13.9). -/
def execShl (g : G) (t : ZType) (s : State) : Out :=
  binop g s fun a b => if t.toI.width ≤ (lo32 b).toNat then 0 else t.low (t.low a <<< (lo32 b).toNat)
/-- `shr`, 0 from the width on (Table 13.9). -/
def execShr (g : G) (t : ZType) (s : State) : Out :=
  binop g s fun a b => if t.toI.width ≤ (lo32 b).toNat then 0 else t.low a >>> (lo32 b).toNat
/-- `sar`: bit [w-1] is shifted in (Table 13.9). -/
def execSar (g : G) (t : ZType) (s : State) : Out :=
  binop g s fun a b =>
    let st : IType := match t with | .z32 => .s32 | .z64 => .s64
    t.toI.wrap (st.int a / (2 ^ Nat.min (lo32 b).toNat t.toI.width : Int))
/-- `rotl` by n mod w (Table 13.9). -/
def execRotl (g : G) (t : ZType) (s : State) : Out :=
  binop g s fun a b =>
    match t with
    | .z32 => zext ((lo32 a).rotateLeft ((lo32 b).toNat % 32))
    | .z64 => a.rotateLeft ((lo32 b).toNat % 64)
/-- Number of leading zero bits of the low w bits (Table 13.9). -/
def leadingZeros (w x : Nat) : Nat := w - bitLen x
/-- Number of trailing zero bits of the low w bits, w for 0 (Table 13.9). -/
def trailingZeros (w x : Nat) : Nat := ((List.range w).find? fun i => x / 2 ^ i % 2 = 1).getD w
/-- Number of set bits of the low w bits (Table 13.9). -/
def popCount (w x : Nat) : Nat := ((List.range w).filter fun i => x / 2 ^ i % 2 = 1).length
/-- `clz` (Table 13.9). -/
def execClz (g : G) (t : ZType) (s : State) : Out :=
  unop g s fun a => BitVec.ofNat 64 (leadingZeros t.toI.width (t.toI.nat a))
/-- `ctz` (Table 13.9). -/
def execCtz (g : G) (t : ZType) (s : State) : Out :=
  unop g s fun a => BitVec.ofNat 64 (trailingZeros t.toI.width (t.toI.nat a))
/-- `popc` (Table 13.9). -/
def execPopc (g : G) (t : ZType) (s : State) : Out :=
  unop g s fun a => BitVec.ofNat 64 (popCount t.toI.width (t.toI.nat a))
/-- `brev` (Table 13.9). -/
def execBrev (g : G) (t : ZType) (s : State) : Out :=
  unop g s fun a => match t with
    | .z32 => zext (lo32 a).reverse
    | .z64 => a.reverse

/-- Position and length of a bit field, limited to the width (R361). -/
def fieldOf (w : Nat) (ctl : W64) : Nat × Nat :=
  let p := Nat.min (ctl.toNat % 256) w
  (p, Nat.min (ctl.toNat / 256 % 256) (w - p))
/-- `bfx`: a field of `a`, sign-extended for the `.s` types (R361). -/
def extractField (t : IType) (a b : W64) : W64 :=
  let pl := fieldOf t.width b
  let x := t.nat a / 2 ^ pl.1 % 2 ^ pl.2
  if t.signed ∧ 0 < pl.2 ∧ x / 2 ^ (pl.2 - 1) = 1 then t.wrap ((x : Int) - 2 ^ pl.2) else t.wrap x
/-- `bfi`: a field of `a` replaced by the low bits of `b` (R361). -/
def insertField (t : ZType) (a b c : W64) : W64 :=
  let pl := fieldOf t.toI.width c
  let x := t.toI.nat a
  BitVec.ofNat 64 (x - x / 2 ^ pl.1 % 2 ^ pl.2 * 2 ^ pl.1 + b.toNat % 2 ^ pl.2 * 2 ^ pl.1)
/-- `bfx` (R361). -/
def execBfx (g : G) (t : IType) (s : State) : Out := binop g s fun a b => extractField t a b
/-- `bfi` (R361). -/
def execBfi (g : G) (t : ZType) (s : State) : Out := triop g s fun a b c => insertField t a b c
/-- `sel`, with its own use of null (R362). -/
def execSel (g : G) (t : ZType) (s : State) : Out :=
  valueOp g s fun f l =>
    match f.arg .c l with
    | none => none
    | some c => (if c.getLsbD 0 then f.arg .a l else f.arg .b l).map fun x => t.low x

/-- A predicate as a token value. -/
def ofBool (b : Bool) : W64 := if b then 1 else 0
/-- `setp` (R363). -/
def execSetp (g : G) (c : Cond) (t : IType) (s : State) : Out := binop g s fun a b => ofBool (c.holds (t.int a) (t.int b))
/-- `pand` (R364). -/
def execPand (g : G) (s : State) : Out := binop g s fun a b => ofBool (a.getLsbD 0 && b.getLsbD 0)
/-- `por` (R364). -/
def execPor (g : G) (s : State) : Out := binop g s fun a b => ofBool (a.getLsbD 0 || b.getLsbD 0)
/-- `pxor` (R364). -/
def execPxor (g : G) (s : State) : Out := binop g s fun a b => ofBool (a.getLsbD 0 != b.getLsbD 0)
/-- `pnot` (R364). -/
def execPnot (g : G) (s : State) : Out := unop g s fun a => ofBool (!a.getLsbD 0)

/-- `isect`: the intersection to `T0`, both bit counts to `T1` (R365). -/
def execIsect (g : G) (s : State) : Out :=
  inBlock s fun f => s.sendPair f g fun l =>
    match f.arg .a l, f.arg .b l with
    | some a, some b =>
      (some (zext (lo32 a &&& lo32 b)),
       some (BitVec.ofNat 64 (popCount 32 (lo32 a).toNat + popCount 32 (lo32 b).toNat * 2 ^ 32)))
    | _, _ => (none, none)
/-- `isect.x`: where bit L of both words is set, the packed positions; null otherwise (R366). -/
def execIsectX (g : G) (s : State) : Out :=
  inBlock s fun f => s.sendPair f g fun l =>
    match f.arg .a l, f.arg .b l with
    | some a, some b =>
      if a.getLsbD l && b.getLsbD l then
        (some (BitVec.ofNat 64 (popCount 32 (a.toNat % 2 ^ l))), some (BitVec.ofNat 64 (popCount 32 (b.toNat % 2 ^ l))))
      else (none, none)
    | _, _ => (none, none)

end Sys2Proof.Machine
end

