-- ==== Sys2Proof/Machine/LoadStore.lean ====
section
/-!
DEFINITION. Loads, stores, prefetch, fences and invalidation (spec/15_isa_memory.md R387 to R392, R398 to R400;
spec/06_execution_model.md R148, R149; spec/09_memory_model.md R224 to R226).
-/
namespace Sys2Proof.Machine

/-- Records what one lane's check met, where it did not pass (R169, R103). -/
def Frame.met {α : Type} (f : Frame) (l : Nat) (a : W64) : Res α → Frame
  | .ok _ => f
  | .wait => f
  | .bad c x => f.addFault c l (if x = 0 then a else x)
  | .absent page => f.addPark page l a

/-- Records what the one check of an instruction that acts once for its strand met, where it did not pass. -/
def Frame.metAll {α : Type} (f : Frame) (m : Mask) (a : W64) : Res α → Frame
  | .ok _ => f
  | .wait => f
  | .bad c x => f.addFaults c m (if x = 0 then a else x)
  | .absent page => { f with faults := f.faults ++ [{ f.faultAt f.slot .pageFault 0 a with lanes := m, park := some page }] }

/-- What a step over lanes has reached: the machine, the block, and whether a lane must wait. -/
structure Lanes where
  s : State
  f : Frame
  waits : Bool
  deriving DecidableEq, Repr

/-- Runs a list of lanes in order. -/
def overLanes (s : State) (f : Frame) (lanes : List Nat) (k : State → Frame → Nat → Lanes) : Lanes :=
  lanes.foldl (fun (x : Lanes) l => if x.waits then x else k x.s x.f l) ⟨s, f, false⟩

/-- Ends a slot that ran lane by lane: it waits, it has met a fault, or it goes on. -/
def Lanes.finish (x : Lanes) (s : State) (k : State → Frame → State) : State :=
  if x.waits then s.waitHere
  else if x.f.hasFault then x.s.faulted x.f
  else k x.s x.f

/-- The byte that the block's own buffered stores below an LSID give a place: the last, by LSID and then lane (R149). -/
def Frame.forward (f : Frame) (lsid : Nat) (p : Place) : Option Byte :=
  (f.stores.foldl (fun (best : Option (Nat × Byte)) st =>
    if lsid ≤ st.lsid then best
    else
      match (st.places.zip st.bytes).find? fun c => c.1.key = p.key with
      | none => best
      | some c =>
        let rank := 32 * st.lsid + st.lane
        match best with
        | some (k, b) => if k ≤ rank then some (rank, c.2) else some (k, b)
        | none => some (rank, c.2)) none).map Prod.snd

/-- Is a byte of a load, at address `a`, one that the load reads at the issuing die's L2, or in the first-level cache
(Table 15.2)? -/
def State.readsAtL2 (s : State) (who : Issuer) (at_ : LoadAt) (a : Nat) (p : Place) : Bool :=
  match p with
  | .hbm _ attr => !attr.memside && at_ != .home && !(at_ = .l1 && s.stashed who.warp.core who.ctx a p)
  | _ => false

/-- The latest moment that a reader's floors name for a byte of a line (R229). -/
def Reader.floorOf (r : Reader) (line : Nat) : Nat :=
  r.floors.foldl (fun m x => if lineOf (x.1 / 33) = line then Nat.max m x.2 else m) 0

/-- The moment before which no copy of a line may be filled for a core's context: no thread of it follows a later one (R224,
R229), and the copy that is there shows nothing later. -/
def State.fillFloor (s : State) (core ctx line : Nat) : Nat :=
  let mine := s.readers.filter fun r => r.warp.core = core && ((s.warp? r.warp).map fun w => w.ctx) = some ctx
  mine.foldl (fun m r => Nat.max m (Nat.max (r.floorOf line) (r.readsFrom.foldl (fun m x => Nat.max m x.2) 0)))
    (((s.l1Line? core ctx line).map fun l => l.moment).getD 0)

/-- The moment before which a lane's read of a byte at the die's L2 is not performed: those that R224 and R229 give the lane,
and those of a first-level copy that the read fills. -/
def State.readFloor (s : State) (who : Issuer) (at_ : LoadAt) (lane phys : Nat) : Nat :=
  let r := s.reader who.warp
  let own := Nat.max (sget 0 r.readsFrom lane)
    (Nat.max (sget 0 r.floors (floorKey phys lane)) (sget 0 r.floors (floorKey phys 32)))
  if at_ = .l1 || (s.l1Line? who.warp.core who.ctx (lineOf phys)).isSome then
    Nat.max own (s.fillFloor who.warp.core who.ctx (lineOf phys))
  else own

/-- The moment at which a lane's plain load reads some bytes at the die's L2: any one from the latest that bounds one of the
bytes up to now, since R221 orders no two reads of different locations (log 21). -/
def State.pickMoment (s : State) (who : Issuer) (at_ : LoadAt) (lane : Nat) (phys : List Nat) : Nat :=
  let floor := phys.foldl (fun m x => Nat.max m (s.readFloor who at_ lane x)) 0
  if s.moments ≤ floor then s.moments else floor + Config.later s.stepNo lane % (s.moments + 1 - floor)

/-- What is to be seen at the die's L2 of some bytes is there before a plain load picks its moment (R214, R229). -/
def State.approach (s : State) (who : Issuer) (at_ : LoadAt) (phys : List Nat) : State :=
  foldState s (dedup (phys.map lineOf)) fun s l =>
    s.l2Access who.warp.core l fun q => decide (at_ = .l2) || decide (q.warp ≠ who.warp) || q.rmw.isSome

/-- The moment at which a byte has been read, `moment` being that of a read at the die's L2. -/
def State.momentRead (s : State) (who : Issuer) (at_ : LoadAt) (a : Nat) (p : Place) (moment : Nat) : Nat :=
  match p with
  | .hbm phys _ =>
    if !s.readsAtL2 who at_ a p then s.moments
    else if at_ = .l1 then ((s.l1Line? who.warp.core who.ctx (lineOf phys)).map fun l => l.moment).getD moment
    else moment
  | _ => s.moments

/-- What a lane has read, later reads of the lane follow (R229), and later writes of the warp follow what it obtained (R233). -/
def State.hasRead (s : State) (who : Issuer) (at_ : LoadAt) (lane a : Nat) (p : Place) (moment : Nat) : State :=
  let s := match p with
    | .hbm phys _ => s.onReader who.warp fun r => r.raise lane (s.momentRead who at_ a p moment) [phys]
    | _ => s
  s.learn who.warp (s.readTells who.warp.core at_ p)

/-- Reads the bytes of one lane's load: forwarded, or from where the load is performed (R149, R390). `plain` marks a load
without acquire, outside an isolated block, which R221 lets be performed at an earlier moment. -/
def State.readLane (s : State) (f : Frame) (at_ : LoadAt) (plain : Bool) (lane : Nat) (a : W64) (ps : List Place) :
    State × Option (List Byte) :=
  let lsid := f.lsidOf f.slot
  let who := s.who f
  let open_ := ps.zipIdx.filter fun x => (f.forward lsid x.1).isNone
  let phys := hbmBytes ((open_.filter fun x => s.readsAtL2 who at_ (a.toNat + x.2) x.1).map Prod.fst)
  let s := if plain then s.approach who at_ phys else s
  let moment := if plain then s.pickMoment who at_ lane phys else s.moments
  let r := ps.zipIdx.foldl (fun (acc : State × Option (List Byte)) x =>
    let r : State × Option Byte :=
      match f.forward lsid x.1 with
      | some b => (acc.1, some b)
      | none => acc.1.loadByte who at_ f.shape.iso (a.toNat + x.2) x.1 (if plain then some moment else none)
    (r.1, match acc.2, r.2 with
      | some bs, some b => some (bs ++ [b])
      | _, _ => none)) (s, some [])
  let now := if plain then moment else r.1.moments
  (foldState r.1 open_ fun s x => s.hasRead who at_ lane (a.toNat + x.2) x.1 now, r.2)

/-- The next operand of the slot, or the next write slot: where a 128-bit load sends its high half (R322). -/
def nextTarget : Target → Target
  | .op .a k => .op .b k
  | .op .b k => .op .c k
  | .write n => .write (n + 1)
  | t => t

/-- The scope a pier warp's access acts at: wider than `.die` acts as `.die` (R261). -/
def State.scopeOf (s : State) (f : Frame) (sc : Scope) : Scope :=
  if (s.frameWarp f).pier.isSome && decide (Scope.rank .die < sc.rank) then .die else sc

/-- A load of `n` bytes in each performing lane (R389): checked, read, and sent zero-extended (R322). -/
def loadOp (pred : Pred) (width : Width) (scale : BitVec 8) (t0 : Target) (at_ : LoadAt) (acq : Option Scope) (s : State) : Out :=
  inBlock s fun f =>
    let n := width.bytes
    let lanes := f.performing pred [.a]
    let f := f.claim lanes
    let start : State × Frame × List (Nat × List Byte) × Bool := (s, f, [], false)
    let r := lanes.foldl (fun (x : State × Frame × List (Nat × List Byte) × Bool) l =>
      let a := f.ea scale n l
      match x.1.access (s.who f) .read a n with
      | .wait => (x.1, x.2.1, x.2.2.1, true)
      | .ok ps =>
        let g := s.noteLoad x.2.1 ps
        let v := x.1.readLane f at_ (acq.isNone && !f.shape.iso) l a ps
        match v.2 with
        | some bs => (v.1, g, x.2.2.1 ++ [(l, bs)], x.2.2.2)
        | none => (v.1, g.addFault .poison l (s.poisonAddress (s.who f) a ps), x.2.2.1, x.2.2.2)
      | bad => (x.1, x.2.1.met l a bad, x.2.2.1, x.2.2.2)) start
    (⟨r.1, r.2.1, r.2.2.2⟩ : Lanes).finish s fun s f =>
      let s := match acq with
        | some sc =>
          let read := fun (l : Nat) => match s.access (s.who f) .read (f.ea scale n l) n with | .ok ps => ps | _ => []
          if lanes = [] then s
          else s.acquireRead f.warp (s.frameWarp f).ctx (maskOf lanes) (s.scopeOf f sc) (lanes.map read).flatten
        | none => s
      let part := fun (lo : Nat) l => (r.2.2.1.find? fun x => x.1 = l).map fun x =>
        BitVec.ofNat 64 (leNat ((x.2.drop lo).take 8))
      let f := f.send t0 (tokenOf (part 0))
      s.fired (if n = 16 then f.send (nextTarget t0) (tokenOf (part 8)) else f)

/-- `ld` (R390). -/
def execLd (m : M) (s : State) : Out := loadOp m.pred m.width m.off m.t0 .l1 none s

/-- `ldb` (R390). -/
def execLdb (m : M) (s : State) : Out := loadOp m.pred m.width m.off m.t0 .l2 none s

/-- `ldacq` (R224, R390). -/
def execLdacq (m : MS) (s : State) : Out := loadOp m.pred m.width 0 m.t0 m.scope.loadAt (some m.scope) s

/-- The bytes a store of `n` bytes takes from its data operands in a lane (R322). -/
def Frame.storeBytes (f : Frame) (n l : Nat) : List Byte :=
  if n = 16 then leBytes 8 (f.val .b l).toNat ++ leBytes 8 (f.val .c l).toNat else leBytes n (f.val .b l).toNat

/-- The module that lost a remote write of a lane, the one that lost it first where there are several (R49). -/
def Warp.lostBy (w : Warp) (l : Nat) : Option Nat := (w.lostRemote.find? fun x => x.2.getLsbD l).map fun x => x.1

/-- A release or fence at `.sys` reports writes lost to a host, and one at `.pod` or `.sys` those lost to another module,
whose number is the detail (R36, R49, R170). -/
def State.reportLost (s : State) (f : Frame) (sc : Scope) (lanes : List Nat) : Frame :=
  let w := s.frameWarp f
  lanes.foldl (fun f l =>
    let f := if sc = .sys && w.lostHost.getLsbD l then f.addFault .hostTimeout l 0 else f
    match w.lostBy l with
    | some m =>
      if decide (Scope.rank .pod ≤ sc.rank) then
        { f with faults := f.faults ++ [{ f.faultAt f.slot .remoteWriteLost l 0 with detail := BitVec.ofNat 64 m }] }
      else f
    | none => f) f

/-- Has a lane among `lanes` of the warp with a serial number a packet that has not completed (R46, R288)? -/
def State.owesPackets (s : State) (serial : Nat) (lanes : List Nat) : Bool :=
  (s.pod.out.any fun r => !r.dead && r.who.serial = serial && lanes.contains r.lane) ||
  s.packets.any fun r => match r.sender with
    | some (who, lane, _) => who.serial = serial && lanes.contains lane
    | none => false

/-- Does a release at a scope wait for a remote write of one of its lanes that has not completed (R46, R288)? -/
def State.unsent (s : State) (f : Frame) (sc : Scope) (lanes : List Nat) : Bool :=
  decide (Scope.rank .pod ≤ sc.rank) && s.owesPackets (s.serialOf f.warp) lanes

/-- A store in each performing lane (R389, R392): checked when it fires, and buffered until commit. -/
def storeOp (pred : Pred) (width : Width) (scale : BitVec 8) (release : Option Scope) (multicast : Bool) (s : State) : Out :=
  inBlock s fun f =>
    let n := width.bytes
    let lanes := f.performing pred (if n = 16 then [.a, .b, .c] else [.a, .b])
    let f := f.claim lanes
    let f := match release with
      | some sc => s.reportLost f sc lanes
      | none => f
    let held : Bool := match release with
      | some sc => s.unsent f sc lanes
      | none => false
    if held then s.waitHere
    else (overLanes s f lanes fun s f l =>
      let a := f.ea scale n l
      match s.access (s.who f) .write a n with
      | .wait => ⟨s, f, true⟩
      | .ok ps =>
        let st : BufStore := ⟨f.lsidOf f.slot, l, a, ps, f.storeBytes n l, release.map (s.scopeOf f), multicast⟩
        ⟨s, s.note { f with stores := f.stores ++ [st] } true ps, false⟩
      | bad => ⟨s, f.met l a bad, false⟩).finish s fun s f => s.fired f

/-- `st` (R392). -/
def execSt (m : M) (s : State) : Out := storeOp m.pred m.width m.off none false s

/-- `strel` (R225, R392). -/
def execStrel (m : MS) (s : State) : Out := storeOp m.pred m.width 0 (some m.scope) false s

/-- `st.mc` (R237, R392). -/
def execStMc (m : M) (s : State) : Out := storeOp m.pred m.width m.off none true s

/-- Brings the line of an address into the first-level cache, where R391 lets it: an ordinary present page of the global
window. -/
def State.prefetch (s : State) (who : Issuer) (a : W64) : State :=
  if windowOf a.toNat ≠ .global ∨ !canonical a.toNat then s
  else
    match s.globalPlaces who.ctx (coreDie who.warp.core) .read (a.toNat / 64 * 64) 1 with
    | .ok [.hbm phys attr] =>
      if attr.memside || attr.repl || (s.l1Line? who.warp.core who.ctx (lineOf phys)).isSome then s
      else s.fillL1 who.warp.core who.ctx (lineOf phys) [a.toNat / 64 * 64] none
    | _ => s

/-- `pref`: it never faults; on a pier core it does nothing (R391). -/
def execPref (pred : Pred) (_lsid : BitVec 4) (l1 : Bool) (off : BitVec 8) (s : State) : Out :=
  inBlock s fun f =>
    let lanes := f.performing pred [.a]
    let f := f.claim lanes
    if f.hasFault then s.faulted f
    else
      let s := if !l1 || (s.frameWarp f).pier.isSome then s
        else foldState s lanes fun s l => s.prefetch (s.who f) (f.ea off 64 l)
      s.fired f

/-- Dirty stash lines of a core whose home is another die are written back before a release at `.pkg` or wider (R212). -/
def State.stashRelease (s : State) (core : Nat) : State :=
  s.stashClean fun l => l.core = core && homeDie l.line != coreDie core

/-- What a release at a scope that takes effect now does first (R225). -/
def State.releaseNow (s : State) (id : WarpId) (sc : Scope) : State :=
  let s := s.releaseUpTo id sc.rank s.nextWrite
  if Scope.rank .pkg ≤ sc.rank then s.stashRelease id.core else s

/-- Every earlier write of a warp is visible to every thread of a scope (R226): performed, with what its core's stash still
holds of it from `.cls`, and from `.pkg` arrived on every die. -/
def State.visibleNow (s : State) (id : WarpId) (sc : Scope) : State :=
  let s := (s.releaseNow id sc).drainWarp id
  let s := if Scope.rank .cls ≤ sc.rank then s.stashClean fun l => l.core = id.core else s
  if Scope.rank .pkg ≤ sc.rank then s.arriveAll fun _ => true else s

/-- What a release at a scope of the writes below a number adds to what earlier releases ask for (R225, R226). -/
def releasingAt (n : Nat) (needs : Sparse Nat) (sc : Scope) : Sparse Nat := sset 0 needs sc.rank (Nat.max n (sget 0 needs sc.rank))

/-- What a release at a scope of everything that has been written so far adds to what earlier releases ask for (R225, R226). -/
def State.releasing (s : State) (needs : Sparse Nat) (sc : Scope) : Sparse Nat := releasingAt s.nextWrite needs sc

/-- What the fences of the running block below an LSID, and those committed before, ask of a write that the block makes as it
fires (R226, R227). -/
def State.needsAt (s : State) (f : Frame) (lsid : Nat) : Sparse Nat :=
  foldState (s.frameWarp f).relSeq (f.stores.filter fun st => st.places = [] && decide (st.lsid < lsid)) fun needs st =>
    s.releasing needs (st.release.getD .wrp)

/-- Does the fence kind acquire? -/
def fenceAcquires : FenceKind → Bool
  | .rel => false
  | _ => true

/-- `fence` (R226, R398). Its acquire half acts as it fires; its release half is left in the store buffer at its LSID as
an entry without places, marked multicast for `.sc`. -/
def execFence (pred : Pred) (_lsid : BitVec 4) (kind : FenceKind) (scope : Scope) (s : State) : Out :=
  inBlock s fun f =>
    let lanes := f.performing pred []
    let f := s.reportLost (f.claim lanes) scope lanes
    if s.unsent f scope lanes then s.waitHere
    else if f.hasFault then s.faulted f
    else if lanes = [] then s.fired f
    else
      let sc := s.scopeOf f scope
      let s := if kind = .sc then s.visibleNow f.warp sc else s
      let s := if fenceAcquires kind then s.acquire f.warp (s.frameWarp f).ctx (maskOf lanes) sc else s
      let mark : BufStore := ⟨f.lsidOf f.slot, 0, 0, [], [], some sc, kind = .sc⟩
      s.fired (if kind = FenceKind.acq then f else { f with stores := f.stores ++ [mark] })

/-- Does a range from `a` to `last` cross a boundary of a window of Table 8.2: its ends lie in two windows, or it lies over
whole windows between two parts of the global one (R399)? -/
def crossesWindow (a last : Nat) : Bool :=
  windowOf a != windowOf last || (decide (a < scratchBase) && decide (clusterBase + 0x400000 ≤ last))

/-- `fence.rep` checks its range when it fires (R399): the pages are read-checked one by one. -/
def execFenceRep (pred : Pred) (_lsid : BitVec 4) (s : State) : Out :=
  inBlock s fun f =>
    let lanes := f.performing pred [.a, .b]
    let f := f.claim lanes
    match lanes with
    | [] => s.fired f
    | l :: _ =>
      let a := f.val .a l
      let b := f.val .b l
      let last := (a + b - 1).toNat
      if b = 0 then s.fired { f with deferred := f.deferred ++ [(f.slot, .fenceRep (f.lsidOf f.slot) a 0)] }
      else if crossesWindow a.toNat last then s.faulted (f.addFaults .windowCrossing (maskOf lanes) a)
      else if 2 ^ 30 < b.toNat ∨ windowOf a.toNat ≠ .global then s.faulted (f.addFaults .address (maskOf lanes) a)
      else if !(canonical a.toNat && canonical last && decide (a.toNat + b.toNat ≤ 2 ^ 64)) then
        s.faulted (f.addFaults .address (maskOf lanes) a)
      else
        match s.globalPlaces (s.who f).ctx (coreDie f.warp.core) .read a.toNat 1 with
        | .wait => s.waitHere
        | first =>
          let pages := (List.range (last / 4096 - a.toNat / 4096)).map fun i => BitVec.ofNat 64 ((a.toNat / 4096 + 1 + i) * 4096)
          let x := overLanes s (f.metAll (maskOf lanes) a first) (List.range pages.length) fun s f i =>
            if f.hasFault then ⟨s, f, false⟩
            else
              let p := (pages[i]?).getD 0
              match s.globalPlaces (s.who f).ctx (coreDie f.warp.core) .read p.toNat 1 with
              | .wait => ⟨s, f, true⟩
              | r => ⟨s, f.metAll (maskOf lanes) p r, false⟩
          x.finish s fun s f => s.fired { f with deferred := f.deferred ++ [(f.slot, .fenceRep (f.lsidOf f.slot) a b)] }

/-- Drops the first-level copies of a context that overlap a range of virtual addresses, by the virtual lines at which they
have been reached, so that nothing is translated; lines with a store still being sent stay (R400). -/
def State.invalidateRange (s : State) (core ctx : Nat) (a b : W64) : State :=
  let over_ := fun (v : Nat) => decide (v < a.toNat + b.toNat) && decide (a.toNat < v + 64)
  if b = 0 then s
  else { s with l1 := s.l1.filter fun l =>
      !(l.core = core && l.ctx = ctx && (decide (2 ^ 20 ≤ b.toNat) || l.vas.any over_)) || s.lineSending core ctx l.line }

/-- `inval` (R400). -/
def execInval (pred : Pred) (_lsid : BitVec 4) (off : BitVec 8) (s : State) : Out :=
  inBlock s fun f =>
    let lanes := f.performing pred [.a, .b]
    let f := f.claim lanes
    if f.hasFault then s.faulted f
    else
      let s := foldState s lanes fun s l => s.invalidateRange f.warp.core (s.frameWarp f).ctx (f.ea off 64 l) (f.val .b l)
      s.fired f

end Sys2Proof.Machine
end

