-- ==== Sys2Proof/Machine/Atomic.lean ====
section
/-!
DEFINITION. Atomics and exact accumulation (spec/15_isa_memory.md R393 to R397; spec/09_memory_model.md R249 to R253;
spec/11_arithmetic.md R312 to R314).
-/
namespace Sys2Proof.Machine

/-- Is the context launched deterministic (R396)? -/
def State.deterministic (s : State) (ctx : Nat) : Bool := ((s.context? ctx).map fun c => c.det).getD false

/-- Does an atomic make an exact add at a place (R396)? -/
def isExact (op : AOp) : List Place → Bool
  | .hbm _ attr :: _ => attr.exact && (op = .addF32 || op = .addBf16)
  | _ => false

/-- The checks of an atomic in one lane (R394 to R396, R260): the places of the element, followed by the 64 places of the
shadow for an exact add. -/
def State.atomicPlaces (s : State) (who : Issuer) (op : AOp) (wide isCas : Bool) (a : W64) : Res (List Place) :=
  let n := atomBytes op wide
  (s.access who .atomic a n).bind fun ps =>
    let hostOk : Bool := isCas || op = .add || op = .exch
    let exact := isExact op ps
    if a.toNat % n ≠ 0 then .bad .alignment a
    else if ps.any fun p => match p with | .regWin .. => true | _ => false then .bad .address a
    else if !hostOk && ps.any fun p => match p with | .host .. => true | _ => false then .bad .protection a
    else if exact && who.pier.isSome then .bad .address a
    else if s.deterministic who.ctx && !exact && (atomFormat op).isSome then .bad .determinism a
    else if ps.any s.placePoisoned then .bad .poison (s.poisonAddress who a ps)
    else if !exact then .ok ps
    else if a.extractLsb' 41 23 ≠ 0 then .bad .address a
    else (s.access who .atomic (shadowAddress op a) 64).bind fun sh =>
      if sh.any s.placePoisoned then .bad .poison a else .ok (ps ++ sh)

/-- Performs one atomic by a thread as one step (R249): what the core's pending writes still hold of its places comes first,
and so does what its releases ask for (R225). Answers the old value. -/
def State.atomicAt (s : State) (who : Issuer) (r : Rmw) (places : List Place) (needs : Sparse Nat) : State × W64 :=
  (s.drainOver who.warp.core places fun _ => true).rmwAfter who r places needs

/-- Does the order release (R250)? -/
def orderReleases : Order → Bool
  | .rel | .ar => true
  | _ => false

/-- Does the order acquire (R250)? -/
def orderAcquires : Order → Bool
  | .acq | .ar => true
  | _ => false

/-- What an atomic at a scope asks to be done first: what the fences before it ask, and its own release (R225, R226). -/
def State.atomicNeeds (s : State) (needs : Sparse Nat) (order : Order) (sc : Scope) : Sparse Nat :=
  if orderReleases order then s.releasing needs sc else needs

/-- A release at `.pkg` or wider of an atomic writes back the core's dirty stash lines of other homes first (R212). -/
def State.atomicRelease (s : State) (core : Nat) (order : Order) (sc : Scope) : State :=
  if orderReleases order && decide (Scope.rank .pkg ≤ sc.rank) then s.stashRelease core else s

/-- Performs an atomic in each of its lanes, ascending, with its ordering (R250, R394): the old values by lane. -/
def State.atomics (s : State) (who : Issuer) (op : AOp) (wide isCas : Bool) (order : Order) (sc : Scope) (needs : Sparse Nat)
    (lanes : List (Nat × W64 × List Place × W64 × W64)) : State × List (Nat × W64) :=
  let s := s.atomicRelease who.warp.core order sc
  let r := lanes.foldl (fun (acc : State × List (Nat × W64)) x =>
    let o := acc.1.atomicAt who ⟨op, wide, isCas, x.2.2.2.1, x.2.2.2.2⟩ x.2.2.1 (acc.1.atomicNeeds needs order sc)
    (o.1, acc.2 ++ [(x.1, o.2)])) (s, [])
  (if orderAcquires order then r.1.acquireRead who.warp who.ctx (maskOf (lanes.map Prod.fst)) sc (lanes.map fun x => x.2.2.1).flatten else r.1, r.2)

/-- The atomics of a committed block that return nothing enter the memory system as the block's stores do (R151, R394), but
for one that acquires: that is performed at once. -/
def State.enterAtomics (s : State) (e : Entry) (op : AOp) (wide isCas : Bool) (order : Order) (sc : Scope)
    (lanes : List (Nat × W64 × List Place × W64 × W64)) : State :=
  if orderAcquires order then (s.atomics e.who op wide isCas order sc e.needs lanes).1
  else
    let s := s.atomicRelease e.who.warp.core order sc
    let e := { e with needs := s.atomicNeeds e.needs order sc }
    foldState s lanes fun s x => s.enterRmw { e with lanes := maskOf [x.1] } ⟨op, wide, isCas, x.2.2.2.1, x.2.2.2.2⟩ x.2.2.1

/-- An atomic in each performing lane (R394): the checks, then for a returning form the operation, or the value kept
from a bound block (R153), and otherwise an action left to the commit. -/
def atomicOp (pred : Pred) (wide isCas : Bool) (scope : Scope) (order : Order) (op : AOp) (t0 : Target) (s : State) : Out :=
  inBlock s fun f =>
    let lanes := f.performing pred (if isCas then [.a, .b, .c] else [.a, .b])
    let f := f.claim lanes
    let st := (s.frameWarp f).strand? f.strand
    let kept := (st.bind fun st => st.replay).filter fun r => r.block = f.pc
    let f := if orderReleases order then s.reportLost f scope lanes else f
    let who := s.who f
    let acc := lanes.foldl (fun (x : Frame × List (Nat × W64 × List Place × W64 × W64) × Bool) l =>
      let a := f.val .a l
      match s.atomicPlaces who op wide isCas a with
      | .wait => (x.1, x.2.1, true)
      | .ok ps =>
        let g := s.note (s.note x.1 false ps) true ps
        (g, x.2.1 ++ [(l, a, ps, f.val .b l, f.val .c l)], x.2.2)
      | bad => (x.1.met l a bad, x.2.1, x.2.2)) (f, [], false)
    let sc := s.scopeOf f scope
    (⟨s, acc.1, acc.2.2 || (orderReleases order && s.unsent f scope lanes)⟩ : Lanes).finish s fun s f =>
      if t0 = .none then
        (s.defer f (.atomic (f.lsidOf f.slot) op wide isCas order sc acc.2.1))
      else
        match kept with
        | some r => s.fired ({ f with bound := some r }.send t0 (tokenOf fun l => if lanes.contains l then tokenAt r.tok l else none))
        | none =>
          let o := s.atomics who op wide isCas order sc (s.needsAt f (f.lsidOf f.slot)) acc.2.1
          let tok := tokenOf fun l => (o.2.find? fun x => x.1 = l).map fun x => x.2
          o.1.fired ({ f with bound := some ⟨f.pc, maskOf lanes, tok, none, 0, false⟩ }.send t0 tok)

/-- `atom` (R393, R394). -/
def execAtom (a : A) (s : State) : Out := atomicOp a.pred a.wide false a.scope a.order a.op a.t0 s

/-- `red` (R393, R394). -/
def execRed (pred : Pred) (_lsid : BitVec 4) (wide : Bool) (scope : Scope) (order : RedOrder) (op : AOp) (s : State) : Out :=
  atomicOp pred wide false scope (match order with | .none => .none | .rel => .rel) op .none s

/-- `cas` (R397). -/
def execCas (pred : Pred) (_lsid : BitVec 4) (wide : Bool) (scope : Scope) (order : Order) (t0 : Target) (s : State) : Out :=
  atomicOp pred wide true scope order .add t0 s

end Sys2Proof.Machine
end

