-- ==== Sys2Proof/Machine/Block.lean ====
section
/-!
DEFINITION. The header, register words, values without a register, hints, exits and rejoin instructions
(spec/13_isa_block_control_integer.md R340 to R356; spec/12_isa_formats.md R316 to R328).
-/
namespace Sys2Proof.Machine

/-- `blk` declares the shape of its block (R317, R340). The uniform groups that its instructions name are those from before the
block (R324, R341). -/
def execBlk (cnt : BitVec 5) (nrd nwr lsid : BitVec 4) (iso : Bool) (xcnt : BitVec 2) (ls : Bool) (s : State) : Out :=
  inBlock s fun f =>
    (s.setFrame { f with shape := { f.shape with
        cnt := cnt.toNat + 1
        nrd := nrd.toNat
        nwr := nwr.toNat
        lsids := if ls then lsid.toNat + 1 else 0
        iso := iso
        exits := xcnt.toNat + 1 }, uniform := (s.frameWarp f).s }).settle

/-- A read word: the token of the active lanes goes to both targets (R341). -/
def readWord (r : RWord) (s : State) (v : Frame → Nat → W64) : Out :=
  inBlock s fun f =>
    let tok := tokenOf fun l => if f.active.getLsbD l then some (v f l) else none
    (s.setFrame ((f.deliver 0 r.t0 tok).deliver 0 r.t1 tok)).settle

/-- `rd.v` (Table 13.1). -/
def execRdV (r : RWord) (s : State) : Out :=
  readWord r s fun f l =>
    let w := s.frameWarp f
    let n := r.reg.toNat
    if r.pair then join32 (w.vreg (n + 1) l) (w.vreg n l) else zext (w.vreg n l)

/-- `rd.s` (Table 13.1). -/
def execRdS (r : RWord) (s : State) : Out :=
  readWord r s fun f _ =>
    let w := s.frameWarp f
    let n := r.reg.toNat
    if r.pair then join32 (w.sreg (n + 1)) (w.sreg n) else zext (w.sreg n)

/-- `rd.p` (Table 13.1). -/
def execRdP (r : RWord) (s : State) : Out :=
  readWord r s fun f l =>
    let p := (s.frameWarp f).preds l
    if r.pair then p else if p.getLsbD r.reg.toNat then 1 else 0

/-- The special registers (Table 12.5), on main and pier cores. -/
def State.special (s : State) (f : Frame) (n l : Nat) : W64 :=
  let w := s.frameWarp f
  let core := w.id.core
  let pier := w.pier.isSome
  let num := fun (x : Nat) => BitVec.ofNat 64 x
  if n = 0x00 then num l
  else if n = 0x01 then num w.id.slot
  else if n = 0x02 then num (if pier then (core - Config.mainCores) % 16 else core % 96)
  else if n = 0x03 then num (if pier then (core - Config.mainCores) / 16 else core % 96 / 4)
  else if n = 0x04 then num (coreDie core)
  else if n = 0x05 then zext s.pod.self
  else if n = 0x06 then
    match w.held with
    | some h => if pier then 0 else num (recSib h.record + recGroup h.record * 2 ^ 16)
    | none => 0
  else if 0x08 ≤ n ∧ n ≤ 0x0f then zext ((w.lvl[n - 8]?).getD 0)
  else if n = 0x10 then num (if pier then s.pierCyclesOf ((core - Config.mainCores) / 16) else s.cyclesOf (coreDie core))
  else if n = 0x12 then zext (if pier then 0 else sget 0 w.cpbatch l)
  else if 0x14 ≤ n ∧ n ≤ 0x17 then zext (if pier then 0 else w.arrival (n - 0x14))
  else if n = 0x18 then
    match w.strand? f.strand, s.context? w.ctx with
    | some st, some c => if st.inHandler && !pier then c.saveAt (warpArea core w.id.slot + 0xb20) else 0
    | _, _ => 0
  else zext (w.enrol (n - 0x20))

/-- `rd.x` (Tables 12.5 and 13.1). -/
def execRdX (r : RWord) (s : State) : Out := readWord r s fun f l => s.special f r.reg.toNat l

/-- A write word takes its place among the block's writes; its token is applied at commit (R342). -/
def writeWord (k : WriteKind) (w : WWord) (s : State) : Out :=
  inBlock s fun f => (s.setFrame { f with writes := f.writes ++ [(k, w.reg, w.pair)] }).settle

/-- `wr.v` (Table 13.2). -/
def execWrV (w : WWord) (s : State) : Out := writeWord .v w s
/-- `wr.s` (Table 13.2). -/
def execWrS (w : WWord) (s : State) : Out := writeWord .s w s
/-- `wr.p` (Table 13.2). -/
def execWrP (w : WWord) (s : State) : Out := writeWord .p w s

/-- `ext`: its payload is kept for the next slot (R327, R347). -/
def execExt (payload : BitVec 25) (s : State) : Out :=
  inBlock s fun f => s.fired { f with exts := f.exts ++ [(f.slot + 1, payload)] }

/-- `hint.prio`: issue timing only (R348, Table 13.3). -/
def execHintPrio (_n : BitVec 2) (s : State) : Out := inBlock s fun f => s.fired f

/-- `hint.yield`: the warp counts as in yield back-off until a `BACKOFF_END`; 0 has no effect (R348). -/
def execHintYield (n : BitVec 12) (s : State) : Out :=
  inBlock s fun f =>
    let s := if n = 0 then s else s.onWarp f.warp fun w => { w with inBackoff := true, plBackoff := false }
    s.fired f

/-- `hint.lat`: issue timing only (R348). -/
def execHintLat (_n : BitVec 16) (s : State) : Out := inBlock s fun f => s.fired f

/-- The immediate of `movi`, widened by a preceding `ext` (R327, R344). -/
def immediate (e : Option (BitVec 25)) (imm : BitVec 15) : W64 :=
  match e with
  | some p => sext (p ++ imm)
  | none => sext imm

/-- `movi` (R344). -/
def execMovi (pred : Pred) (imm : BitVec 15) (t0 : Target) (s : State) : Out :=
  valueOp ⟨pred, .none, t0⟩ s fun f _ => some (immediate f.ext? imm)

/-- `fan` (R345). -/
def execFan (g : G) (s : State) : Out := valueOp g s fun f l => f.arg .a l

/-- `null`: null to both targets in every active lane, whatever its predicate (R346). -/
def execNull (g : G) (s : State) : Out := valueOp g s fun _ _ => none

/-- The successor of a branch of format B or J (R323). -/
def branchTarget {w : Nat} (f : Frame) (off : BitVec w) : W64 := f.pc + 16 * sext off

/-- `br` (R350). -/
def execBr (pred : Pred) (off : BitVec 23) (s : State) : Out :=
  inBlock s fun f => s.exitTo f (f.performing pred []) (fun _ => branchTarget f off) fun _ => .go (branchTarget f off)

/-- `call` (R351). -/
def execCall (pred : Pred) (off : BitVec 23) (s : State) : Out :=
  inBlock s fun f =>
    s.exitTo f (f.performing pred []) (fun _ => branchTarget f off) fun _ => .call (branchTarget f off) f.following

/-- `rjwait` (R356). -/
def execRjwait (pred : Pred) (j : BitVec 4) (off : BitVec 19) (s : State) : Out :=
  inBlock s fun f =>
    s.exitTo f (f.performing pred []) (fun _ => branchTarget f off) fun _ => .rejoin j.toNat (branchTarget f off)

/-- `brx` (R352). -/
def execBrx (pred : Pred) (s : State) : Out :=
  inBlock s fun f => s.exitTo f (f.performing pred [.a]) (fun l => f.val .a l) fun l => .go (f.val .a l)

/-- `ret`: the effect of `brx` (R352). -/
def execRet (pred : Pred) (s : State) : Out :=
  inBlock s fun f => s.exitTo f (f.performing pred [.a]) (fun l => f.val .a l) fun l => .go (f.val .a l)

/-- `exit` (R353). -/
def execExit (pred : Pred) (s : State) : Out :=
  inBlock s fun f => s.fired (f.exit (f.performing pred []) fun _ => .done)

/-- `trap`: its trap return is the following address (R354). -/
def execTrap (pred : Pred) (vector : BitVec 8) (s : State) : Out :=
  inBlock s fun f =>
    s.exitTo f (f.performing pred []) (fun _ => f.following) fun _ => .trap vector.toNat f.slot

/-- `rjenrol` (R355). -/
def execRjenrol (pred : Pred) (j : BitVec 4) (s : State) : Out :=
  deferOp s fun f => .rjenrol j.toNat (f.performingMask pred [])

/-- `rjstrike` (R355). -/
def execRjstrike (pred : Pred) (j : BitVec 4) (s : State) : Out :=
  deferOp s fun f => .rjstrike j.toNat (f.performingMask pred [])

end Sys2Proof.Machine
end

