-- ==== Sys2Proof/Machine/Lane.lean ====
section
/-!
DEFINITION. Cross-lane instructions (spec/14_isa_float_lane.md R380 to R386).
-/
namespace Sys2Proof.Machine

/-- An operand at 32 or 64 bits. -/
def sized (wide : Bool) (x : W64) : W64 := if wide then x else zext (lo32 x)

/-- The source index of `shfl` in lane `l` for control `n`, computed without wrapping (R381). -/
def shflSource (mode : ShflMode) (l n : Nat) : Option Nat :=
  match mode with
  | .idx => some n
  | .up => if n ≤ l then some (l - n) else none
  | .down => some (l + n)
  | .xor => some (l ^^^ n)

/-- `shfl` (R381). -/
def execShfl (g : G) (wide : Bool) (mode : ShflMode) (s : State) : Out :=
  valueOp g s fun f l =>
    match f.arg .b l, f.arg .c l with
    | some b, some c =>
      let from_ : Option W64 :=
        match shflSource mode l (lo32 b).toNat with
        | some m => if m < 32 && f.passes g.pred m then f.arg .a m else none
        | none => none
      some (sized wide (from_.getD c))
    | _, _ => none

/-- Sends the same value to both targets in each participant (R380). -/
def sendAll (g : G) (s : State) (need : List Opnd) (r : Frame → List Nat → Nat → W64) : Out :=
  inBlock s fun f =>
    let ps := f.performing g.pred need
    let tok := tokenOf fun l => if ps.contains l then some (r f ps l) else none
    s.fired ((f.send g.t0 tok).send g.t1 tok)

/-- `vote` (R382). -/
def execVote (g : G) (op : VoteOp) (s : State) : Out :=
  sendAll g s [.a] fun f ps _ =>
    let on := ps.filter fun l => (f.val .a l).getLsbD 0
    match op with
    | .every => if on.length = ps.length then 1 else 0
    | .some => if on = [] then 0 else 1
    | .same => if on = [] ∨ on.length = ps.length then 1 else 0
    | .mask => zext (maskOf on)
    | .count => BitVec.ofNat 64 on.length

/-- One combination of `redux` and `scan` (R383, R384): the value and the flags it raises. -/
def combine (op : ReduxOp) (t : IType) (a b : W64) : W64 × FlagSet :=
  match op with
  | .add => (t.wrap (t.int a + t.int b), 0)
  | .min => (t.wrap (min (t.int a) (t.int b)), 0)
  | .max => (t.wrap (max (t.int a) (t.int b)), 0)
  | .and => (BitVec.ofNat 64 (t.nat (a &&& b)), 0)
  | .or => (BitVec.ofNat 64 (t.nat (a ||| b)), 0)
  | .xor => (BitVec.ofNat 64 (t.nat (a ^^^ b)), 0)
  | .fadd => add32 a b

/-- A participant's operand at the operation's width. -/
def reduxArg (f : Frame) (op : ReduxOp) (t : IType) (l : Nat) : W64 :=
  if op = .fadd then zext (f.val32 .a l) else BitVec.ofNat 64 (t.nat (f.val .a l))

/-- The inclusive combinations of the participants, ascending: lane, value and flags so far (R384, R385). -/
def inclusive (f : Frame) (op : ReduxOp) (t : IType) (ps : List Nat) : List (Nat × W64 × FlagSet) :=
  ps.foldl (fun acc l =>
    match acc.getLast? with
    | none => [(l, reduxArg f op t l, 0)]
    | some (_, v, fl) =>
      let c := combine op t v (reduxArg f op t l)
      acc ++ [(l, c.1, fl ||| c.2)]) []

/-- `redux` (R383, R384). -/
def execRedux (g : G) (op : ReduxOp) (t : IType) (s : State) : Out :=
  inBlock s fun f =>
    let ps := f.performing g.pred [.a]
    match (inclusive f op t ps).getLast? with
    | none => s.fired f
    | some (_, v, fl) =>
      let tok := tokenOf fun l => if ps.contains l then some v else none
      s.fired (((f.raise (ps.map fun l => (l, fl))).send g.t0 tok).send g.t1 tok)

/-- The exclusive value of the lowest participant (R385). -/
def identity (op : ReduxOp) (t : IType) : W64 :=
  match op with
  | .add | .or | .xor => 0
  | .and => t.wrap (-1)
  | .min => t.wrap (if t.signed then 2 ^ (t.width - 1) - 1 else 2 ^ t.width - 1)
  | .max => t.wrap (if t.signed then -2 ^ (t.width - 1) else 0)
  | .fadd => 0x80000000

/-- `scan` (R385). -/
def execScan (g : G) (op : ReduxOp) (t : IType) (s : State) : Out :=
  inBlock s fun f =>
    let inc := inclusive f op t (f.performing g.pred [.a])
    let exc := (inc.map fun x => x.1).zip (identity op t :: inc.map fun x => x.2.1)
    let at_ := fun (vs : List (Nat × W64)) l => (vs.find? fun x => x.1 = l).map fun x => x.2
    let f' := f.raise (inc.map fun x => (x.1, x.2.2))
    s.fired ((f'.send g.t0 (tokenOf (at_ (inc.map fun x => (x.1, x.2.1))))).send g.t1 (tokenOf (at_ exc)))

/-- `match` (R386). -/
def execMatchLanes (g : G) (wide : Bool) (s : State) : Out :=
  sendAll g s [.a] fun f ps l =>
    zext (maskOf (ps.filter fun m => sized wide (f.val .a m) = sized wide (f.val .a l)))

/-- `elect` (R386). -/
def execElect (g : G) (s : State) : Out :=
  sendAll g s [] fun _ ps l => if ps.head? = some l then 1 else 0

/-- `actmask` (R386). -/
def execActmask (g : G) (s : State) : Out := sendAll g s [] fun f _ _ => zext f.active

end Sys2Proof.Machine
end

