-- ==== Sys2Proof/Machine/Phasers.lean ====
section
/-!
DEFINITION. Phasers and the waiting instructions (spec/09_memory_model.md R244 to R248;
spec/16_isa_sync_work_system.md R412 to R420).
-/
namespace Sys2Proof.Machine

/-- The phaser of an identity. -/
def State.phaser? (s : State) (id : Nat) : Option Phaser := s.phasers.find? fun p => p.id = id

/-- Puts a phaser back. -/
def State.setPhaser (s : State) (p : Phaser) : State := { s with phasers := update (fun x => x.id = p.id) (fun _ => p) s.phasers }

/-- The identity of a warp's phaser number; none where it is unallocated (R412). -/
def Warp.phaserId? (w : Warp) (n : W64) : Option Nat := if n.toNat < 64 then w.phasers[n.toNat]? else none

/-- Is no member yet to arrive and no byte pending (R246)? -/
def Phaser.due (p : Phaser) : Bool := p.members ≠ 0 && p.yet = 0 && p.pending = 0

/-- A phase completes where no member is yet to arrive and no byte is pending (R246). -/
def Phaser.complete (p : Phaser) : Phaser :=
  if p.due then { p with phase := p.phase + 1, yet := p.members - p.early, early := 0 } else p

/-- A phase that met its condition as the one before it ended completes in the next step, which leads from `s` to `t`
(R246). -/
def State.endPhases (s t : State) : State :=
  if s.phasers.any Phaser.due then
    ({ t with phasers := t.phasers.map fun p =>
        if s.phasers.any fun q => q.id = p.id && q.phase = p.phase && q.due then p.complete else p } : State).wakeWaiting
  else t

/-- One arrival for phase `q` (R245); none is a *barrier* fault. -/
def Phaser.arrive (p : Phaser) (signalOnly : Bool) (q : BitVec 16) (bytes : Option (BitVec 48)) : Option Phaser :=
  if q = p.phase then
    if p.yet = 0 then none
    else some ({ p with yet := p.yet - 1, pending := p.pending + bytes.getD 0 } : Phaser).complete
  else if signalOnly && decide (q = p.phase + 1) && bytes.isNone && decide (p.early < 255) && decide (p.early < p.members) then
    some { p with early := p.early + 1 }
  else none

/-- `bar.reg` for phase `q` (R413). -/
def Phaser.register (p : Phaser) (q : BitVec 16) : Option Phaser :=
  if 65535 ≤ p.members then none
  else if q = p.phase then some { p with members := p.members + 1, yet := p.yet + 1 }
  else if q = p.phase + 1 then some { p with members := p.members + 1 }
  else none

/-- `bar.drop` for phase `q` (R413). -/
def Phaser.drop (p : Phaser) (q : BitVec 16) : Option Phaser :=
  if p.members = 0 ∨ p.members - 1 < p.early then none
  else if q = p.phase then
    if p.yet = 0 then none else some ({ p with members := p.members - 1, yet := p.yet - 1 } : Phaser).complete
  else if q = p.phase + 1 then some { p with members := p.members - 1 }
  else none

/-- Adds transaction bytes to the current phase (R245, R415); a copy or a call's return subtracts them. -/
def Phaser.expect (p : Phaser) (bytes : BitVec 48) : Phaser := ({ p with pending := p.pending + bytes } : Phaser).complete

/-- A copy or a near-memory return reduces a phaser's byte count (R245, R267). -/
def State.reducePhaser (s : State) (id : Option Nat) (bytes : Nat) : State :=
  match id.bind s.phaser? with
  | some p => s.setPhaser (p.expect (0 - BitVec.ofNat 48 bytes))
  | none => s

/-- The lanes of a phaser instruction with their phaser identities; an unallocated phaser is a *barrier* fault of its
lane (R414 to R416). -/
def phaserLanes (w : Warp) (f : Frame) (lanes : List Nat) : Frame × List (Nat × Nat) :=
  lanes.foldl (fun x l =>
    match w.phaserId? (f.val .a l) with
    | some id => (x.1, x.2 ++ [(l, id)])
    | none => (x.1.addFault .barrier l 0, x.2)) (f, [])

/-- Faults the lanes whose declared bytes are 2^47 or more (R414, R415). -/
def Frame.byteLimit (f : Frame) (o : Opnd) (lanes : List Nat) : Frame :=
  lanes.foldl (fun f l => if 2 ^ 47 ≤ (f.val o l).toNat % 2 ^ 48 then f.addFault .barrier l 0 else f) f

/-- A phaser instruction that leaves its action to the commit. -/
def phaserOp (pred : Pred) (need : List Opnd) (limit : Option Opnd) (s : State)
    (release : Option Scope) (d : Frame → List (Nat × Nat) → Deferred) : Out :=
  inBlock s fun f =>
    let lanes := f.performing pred need
    let f := match release with
      | some sc => s.reportLost f sc lanes
      | none => f
    let held : Bool := match release with
      | some sc => s.unsent f sc lanes
      | none => false
    let r := phaserLanes (s.frameWarp f) f lanes
    let f := match limit with
      | some o => r.1.byteLimit o (r.2.map fun x => x.1)
      | none => r.1
    if held then s.waitHere
    else if f.hasFault then s.faulted f
    else s.defer f (d f r.2)

/-- What a `bar.arrive` does to its phaser: the phase, and the declared bytes (R245, R414). -/
def arriveAct (signalOnly : Bool) (x : W32 × W64) (p : Phaser) : Option Phaser :=
  let bytes : Option (BitVec 48) := if x.2.getLsbD 63 then none else some (x.2.extractLsb' 0 48)
  p.arrive signalOnly (x.1.extractLsb' 0 16) bytes

/-- An arrival that waited for its block's packets acts once they have completed (R46); a lane whose phaser no longer takes
it counts as an error of the context (log 57). -/
def State.arriveLate (s : State) (a : LateArrival) : State :=
  foldState s a.lanes fun s x =>
    match (s.phaser? x.2.1).bind (arriveAct a.signalOnly x.2.2) with
    | some p => s.setPhaser p
    | none => s.countError a.ctx

/-- The first arrival that waits for no packet any more. -/
def State.readyArrival (s : State) : Option LateArrival :=
  s.lateArrivals.find? fun a => !s.owesPackets a.serial (a.lanes.map fun x => x.1)

/-- That arrival acts (R46). -/
def State.nextArrival (s : State) : State :=
  match s.readyArrival with
  | none => s
  | some a => (({ s with lateArrivals := s.lateArrivals.erase a } : State).arriveLate a).wakeWaiting

/-- `bar.arrive` (R414). Bytes that are not declared are marked by bit 63. -/
def execBarArrive (pred : Pred) (scope : Scope) (rel bytes so : Bool) (s : State) : Out :=
  phaserOp pred (if bytes then [.a, .b, .c] else [.a, .b]) (if bytes then some .c else none) s
    (if rel then some scope else none) fun f lanes =>
    .arrive so rel scope (lanes.map fun x =>
      (x.1, x.2, f.val32 .b x.1, if bytes then zext ((f.val .c x.1).extractLsb' 0 48) else 1 <<< 63))

/-- `bar.reg` (R413). -/
def execBarReg (pred : Pred) (s : State) : Out :=
  phaserOp pred [.a, .b] none s none fun f lanes => .barReg (lanes.map fun x => (x.1, x.2, f.val32 .b x.1))

/-- `bar.drop` (R413). -/
def execBarDrop (pred : Pred) (s : State) : Out :=
  phaserOp pred [.a, .b] none s none fun f lanes => .barDrop (lanes.map fun x => (x.1, x.2, f.val32 .b x.1))

/-- `bar.expect` (R415). -/
def execBarExpect (pred : Pred) (s : State) : Out :=
  phaserOp pred [.a, .b] (some .b) s none fun f lanes =>
    .barExpect (lanes.map fun x => (x.1, x.2, zext ((f.val .b x.1).extractLsb' 0 48)))

/-- Has the phase that a wait names ended (R247)? -/
def waitOver (par : Bool) (current : BitVec 16) (b : W64) : Bool :=
  if par then current.getLsbD 0 != b.getLsbD 0
  else
    let d := (current - b.extractLsb' 0 16).toNat
    decide (1 ≤ d) && decide (d ≤ 2 ^ 15)

/-- `bar.wait` (R416): it fires in each performing lane once that lane's wait is over, as an acquire at its scope, and the slot
has fired once it has in all of them. -/
def execBarWait (g : G) (scope : Scope) (par : Bool) (s : State) : Out :=
  inBlock s fun f =>
    let r := phaserLanes (s.frameWarp f) f (f.performing g.pred [.a, .b])
    let phase := fun (id : Nat) => ((s.phaser? id).map fun p => p.phase).getD 0
    if r.1.hasFault then s.faulted r.1
    else
      let before := fun (l : Nat) => f.returned.find? fun x => x.1 = f.slot && x.2.1 = l
      let now := r.2.filter fun x => (before x.1).isNone && waitOver par (phase x.2) (f.val .b x.1)
      let s := if now = [] then s else s.acquire f.warp (s.frameWarp f).ctx (maskOf (now.map Prod.fst)) scope
      let f := { f with returned := f.returned ++ now.map fun x => (f.slot, x.1, phase x.2) }
      let sent := fun (l : Nat) => f.returned.find? fun x => x.1 = f.slot && x.2.1 = l
      if r.2.all fun x => (sent x.1).isSome then
        let tok := tokenOf fun l => (sent l).map fun x => zext x.2.2
        s.fired ((f.send g.t0 tok).send g.t1 tok)
      else (s.setFrame f).waitHere

/-- The operands of an instruction that takes them from its lowest performing lane (R411). -/
def fromLowest (pred : Pred) (need : List Opnd) (s : State) (k : Frame → Nat → Mask → State) : Out :=
  inBlock s fun f =>
    match f.performing pred need with
    | [] => s.fired f
    | l :: rest => k f l (maskOf (l :: rest))

/-- Is a place in an on-core window or in a host page? -/
def Place.uncacheable : Place → Bool
  | .hbm .. => false
  | _ => true

/-- `plwait` (R162, R417): checked when it fires. -/
def execPlwait (pred : Pred) (s : State) : Out :=
  fromLowest pred [.a] s fun f l m =>
    let a := f.val .a l
    if windowOf a.toNat ≠ .global then s.faulted (f.addFaults .address m a)
    else match s.access (s.who f) .read a 4 with
    | .wait => s.waitHere
    | .ok ps =>
      match ps with
      | .hbm _ _ :: _ =>
        if ps.any Place.uncacheable then s.faulted (f.addFaults .address m a) else s.defer f (.plwait a ps m)
      | _ => s.faulted (f.addFaults .address m a)
    | bad => s.faulted (f.metAll m a bad)

/-- `yield` (R418). -/
def execYield (pred : Pred) (s : State) : Out :=
  fromLowest pred [.a] s fun f l _ => s.defer f (.yield (f.val32 .a l).toNat)

/-- `sleep` (R418). -/
def execSleep (pred : Pred) (s : State) : Out :=
  fromLowest pred [.a] s fun f l _ => s.defer f (.sleep (Nat.min (f.val32 .a l).toNat (2 ^ 24 - 1)))

/-- `rwrite` (R419): a reserved bit of the descriptor faults when it fires. -/
def execRwrite (pred : Pred) (s : State) : Out :=
  inBlock s fun f =>
    match f.performing pred [.a, .b] with
    | [] => s.fired f
    | l :: rest =>
      let d := f.val32 .b l
      if d.extractLsb' 6 2 ≠ 0 ∨ d.extractLsb' 10 6 ≠ 0 ∨ d.extractLsb' 26 6 ≠ 0 then
        s.faulted ((l :: rest).foldl (fun f l => f.addFault .remote l 0) f)
      else s.defer f (.rwrite d ((l :: rest).map fun l => (l, f.val32 .a l)))

/-- `rwwait` (R420). -/
def execRwwait (pred : Pred) (k : BitVec 2) (s : State) : Out :=
  fromLowest pred [.a] s fun f l _ => s.defer f (.rwwait k.toNat (f.val32 .a l))

end Sys2Proof.Machine
end

