-- ==== Sys2Proof/Machine/Copy.lean ====
section
/-!
DEFINITION. Asynchronous copies and key-value appends (spec/15_isa_memory.md R403 to R410; spec/09_memory_model.md R240
to R243; spec/10_near_memory.md R290).
-/
namespace Sys2Proof.Machine

/-- Length of a copy (Table 15.7). -/
def ctlLen (c : W64) : Nat := (c.extractLsb' 0 32).toNat
/-- `PHASER` of a copy control word, where `PHV` is set. -/
def ctlPhaser (c : W64) : Option W64 := if c.getLsbD 38 then some (zext (c.extractLsb' 32 6)) else none

/-- Checks the first and last byte of a range (R403): window crossing, and then each byte under R100 to R103. -/
def State.checkEnds (s : State) (who : Issuer) (kind : AKind) (a : W64) (n : Nat) : Res Unit :=
  let last := a + BitVec.ofNat 64 (n - 1)
  if windowOf a.toNat ≠ windowOf last.toNat then .bad .windowCrossing a
  else if 2 ^ 64 < a.toNat + n then .bad .address a
  else (s.access who kind a 1).bind fun _ =>
    match s.access who kind last 1 with
    | .ok _ => .ok ()
    | .bad c x => .bad c (if x = 0 then last else x)
    | .absent p => .absent p
    | .wait => .wait

/-- Does an address lie in the register part of the scratch window (Table 8.2)? -/
def inRegisters (a : W64) : Bool := windowOf a.toNat == .scratch && decide (scratchBase + 0x400000 ≤ a.toNat)

/-- The checks of `cpy` in one lane, in R403's order. -/
def State.checkCopy (s : State) (f : Frame) (dst src ctl : W64) : Res Unit :=
  let who := s.who f
  let n := ctlLen ctl
  if ctl.extractLsb' 39 25 ≠ 0 ∨ n % 16 ≠ 0 ∨ n < 16 ∨ 2 ^ 24 < n then .bad .address 0
  else if dst.toNat % 16 ≠ 0 then .bad .alignment dst
  else if src.toNat % 16 ≠ 0 then .bad .alignment src
  else (s.checkEnds who .write dst n).bind fun _ => (s.checkEnds who .read src n).bind fun _ =>
    if inRegisters dst then .bad .address dst
    else match ctlPhaser ctl with
      | none => .ok ()
      | some p => if ((s.frameWarp f).phaserId? p).isSome then .ok () else .bad .barrier 0

/-- `cpy` (R403). -/
def execCpy (pred : Pred) (s : State) : Out :=
  inBlock s fun f =>
    let lanes := f.performing pred [.a, .b, .c]
    (overLanes s f lanes fun s f l =>
      match s.checkCopy f (f.val .a l) (f.val .b l) (f.val .c l) with
      | .wait => ⟨s, f, true⟩
      | .ok _ => ⟨s, f, false⟩
      | bad => ⟨s, f.met l 0 bad, false⟩).finish s fun s f =>
        s.defer f (.cpy (lanes.map fun l => (l, f.val .a l, f.val .b l, f.val .c l)))

/-- Fields of a gather descriptor (Table 15.10). -/
def gList (d : W512) : W64 := d.extractLsb' 0 64
/-- `PAGES`. -/
def gPages (d : W512) : Nat := (d.extractLsb' 64 32).toNat
/-- `DST`. -/
def gDst (d : W512) : W64 := d.extractLsb' 128 64
/-- `ROWB`. -/
def gRowB (d : W512) : Nat := (d.extractLsb' 192 16).toNat
/-- `ROWS`. -/
def gRows (d : W512) : Nat := (d.extractLsb' 208 16).toNat
/-- The phaser, where it is used. -/
def gPhaser (d : W512) : Option W64 := if d.getLsbD 232 then some (BitVec.setWidth 64 (d.extractLsb' 224 6)) else none
/-- `STATUS`. -/
def gStatus (d : W512) : W64 := d.extractLsb' 256 64
/-- `QUEUE`. -/
def gQueue (d : W512) : Nat := (d.extractLsb' 320 32).toNat
/-- `TEMPLATE`. -/
def gTemplate (d : W512) : W64 := d.extractLsb' 384 64
/-- Row pitch RP (R410). -/
def gPitch (d : W512) : Nat := 128 * ((gRowB d + 124 + 127) / 128)
/-- Slot size SS (R410). -/
def gSlot (d : W512) : Nat := 64 * gPitch d

/-- The descriptor's reserved bytes and limits hold (R409, Table 15.10). -/
def gatherOk (d : W512) : Bool :=
  d.extractLsb' 96 32 == (0 : BitVec 32) && d.extractLsb' 230 2 == (0 : BitVec 2) && d.extractLsb' 233 23 == (0 : BitVec 23) &&
  d.extractLsb' 352 32 == (0 : BitVec 32) && d.extractLsb' 448 64 == (0 : BitVec 64) &&
  (gList d).toNat % 8 == 0 && (gDst d).toNat % 128 == 0 && gRowB d % 4 == 0 && decide (4 ≤ gRowB d) && decide (gRowB d ≤ 256) &&
  decide (1 ≤ gRows d) && decide (gRows d ≤ 64) && (gStatus d).toNat % 8 == 0 && (gTemplate d).toNat % 64 == 0 &&
  windowOf (gDst d).toNat == .scratch && !inRegisters (gDst d)

/-- Checks and loads bytes for a lane of an instruction without an LSID. -/
def State.loadNow (s : State) (f : Frame) (at_ : LoadAt) (lane : Nat) (a : W64) (n : Nat) : State × Res (List Byte) :=
  match s.access (s.who f) .read a n with
  | .ok ps =>
    let r := s.loadBytes (s.who f) at_ f.shape.iso a.toNat ps
    let read := foldState r.1 ps.zipIdx fun s x => s.hasRead (s.who f) at_ lane (a.toNat + x.2) x.1 r.1.moments
    match r.2 with
    | some bs => (read, .ok bs)
    | none => (read, .bad .poison a)
  | .bad c x => (s, .bad c x)
  | .absent p => (s, .absent p)
  | .wait => (s, .wait)

/-- The checks of `cpyg` after its descriptor has been read (R409). -/
def State.checkGather (s : State) (f : Frame) (d : W512) : Res Unit :=
  let who := s.who f
  if !gatherOk d then .bad .address 0
  else (s.checkEnds who .write (gDst d) (32 * gSlot d + 2048)).bind fun _ =>
    (s.access who .write (gStatus d) 8).bind fun _ =>
      match gPhaser d with
      | none => .ok ()
      | some p => if ((s.frameWarp f).phaserId? p).isSome then .ok () else .bad .barrier 0

/-- `cpyg` (R409): the bounds status goes to both targets when it fires. -/
def execCpyg (g : G) (s : State) : Out :=
  inBlock s fun f =>
    let lanes := f.performing g.pred [.a, .b]
    match lanes with
    | [] => s.fired f
    | l :: _ =>
      let a := f.val .b l
      if a.toNat % 64 ≠ 0 then s.faulted (f.addFaults .alignment (maskOf lanes) a)
      else
        let f := match s.access (s.who f) .read a 64 with | .ok ps => s.noteLoad f ps | _ => f
        let r := s.loadNow f .l1 l a 64
        let d : W512 := match r.2 with | .ok bs => BitVec.ofNat 512 (leNat bs) | _ => 0
        match r.2.bind fun _ => r.1.checkGather f d with
        | .wait => s.waitHere
        | .ok _ =>
          let tok := tokenOf fun m => if lanes.contains m then
            some (if (f.val32 .a m).toNat < gPages d then 1 else 0) else none
          r.1.defer ((f.send g.t0 tok).send g.t1 tok) (.cpyg d (lanes.map fun m => (m, f.val32 .a m)))
        | bad => r.1.faulted (f.metAll (maskOf lanes) a bad)

/-- `cpseal` (R406). -/
def execCpseal (pred : Pred) (s : State) : Out := deferOp s fun f => .cpseal (f.performingMask pred [])

/-- `cpwait` (R242, R405, R406). -/
def execCpwait (pred : Pred) (s : State) : Out :=
  inBlock s fun f =>
    let lanes := f.performing pred [.a]
    let mine := fun l => s.copies.filter fun c => c.who.serial = s.serialOf f.warp && c.coveredBy l (f.val32 .a l)
    if lanes.any fun l => (mine l).any fun c => c.fault.isNone then s.waitHere
    else
      let f := lanes.foldl (fun f l =>
        match (mine l).head?.bind fun c => c.fault with
        | some i => f.addFault i.cause l i.address
        | none => f) f
      let waited := fun (x : Finished) => match x.copy with
        | some (l, b) => lanes.contains l && decide ((f.val32 .a l - b).toNat < 2 ^ 31)
        | none => false
      if f.hasFault then s.faulted f else (s.waitedFor f.warp (maskOf lanes) waited).fired f

/-- Copies of a core's queue that still run (R404). -/
def State.runningCopies (s : State) (core : Nat) : List Copy :=
  s.copies.filter fun c => c.who.warp.core = core && c.fault.isNone

/-- A gather copy that has not begun. -/
def noRun : GatherRun := ⟨[], [], 0, 0, []⟩

/-- `cpy` at commit (R403): one copy for each lane, ascending. -/
def State.commitCpy (s : State) (w : Warp) (lanes : List (Nat × W64 × W64 × W64)) : State :=
  let start := fun (x : Nat × W64 × W64 × W64) =>
    let m := maskOf [x.1]
    let n := ctlLen x.2.2.2
    (⟨w.issuer, m, [], m, .flat x.2.1 x.2.2.1 n, (ctlPhaser x.2.2.2).bind w.phaserId?, n, [], noRun, 32 * (s.nextWrite + x.1), none⟩ : Copy)
  { s with copies := s.copies ++ lanes.map start, nextWrite := s.nextWrite + 32 }

/-- `cpyg` at commit (R409). -/
def State.commitCpyg (s : State) (w : Warp) (d : W512) (lanes : List (Nat × W32)) : State :=
  let m := maskOf (lanes.map fun x => x.1)
  let n := lanes.length * (64 + gRows d * gRowB d)
  let c : Copy := ⟨w.issuer, m, [], m, .gather d lanes, (gPhaser d).bind w.phaserId?, n, [], noRun, 32 * s.nextWrite, none⟩
  { s with copies := s.copies ++ [c], nextWrite := s.nextWrite + 1 }

/-- `cpseal` at commit (R241). -/
def State.commitCpseal (s : State) (id : WarpId) (m : Mask) : State :=
  match s.warp? id with
  | none => s
  | some w =>
    let sealed := fun (c : Copy) =>
      if c.who.serial = w.serial then
        let now := lanesOf (c.unsealed &&& m)
        { c with batch := c.batch ++ now.map fun l => (l, sget 0 w.cpbatch l), unsealed := c.unsealed &&& ~~~m }
      else c
    let bump := fun (w : Warp) => { w with cpbatch := (lanesOf m).foldl (fun t l => sset 0 t l (sget 0 t l + 1)) w.cpbatch }
    ({ s with copies := s.copies.map sealed } : State).onWarp id bump

/-- How a copy's run ends. -/
inductive RunEnd where
  | done
  | fault (c : Cause) (a : W64)
  | waits (page : Option Nat)
  deriving DecidableEq, Repr

/-- Writes the bytes of an element at an address, as a copy or a matrix command does (R404). -/
def State.writeElement (s : State) (who : Issuer) (group : Option Nat) (dst : W64) (bs : List Byte) : State × Res Unit :=
  match s.access who .write dst bs.length with
  | .ok qs => (s.writeNow who qs bs { group := group }, .ok ())
  | .bad c x => (s, .bad c (if x = 0 then dst else x))
  | .absent p => (s, .absent p)
  | .wait => (s, .wait)

/-- Moves one element: read as by `ldb`, and written at the same kind of place (R404). -/
def State.moveElement (s : State) (who : Issuer) (group : Nat) (dst src : W64) (n : Nat) : State × Res Unit :=
  match s.access who .read src n with
  | .ok ps =>
    match s.access who .write dst n with
    | .ok _ =>
      let r := s.loadBytes who .l2 false src.toNat ps
      match r.2 with
      | some bs => r.1.writeElement who (some group) dst bs
      | none => (r.1, .bad .poison src)
    | .bad c x => (s, .bad c (if x = 0 then dst else x))
    | .absent p => (s, .absent p)
    | .wait => (s, .wait)
  | .bad c x => (s, .bad c (if x = 0 then src else x))
  | .absent p => (s, .absent p)
  | .wait => (s, .wait)

/-- Runs steps until one does not pass. -/
def runUntil {α : Type} (s : State) (l : List α) (k : State → α → State × Res Unit) : State × Res Unit :=
  l.foldl (fun acc x => match acc.2 with | .ok _ => k acc.1 x | r => (acc.1, r)) (s, .ok ())

/-- How a run's answer ends it. -/
def Res.ends : Res Unit → RunEnd
  | .ok _ => .done
  | .bad c a => .fault c a
  | .absent p => .waits (some p)
  | .wait => .waits none

/-- The elements of a flat copy that have not been moved: 8 bytes each, the most that R230 makes one access. -/
def leftToMove (n : Nat) (moved : List Nat) : List Nat := (List.range (n / 8)).filter fun i => !moved.contains i

/-- Runs what is left of a flat copy, element by element (R404): nothing is moved while a page of it is absent. -/
def State.runFlat (s : State) (c : Copy) (dst src : W64) (n : Nat) : State × RunEnd :=
  let elems := (leftToMove n c.moved).map fun i => BitVec.ofNat 64 (8 * i)
  let look := runUntil s elems fun s o =>
    (s, (s.access c.who .read (src + o) 8).bind fun _ => (s.access c.who .write (dst + o) 8).bind fun _ => .ok ())
  match look.2 with
  | .absent p => (s, .waits (some p))
  | .wait => (s, .waits none)
  | _ =>
    let r := runUntil s elems fun s o => s.moveElement c.who c.group (dst + o) (src + o) 8
    (r.1, r.2.ends)

/-- The sources and destinations of one page slot of a gather copy: header, then rows (R410). -/
def gatherPieces (d : W512) (k : Nat) (page : W64) : List (W64 × W64 × Nat) :=
  (gDst d + BitVec.ofNat 64 (32 * gSlot d + 64 * k), page, 64) ::
  (List.range (gRows d)).map fun i =>
    (gDst d + BitVec.ofNat 64 (k * gSlot d + i * gPitch d + 4 * ((i + 4 * k) % 32)),
     page + BitVec.ofNat 64 (0x200 + i * gRowB d), gRowB d)

/-- Cuts bytes for an address into elements of `n` bytes. -/
def elementsOf (n : Nat) (dst : W64) (bs : List Byte) : List (W64 × List Byte) :=
  (List.range ((bs.length + n - 1) / n)).map fun i => (dst + BitVec.ofNat 64 (n * i), (bs.drop (n * i)).take n)

/-- A lane's page address, read from `LIST`; none out of bounds. -/
def State.gatherPage (s : State) (who : Issuer) (d : W512) (idx : W32) : Res (Option W64) :=
  if gPages d ≤ idx.toNat then .ok none
  else (s.readChecked who (gList d + BitVec.ofNat 64 (8 * idx.toNat)) 8).bind fun bs => .ok (some (BitVec.ofNat 64 (leNat bs)))

/-- The checks of what a lane reads of its page: for each piece its destination, its address and its places. -/
def State.slotPlaces (s : State) (who : Issuer) (pieces : List (W64 × W64 × Nat)) : Res (List (W64 × W64 × List Place)) :=
  pieces.foldl (fun acc q => acc.bind fun qs =>
    match s.access who .read q.2.1 q.2.2 with
    | .ok ps => .ok (qs ++ [(q.1, q.2.1, ps)])
    | .bad c x => .bad c (if x = 0 then q.2.1 else x)
    | .absent p => .absent p
    | .wait => .wait) (.ok [])

/-- Is the byte in a poisoned line of a key-value page (R290)? -/
def State.kvPoisoned (s : State) : Place → Bool
  | .hbm phys attr => attr.kv && s.isPoisoned phys
  | _ => false

/-- Reads the page of one lane of a gather copy and leaves its elements to be written (R410). All of the page is read in one
step, after every write of its lines has arrived on the die, so that no append of R408 is seen in part. -/
def State.readSlot (s : State) (who : Issuer) (d : W512) (g : GatherRun) (x : Nat × W32) : State × Res GatherRun :=
  let g := { g with slots := x.1 :: g.slots }
  let blank := ((gatherPieces d x.1 0).map fun q => elementsOf 4 q.1 (List.replicate q.2.2 0)).flatten
  match s.gatherPage who d x.2 with
  | .ok none => (s, .ok { g with staged := g.staged ++ blank, bounds := g.bounds ||| maskOf [x.1] })
  | .ok (some page) =>
    match s.slotPlaces who (gatherPieces d x.1 page) with
    | .ok qs =>
      if qs.any fun q => q.2.2.any s.kvPoisoned then
        (s, .ok { g with staged := g.staged ++ blank, retry := g.retry ||| maskOf [x.1], regen := g.regen ++ [page] })
      else
        let lines := linesAt (qs.map fun q => q.2.2).flatten
        let s := s.arriveOn (coreDie who.warp.core) fun u => lines.contains (lineOf u.phys)
        let r := qs.foldl (fun (acc : State × Res (List (W64 × List Byte))) q =>
          let b := acc.1.loadBytes who .l2 false q.2.1.toNat q.2.2
          (b.1, acc.2.bind fun es => match b.2 with
            | some bs => .ok (es ++ elementsOf 4 q.1 bs)
            | none => .bad .poison q.2.1)) (s, .ok [])
        (r.1, r.2.bind fun es => .ok { g with staged := g.staged ++ es })
    | .bad c a => (s, .bad c a)
    | .absent p => (s, .absent p)
    | .wait => (s, .wait)
  | .bad c a => (s, .bad c a)
  | .absent p => (s, .absent p)
  | .wait => (s, .wait)

/-- The lanes of a gather copy whose page has not been read yet. -/
def GatherRun.unread (g : GatherRun) (lanes : List (Nat × W32)) : List (Nat × W32) := lanes.filter fun x => !g.slots.contains x.1

/-- Reads the pages that are left, each lane whatever the others wait for, up to a fault. -/
def State.readSlots (s : State) (who : Issuer) (d : W512) (g : GatherRun) (lanes : List (Nat × W32)) : State × GatherRun × Res Unit :=
  (g.unread lanes).foldl (fun (acc : State × GatherRun × Res Unit) x =>
    match acc.2.2 with
    | .bad .. => acc
    | before => match acc.1.readSlot who d acc.2.1 x with
      | (s', .ok g') => (s', g', before)
      | (s', .bad c a) => (s', acc.2.1, .bad c a)
      | (s', .absent p) => (s', acc.2.1, .absent p)
      | (s', .wait) => (s', acc.2.1, match before with | .ok _ => .wait | r => r)) (s, g, .ok ())

/-- The regeneration record of a page (R290): the template with `ARG` replaced. -/
def regeneration (template : W512) (page : W64) : W512 := (template.setWidth 448).setWidth 512 ||| (page.setWidth 512 <<< 448)

/-- The end of a gather copy (R410): the status word, then the regeneration records (R290). -/
def State.endGather (s : State) (c : Copy) (d : W512) (g : GatherRun) : State × RunEnd :=
  let who := c.who
  let w := s.writeElement who (some c.group) (gStatus d) (leBytes 8 (g.bounds ++ g.retry).toNat)
  match w.2, dedup g.regen with
  | .ok _, [] => (w.1, .done)
  | .ok _, pages =>
    match w.1.readChecked who (gTemplate d) 64, (w.1.queue? (gQueue d)).filter fun q => q.ctx = who.ctx with
    | .ok bs, some _ =>
      let s := foldState (w.1.releaseNow who.warp .pkg) pages fun s p =>
        match s.queue? (gQueue d) with
        | some q => (s.enqueueWake q (regeneration (BitVec.ofNat 512 (leNat bs)) p)).1
        | none => s
      (s, .done)
    | .ok _, none => (w.1, .fault .queue 0)
    | .bad cause a, _ => (w.1, .fault cause a)
    | .absent p, _ => (w.1, .waits (some p))
    | .wait, _ => (w.1, .waits none)
  | r, _ => (w.1, r.ends)

/-- Runs what is left of a gather copy (R410): the pages, the element writes, and its end. -/
def State.runGather (s : State) (c : Copy) (d : W512) (lanes : List (Nat × W32)) : State × RunEnd :=
  let r := s.readSlots c.who d c.run lanes
  match r.2.2 with
  | .ok _ =>
    let w := runUntil r.1 r.2.1.staged fun s e => s.writeElement c.who (some c.group) e.1 e.2
    match w.2 with
    | .ok _ => w.1.endGather c d r.2.1
    | x => (w.1, x.ends)
  | x => (r.1, x.ends)

/-- Runs a copy to its end. -/
def State.runCopy (s : State) (c : Copy) : State × RunEnd :=
  match c.kind with
  | .flat dst src n => s.runFlat c dst src n
  | .gather d lanes => s.runGather c d lanes

/-- What a copy has written from write number `n` on waits for the `cpwait` of its lanes' batches; an unsealed copy is of the
batch that its lane seals next (R241, R243). -/
def State.copyWrote (s : State) (c : Copy) (n : Nat) : State :=
  let next := fun (l : Nat) => ((s.warp? c.who.warp).map fun w => sget 0 w.cpbatch l).getD 0
  let batch := fun (l : Nat) => ((c.batch.find? fun b => b.1 = l).map fun b => b.2).getD (next l)
  s.finishedBy c.who ((lanesOf c.lanes).map fun l => (some (l, batch l), [])) n

/-- The copy of a core that runs next: any one of its queue, in an order that no rule gives (R240; log 2). -/
def State.nextCopy (s : State) (core : Nat) : Option Copy :=
  choose (Config.pick s.stepNo) (s.runningCopies core)

/-- Replaces or removes the first copy equal to `c`. -/
def replaceCopy (c : Copy) (by_ : Option Copy) : List Copy → List Copy
  | [] => []
  | x :: xs => if x = c then (match by_ with | some y => y :: xs | none => xs) else x :: replaceCopy c by_ xs

/-- A copy, an epilogue or a refused translation waits on the page request of a page (R103, R404): one is made where none is
outstanding, unless the function has 4,096 outstanding already (R32). -/
def State.requestPage (s : State) (ctx page : Nat) : State :=
  let this := fun (r : PageRequest) => r.ctx = ctx && r.page = page
  let vf := (s.context? ctx).map fun c => c.vf
  let mine := s.pageRequests.filter fun r => !r.answered && ((s.context? r.ctx).map fun c => c.vf) = vf
  if s.pageRequests.any (fun r => this r && !r.answered) || decide (4096 ≤ mine.length) then s
  else if s.pageRequests.any this then { s with pageRequests := update this (fun r => { r with answered := false }) s.pageRequests }
  else { s with pageRequests := s.pageRequests ++ [⟨ctx, page, 0, false, []⟩] }

/-- One step of a running copy, in an order that no rule gives (R240; log 2): an element of a flat copy is moved, or the page
of a lane of a gather copy is read, or one of its elements is written. A step that meets an absent page asks for it. -/
def State.moveOne (s : State) (core : Nat) : State :=
  match s.nextCopy core with
  | none => s
  | some c =>
    let put := fun (t : State) (x : Copy) => (({ t with copies := replaceCopy c (some x) t.copies } : State).copyWrote c s.nextWrite).wakeWaiting
    let pick := Config.pick (s.stepNo + 1)
    match c.kind with
    | .flat dst src n =>
      match choose pick (leftToMove n c.moved) with
      | none => s
      | some i =>
        match s.moveElement c.who c.group (dst + BitVec.ofNat 64 (8 * i)) (src + BitVec.ofNat 64 (8 * i)) 8 with
        | (t, .ok _) => put t { c with moved := i :: c.moved }
        | (_, .absent p) => s.requestPage c.who.ctx p
        | _ => s
    | .gather d lanes =>
      let unread := c.run.unread lanes
      match choose pick (List.range (unread.length + c.run.staged.length)) with
      | none => s
      | some i =>
        match unread[i]?, c.run.staged[i - unread.length]? with
        | some x, _ =>
          match s.readSlot c.who d c.run x with
          | (t, .ok g) => put t { c with run := g }
          | (_, .absent p) => s.requestPage c.who.ctx p
          | _ => s
        | none, some e =>
          match s.writeElement c.who (some c.group) e.1 e.2 with
          | (t, .ok _) => put t { c with run := { c.run with staged := c.run.staged.erase e } }
          | (_, .absent p) => s.requestPage c.who.ctx p
          | _ => s
        | none, none => s

/-- A copy stops with a fault (R405). When its thread has ended without a wait, that is a context fault (R405). -/
def State.stopCopy (s : State) (c : Copy) (cause : Cause) (a : W64) : State :=
  let i : FaultInfo := ⟨cause, 0xff, c.lanes, a, 0xff, 0, false, none⟩
  let alive := ((s.owner? c.who).map fun w => w.living &&& c.lanes).getD 0
  let s := s.dropRefusals c.who.ctx fun d => d = coreDie c.who.warp.core
  if alive = 0 then
    let s := { s with copies := replaceCopy c none s.copies }
    s.faultContext c.who.ctx c.who.warp 0 c.lanes cause
      (recordBytes 0 a c.lanes 0 cause.code 0xff 0xff false false c.who.warp 0 (s.refTime c.who.ctx))
  else { s with copies := replaceCopy c (some { c with fault := some i }) s.copies }

/-- `COPY_COMPLETE`: the last element write of a copy is performed, and its phaser is reduced (R404). -/
def execCopyComplete (core : Nat) (s : State) : Out :=
  .next (match s.nextCopy core with
    | none => s
    | some c =>
      match s.runCopy c with
      | (s', .done) =>
        ((({ s' with copies := replaceCopy c none s'.copies } : State).copyWrote c s.nextWrite).reducePhaser c.phaser c.bytes).wakeWaiting
      | (_, .waits (some page)) => s.requestPage c.who.ctx page
      | _ => s)

/-- `COPY_FAULT`: a copy meets a fault and stops; what it has written stays written (R405). -/
def execCopyFault (core : Nat) (s : State) : Out :=
  .next (match s.nextCopy core with
    | none => s
    | some c =>
      match s.runCopy c with
      | (s', .fault cause a) => ((s'.copyWrote c s.nextWrite).stopCopy c cause a).wakeWaiting
      | (_, .waits (some page)) => s.requestPage c.who.ctx page
      | _ => s)

/-- Row bytes of a key-value page (R407). -/
def kvRowBits (e4m3 : Bool) : Nat := if e4m3 then 8 else 6
/-- Bytes of a key-value page. -/
def kvBytes (dim : Nat) (e4m3 : Bool) : Nat := 0x200 + 64 * (dim * kvRowBits e4m3 / 8)

/-- Bytes of a key-value page whose `DIM` and `FMT` a `kvapp` has read (R407). -/
def kvLength (head : W32) : Nat := kvBytes (head.toNat % 2 ^ 16) (head.toNat / 2 ^ 16 = 4)

/-- `DIM` and `FMT` are in range (Table 15.8). -/
def kvHeaderOk (dim fmt : Nat) : Bool :=
  dim % 32 = 0 && decide (32 ≤ dim) && decide (dim ≤ 256) && (fmt = 4 || fmt = 6)

/-- The checks of `kvapp` in one lane (R408): the header word read. -/
def State.checkKv (s : State) (f : Frame) (bf16 : Bool) (page src : W64) : Res W32 :=
  let who := s.who f
  if page.toNat % 4096 ≠ 0 then .bad .alignment page
  else if windowOf page.toNat ≠ .global then .bad .address page
  else (s.access who .read page 8).bind fun ps =>
    let kv := fun (p : Place) => match p with | .hbm _ attr => attr.kv | _ => false
    if !ps.all kv then .bad .address page
    else (s.readChecked who page 8).bind fun bs =>
      let dim := leNat ((bs.drop 2).take 2)
      let fmt := leNat ((bs.drop 4).take 1)
      if !kvHeaderOk dim fmt then .bad .address page
      else (s.access who .write page (kvBytes dim (fmt = 4))).bind fun qs =>
        if !qs.all kv then .bad .address page
        else (s.access who .read src (dim * if bf16 then 2 else 4)).bind fun xs =>
          if xs.any s.placePoisoned then .bad .poison src else .ok (BitVec.ofNat 32 (dim + fmt * 2 ^ 16))

/-- `kvapp` (R408): the checks when it fires. -/
def execKvapp (pred : Pred) (src : MxSrc) (s : State) : Out :=
  inBlock s fun f =>
    let lanes := f.performing pred [.a, .b, .c]
    let bf16 : Bool := src = .bf16
    let acc := lanes.foldl (fun (x : Frame × List (Nat × W64 × W64 × W32 × W32) × Bool) l =>
      match s.checkKv f bf16 (f.val .a l) (f.val .b l) with
      | .wait => (x.1, x.2.1, true)
      | .ok h => (x.1, x.2.1 ++ [(l, f.val .a l, f.val .b l, f.val32 .c l, h)], x.2.2)
      | bad => (x.1.met l (f.val .a l) bad, x.2.1, x.2.2)) (f, [], false)
    (⟨s, acc.1, acc.2.2⟩ : Lanes).finish s fun s f => s.defer f (.kvapp bf16 acc.2.1)

/-- A code of the page's format scaled by a power of two and rounded (R408). -/
def kvRound (fmt : Fmt) (v : Val) (by_ : Int) : Nat :=
  match v with
  | .fin neg m e => (Exact.round ⟨neg, m, e + by_, false⟩ fmt .rne true).1
  | _ => fmt.quietNan

/-- Bit position of element `j` of row `t`. -/
def kvAt (dim : Nat) (e4m3 : Bool) (t j : Nat) : Nat := 8 * 0x200 + t * (dim * kvRowBits e4m3) + j * kvRowBits e4m3

/-- The append procedure of R408 on the page as one number; a refusal leaves everything but `REFUSED`. -/
def kvAppend (page : Nat) (dim : Nat) (e4m3 : Bool) (xs : List Val) (id : W32) : Nat :=
  let fmt : Fmt := if e4m3 then .e4m3 else .e2m3
  let w := kvRowBits e4m3
  let t := bits page 15 0
  let start : Nat × Bool := (page, false)
  let r := (List.range (dim / 32)).foldl (fun (a : Nat × Bool) g =>
    let pos := 8 * (8 + g)
    let sc := bits a.1 (pos + 7) pos
    let need := groupScale fmt ((xs.drop (32 * g)).take 32)
    if sc = 0xff then a
    else if need = 0xff ∨ t = 0 then (setBits a.1 (pos + 7) pos need, a.2)
    else if need ≤ sc then a
    else
      let cells := ((List.range t).map fun row => (List.range 32).map fun j => kvAt dim e4m3 row (32 * g + j)).flatten
      let p := cells.foldl (fun p k =>
        setBits p (k + w - 1) k (kvRound fmt (readFloat fmt (bits p (k + w - 1) k)) ((sc : Int) - need))) a.1
      (setBits p (pos + 7) pos need, true)) start
  let p := (List.range dim).foldl (fun p j =>
    let sc := bits p (8 * (8 + j / 32) + 7) (8 * (8 + j / 32))
    let k := kvAt dim e4m3 t j
    setBits p (k + w - 1) k (if sc = 0xff then 0 else kvRound fmt ((xs[j]?).getD (.fin false 0 0)) (127 - (sc : Int)))) r.1
  let p := setBits p (8 * (0x40 + 4 * t) + 31) (8 * (0x40 + 4 * t)) id.toNat
  let p := setBits p 15 0 (t + 1)
  if r.2 then setBits p 63 48 (Nat.min (bits p 63 48 + 1) 0xffff) else p

/-- One lane of `kvapp` at commit, as one step at the page's home (R408). Only bytes that change are written, with the
appended row, its token identifier and `COUNT`. -/
def State.commitKv1 (s : State) (w : Warp) (bf16 : Bool) (page src : W64) (id head : W32) : State :=
  let who := w.issuer
  let dim := head.toNat % 2 ^ 16
  let fmt := head.toNat / 2 ^ 16
  let n := kvBytes dim (fmt = 4)
  match s.access who .write page n with
  | .ok ps =>
    let s := s.drainOver who.warp.core ps fun _ => true
    let old := leNat (ps.map (s.placeByte who.warp.core))
    let changed := bits old 31 16 ≠ dim ∨ bits old 39 32 ≠ fmt
    let refused := 64 ≤ bits old 15 0 ∨ changed
    let t := bits old 15 0
    let new : Nat :=
      if refused then setBits old 143 128 (Nat.min (bits old 143 128 + 1) 0xffff)
      else
        let width := if bf16 then 2 else 4
        let f : Fmt := if bf16 then .bf16 else .f32
        match s.access who .read src (dim * width) with
        | .ok xs =>
          let bytes := ((s.loadBytes who .l2 false src.toNat xs).2).getD (xs.map (s.placeByte who.warp.core))
          kvAppend old dim (fmt = 4) ((List.range dim).map fun j => readFloat f (leNat ((bytes.drop (j * width)).take width))) id
        | _ => old
    let s := if changed then s.countError w.ctx else s
    let rowB := dim * kvRowBits (fmt = 4) / 8
    let written := fun (i : Nat) => bits old (8 * i + 7) (8 * i) != bits new (8 * i + 7) (8 * i) ||
      (!decide refused && (decide (i < 2) || (decide (0x40 + 4 * t ≤ i) && decide (i < 0x44 + 4 * t)) ||
        (decide (0x200 + t * rowB ≤ i) && decide (i < 0x200 + (t + 1) * rowB))))
    let cells := (ps.zip (leBytes n new)).zipIdx.filterMap fun c => if written c.2 then some c.1 else none
    let s := s.ownWrite who.warp who.ctx w.relSeq false cells
    foldState s (linesAt ps) fun s l => s.dropL1 who.warp.core who.ctx l
  | _ => s.countError w.ctx

/-- `kvapp` at commit: each lane in ascending order, counted in the sibling's `TOKENS` (R408). -/
def State.commitKvapp (s : State) (w : Warp) (bf16 : Bool) (lanes : List (Nat × W64 × W64 × W32 × W32)) : State :=
  (foldState s lanes fun s x => s.commitKv1 w bf16 x.2.1 x.2.2.1 x.2.2.2.1 x.2.2.2.2).countTokens w lanes.length

end Sys2Proof.Machine
end

