-- ==== Sys2Proof/Machine/Special.lean ====
section
/-!
DEFINITION. The special functions and `expsub` (spec/11_arithmetic.md R305 to R308; spec/14_isa_float_lane.md R375).
Each is computed as an interval of fixed-point numbers with 256 fraction bits around the exact value; where both ends
round alike, that is the correctly rounded result.
-/
namespace Sys2Proof.Machine

/-- Fraction bits of the fixed-point numbers. -/
def fix : Nat := 256

/-- A sum of terms t, t·u₁, t·u₁·u₂, …, each made from the one before. -/
def series (n : Nat) (first : Nat) (next : Nat → Nat → Nat) : Nat :=
  ((List.range n).foldl (fun (a : Nat × Nat) k => let t := next k a.2; (a.1 + t, t)) (first, first)).1

/-- Products in fixed point. -/
def fmulFix (a b : Nat) : Nat := a * b / 2 ^ fix

/-- atanh z for 0 ≤ z ≤ 1/3: Σ z^(2k+1) / (2k+1). -/
def atanhFix (z : Nat) : Nat :=
  let z2 := fmulFix z z
  ((List.range 90).foldl (fun (a : Nat × Nat) k => (a.1 + a.2 / (2 * k + 1), fmulFix a.2 z2)) (0, z)).1

/-- ln 2 = 2 atanh (1/3). -/
def ln2Fix : Nat := 2 * atanhFix (2 ^ fix / 3)

/-- e^y for 0 ≤ y < 1. -/
def expFix (y : Nat) : Nat := series 70 (2 ^ fix) fun k t => fmulFix t y / (k + 1)

/-- 2^f for 0 ≤ f < 1. -/
def exp2Fix (f : Nat) : Nat := expFix (fmulFix f ln2Fix)

/-- atan (1/n) with `b` fraction bits. -/
def atanInv (n b : Nat) : Int :=
  ((List.range (b / 4)).foldl (fun (a : Int × Nat) k =>
    let t := a.2 / (2 * k + 1)
    (if k % 2 = 0 then a.1 + t else a.1 - t, a.2 / (n * n))) ((0 : Int), 2 ^ b / n)).1

/-- Fraction bits of the argument reduction: `fix`, the exponent range of FP32 and more. -/
def wide : Nat := 448

/-- π/2 with `wide` fraction bits: 8 atan (1/5) − 2 atan (1/239). -/
def halfPi : Nat := (8 * atanInv 5 wide - 2 * atanInv 239 wide).toNat

/-- cos r (even) or sin r (odd) for 0 ≤ r < 2, by Taylor's series. -/
def trigFix (odd : Bool) (r : Nat) : Int :=
  let r2 := fmulFix r r
  let first := if odd then r else 2 ^ fix
  let o := if odd then 1 else 0
  ((List.range 50).foldl (fun (a : Int × Nat) k =>
    (if k % 2 = 0 then a.1 + a.2 else a.1 - a.2, fmulFix a.2 r2 / ((2 * k + 1 + o) * (2 * k + 2 + o)))) ((0 : Int), first)).1

/-- Above the error of every series here, in units of the last place. -/
def slack : Nat := 2 ^ 40

/-- Rounds a value known to lie strictly within `slack` of v × 2^e to FP32; the flags are those of R298. Where the two
ends round apart, the correctly rounded result is the free value of log 5. -/
def roundNear (fn : Nat) (a b : W32) (neg : Bool) (v : Nat) (e : Int) : W64 × FlagSet :=
  let lo := Exact.round ⟨neg, v - slack, e, true⟩ .f32 .rne false
  let hi := Exact.round ⟨neg, v + slack - 1, e, true⟩ .f32 .rne false
  if lo = hi then (BitVec.ofNat 64 lo.1, lo.2) else (zext (Config.hardCase fn a b), lo.2)

/-- Rounds an exact FP32 result. -/
def roundIt (x : Exact) : W64 × FlagSet :=
  let o := x.round .f32 .rne false
  (BitVec.ofNat 64 o.1, o.2)

/-- 2^d for an exact dyadic d = ±m × 2^e (R305, R308). -/
def exp2Exact (fn : Nat) (a b : W32) (neg : Bool) (m : Nat) (e : Int) : W64 × FlagSet :=
  if m = 0 then roundIt ⟨false, 1, 0, false⟩
  else if (11 : Int) < (bitLen m : Int) + e then
    (if neg then roundIt ⟨false, 1, -400, true⟩ else roundIt ⟨false, 1, 400, true⟩)
  else
    let d : Int := (if neg then -(m : Int) else m) * 2 ^ (e + fix).toNat
    let n := d / 2 ^ fix
    let f := (d % 2 ^ fix).toNat
    if f = 0 then roundIt ⟨false, 1, n, false⟩
    else roundNear fn a b false (exp2Fix f) (n - fix)

/-- The logarithm to base 2 of a positive m × 2^e (R305). -/
def log2Exact (a : W32) (m : Nat) (e : Int) : W64 × FlagSet :=
  let k := (bitLen m : Int) - 1
  let n := e + k
  let p := 2 ^ k.toNat
  if m = p then roundIt ⟨n < 0, n.natAbs, 0, false⟩
  else
    let z := (m - p) * 2 ^ fix / (m + p)
    let frac := 2 * atanhFix z * 2 ^ fix / ln2Fix
    let v := n * 2 ^ fix + frac
    roundNear 3 a 0 (v < 0) v.natAbs (-(fix : Int))

/-- A value just below a finite magnitude, nearer to it than any FP32 rounding can see (R305). -/
def justBelow (neg : Bool) (m : Nat) (e : Int) : W64 × FlagSet := roundIt ⟨neg, m * 2 ^ 64 - 1, e - 64, true⟩

/-- sin or cos of ±m × 2^e, m not 0 (R305): the argument is reduced exactly modulo π/2. -/
def trigExact (fn : Nat) (cos neg : Bool) (a : W32) (m : Nat) (e : Int) : W64 × FlagSet :=
  if (bitLen m : Int) + e < -62 then (if cos then justBelow false 1 0 else justBelow neg m e)
  else
    let x := m * 2 ^ (e + wide).toNat
    let k := x / halfPi
    let r := x % halfPi / 2 ^ (wide - fix)
    let q := (k + if cos then 1 else 0) % 4
    let v := trigFix (q % 2 = 0) r
    let n := (2 ≤ q) != (neg && !cos)
    roundNear fn a 0 (if v < 0 then !n else n) v.natAbs (-(fix : Int))

/-- tanh of ±m × 2^e, m not 0 (R305): (1 − u) / (1 + u) with u = e^(−2x). -/
def tanhExact (neg : Bool) (a : W32) (m : Nat) (e : Int) : W64 × FlagSet :=
  if (bitLen m : Int) + e < -62 then justBelow neg m e
  else if 5 < (bitLen m : Int) + e then justBelow neg 1 0
  else
    let x := m * 2 ^ (e + fix + 1).toNat
    let t := x * 2 ^ fix / ln2Fix
    let n := t / 2 ^ fix
    let f := t % 2 ^ fix
    let u := exp2Fix (2 ^ fix - 1 - f) / 2 ^ (n + 1)
    let one := 2 ^ fix
    roundNear 6 a 0 neg ((one - u) * 2 ^ fix / (one + u)) (-(fix : Int))

/-- `frcp` (Table 13 of chapter 11: R307). -/
def rcp (v : Val) : W64 × FlagSet :=
  match v with
  | .nan _ => (0x7fc00000, 0)
  | .inf neg => roundIt ⟨neg, 0, 0, false⟩
  | .fin neg m e =>
    if m = 0 then (BitVec.ofNat 64 (withSign .f32 neg Fmt.f32.infCode), flagDivZero) else roundIt (divExact neg 1 0 m e)

/-- 1/√(m × 2^e) to 128 bits: the root of the quotient 2^k / m. -/
def rsqExact (m : Nat) (e : Int) : Exact :=
  let odd := e % 2 = 1
  let m := if odd then 2 * m else m
  let h := (if odd then e - 1 else e) / 2
  let n := 2 ^ 256
  let r := isqrt (n / m) 129
  ⟨false, r, -128 - h, r * r * m ≠ n⟩

/-- `frsq` (R307). -/
def rsq (v : Val) : W64 × FlagSet :=
  match v with
  | .nan _ => (0x7fc00000, 0)
  | .inf neg => if neg then (0x7fc00000, flagInvalid) else (0, 0)
  | .fin neg m e =>
    if m = 0 then (BitVec.ofNat 64 (withSign .f32 neg Fmt.f32.infCode), flagDivZero)
    else if neg then (0x7fc00000, flagInvalid)
    else roundIt (rsqExact m e)

/-- `fexp2` (R307). -/
def exp2 (a : W32) (v : Val) : W64 × FlagSet :=
  match v with
  | .nan _ => (0x7fc00000, 0)
  | .inf neg => (if neg then 0 else 0x7f800000, 0)
  | .fin neg m e => exp2Exact 2 a 0 neg m e

/-- `flog2` (R307). -/
def log2 (a : W32) (v : Val) : W64 × FlagSet :=
  match v with
  | .nan _ => (0x7fc00000, 0)
  | .inf neg => if neg then (0x7fc00000, flagInvalid) else (0x7f800000, 0)
  | .fin neg m e =>
    if m = 0 then (0xff800000, flagDivZero)
    else if neg then (0x7fc00000, flagInvalid)
    else log2Exact a m e

/-- `fsin` and `fcos` (R307). -/
def trig (fn : Nat) (cos : Bool) (a : W32) (v : Val) : W64 × FlagSet :=
  match v with
  | .nan _ => (0x7fc00000, 0)
  | .inf _ => (0x7fc00000, flagInvalid)
  | .fin neg m e =>
    if m = 0 then (if cos then roundIt ⟨false, 1, 0, false⟩ else roundIt ⟨neg, 0, 0, false⟩)
    else trigExact fn cos neg a m e

/-- `ftanh` (R307). -/
def tanh (a : W32) (v : Val) : W64 × FlagSet :=
  match v with
  | .nan _ => (0x7fc00000, 0)
  | .inf neg => roundIt ⟨neg, 1, 0, false⟩
  | .fin neg m e => if m = 0 then roundIt ⟨neg, 0, 0, false⟩ else tanhExact neg a m e

/-- exp2(a − b) with the difference exact (R308, Table 11.14). -/
def expsub (a b : W32) (va vb : Val) : W64 × FlagSet :=
  match va, vb with
  | .nan _, _ => (0x7fc00000, 0)
  | _, .nan _ => (0x7fc00000, 0)
  | .inf x, .inf y => if x = y then (if x then (0, 0) else (0x3f800000, 0)) else (if x then 0 else 0x7f800000, 0)
  | .inf x, .fin _ _ _ => (if x then 0 else 0x7f800000, 0)
  | .fin _ _ _, .inf y => (if y then 0x7f800000 else 0, 0)
  | .fin _ _ _, .fin _ _ _ =>
    match (sumVals [va, vb.flip] false).1 with
    | .num x => exp2Exact 7 a b x.neg x.m x.e
    | _ => (0x7fc00000, 0)

/-- A special function's result under `.ftz` (R299, R368). -/
def ftzResult (ftz : Bool) (r : W64 × FlagSet) : W64 × FlagSet :=
  if ftz && isSubnormal .f32 r.1.toNat then
    (BitVec.ofNat 64 (withSign .f32 (signOf .f32 r.1.toNat) 0), r.2 ||| flagUnderflow ||| flagInexact)
  else r

/-- A special function of one operand (R375). -/
def specialOp (g : G) (s : State) (fn : W32 → Val → W64 × FlagSet) : Out :=
  floatOp g [.a] s fun f l =>
    let c := f.code .a l .f32
    let v := readFloat .f32 c
    let r := ftzResult f.mods.ftz (fn (BitVec.ofNat 32 c) v)
    (r.1, r.2 ||| signalling [v])

/-- `frcp` (Table 14.4). -/
def execFrcp (g : G) (s : State) : Out := specialOp g s fun _ v => rcp v
/-- `frsq` (Table 14.4). -/
def execFrsq (g : G) (s : State) : Out := specialOp g s fun _ v => rsq v
/-- `fexp2` (Table 14.4). -/
def execFexp2 (g : G) (s : State) : Out := specialOp g s exp2
/-- `flog2` (Table 14.4). -/
def execFlog2 (g : G) (s : State) : Out := specialOp g s log2
/-- `fsin` (Table 14.4). -/
def execFsin (g : G) (s : State) : Out := specialOp g s (trig 4 false)
/-- `fcos` (Table 14.4). -/
def execFcos (g : G) (s : State) : Out := specialOp g s (trig 5 true)
/-- `ftanh` (Table 14.4). -/
def execFtanh (g : G) (s : State) : Out := specialOp g s tanh

/-- `expsub` (R308, R375). -/
def execExpsub (g : G) (s : State) : Out :=
  floatOp g [.a, .b] s fun f l =>
    let a := f.code .a l .f32
    let b := f.code .b l .f32
    let va := readFloat .f32 a
    let vb := readFloat .f32 b
    let r := ftzResult f.mods.ftz (expsub (BitVec.ofNat 32 a) (BitVec.ofNat 32 b) va vb)
    (r.1, r.2 ||| signalling [va, vb])

end Sys2Proof.Machine
end

