-- ==== Sys2Proof/Machine/Matrix.lean ====
section
/-!
DEFINITION. The matrix instruction words and their checks (spec/17_isa_matrix.md R438 to R459).
-/
namespace Sys2Proof.Machine

/-- Word `i` of a uniform group's record. -/
def groupWord (r : W512) (i : Nat) : Nat := (r.extractLsb' (32 * i) 32).toNat
/-- Words `i` and `i + 1` of a uniform group's record as one address. -/
def groupAddr (r : W512) (i : Nat) : W64 := r.extractLsb' (32 * i) 64

/-- The format of a code of Table 12.6. -/
def fmtOf (c : Nat) : Option Fmt :=
  match c with
  | 0 => some .f64 | 1 => some .f32 | 2 => some .f16 | 3 => some .bf16 | 4 => some .e4m3 | 5 => some .e5m2
  | 6 => some .e2m3 | 7 => some .e3m2 | 8 => some .e2m1 | 9 => some .e8m0 | 10 => some .s32 | 11 => some .z32
  | 12 => some .s64 | 13 => some .z64 | 14 => some .s8
  | _ => none

/-- Is the format one of the five with scale groups? -/
def isNarrow (f : Fmt) : Bool := f = .e4m3 || f = .e5m2 || f = .e2m3 || f = .e3m2 || f = .e2m1

/-- A command descriptor (Table 17.2): formats, layout and sizes. -/
def mmaA (d : W512) : Option Fmt := fmtOf (bits (groupWord d 5) 3 0)
/-- B format. -/
def mmaB (d : W512) : Option Fmt := fmtOf (bits (groupWord d 5) 7 4)
/-- B layout. -/
def mmaLayout (d : W512) : Nat := bits (groupWord d 5) 9 8
/-- K. -/
def mmaK (d : W512) : Nat := groupWord d 4
/-- `ROWB` of layouts 2 and 3. -/
def mmaRowB (d : W512) : Nat := bits (groupWord d 7) 15 0
/-- `SLOT0` of layouts 2 and 3. -/
def mmaSlot (d : W512) : Nat := bits (groupWord d 7) 20 16
/-- `DIM0` of layout 3. -/
def mmaDim0 (d : W512) : Nat := 32 * bits (groupWord d 7) 26 24

/-- Legal format pairs (Table 17.3). -/
def pairOk (a b : Option Fmt) : Bool :=
  match a, b with
  | some x, some y =>
    (isNarrow x && isNarrow y) || (x = y && (x = .f64 || x = .f32 || x = .f16 || x = .bf16 || x = .s8))
  | _, _ => false

/-- Packed row length of `n` elements (R444). -/
def packedLen (f : Fmt) (n : Nat) : Nat := (n * f.width + 7) / 8

/-- `DIM` of a scratch area of layouts 2 and 3 (R444); none where the row bytes are no row of the format. -/
def areaDim (f : Fmt) (rowB : Nat) : Option Nat :=
  if rowB % 4 ≠ 0 ∨ rowB < 4 ∨ 256 < rowB then none
  else if f = .e4m3 then some rowB
  else if f = .e2m3 ∧ rowB % 3 = 0 then some (4 * rowB / 3)
  else none

/-- Row pitch and slot size of a scratch area (R410). -/
def areaPitch (rowB : Nat) : Nat := 128 * ((rowB + 124 + 127) / 128)

/-- The descriptor's alignment (R442). -/
def mmaAligned (sparse : Bool) (d : W512) : Bool :=
  groupWord d 0 % 16 = 0 && groupWord d 2 % 16 = 0 && groupWord d 6 % 16 = 0 &&
  (decide (2 ≤ mmaLayout d) || groupWord d 7 % 16 = 0) && (!sparse || groupWord d 12 % 64 = 0)

/-- Every other limit of Tables 17.2 to 17.4 that is checked at fire (R442). -/
def mmaLimits (sparse : Bool) (d : W512) : Bool :=
  let k := mmaK d
  let lay := mmaLayout d
  match mmaA d, mmaB d with
  | some a, some b =>
    k % 32 = 0 && decide (32 ≤ k) && decide (k ≤ 65536) && pairOk (some a) (some b) && bits (groupWord d 5) 31 10 = 0 &&
    (sparse || decide (packedLen a k ≤ groupWord d 6)) &&
    (isNarrow a || groupAddr d 8 = 0) && ((isNarrow b && decide (lay ≤ 1)) || groupAddr d 10 = 0) &&
    (if sparse then groupAddr d 12 ≠ 0 else groupAddr d 12 = 0) && groupAddr d 14 = 0 &&
    (match lay with
      | 0 => decide (packedLen b k ≤ groupWord d 7)
      | 1 => decide (packedLen b 128 ≤ groupWord d 7)
      | _ =>
        match areaDim b (mmaRowB d) with
        | none => false
        | some dim =>
          bits (groupWord d 7) 23 21 = 0 && bits (groupWord d 7) 31 27 = 0 &&
          (if lay = 2 then decide (k ≤ dim) && decide (mmaSlot d ≤ 30) else decide (k ≤ 64 * (32 - mmaSlot d))))
  | _, _ => false

/-- The tile registers that a name stands for; none where a check of R438 fails. -/
def tilesFor (w : Warp) (tile : Nat) (f64 : Bool) : Option (Nat × Nat) :=
  if w.id.core % 2 = 1 ∨ (f64 ∧ tile % 2 = 1) then none
  else match w.tiles[tile]?, w.tiles[if f64 then tile + 1 else tile]? with
    | some a, some b => some (a, b)
    | _, _ => none

/-- A matrix instruction word: its checks in the lowest performing lane, and then a command left to the commit. -/
def matrixOp (pred : Pred) (need : List Opnd) (tile : Nat) (s : State) (check : Warp → Frame → Nat → Option (Cause × W64))
    (op : Warp → Frame → Nat → MatrixOp) : Out :=
  fromLowest pred need s fun f l m =>
    let w := s.frameWarp f
    match check w f l with
    | some (c, a) => s.faulted (f.addFaults c m a)
    | none => s.defer f (.matrix tile (op w f l))

/-- The checks of `mma` and `mmas` (R438, R442). -/
def checkMma (sparse : Bool) (tile : BitVec 3) (d : W512) (w : Warp) : Option (Cause × W64) :=
  if (tilesFor w tile.toNat (mmaA d = some .f64)).isNone then some (.register, 0)
  else if !mmaAligned sparse d then some (.alignment, 0)
  else if !mmaLimits sparse d then some (.address, 0)
  else none

/-- `mma` (R442). -/
def execMma (pred : Pred) (tile : BitVec 3) (acc : Bool) (group : BitVec 2) (s : State) : Out :=
  matrixOp pred [] tile.toNat s (fun w f _ => checkMma false tile (f.group group.toNat) w) fun _ f _ =>
    .mma false acc (f.group group.toNat)

/-- `mmas` (R442). -/
def execMmas (pred : Pred) (tile : BitVec 3) (acc : Bool) (group : BitVec 2) (s : State) : Out :=
  matrixOp pred [] tile.toNat s (fun w f _ => checkMma true tile (f.group group.toNat) w) fun _ f _ =>
    .mma true acc (f.group group.toNat)

/-- `mzero` (R450). -/
def execMzero (pred : Pred) (tile : BitVec 3) (s : State) : Out :=
  matrixOp pred [] tile.toNat s
    (fun w _ _ => if (tilesFor w tile.toNat false).isNone then some (.register, 0) else none) fun _ _ _ => .zero

/-- The checks of a register drain (R451). -/
def checkDrain (tile : BitVec 3) (f64 : Bool) (w : Warp) (ctl : W32) : Option (Cause × W64) :=
  let c := ctl.toNat
  let row := bits c 6 0
  let col := bits c 14 8
  let vd := bits c 23 16
  if (tilesFor w tile.toNat f64).isNone ∨ w.vregs < vd + 32 ∨ (f64 ∧ vd % 2 = 1) then some (.register, 0)
  else if row % 32 ≠ 0 ∨ bits c 7 7 ≠ 0 ∨ bits c 15 15 ≠ 0 ∨ bits c 31 24 ≠ 0 ∨ col % (if f64 then 16 else 32) ≠ 0 then
    some (.address, 0)
  else none

/-- The checks of an epilogue drain (R452): it names one tile, also with `.f64` (R438, R453). -/
def checkEpilogue (s : State) (tile : BitVec 3) (f64 : Bool) (w : Warp) (d : W512) : Option (Cause × W64) :=
  let p := groupWord d 6
  let out := bits p 3 0
  let plain : Bool := f64 || out = 0xa
  let bias := groupAddr d 2
  let narrow : Bool := decide (4 ≤ out) && decide (out ≤ 8)
  if (tilesFor w tile.toNat false).isNone ∨ (f64 ∧ tile.toNat % 2 = 1) then some (.register, 0)
  else if groupWord d 0 % 16 ≠ 0 ∨ groupWord d 4 % 16 ≠ 0 ∨ groupWord d 8 % 16 ≠ 0 ∨ groupWord d 2 % 4 ≠ 0 then
    some (.alignment, 0)
  else if (if f64 then out ≠ 0 else !((decide (1 ≤ out) && decide (out ≤ 8)) || out = 0xa)) ∨ 2 < bits p 7 4 ∨
      bits p 31 10 ≠ 0 ∨ groupWord d 7 ≠ 0 ∨ (!narrow ∧ groupAddr d 8 ≠ 0) ∨ (plain ∧ (bits p 7 4 ≠ 0 ∨ bias ≠ 0)) ∨
      d.extractLsb' 320 192 ≠ 0 then some (.address, 0)
  else if s.epilogues.any fun e => e.fault.isSome && e.leader = w.id.core && e.who.ctx = w.ctx then
    some (.epiloguePending, 0)
  else none

/-- `mdrain`: the register form (R451), or through the epilogue (R452). -/
def execMdrain (pred : Pred) (tile : BitVec 3) (ep f64 : Bool) (group : BitVec 2) (s : State) : Out :=
  if ep then
    matrixOp pred [] tile.toNat s (fun w f _ => checkEpilogue s tile f64 w (f.group group.toNat)) fun _ f _ =>
      .epilogue f64 (f.group group.toNat)
  else
    matrixOp pred [.a] tile.toNat s (fun w f l => checkDrain tile f64 w (f.val32 .a l)) fun _ f l =>
      .drain f64 (f.val32 .a l) (f.performingMask pred [.a])

/-- `mpeer` (R454): the sequence word is checked as an atomic of 8 bytes in an ordinary global page. -/
def execMpeer (pred : Pred) (tile : BitVec 3) (s32 : Bool) (s : State) : Out :=
  fromLowest pred [.a, .b] s fun f l m =>
    let w := s.frameWarp f
    let d := (f.val32 .a l).toNat
    let b := f.val .b l
    if (tilesFor w tile.toNat false).isNone then s.faulted (f.addFaults .register m 0)
    else if bits d 7 6 ≠ 0 ∨ bits d 15 11 ≠ 0 ∨ bits d 31 21 ≠ 0 ∨ 23 < bits d 4 0 then s.faulted (f.addFaults .address m 0)
    else if b.toNat % 8 ≠ 0 then s.faulted (f.addFaults .alignment m b)
    else match s.access (s.who f) .atomic b 8 with
      | .wait => s.waitHere
      | .ok ps =>
        let ordinary := fun (p : Place) => match p with | .hbm _ a => !a.memside | _ => false
        if ps.all ordinary then s.defer f (.matrix tile.toNat (.peer s32 (f.val32 .a l) b))
        else s.faulted (f.addFaults .address m b)
      | bad => s.faulted (f.metAll m b bad)

/-- The magnitude count M of a sparsity code (Table 17.5). -/
def groupM (code : Nat) : Nat := 4 * 2 ^ code

/-- The checks of `mprune` (R456): the strides are multiples of 16, and the table asks no more of them. -/
def checkPrune (w : Warp) (d : W512) : Option (Cause × W64) :=
  let k := groupWord d 4
  let p := groupWord d 5
  let n := bits p 10 6
  let m := groupM (bits p 5 4)
  if w.id.core % 2 = 1 then some (.register, 0)
  else if groupWord d 0 % 16 ≠ 0 ∨ groupWord d 2 % 16 ≠ 0 ∨ groupWord d 6 % 16 ≠ 0 ∨ groupWord d 7 % 16 ≠ 0 ∨
      groupWord d 8 % 64 ≠ 0 then some (.alignment, 0)
  else match fmtOf (bits p 3 0) with
    | none => some (.address, 0)
    | some f =>
      if !(f.isFloat || f = .s8) ∨ 2 < bits p 5 4 ∨ n < 1 ∨ m ≤ n ∨ bits p 31 11 ≠ 0 ∨ k % 32 ≠ 0 ∨ k < 32 ∨ 65536 < k ∨
          (!isNarrow f ∧ groupAddr d 10 ≠ 0) ∨ d.extractLsb' 384 128 ≠ 0 then some (.address, 0)
      else none

/-- `mprune` (R456). -/
def execMprune (pred : Pred) (group : BitVec 2) (s : State) : Out :=
  matrixOp pred [] 0 s (fun w f _ => checkPrune w (f.group group.toNat)) fun _ f _ => .prune (f.group group.toNat)

/-- Does a wait for a tile register, or for all, cover a command on two tile registers? -/
def covers (tile : Option Nat) (named : Bool) (a b : Nat) : Bool :=
  match tile with
  | none => true
  | some t => named && (t = a || t = b)

/-- Does a command name a tile (R440)? -/
def MatrixOp.named : MatrixOp → Bool
  | .prune _ => false
  | _ => true

/-- `mwait` and `mwait.all` (R458): waits for the warp's own commands, then reports what is held. -/
def mwaitOp (pred : Pred) (tile : Option (BitVec 3)) (s : State) : Out :=
  inBlock s fun f =>
    let lanes := f.performing pred []
    let w := s.frameWarp f
    let t : Option Nat := tile.bind fun t => w.tiles[t.toNat]?
    let mine := fun (who : Issuer) (named : Bool) (a b : Nat) =>
      who.serial = w.serial && (if tile.isSome && t.isNone then false else covers t named a b)
    let eps := s.epilogues.filter fun e => mine e.who true e.tile e.tile
    if lanes = [] then s.fired f
    else if s.matrix.any (fun c => mine c.who c.op.named c.tile c.partner) || eps.any fun e => e.fault.isNone then s.waitHere
    else
      let m := maskOf lanes
      let put := fun (i : FaultInfo) => { f with faults := f.faults ++ [{ i with slot := f.slot, lanes := m, lsid := 0xff }] }
      match w.heldFault.filter fun h => mine w.issuer (!h.unnamed) h.tile h.partner, eps.find? fun e => !e.reported, eps with
      | some h, _, _ => s.faulted (put { h.info with detail := 0 })
      | none, some e, _ =>
        match e.fault with
        | some i => s.faulted (put { i with detail := BitVec.ofNat 64 e.stored, epilogue := true })
        | none => s.waitHere
      | none, none, [] =>
        (s.waitedFor f.warp m fun x => x.copy.isNone && (tile.isNone || (t.map fun t => x.tiles.contains t).getD false)).fired f
      | none, none, _ =>
        let again := fun (e : Epilogue) => e.who.serial = w.serial && e.fault.isSome && e.reported
        ({ s with epilogues := update again (fun e => { e with fault := none, reported := false }) s.epilogues } : State).waitHere

/-- `mwait` (R458). -/
def execMwait (pred : Pred) (tile : BitVec 3) (s : State) : Out := mwaitOp pred (some tile) s

/-- `mwait.all` (R458). -/
def execMwaitAll (pred : Pred) (s : State) : Out := mwaitOp pred none s

/-- `tokpass` (R459). -/
def execTokpass (pred : Pred) (s : State) : Out :=
  inBlock s fun f => if f.performing pred [] = [] then s.fired f else s.defer f .tokpass

end Sys2Proof.Machine
end

