-- ==== Sys2Proof/Machine/MatrixEngine.lean ====
section
/-!
DEFINITION. The matrix engine of a core pair: its queue, the tile fetch unit, the products, the epilogue, peer
accumulation and pruning (spec/17_isa_matrix.md R438 to R458; spec/11_arithmetic.md R310, R311; spec/05_scheduler.md
R123, R124; spec/07_traps_and_context.md R192, R193).
-/
namespace Sys2Proof.Machine

/-- Replaces a run of bytes of a sparse memory at once. -/
def writeRun (m : Sparse Byte) (lo : Nat) (bs : List Byte) : Sparse Byte :=
  (m.filter fun c => c.1 < lo) ++ (bs.zipIdx.filterMap fun b => if b.1 = 0 then none else some (lo + b.2, b.1)) ++
  m.filter fun c => lo + bs.length ≤ c.1

/-- Reads a run of `n` bytes of a sparse memory, whose entries below `lo` have been passed. -/
def readRunFrom : Nat → Nat → Sparse Byte → List Byte
  | 0, _, _ => []
  | n + 1, lo, [] => 0 :: readRunFrom n (lo + 1) []
  | n + 1, lo, (k, b) :: m => if k = lo then b :: readRunFrom n (lo + 1) m else 0 :: readRunFrom n (lo + 1) ((k, b) :: m)

/-- Reads a run of `n` bytes of a sparse memory. -/
def readRun (m : Sparse Byte) (lo n : Nat) : List Byte := readRunFrom n lo (m.dropWhile fun c => c.1 < lo)

/-- Where a core's tile register begins among the tiles. -/
def tileKey (core tile : Nat) : Nat := core * 2 ^ 40 + 0x8000 * tile

/-- The bytes of a core's tile register. -/
def State.tileBytes (s : State) (core tile : Nat) : List Byte := readRun s.tiles (tileKey core tile) 0x8000

/-- Writes a core's tile register. -/
def State.setTile (s : State) (core tile : Nat) (bs : List Byte) : State :=
  { s with tiles := writeRun s.tiles (tileKey core tile) (bs.take 0x8000) }

/-- The 32-bit element (i, j) of a tile on a pair (R438). -/
def State.tileWord (s : State) (leader tile i j : Nat) : Nat :=
  leNat (getBytes s.tiles (tileKey (leader + i / 64) tile + 512 * (i % 64) + 4 * j) 4)

/-- The FP64 element (i, j) of a pair of tiles (Table 17.3). -/
def State.tileLong (s : State) (leader tile partner i j : Nat) : Nat :=
  leNat (getBytes s.tiles (tileKey (leader + i / 64) (if j < 64 then tile else partner) + 512 * (i % 64) + 8 * (j % 64)) 8)

/-- Writes a 32-bit tile on both cores from its elements. -/
def State.setTileWords (s : State) (leader tile : Nat) (e : Nat → Nat → Nat) : State :=
  let half := fun (h : Nat) => ((List.range 64).map fun i => ((List.range 128).map fun j => leBytes 4 (e (64 * h + i) j)).flatten).flatten
  (s.setTile leader tile (half 0)).setTile (leader + 1) tile (half 1)

/-- Writes a pair of tiles on both cores from their FP64 elements. -/
def State.setTileLongs (s : State) (leader tile partner : Nat) (e : Nat → Nat → Nat) : State :=
  let half := fun (h lo : Nat) => ((List.range 64).map fun i => ((List.range 64).map fun j => leBytes 8 (e (64 * h + i) (lo + j))).flatten).flatten
  let s := (s.setTile leader tile (half 0 0)).setTile (leader + 1) tile (half 1 0)
  (s.setTile leader partner (half 0 64)).setTile (leader + 1) partner (half 1 64)

/-- Is the page of an address a `HOSTPG` page (R446)? -/
def State.hostPage (s : State) (ctx : Nat) (a : Nat) : Bool :=
  match s.context? ctx with
  | none => false
  | some c => match s.lookup c (a / 4096 % 2 ^ 36) with
    | .leaf e _ _ => entryBit e 8
    | _ => false

/-- The pieces of a range that lie in one line each. -/
def linePieces (a n : Nat) : List (Nat × Nat) :=
  if n = 0 then []
  else (List.range ((a + n - 1) / 64 - a / 64 + 1)).map fun i =>
    let lo := Nat.max a ((a / 64 + i) * 64)
    (lo, Nat.min (a + n) ((a / 64 + i) * 64 + 64) - lo)

/-- The tile fetch unit reads part of one line (R446). -/
def State.fetchPiece (s : State) (who : Issuer) (a n : Nat) : State × Res (List Byte) :=
  let x := BitVec.ofNat 64 a
  if inRegisters x then (s, .bad .address x)
  else if windowOf a = .global && canonical a && s.hostPage who.ctx a then (s, .bad .address x)
  else
    let places : Res (List Place) :=
      if windowOf a = .global then s.access who .read x n
      else (List.range n).foldl (fun acc i =>
        acc.bind fun ps => (s.access who .read (x + BitVec.ofNat 64 i) 1).bind fun p => .ok (ps ++ p)) (.ok [])
    match places with
    | .ok ps =>
      let r := ps.zipIdx.foldl (fun (acc : State × Option (List Byte)) p =>
        let at_ : LoadAt := if acc.1.stashed who.warp.core who.ctx (a + p.2) p.1 then .l1 else .l2
        let b := acc.1.loadByte who at_ false (a + p.2) p.1
        (b.1, match acc.2, b.2 with
          | some bs, some v => some (bs ++ [v])
          | _, _ => none)) (s, some [])
      match r.2 with
      | some bs => (r.1, .ok bs)
      | none => (s, .bad .poison x)
    | .bad c y => (s, .bad c (if y = 0 then x else y))
    | .absent p => (s, .absent p)
    | .wait => (s, .wait)

/-- The tile fetch unit reads a range, line by line (R446), as one little-endian number. -/
def State.fetchRange (s : State) (who : Issuer) (a n : Nat) : State × Res Nat :=
  let r := (linePieces a n).foldl (fun (acc : State × Res (List Byte)) p =>
    match acc.2 with
    | .ok bs =>
      match acc.1.fetchPiece who p.1 p.2 with
      | (t, .ok more) => (t, .ok (bs ++ more))
      | (t, bad) => (t, bad)
    | bad => (acc.1, bad)) (s, .ok [])
  (r.1, r.2.bind fun bs => .ok (leNat bs))

/-- Reads a list of ranges in order. -/
def State.fetchRanges (s : State) (who : Issuer) (rs : List (Nat × Nat)) : State × Res (List Nat) :=
  rs.foldl (fun (acc : State × Res (List Nat)) p =>
    match acc.2 with
    | .ok xs =>
      match acc.1.fetchRange who (p.1 % 2 ^ 64) p.2 with
      | (t, .ok x) => (t, .ok (xs ++ [x]))
      | (t, .bad c a) => (t, .bad c a)
      | (t, .absent q) => (t, .absent q)
      | (t, .wait) => (t, .wait)
    | bad => (acc.1, bad)) (s, .ok [])

/-- Goes on with a fetch that passed. -/
def andThen {α β : Type} (r : State × Res α) (k : State → α → State × Res β) : State × Res β :=
  match r.2 with
  | .ok v => k r.1 v
  | .bad c a => (r.1, .bad c a)
  | .absent p => (r.1, .absent p)
  | .wait => (r.1, .wait)

/-- Element `k` of a packed row (R444). -/
def packedAt (f : Fmt) (row k : Nat) : Nat := bits row ((k + 1) * f.width - 1) (k * f.width)

/-- The value of an element: a float, or an `.s8` integer. -/
def elementVal (f : Fmt) (code : Nat) : Val :=
  if f = .s8 then
    let v := readInt .s8 code
    .fin (v < 0) v.natAbs 0
  else readFloat f code

/-- The sparsity of a command: N, M and, for N < M, the index of element e of group g of row i (R447). -/
structure Pattern where
  n : Nat
  m : Nat
  idx : Nat
  iw : Nat
  deriving DecidableEq, Repr

/-- The dense pattern. -/
def Pattern.dense : Pattern := ⟨1, 1, 0, 2⟩

/-- Is an operand dense (R447)? -/
def Pattern.isDense (p : Pattern) : Bool := p.n = p.m

/-- idx(i, g, e) (R447). -/
def Pattern.at_ (p : Pattern) (k i g e : Nat) : Nat :=
  let q := (i * (k / p.m) + g) * p.n + e
  bits p.idx (p.iw * q + p.iw - 1) (p.iw * q)

/-- The code of a(i, k), none where it is skipped (R445). -/
def Pattern.element (p : Pattern) (f : Fmt) (kk i row k : Nat) : Option Nat :=
  if p.isDense then some (packedAt f row k)
  else
    match (List.range p.n).find? fun e => p.at_ kk i (k / p.m) e = k % p.m with
    | some e => some (packedAt f row (p.n * (k / p.m) + e))
    | none => none

/-- The fields of a sparsity header word (Table 17.5). -/
def hdrN (h : Nat) : Nat := bits h 6 2
/-- M. -/
def hdrM (h : Nat) : Nat := groupM (bits h 1 0)

/-- The start checks of a sparsity header (Table 17.6). -/
def headerOk (h k : Nat) : Bool :=
  let n := hdrN h
  let m := hdrM h
  bits h 1 0 != 3 && n != 0 && decide (n ≤ m) && bits h 9 8 == (if m = 4 then 0 else 1) &&
  bits h 15 10 == 0 && bits h 63 48 == 0 && bits h 47 16 == (if n = m then 0 else 128 * k * n / m)

/-- The A row stride that an `mmas` needs (R442). -/
def sparseStride (d : W512) (h : Nat) : Bool :=
  match mmaA d with
  | some f => decide (packedLen f (mmaK d * hdrN h / hdrM h) ≤ groupWord d 6)
  | none => false

/-- The indices of each group are below M and strictly ascending, and `TRANS` holds what it claims (Table 17.6, R449). -/
def Pattern.valid (p : Pattern) (k : Nat) (trans : Bool) : Bool :=
  ((List.range 128).all fun i => (List.range (k / p.m)).all fun g => (List.range p.n).all fun e =>
    decide (p.at_ k i g e < p.m) && (e = 0 || decide (p.at_ k i g (e - 1) < p.at_ k i g e))) &&
  (!trans || (List.range (128 / p.m)).all fun r => (List.range (k / p.m)).all fun g => (List.range p.m).all fun c =>
    ((List.range p.m).filter fun i => (List.range p.n).any fun e => p.at_ k (p.m * r + i) g e = c).length = p.n)

/-- Reads and checks the sparsity of a command (R447, R448). -/
def State.fetchPattern (s : State) (who : Issuer) (sparse : Bool) (d : W512) : State × Res Pattern :=
  if !sparse then (s, .ok Pattern.dense)
  else
    let h := groupAddr d 12
    andThen (s.fetchRange who h.toNat 8) fun s w =>
      if !headerOk w (mmaK d) then (s, .bad .sparsityHeader h)
      else if !sparseStride d w then (s, .bad .address h)
      else if hdrN w = hdrM w then (s, .ok Pattern.dense)
      else
        let iw := if bits w 9 8 = 0 then 2 else 4
        let count := bits w 47 16
        andThen (s.fetchRange who ((h.toNat + 64) % 2 ^ 64) ((count * iw + 7) / 8)) fun s x =>
          let p : Pattern := ⟨hdrN w, hdrM w, x, iw⟩
          if p.valid (mmaK d) (bits w 7 7 = 1) then (s, .ok p) else (s, .bad .sparsityHeader h)

/-- Where row `r` of slot `q` of a scratch area begins (R444). -/
def areaRow (b rowB q r : Nat) : Nat := b + q * (64 * areaPitch rowB) + r * areaPitch rowB + 4 * ((r + 4 * q) % 32)

/-- Where the scales of slot `q` of a scratch area begin (R444). -/
def areaScales (b rowB q : Nat) : Nat := b + 32 * (64 * areaPitch rowB) + 64 * q + 8

/-- Columns of layout 3 that exist: those with `DIM0` + j below DIM (Table 17.4). -/
def valueColumns (d : W512) (f : Fmt) : Nat := Nat.min 128 (((areaDim f (mmaRowB d)).getD 0) - mmaDim0 d)

/-- The ranges of the B elements (Table 17.4). -/
def bRanges (d : W512) (f : Fmt) : List (Nat × Nat) :=
  let b := (groupAddr d 2).toNat
  let k := mmaK d
  match mmaLayout d with
  | 0 => (List.range 128).map fun j => (b + j * groupWord d 7, packedLen f k)
  | 1 => (List.range k).map fun i => (b + i * groupWord d 7, packedLen f 128)
  | 2 => (List.range 128).map fun j => (areaRow b (mmaRowB d) (mmaSlot d + j / 64) (j % 64), packedLen f k)
  | _ => (List.range k).map fun i =>
    (areaRow b (mmaRowB d) (mmaSlot d + i / 64) (i % 64) + mmaDim0 d * f.width / 8, packedLen f (valueColumns d f))

/-- The ranges of the B scales (Table 17.4). -/
def bScaleRanges (d : W512) (f : Fmt) : List (Nat × Nat) :=
  let b := (groupAddr d 2).toNat
  let k := mmaK d
  if !isNarrow f then []
  else match mmaLayout d with
    | 2 => (List.range 128).map fun j => (areaScales b (mmaRowB d) (mmaSlot d + j / 64), k / 32)
    | 3 => (List.range (k / 32)).map fun g => (areaScales b (mmaRowB d) (mmaSlot d + g / 2) + mmaDim0 d / 32, (valueColumns d f + 31) / 32)
    | _ => (List.range 128).map fun j => ((groupAddr d 10).toNat + j * (k / 32), k / 32)

/-- The ranges of A's packed rows, of `n` elements each, and of its scales (Table 17.4). -/
def aRanges (d : W512) (f : Fmt) (n : Nat) : List (Nat × Nat) :=
  (List.range 128).map fun i => ((groupAddr d 0).toNat + i * groupWord d 6, packedLen f n)
/-- The ranges of A's scales. -/
def aScaleRanges (d : W512) (f : Fmt) : List (Nat × Nat) :=
  if !isNarrow f then []
  else (List.range 128).map fun i => ((groupAddr d 8).toNat + i * (mmaK d / 32), mmaK d / 32)

/-- The operands of a command, as fetched: packed rows and scale rows as numbers. -/
structure MmaData where
  d : W512
  fa : Fmt
  fb : Fmt
  pattern : Pattern
  a : List Nat
  xa : List Nat
  b : List Nat
  xb : List Nat
  deriving DecidableEq, Repr

/-- An entry of a list of numbers. -/
def nth (l : List Nat) (i : Nat) : Nat := (l[i]?).getD 0

/-- a(i, k) (R445). -/
def MmaData.aAt (x : MmaData) (i k : Nat) : Option Val :=
  (x.pattern.element x.fa (mmaK x.d) i (nth x.a i) k).map (elementVal x.fa)

/-- b(k, j) (Table 17.4). -/
def MmaData.bAt (x : MmaData) (k j : Nat) : Val :=
  let code : Nat := match mmaLayout x.d with
    | 0 => packedAt x.fb (nth x.b j) k
    | 2 => packedAt x.fb (nth x.b j) k
    | 1 => packedAt x.fb (nth x.b k) j
    | _ => if j < valueColumns x.d x.fb then packedAt x.fb (nth x.b k) j else 0
  elementVal x.fb code

/-- XA(i, g); 0x7f without scales. -/
def MmaData.xaAt (x : MmaData) (i g : Nat) : Nat := if isNarrow x.fa then bits (nth x.xa i) (8 * g + 7) (8 * g) else 127

/-- XB(g, j); 0x7f without scales, and in the columns of layout 3 that do not exist. -/
def MmaData.xbAt (x : MmaData) (g j : Nat) : Nat :=
  if !isNarrow x.fb then 127
  else match mmaLayout x.d with
    | 3 => if j < valueColumns x.d x.fb then bits (nth x.xb g) (8 * (j / 32) + 7) (8 * (j / 32)) else 127
    | _ => bits (nth x.xb j) (8 * g + 7) (8 * g)

/-- The product a(i, k) × b(k, j): an exact +0 where a is skipped (R310). -/
def MmaData.product (x : MmaData) (i j k : Nat) : Val :=
  match x.aAt i k with
  | none => .fin false 0 0
  | some a => (mulVal a (x.bAt k j)).1

/-- A value scaled by a power of two. -/
def Val.shift (v : Val) (n : Int) : Val :=
  match v with
  | .fin neg m e => .fin neg m (e + n)
  | v => v

/-- One step of R310: the products of a group and c summed exactly, rounded once to the accumulator format, with the
specials of R311. -/
def accumulate (acc : Fmt) (c : Nat) (products : List Val) (scaleNan : Bool) : Nat :=
  if scaleNan then acc.quietNan
  else
    let terms := products ++ [readFloat acc c]
    let v := sumVals terms (terms.all fun t => t.isZero && t.neg)
    ((v.1.write acc .rne false 0).1).toNat

/-- Elements of a group that R310 sums at once. -/
def groupSize (f : Fmt) : Nat :=
  match f with
  | .f64 => 1
  | .f32 => 1
  | .f16 => 4
  | .bf16 => 4
  | _ => 32

/-- The accumulator value of an element after a command (R310). -/
def MmaData.element (x : MmaData) (i j c : Nat) : Nat :=
  let k := mmaK x.d
  if x.fa = .s8 then
    let sum := (List.range k).foldl (fun (a : Int) q => a + (x.product i j q).scaled 0) 0
    (((c : Int) + sum) % 2 ^ 32).toNat
  else
    let acc : Fmt := if x.fa = .f64 then .f64 else .f32
    let n := groupSize x.fa
    (List.range (k / n)).foldl (fun c g =>
      let sa := x.xaAt i g
      let sb := x.xbAt g j
      let by_ : Int := if n = 32 then (sa : Int) + sb - 254 else 0
      accumulate acc c ((List.range n).map fun q => (x.product i j (n * g + q)).shift by_) (n = 32 && (sa = 0xff || sb = 0xff))) c

/-- Fetches everything a multiply needs. -/
def State.fetchMma (s : State) (who : Issuer) (sparse : Bool) (d : W512) : State × Res MmaData :=
  match mmaA d, mmaB d with
  | some fa, some fb =>
    andThen (s.fetchPattern who sparse d) fun s p =>
      andThen (s.fetchRanges who (aRanges d fa (mmaK d * p.n / p.m))) fun s a =>
        andThen (s.fetchRanges who (aScaleRanges d fa)) fun s xa =>
          andThen (s.fetchRanges who (bRanges d fb)) fun s b =>
            andThen (s.fetchRanges who (bScaleRanges d fb)) fun s xb => (s, .ok ⟨d, fa, fb, p, a, xa, b, xb⟩)
  | _, _ => (s, .bad .address 0)

/-- A multiply into its destination tiles (R445). -/
def State.runMma (s : State) (c : MatrixCmd) (sparse acc : Bool) (d : W512) : State × Res Unit :=
  andThen (s.fetchMma c.who sparse d) fun s x =>
    if x.fa = .f64 then
      (s.setTileLongs c.leader c.tile c.partner fun i j => x.element i j (if acc then s.tileLong c.leader c.tile c.partner i j else 0), .ok ())
    else
      (s.setTileWords c.leader c.tile fun i j => x.element i j (if acc then s.tileWord c.leader c.tile i j else 0), .ok ())

/-- A register drain (R451). -/
def State.runDrain (s : State) (c : MatrixCmd) (f64 : Bool) (ctl : W32) (lanes : Mask) : State :=
  let v := ctl.toNat
  let row := bits v 6 0
  let col := bits v 14 8
  let vd := bits v 23 16
  s.onOwnerArea c.who fun w =>
    foldState w (lanesOf lanes) fun w l =>
      if f64 then
        foldState w (List.range 16) fun w m =>
          let e := BitVec.ofNat 64 (s.tileLong c.leader c.tile c.partner (row + l) (col + m))
          (w.setV (vd + 2 * m) l (lo32 e)).setV (vd + 2 * m + 1) l (hi32 e)
      else
        foldState w (List.range 32) fun w m => w.setV (vd + m) l (BitVec.ofNat 32 (s.tileWord c.leader c.tile (row + l) (col + m)))

/-- Magnitude `a` is greater than magnitude `b`: a NaN above every number, an infinity above every finite one (R457). -/
def outranks (a b : Val) : Bool :=
  match a, b with
  | .nan _, .nan _ => false
  | .nan _, _ => true
  | _, .nan _ => false
  | .inf _, .inf _ => false
  | .inf _, _ => true
  | _, .inf _ => false
  | a, b => magLess b a

/-- Inserts an element of a block by precedence (R457): greater magnitude, then lower row, then lower column. -/
def insertRanked (mag : Nat → Nat → Val) (x : Nat × Nat) : List (Nat × Nat) → List (Nat × Nat)
  | [] => [x]
  | y :: ys => if outranks (mag x.1 x.2) (mag y.1 y.2) then x :: y :: ys else y :: insertRanked mag x ys

/-- Elements in order of precedence; they are given by ascending row and column. -/
def ranked (mag : Nat → Nat → Val) (es : List (Nat × Nat)) : List (Nat × Nat) :=
  es.foldl (fun acc x => insertRanked mag x acc) []

/-- The row-wise pattern of a block: the columns kept in each row, ascending (R457). -/
def rowwise (n m : Nat) (mag : Nat → Nat → Val) : List (List Nat) :=
  (List.range m).map fun r => sortBy id (((ranked mag ((List.range m).map fun c => (r, c))).take n).map Prod.snd)

/-- The greedy pass over a block (R457). -/
def greedy (n m : Nat) (mag : Nat → Nat → Val) : List (Nat × Nat) :=
  let all := ((List.range m).map fun r => (List.range m).map fun c => (r, c)).flatten
  (ranked mag all).foldl (fun kept x =>
    if (kept.filter fun y => y.1 = x.1).length < n && (kept.filter fun y => y.2 = x.2).length < n then kept ++ [x] else kept) []

/-- The columns a pattern keeps in a row of a block, ascending. -/
def keptIn (kept : List (Nat × Nat)) (r : Nat) : List Nat := sortBy id ((kept.filter fun x => x.1 = r).map Prod.snd)

/-- Fields of a prune descriptor (Table 17.10): format. -/
def pruneFmt (d : W512) : Fmt := (fmtOf (bits (groupWord d 5) 3 0)).getD .f32
/-- M. -/
def pruneM (d : W512) : Nat := groupM (bits (groupWord d 5) 5 4)
/-- N. -/
def pruneN (d : W512) : Nat := bits (groupWord d 5) 10 6

/-- The magnitude of element (i, k) (R457). -/
def pruneMag (d : W512) (rows scales : List Nat) (i k : Nat) : Val :=
  let f := pruneFmt d
  let v := elementVal f (packedAt f (nth rows i) k)
  if isNarrow f then
    let x := bits (nth scales i) (8 * (k / 32) + 7) (8 * (k / 32))
    if x = 0xff then .nan false else v.shift ((x : Int) - 127)
  else v

/-- What a prune writes: whether the pattern is transposable, and for each row the columns kept, ascending (R457). -/
def prunePattern (d : W512) (rows scales : List Nat) : Bool × List (List Nat) :=
  let m := pruneM d
  let n := pruneN d
  let groups := mmaK d / m
  let mag := fun (r g : Nat) (i c : Nat) => pruneMag d rows scales (m * r + i) (m * g + c)
  let blocks := (List.range (128 / m)).map fun r => (List.range groups).map fun g => greedy n m (mag r g)
  let trans := blocks.all fun bs => bs.all fun b => b.length = m * n
  let row := fun (i : Nat) => ((List.range groups).map fun g =>
    let cols := if trans then keptIn ((((blocks[i / m]?).getD [])[g]?).getD []) (i % m)
      else ((rowwise n m (mag (i / m) g))[i % m]?).getD []
    cols.map fun c => m * g + c).flatten
  (trans, (List.range 128).map row)

/-- Packs a list of codes of `w` bits into one number, the first lowest. -/
def packCodes (w : Nat) (codes : List Nat) : Nat := total (codes.zipIdx.map fun x => x.1 * 2 ^ (w * x.2))

/-- A prune (R456, R457): reads, then writes the packed rows, the index array and the header. -/
def State.runPrune (s : State) (c : MatrixCmd) (d : W512) : State × Res Unit :=
  let f := pruneFmt d
  let k := mmaK d
  let m := pruneM d
  let n := pruneN d
  let scales := if isNarrow f then (List.range 128).map fun i => ((groupAddr d 10).toNat + i * (k / 32), k / 32) else []
  andThen (s.fetchRanges c.who ((List.range 128).map fun i => ((groupAddr d 0).toNat + i * groupWord d 6, packedLen f k))) fun s rows =>
    andThen (s.fetchRanges c.who scales) fun s xs =>
      let p := prunePattern d rows xs
      let h := groupAddr d 8
      let iw := if m = 4 then 2 else 4
      let len := packedLen f (k * n / m)
      let packed := (List.range 128).map fun i =>
        (groupAddr d 2 + BitVec.ofNat 64 (i * groupWord d 7),
         leBytes len (packCodes f.width (((p.2[i]?).getD []).map fun q => packedAt f (nth rows i) q)))
      let codes := (p.2.map fun row => row.map fun q => q % m).flatten
      let array := (h + 64, leBytes ((codes.length * iw + 7) / 8) (packCodes iw codes))
      let head := bits (groupWord d 5) 5 4 + n * 4 + (if p.1 then 128 else 0) + (if m = 4 then 0 else 256) + codes.length * 2 ^ 16
      runUntil s (packed ++ [array, (h, leBytes 8 head)]) fun s x => s.writeElement c.who none x.1 x.2

/-- The first command of a pair's queue. -/
def State.headCommand (s : State) (leader : Nat) : Option MatrixCmd := s.matrix.find? fun c => c.leader = leader

/-- Removes the first command of a pair's queue from a list of commands. -/
def dropHead (leader : Nat) : List MatrixCmd → List MatrixCmd
  | [] => []
  | c :: cs => if c.leader = leader then cs else c :: dropHead leader cs

/-- Replaces the first command of a pair's queue. -/
def setHead (c' : MatrixCmd) : List MatrixCmd → List MatrixCmd
  | [] => []
  | c :: cs => if c.leader = c'.leader then c' :: cs else c :: setHead c' cs

/-- The first command of a pair's queue has ended. -/
def State.endCommand (s : State) (leader : Nat) : State := ({ s with matrix := dropHead leader s.matrix } : State).wakeWaiting

/-- What a faulted command leaves in its tiles (R440). -/
def State.spoilTiles (s : State) (c : MatrixCmd) : State :=
  match c.op with
  | .mma _ _ d =>
    match mmaA d with
    | some .f64 => s.setTileLongs c.leader c.tile c.partner fun _ _ => 0x7ff8000000000000
    | some .s8 => s.setTileWords c.leader c.tile fun _ _ => 0x80000000
    | _ => s.setTileWords c.leader c.tile fun _ _ => 0x7fc00000
  | _ => s

/-- A command faults as it runs (R440): its tiles are spoilt, and the issuing warp holds the fault. A second held fault
is counted, and a warp that is gone raises a context fault. -/
def State.faultCommand (s : State) (c : MatrixCmd) (cause : Cause) (a : W64) : State :=
  let s := ((s.spoilTiles c).endCommand c.leader).dropRefusals c.who.ctx fun d => d = coreDie c.leader
  let i : FaultInfo := ⟨cause, 0xff, 0, a, 0xff, 0, false, none⟩
  match s.owner? c.who with
  | none => s.faultContext c.who.ctx c.who.warp 0 0 cause
      (recordBytes 0 a 0 0 cause.code 0xff 0xff false false c.who.warp 0 (s.refTime c.who.ctx))
  | some w =>
    if w.heldFault.isSome then s.countError c.who.ctx
    else s.onOwnerArea c.who fun w => { w with heldFault := some ⟨i, c.tile, c.partner, !c.op.named⟩ }

/-- Rate of a command in sixteenths of a K element per cycle (Tables 5.3 and 17.3). -/
def rate16 (a b : Option Fmt) : Nat :=
  match a with
  | some .f64 => 1
  | some .f32 => 2
  | some .f16 => 8
  | some .bf16 => 8
  | _ => if a = some .e2m1 && b = some .e2m1 then 32 else 16

/-- The predicted cycles of a multiply with `n` of `m` elements kept (R123). -/
def predictCycles (d : W512) (n m : Nat) : Nat :=
  let num := mmaK d * Nat.max (4 * n) m * 16
  let den := 4 * m * rate16 (mmaA d) (mmaB d)
  (num + den - 1) / den + 24

/-- `MATRIX_COMMAND_START`: the head of a pair's queue starts (R439). An `mmas` checks its header and stride (R442, R448);
a multiply receives its prediction (R123); an epilogue drain waits for the previous epilogue's stores (R453). -/
def execMatrixCommandStart (leader : Nat) (s : State) : Out :=
  .next (match s.headCommand leader with
    | none => s
    | some c =>
      if c.started then s
      else
        let go := fun (s : State) (p : Option Nat) =>
          { s with matrix := setHead { c with started := true, predicted := p, since := s.ticks } s.matrix }
        match c.op with
        | .mma sparse _ d =>
          if sparse then
            let h := groupAddr d 12
            match s.fetchRange c.who h.toNat 8 with
            | (s', .ok w) =>
              if !headerOk w (mmaK d) then s'.faultCommand c .sparsityHeader h
              else if !sparseStride d w then s'.faultCommand c .address h
              else go s' (some (s.cyclesOf (coreDie leader) + predictCycles d (hdrN w) (hdrM w)))
            | (s', .bad cause a) => s'.faultCommand c cause a
            | (_, .absent page) => s.requestPage c.who.ctx page
            | (_, .wait) => s
          else go s (some (s.cyclesOf (coreDie leader) + predictCycles d 1 1))
        | .epilogue .. => if s.epilogues.any fun e => e.leader = leader then s else go s none
        | _ => go s none)

/-- `TILE_EXPECTED`: the destination is marked 40 cycles before the predicted completion (R124). -/
def execTileExpected (leader : Nat) (s : State) : Out :=
  .next (match s.headCommand leader with
    | none => s
    | some c =>
      match c.predicted with
      | some p => if c.started ∧ p ≤ s.cyclesOf (coreDie leader) + 40 then { s with matrix := setHead { c with expected := true } s.matrix } else s
      | none => s)

/-- The tiles that a wait names to cover a command (R458). -/
def MatrixCmd.tiles (c : MatrixCmd) : List Nat := if c.op.named then [c.tile, c.partner] else []

/-- Ends a run of a command in the way its answer says (R440); its writes wait for their `mwait` (R458). -/
def State.endRun (s : State) (c : MatrixCmd) (r : State × Res Unit) : State :=
  match r with
  | (s', .ok _) => (s'.finishedBy c.who [(none, c.tiles)] s.nextWrite).endCommand c.leader
  | (s', .bad cause a) => (s'.finishedBy c.who [(none, c.tiles)] s.nextWrite).faultCommand c cause a
  | (_, .absent page) => s.requestPage c.who.ctx page
  | (_, .wait) => s

/-- The staging buffer of one core of an epilogue drain (R453). -/
def State.stage (s : State) (c : MatrixCmd) (f64 : Bool) (d : W512) (half : Nat) : Epilogue :=
  ⟨c.leader + half, c.leader, c.who, c.tile, f64, d, s.tileBytes (c.leader + half) c.tile, 0, if f64 then 4096 else 8192,
    [], none, false⟩

/-- `MATRIX_COMMAND_COMPLETE`: the running command's results are in place (R439, R445, R450, R451, R453, R456). -/
def execMatrixCommandComplete (leader : Nat) (s : State) : Out :=
  .next (match s.headCommand leader with
    | none => s
    | some c =>
      if !c.started then s
      else match c.op with
        | .mma sparse acc d => s.endRun c (s.runMma c sparse acc d)
        | .zero => (s.setTileWords leader c.tile fun _ _ => 0).endCommand leader
        | .drain f64 ctl lanes => (s.runDrain c f64 ctl lanes).endCommand leader
        | .epilogue f64 d =>
          ({ s with epilogues := s.epilogues ++ [s.stage c f64 d 0, s.stage c f64 d 1] } : State).endCommand leader
        | .peer .. => s
        | .prune d => s.endRun c (s.runPrune c d))

/-- The output format of an epilogue (Table 17.8). -/
def Epilogue.out (e : Epilogue) : Nat := bits (groupWord e.desc 6) 3 0

/-- One staged value after scaling, bias and activation (R453). -/
def Epilogue.value (e : Epilogue) (code : Nat) (bias : Option Nat) : Nat :=
  let alpha := groupWord e.desc 5
  let act := bits (groupWord e.desc 6) 7 4
  let y := ((((mulVal (readFloat .f32 code) (readFloat .f32 alpha)).1).ideal.write .f32 .rne false 0).1).toNat
  let y := match bias with
    | some b => ((addIdeal .rne (readFloat .f32 y) (readFloat .f32 b)).1.write .f32 .rne false 0).1.toNat
    | none => y
  let v := readFloat .f32 y
  if act = 1 then (if v.isNan then y else if v.isZero || v.neg then 0 else y)
  else if act = 2 then (tanh (BitVec.ofNat 32 y) v).1.toNat
  else y

/-- What one unit of an epilogue stores (R453): (address, bytes) pairs in order, given its bias values. -/
def Epilogue.unit (e : Epilogue) (k : Nat) (bias : Nat → Option Nat) : List (W64 × List Byte) :=
  let per := if e.f64 then 2 else 4
  let local_ := k / per
  let u := k % per
  let row := 64 * (e.core - e.leader) + local_
  let d := groupAddr e.desc 0 + BitVec.ofNat 64 (row * groupWord e.desc 4)
  if e.f64 then [(d + BitVec.ofNat 64 (256 * u), (e.data.drop (512 * local_ + 256 * u)).take 256)]
  else if e.out = 0xa then [(d + BitVec.ofNat 64 (128 * u), (e.data.drop (512 * local_ + 128 * u)).take 128)]
  else
    let f := (fmtOf e.out).getD .f32
    let codes := (List.range 32).map fun j =>
      e.value (leNat ((e.data.drop (512 * local_ + 4 * (32 * u + j))).take 4)) (bias j)
    let vals := codes.map (readFloat .f32)
    let at_ := d + BitVec.ofNat 64 (32 * u * f.width / 8)
    if isNarrow f then
      let x := groupScale f vals
      let es := vals.map fun v => (groupElement f x .rne v).1.toNat
      [(groupAddr e.desc 8 + BitVec.ofNat 64 (4 * row + u), leBytes 1 x), (at_, leBytes (4 * f.width) (packCodes f.width es))]
    else
      let sat : Bool := bits (groupWord e.desc 6) 9 9 = 1
      let es := vals.map fun v => (toFloat f .rne sat v).1.toNat
      [(at_, leBytes (4 * f.width) (packCodes f.width es))]

/-- The bias values of a unit, read at their place (R453). -/
def State.fetchBias (s : State) (e : Epilogue) (k : Nat) : State × Res (List Nat) :=
  let per := if e.f64 then 2 else 4
  let base := (groupAddr e.desc 2).toNat
  if base = 0 then (s, .ok [])
  else if bits (groupWord e.desc 6) 8 8 = 1 then s.fetchRanges e.who [(base + 4 * (64 * (e.core - e.leader) + k / per), 4)]
  else s.fetchRanges e.who ((List.range 32).map fun j => (base + 4 * (32 * (k % per) + j), 4))

/-- Checks every write of a unit and leaves its elements to be written, eight bytes each at most (R230, R453). -/
def State.openUnit (s : State) (e : Epilogue) : State × Res Epilogue :=
  let k := e.stored / 32
  andThen (s.fetchBias e k) fun s bs =>
    let bias := fun (j : Nat) => match bs with
      | [] => none
      | [b] => some b
      | _ => some (nth bs j)
    let writes := e.unit k bias
    let checked := writes.foldl (fun (acc : Res Unit) x => acc.bind fun _ =>
      match s.access e.who .write x.1 x.2.length with
      | .ok _ => .ok ()
      | .bad c a => .bad c (if a = 0 then x.1 else a)
      | .absent p => .absent p
      | .wait => .wait) (.ok ())
    (s, checked.bind fun _ => .ok { e with pieces := (writes.map fun x => elementsOf 8 x.1 x.2).flatten })

/-- Offset of the elements stored in the header of a core section (Table 7.9). -/
def storedAt (core : Nat) : Nat := sectionAt core + 0x28

/-- The next step of an epilogue (R453): a unit is begun, or its next element is written. With the last one of a unit the core
header records the elements stored (R192). -/
def State.stepEpilogue (s : State) (e : Epilogue) : State × Res Epilogue :=
  match e.pieces with
  | [] => if e.stored < e.total then s.openUnit e else (s, .ok e)
  | x :: rest =>
    match s.writeElement e.who none x.1 x.2 with
    | (t, .ok _) =>
      let t := t.finishedBy e.who [(none, [e.tile])] s.nextWrite
      if rest = [] then
        (t.writeSave e.who.ctx (storedAt e.core) (leBytes 4 (e.stored + 32)), .ok { e with pieces := [], stored := e.stored + 32 })
      else (t, .ok { e with pieces := rest })
    | (t, .bad c a) => (t, .bad c a)
    | (t, .absent p) => (t, .absent p)
    | (t, .wait) => (t, .wait)

/-- Runs an epilogue from where it stands: the machine, the epilogue as it then stands, and how it ended. A unit takes at most
34 steps. -/
def State.runEpilogue (s : State) (e : Epilogue) : State × Epilogue × Res Unit :=
  (List.range (34 * ((e.total - e.stored) / 32) + 34)).foldl (fun (acc : State × Epilogue × Res Unit) _ =>
    match acc.2.2 with
    | .ok _ =>
      match acc.1.stepEpilogue acc.2.1 with
      | (t, .ok e') => (t, e', .ok ())
      | (t, .bad c a) => (t, acc.2.1, .bad c a)
      | (t, .absent p) => (t, acc.2.1, .absent p)
      | (t, .wait) => (t, acc.2.1, .wait)
    | _ => acc) (s, e, .ok ())

/-- Replaces or removes an epilogue. -/
def State.putEpilogue (s : State) (old : Epilogue) (e : Option Epilogue) : State :=
  { s with epilogues := (s.epilogues.filter fun x => x ≠ old) ++ e.toList }

/-- One step of a core's running epilogue (R192, R453); a store to an absent page asks for it. -/
def State.storeOne (s : State) (core : Nat) : State :=
  match s.epilogues.find? fun e => e.core = core && e.fault.isNone with
  | none => s
  | some e => match s.stepEpilogue e with
    | (t, .ok e') => t.putEpilogue e (some e')
    | (_, .absent page) => s.requestPage e.who.ctx page
    | _ => s

/-- `EPILOGUE_COMPLETE`: every store of both cores of a pair that meets no fault is performed (R453). -/
def execEpilogueComplete (leader : Nat) (s : State) : Out :=
  .next ((foldState s (s.epilogues.filter fun e => e.leader = leader && e.fault.isNone) fun s e =>
    match s.runEpilogue e with
    | (s', _, .ok _) => s'.putEpilogue e none
    | (_, _, .absent page) => s.requestPage e.who.ctx page
    | _ => s).wakeWaiting)

/-- `EPILOGUE_STORE_FAULT`: a store of a core's epilogue faults; what has been stored stays (R192). -/
def execEpilogueStoreFault (core : Nat) (s : State) : Out :=
  .next (match s.epilogues.find? fun e => e.core = core && e.fault.isNone with
    | none => s
    | some e =>
      match s.runEpilogue e with
      | (s', e', .bad cause a) =>
        let n := BitVec.ofNat 64 e'.stored
        let i : FaultInfo := ⟨cause, 0xff, 0, a, 0xff, n, true, none⟩
        let s' := s'.putEpilogue e (some { e' with fault := some i, reported := false })
        if (s'.owner? e.who).isSome then s'.wakeWaiting
        else s'.faultContext e.who.ctx e.who.warp 0 0 cause
          (recordBytes 0 a 0 0 cause.code 0xff 0xff true false e.who.warp n (s.refTime e.who.ctx))
      | (_, _, .absent page) => s.requestPage e.who.ctx page
      | _ => s)

/-- The leader core of a peer destination word, on the issuing die (Table 17.9). -/
def peerLeader (leader : Nat) (d : Nat) : Nat := 96 * coreDie leader + 4 * bits d 4 0 + 2 * bits d 5 5

/-- The tile register that a peer destination names, numbered as by the context's warps on that pair, whether they are in
their slots or swapped out (R183, R455). -/
def State.peerTile (s : State) (ctx core tile : Nat) : Option Nat :=
  let saved := (((s.context? ctx).bind fun c => c.saved).map fun v => v.warps).getD []
  ((s.warps ++ saved).find? fun w => w.ctx = ctx && w.id.core / 2 = core / 2 && w.pier.isNone).bind fun w => w.tiles[tile]?

/-- `MPEER_ADD`: the sequence word has reached the peer index at the head of the queue: the tile is added into the
destination at its next command boundary, and the word becomes p + 1 with release at `.die` (R455). -/
def execMpeerAdd (leader : Nat) (s : State) : Out :=
  .next (match s.headCommand leader with
    | none => s
    | some c =>
      match c.op with
      | .peer s32 dst seq =>
        let d := dst.toNat
        let p := bits d 20 16
        let far := peerLeader leader d
        if !c.started then s
        else match s.peerTile c.who.ctx far (bits d 10 8) with
          | none => s.faultCommand c .remote 0
          | some t =>
            match s.access c.who .atomic seq 8 with
            | .ok ps =>
              let s := s.drainOver leader ps fun _ => true
              let busy : Bool := far ≠ leader && match s.headCommand far with | some x => x.started | none => false
              if leNat (ps.map (s.placeByte leader)) ≠ p ∨ busy then s
              else
                let add := fun (i j : Nat) =>
                  let x := s.tileWord far t i j
                  let y := s.tileWord leader c.tile i j
                  if s32 then (x + y) % 2 ^ 32 else (add32 (BitVec.ofNat 64 x) (BitVec.ofNat 64 y)).1.toNat
                let s := s.setTileWords far t add
                let s := foldState s (linesAt ps) fun s l => (s.evictStash l fun _ => true).dropL1 leader c.who.ctx l
                let needs := s.releasing (((s.owner? c.who).map fun w => w.relSeq).getD []) .die
                let s := s.releaseNow c.who.warp .die
                (s.ownWrite c.who.warp c.who.ctx needs false (ps.zip (leBytes 8 (p + 1)))).endCommand leader
            | .bad cause a => s.faultCommand c cause a
            | .absent page => s.requestPage c.who.ctx page
            | .wait => s
      | _ => s)

/-- `MPEER_TIMEOUT`: the word has not reached the index within 1 ms of reference time of the command's reaching the head
(R455). -/
def execMpeerTimeout (leader : Nat) (s : State) : Out :=
  .next (match s.headCommand leader with
    | none => s
    | some c =>
      match c.op with
      | .peer _ dst seq =>
        if !c.started ∨ s.ticks < c.since + 100000 then s
        else match s.access c.who .atomic seq 8 with
          | .ok ps =>
            if leNat (ps.map (s.placeByte leader)) = bits dst.toNat 20 16 then s else s.faultCommand c .remote 0
          | _ => s.faultCommand c .remote 0
      | _ => s)

/-- A matrix command enters its pair's queue at commit (R439). A multiply and a register drain with FP64 elements name two tiles
(R442, R451), any other command one. -/
def State.commitMatrix (s : State) (w : Warp) (tile : Nat) (op : MatrixOp) : State :=
  let f64 : Bool := match op with
    | .mma _ _ d => mmaA d = some .f64
    | .drain b .. => b
    | _ => false
  let t := (tilesFor w tile f64).getD (0, 0)
  { s with matrix := s.matrix ++ [⟨w.id.core, w.issuer, t.1, t.2, op, false, none, false, s.ticks⟩] }

end Sys2Proof.Machine
end

