-- ==== Sys2Proof/Machine/Work.lean ====
section
/-!
DEFINITION. Work queue, join and ballot instructions (spec/16_isa_sync_work_system.md R421 to R427;
spec/05_scheduler.md R105 to R118, R128, R129; spec/06_execution_model.md R153).
-/
namespace Sys2Proof.Machine

/-- The replay entry of the block's strand, where it is for this block (R153). -/
def State.kept? (s : State) (f : Frame) : Option Replay :=
  (((s.frameWarp f).strand? f.strand).bind fun st => st.replay).filter fun r => r.block = f.pc

/-- Ends an irrevocable instruction that sends one status to both targets of its performing lanes (R421, R424, R426). -/
def State.sendStatus (s : State) (f : Frame) (g : G) (m : Mask) (status : W64) (mark : Nat) : State :=
  let tok := tokenOf fun l => if m.getLsbD l then some status else none
  s.fired ({ (f.send g.t1 tok).send g.t0 tok with bound := some ⟨f.pc, m, tok, none, mark, false⟩ })

/-- The status that a replay entry keeps. -/
def Replay.status (r : Replay) : W64 := (((lowestLane r.lanes).bind fun l => tokenAt r.tok l)).getD 0

/-- The queue range a `deq` names (R105, R421). -/
def deqRange (w : Warp) (a : W64) : Nat × Nat :=
  let n := (a.extractLsb' 32 16).toNat
  if n = 0 then (w.launchFirst, w.launchCount) else ((a.extractLsb' 0 32).toNat, n)

/-- Does a `deq` fault as it fires (R421)? -/
def deqBad (w : Warp) (a : W64) : Bool :=
  a.extractLsb' 48 16 != (0 : BitVec 16) ||
  (a.extractLsb' 32 16 != (0 : BitVec 16) && decide (65536 < (a.extractLsb' 0 32).toNat + (a.extractLsb' 32 16).toNat)) ||
  decide (1 < w.strands.length)

/-- A warp lets go of its record and its `EXCL` hold when a `deq` fires (R84, R422). -/
def State.releaseRecord (s : State) (w : Warp) : State :=
  let s := s.endExcl w
  let s := s.onWarp w.id fun w => { w with held := none }
  match w.held with
  | some h => if recGroup h.record = 0 then s else s.retireSiblings w.ctx (recGroup h.record)
  | none => s

/-- `deq` (R112, R421). -/
def execDeq (g : G) (group : BitVec 2) (s : State) : Out :=
  fromLowest g.pred [.a, .b] s fun f l m =>
    let w := s.frameWarp f
    let a := f.val .a l
    let f := s.noteFirst f
    match s.kept? f with
    | some r => s.setFrame (f.finishDeq g group.toNat (r.record.map fun x => (x, r.queue)))
    | none =>
      if deqBad w a then s.faulted (f.addFaults .queue m 0)
      else
        let s := s.releaseRecord w
        let q := deqRange w a
        match s.answer rounds { w with held := none } q.1 q.2 [] with
        | (s, .record r n, woken) => ((s.setFrame (f.finishDeq g group.toNat (some (r, n)))).wake rounds woken).reportAll
        | (s, .blocked, woken) => ((s.setFrame f).waitHere.wake rounds woken).reportAll
        | (s, .empty, woken) =>
          let tmo : W32 := match w.deqLeft with
            | some (k, t) => if k = f.strand then t else f.val32 .b l
            | none => f.val32 .b l
          let s := s.onWarp w.id fun w => { w with deqLeft := none }
          let s :=
            if tmo = 0 then s.setFrame (f.finishDeq g group.toNat none)
            else
              let s := { s with frames := s.frames.tail ++ [{ f with waiting := true }] }
              s.onWarp w.id fun w => { w with status := .parkedDeq ⟨f.strand, q.1, q.2, tmo, s.ticks⟩ }
          (s.wake rounds woken).reportAll

/-- The rounding seed of the launch record that a record names (Table 4.8). -/
def State.roundingSeed (s : State) (ctx die : Nat) (r : W512) : Nat :=
  match s.launchAt ctx die (recLaunch r) with
  | some bs => field bs 4 4
  | none => 0

/-- The LFSR that a delivery sets in a deterministic context (R256). -/
def deliveryLfsr (seed : Nat) (r : W512) : W32 :=
  let a : W64 := r.extractLsb' 352 64
  let b : W64 := zext (r.extractLsb' 416 32)
  let x := lo32 (mix64 (mix64 (BitVec.ofNat 64 seed ^^^ a) ^^^ (b ^^^ (BitVec.ofNat 64 (recSib r) <<< 32))))
  if x = 0 then 1 else x

/-- A delivery at the commit of its block (R421). -/
def State.commitDeq (s : State) (f : Frame) (group : Nat) (record : Option W512) : State :=
  match record with
  | none => s
  | some r =>
    let w := s.frameWarp f
    let seed := s.roundingSeed w.ctx (coreDie w.id.core) r
    let det := s.deterministic w.ctx
    let excl : Option Nat := if r.getLsbD 348 then some 1 else none
    let s := s.onWarp f.warp fun w =>
      { w.setGroup group r with
        lvl := (List.range 8).map fun i => if i < 6 then recLevel r i else 0
        held := some ⟨r, f.pc, excl⟩
        lfsr := if det then deliveryLfsr seed r else w.lfsr }
    s.acquire f.warp w.ctx f.active .pkg

/-- `enq` (R77, R79, R424). -/
def execEnq (g : G) (group : BitVec 2) (s : State) : Out :=
  fromLowest g.pred [.a] s fun f l m =>
    let w := s.frameWarp f
    match s.kept? f with
    | some r => s.sendStatus f g m r.status r.queue
    | none =>
      match (s.queue? (f.val32 .a l).toNat).filter fun q => q.ctx = w.ctx with
      | none => s.faulted (f.addFaults .queue m 0)
      | some q =>
        let s := s.releaseNow f.warp .pkg
        let r := s.enqueueWake ((s.queue? q.num).getD q) (f.group group.toNat)
        r.1.sendStatus f g m (if r.2 then 0 else 1) 0

/-- `join` (R425): the object is checked when it fires. -/
def execJoin (pred : Pred) (counted : Bool) (s : State) : Out :=
  inBlock s fun f =>
    let lanes := f.performing pred (if counted then [.a, .b] else [.a])
    let acc := lanes.foldl (fun (x : Frame × List (Nat × W64 × List Place × W64) × Bool) l =>
      let a := f.val .a l
      if a.toNat % 128 ≠ 0 then (x.1.addFault .alignment l a, x.2.1, x.2.2)
      else match s.atomicPlaces (s.who f) .add true false a with
        | .wait => (x.1, x.2.1, true)
        | .ok ps => (x.1, x.2.1 ++ [(l, a, ps, if counted then f.val .b l else 1)], x.2.2)
        | bad => (x.1.met l a bad, x.2.1, x.2.2)) (f, [], false)
    (⟨s, acc.1, acc.2.2⟩ : Lanes).finish s fun s f => s.defer f (.join acc.2.1)

/-- How one decrement of a join object ends (R117, R118): done, with the queue that received the continuation; or no
room, or no such queue, with nothing done. -/
inductive JoinEnd where
  | done (arrived : Option Arrived)
  | full
  | noQueue
  deriving DecidableEq, Repr

/-- One decrement by a thread, as one step at the object, with release at `.pkg` (R117, R118, R223, R425). -/
def State.joinAt (s : State) (who : Issuer) (a : W64) (n : W64) : State × JoinEnd :=
  match s.access who .atomic a 128 with
  | .ok ps =>
    let core := who.warp.core
    let s' := s.drainOver core ps fun _ => true
    let needs := s.releasing (((s.warp? who.warp).map fun w => w.relSeq).getD []) .pkg
    let s' := foldState s' (linesAt ps) fun s l => (s.evictStash l fun _ => true).dropL1 core who.ctx l
    let num := fun (lo k : Nat) => leNat (((ps.drop lo).take k).map (s'.placeByte core))
    let new := BitVec.ofNat 64 (num 0 8) - n
    let put := fun (s : State) => s.ownWrite who.warp who.ctx needs true ((ps.take 8).zip (leBytes 8 new.toNat))
    if n.slt 0 || n = 0 then (put s', .done none)
    else if new = 0 then
      match (s'.queue? (num 8 4)).filter fun q => q.ctx = who.ctx && q.enable with
      | none => (s, .noQueue)
      | some q =>
        if 2 ^ q.log2n - 1 ≤ q.count then (s, .full)
        else
          let cont := BitVec.ofNat 512 (num 64 64)
          let s' := put s'
          ((s'.enqueue ((s'.queue? q.num).getD q) cont).1, .done (some (q.num, ((s'.queue? q.num).getD q).tail)))
    else if new.slt 0 then ((put s').countError who.ctx, .done none)
    else (put s', .done none)
  | _ => (s, .noQueue)

/-- The decrements of a `join` in their order: the continuations that came into queues, the lanes that found no queue
(R118, R169), and whether one found its queue full. A lane after one that does not go through finds the objects as the
lanes before left them. -/
def State.joinLanes (s : State) (who : Issuer) (lanes : List (Nat × W64 × List Place × W64)) :
    State × List Arrived × List Nat × Bool :=
  lanes.foldl (fun (acc : State × List Arrived × List Nat × Bool) x =>
    match (acc.1.releaseNow who.warp .pkg).joinAt who x.2.1 x.2.2.2 with
    | (s, .done q) => (s, acc.2.1 ++ q.toList, acc.2.2)
    | (_, .noQueue) => (acc.1, acc.2.1, acc.2.2.1 ++ [x.1], acc.2.2.2)
    | (_, .full) => (acc.1, acc.2.1, acc.2.2.1, true)) (s, [], [], false)

/-- A post of the sibling of the held record (R426). A post that decides its group is marked in the bound token's queue
field (R135). -/
def postOp (g : G) (fail : Bool) (s : State) : Out :=
  fromLowest g.pred [.a] s fun f l m =>
    let w := s.frameWarp f
    match s.kept? f with
    | some r => s.sendStatus f g m r.status r.queue
    | none =>
      match w.held.filter fun h => recGroup h.record ≠ 0 with
      | none => s.faulted (f.addFaults .queue m 0)
      | some h =>
        let handle := recGroup h.record
        let before := ((s.group? w.ctx handle).map fun x => x.decided.isSome).getD true
        let r := s.post w.ctx handle (recSib h.record) (if fail then none else some (f.val .a l))
        let after := ((r.1.group? w.ctx handle).map fun x => x.decided.isSome).getD true
        let s := r.1.retireSiblings w.ctx handle
        s.sendStatus f g m (BitVec.ofNat 64 r.2) (if !before && after then 1 else 0)

/-- `sbpost` (R426). -/
def execSbpost (g : G) (s : State) : Out := postOp g false s

/-- `sbpost.fail` (R426). -/
def execSbpostFail (g : G) (s : State) : Out := postOp g true s

/-- The second word of `sbquery` (R427). -/
def Group.word (g : Group) : W64 :=
  let d := g.decided.getD ⟨0, 0, 0, 0, 0, 0⟩
  BitVec.ofNat 64 (d.method + d.votes * 2 ^ 8 + (g.siblings.filter fun x => x.state = .running).length * 2 ^ 16)

/-- `sbquery` (R427). -/
def execSbquery (g : G) (s : State) : Out :=
  inBlock s fun f =>
    let ctx := (s.frameWarp f).ctx
    s.sendPair f g fun l =>
      match f.arg .a l with
      | none => (none, none)
      | some a => match s.group? ctx (a.extractLsb' 0 16).toNat with
        | some x => (some ((x.decided.map fun d => d.hash).getD 0), some x.word)
        | none => (some 0, some ((1 : W64) <<< 31))

end Sys2Proof.Machine
end

