-- ==== Sys2Proof/Machine/Near.lean ====
section
/-!
DEFINITION. Near-memory calls, near-bank units, gradient compression and reduction packets
(spec/10_near_memory.md R258 to R291; spec/16_isa_sync_work_system.md R428 to R433).
-/
namespace Sys2Proof.Machine

/-- A bound window of a context that new calls and packets may use (R99, R280). -/
def State.window? (s : State) (ctx stack idx : Nat) : Option Window :=
  s.windows.find? fun w => w.ctx = ctx && w.stack = stack && w.idx = idx && !w.closing

/-- `nmcall` (R263, R428). -/
def execNmcall (pred : Pred) (group : BitVec 2) (s : State) : Out :=
  fromLowest pred [.a, .b, .c] s fun f l m =>
    let w := s.frameWarp f
    let ret := f.val .a l
    let call := f.val .b l
    let entry := f.val .c l
    let bad := fun (c : Cause) (a : W64) => s.faulted (f.addFaults c m a)
    if call.extractLsb' 4 4 ≠ 0 ∨ call.extractLsb' 14 2 ≠ 0 ∨ call.extractLsb' 22 42 ≠ 0 then bad .address 0
    else match s.window? w.ctx (call.extractLsb' 0 4).toNat (call.extractLsb' 8 6).toNat with
      | none => bad .window 0
      | some _ =>
        if (w.phaserId? (zext (call.extractLsb' 16 6))).isNone then bad .barrier 0
        else if entry.toNat % 16 ≠ 0 then bad .alignment entry
        else if ret.toNat % 64 ≠ 0 then bad .address ret
        else match s.access (s.who f) .write ret 64 with
          | .wait => s.waitHere
          | .ok _ => s.defer f (.nmcall ret call entry (f.group group.toNat) false)
          | r => s.faulted (f.metAll m ret r)

/-- `nmcall` at commit: its earlier accesses are ordered, and the call goes towards its stack (R264); `refused` where its
window has been unmapped since it fired (R268). -/
def State.commitNmcall (s : State) (w : Warp) (ret call entry : W64) (msg : W512) (refused : Bool) : State :=
  let s := s.releaseNow w.id .pkg
  let c : Call := {
    stack := (call.extractLsb' 0 4).toNat, id := s.nextCall, ctx := w.ctx, core := w.id.core
    windowIdx := (call.extractLsb' 8 6).toNat, entry := entry, msg := msg, ret := ret
    phaser := (w.phaserId? (zext (call.extractLsb' 16 6))).getD 0
    queued := false, moment := 0, started := false, since := 0, refused := refused, timedOut := false, payload := [], fault := none }
  { s with calls := s.calls ++ [c], nextCall := s.nextCall + 1 }

/-- Calls of a stack that take room in its queue (R263). -/
def State.waitingCalls (s : State) (stack : Nat) : Nat := (s.calls.filter fun c => c.stack = stack && !c.started).length

/-- `nmret` (R430). -/
def execNmret (pred : Pred) (s : State) : Out :=
  inBlock s fun f => if f.performing pred [] = [] then s.fired f else s.defer f .nmret

/-- `nmret` at commit: the warp ends, and warp 0 supplies s0 to s11 (R266, R430). -/
def State.commitNmret (s : State) (id : WarpId) : State :=
  match s.warp? id with
  | none => s
  | some w => match w.pier with
    | some p => s.endPierWarp w p none (some ((List.range 12).map fun i => leBytes 4 (w.sreg i).toNat).flatten)
    | none => s

/-- `nbmode` (R276, R278, R432). -/
def execNbmode (g : G) (compute : Bool) (s : State) : Out :=
  fromLowest g.pred [.a] s fun f l m =>
    let stack := match (s.frameWarp f).pier with | some p => p.stack | none => 0
    let n := (s.nearBank stack).request compute (f.val .a l)
    let s := s.setNearBank stack n
    let all := fun (v : W64) => tokenOf fun k => if m.getLsbD k then some v else none
    s.fired ((f.send g.t0 (all n.cmode)).send g.t1 (all n.pending))

/-- Folds the values that are present, from left to right (R273). -/
def foldParts (op : Nat → Nat → Nat) (xs : List (Option Nat)) : Option Nat :=
  xs.foldl (fun acc x => match acc, x with
    | some a, some b => some (op a b)
    | none, b => b
    | a, none => a) none

/-- The fixed tree of R273 over elements tagged with their unit: 256 leaves, 64 pseudo-channels, 32 channels, the core. -/
def nbTree (leaf : Nat → Option Nat) (op : Nat → Nat → Nat) : Option Nat :=
  let pseudo := fun (p : Nat) => foldParts op ((List.range 4).map fun b => leaf (4 * p + b))
  let channel := fun (c : Nat) => foldParts op [pseudo (2 * c), pseudo (2 * c + 1)]
  foldParts op ((List.range 32).map channel)

/-- FP32 addition of codes, to nearest even. -/
def addCode (a b : Nat) : Nat := (add32 (BitVec.ofNat 64 a) (BitVec.ofNat 64 b)).1.toNat

/-- FP32 multiplication of codes, to nearest even. -/
def mulCode (a b : Nat) : Nat :=
  ((((mulVal (readFloat .f32 a) (readFloat .f32 b)).1).ideal.write .f32 .rne false 0).1).toNat

/-- FP32 a × b + c of codes, rounded once. -/
def fmaCode (a b c : Nat) : Nat :=
  let p := (mulVal (readFloat .f32 a) (readFloat .f32 b)).1
  ((addIdeal .rne p (readFloat .f32 c)).1.write .f32 .rne false 0).1.toNat

/-- A code with its sign turned. -/
def negCode (a : Nat) : Nat := if a < 2 ^ 31 then a + 2 ^ 31 else a - 2 ^ 31

/-- exp2(a − b) of codes. -/
def expCode (a b : Nat) : Nat :=
  (expsub (BitVec.ofNat 32 a) (BitVec.ofNat 32 b) (readFloat .f32 a) (readFloat .f32 b)).1.toNat % 2 ^ 32

/-- One combination of scaled-exponential-sum pairs, m in the low word (Table 10.5): a NaN m makes both NaN (R309). -/
def sesCode (a b : Nat) : Nat :=
  let m1 := a % 2 ^ 32
  let s1 := a / 2 ^ 32
  let m2 := b % 2 ^ 32
  let s2 := b / 2 ^ 32
  let m := (minMax .f32 true true m1 m2).1.toNat
  let s := addCode (mulCode s1 (expCode m1 m)) (mulCode s2 (expCode m2 m))
  m + s * 2 ^ 32

/-- The combination of an operator (Table 10.5). -/
def nbCombine (op : NbOp) (a b : Nat) : Nat :=
  match op with
  | .fsum => addCode a b
  | .isum => (a + b) % 2 ^ 32
  | .fmax => (minMax .f32 true false a b).1.toNat
  | .ses => sesCode a b
  | .dot => addCode a b

/-- An operator other than dot over the bytes of a range that starts at window offset `o` (R273). -/
def nbReduce (op : NbOp) (o : Nat) (bytes : List Byte) : Nat :=
  let w := if op = .ses then 8 else 4
  let elems := (List.range (bytes.length / w)).map fun i => (nbUnit (o + w * i), leNat ((bytes.drop (w * i)).take w))
  let leaf := fun (u : Nat) => foldParts (nbCombine op) ((elems.filter fun e => e.1 = u).map fun e => some e.2)
  (nbTree leaf (nbCombine op)).getD 0

/-- One row of the dot operator (R274): elements from window offset `o`, vector `x`. -/
def nbDotRow (o : Nat) (row : List Byte) (x : List Nat) : Nat :=
  let elems := x.zipIdx.map fun e => (nbUnit (o + 4 * e.2), e.1, leNat ((row.drop (4 * e.2)).take 4))
  let leaf := fun (u : Nat) =>
    (elems.filter fun e => e.1 = u).foldl (fun (acc : Option Nat) e => match acc with
      | none => some (mulCode e.2.1 e.2.2)
      | some a => some (fmaCode e.2.1 e.2.2 a)) none
  (nbTree leaf addCode).getD 0

/-- The bytes of a call window's range, read at their controllers; the offset of the first poisoned line where there is
one (R275, R289). -/
def State.windowBytes (s : State) (w : Window) (o n : Nat) : Except Nat (List Byte) :=
  match ((List.range n).find? fun i => s.isPoisoned (w.phys + o + i)) with
  | some i => .error (o + i - (o + i) % 64)
  | none => .ok ((List.range n).map fun i => s.homeByte (w.phys + o + i))

/-- The call window of a pier block, and the scratch of its call. -/
def State.callOf (s : State) (f : Frame) : Option Window := ((s.frameWarp f).pier).bind s.callWindow?

/-- The units of a stack that an `nbop` over a range leaves in the middle of a row step: those of the range whose
pseudo-channel is in compute mode and not on its way out of it (R276 to R278). -/
def State.openRows (s : State) (stack o n : Nat) : State :=
  let b := s.nearBank stack
  let on := b.cmode &&& ~~~b.pending
  let units := ((List.range (n / 64)).map fun i => nbUnit (o + 64 * i)).filter fun u => on.getLsbD (u / 4)
  s.setNearBank stack { b with rows := dedup (b.rows ++ units) }

/-- `nbop` (R271 to R275, R431). -/
def execNbop (g : G) (op : NbOp) (s : State) : Out :=
  fromLowest g.pred (if op = .dot then [.a, .b, .c] else [.a, .b]) s fun f l m =>
    let w := s.frameWarp f
    let s := s.drainWarp f.warp
    let o := (f.val .a l).toNat
    let n := (f.val .b l).toNat
    let c := f.val .c l
    let bad := fun (k : Cause) (a : Nat) => s.faulted (f.addFaults k m (BitVec.ofNat 64 a))
    let xo := (c.extractLsb' 0 32).toNat
    let d := (c.extractLsb' 32 16).toNat
    let rows := n / (4 * Nat.max d 1)
    let dotOk : Bool := op ≠ .dot || match w.scratch with
      | none => false
      | some (_, len) => c.extractLsb' 48 16 == (0 : BitVec 16) && d % 32 == 0 && decide (32 ≤ d) && decide (d ≤ 2048) &&
          n % (4 * d) == 0 && decide (rows ≤ 256) && decide (xo + 4 * d + 4 * rows ≤ len)
    match s.callOf f with
    | none => bad .bounds o
    | some win =>
      if o % 128 ≠ 0 ∨ n % 128 ≠ 0 ∨ n < 128 ∨ win.len < o + n then bad .bounds o
      else if !dotOk then bad .bounds xo
      else if !win.readable then bad .protection o
      else match s.windowBytes win o n with
        | .error a => bad .poison a
        | .ok bytes =>
          let s := s.openRows win.stack o n
          let send := fun (f : Frame) (v : Nat) =>
            let tok := tokenOf fun k => if m.getLsbD k then some (BitVec.ofNat 64 v) else none
            (f.send g.t0 tok).send g.t1 tok
          if op = .dot then
            let base := (w.scratch.getD (0, 0)).1 + xo
            let x := (List.range d).map fun j => leNat (getBytes s.store (w.id.core * Config.storeSpan + base + 4 * j) 4)
            let out := (List.range rows).map fun r => nbDotRow (o + 4 * d * r) ((bytes.drop (4 * d * r)).take (4 * d)) x
            s.defer (send f rows) (.nbDot (base + 4 * d) (out.map (BitVec.ofNat 32)))
          else s.fired (send f (nbReduce op o bytes))

/-- The rows of a dot product are written to scratch at commit (R431). -/
def State.commitDot (s : State) (core offset : Nat) (results : List W32) : State :=
  { s with store := setBytes s.store (core * Config.storeSpan + offset) (results.map fun r => leBytes 4 r.toNat).flatten }

/-- The checks of `gradq` in one lane (R433, R289). -/
def State.gradCheck (s : State) (f : Frame) (og oe oc : Nat) : Option (Cause × Nat) :=
  match s.callOf f with
  | none => some (.bounds, og)
  | some w =>
    if og % 1024 ≠ 0 ∨ w.len < og + 1024 then some (.bounds, og)
    else if oe % 1024 ≠ 0 ∨ w.len < oe + 1024 then some (.bounds, oe)
    else if oc % 64 ≠ 0 ∨ w.len < oc + 64 then some (.bounds, oc)
    else if !w.writable then some (.protection, oe)
    else if !w.readable then some (.protection, og)
    else match s.windowBytes w og 1024, s.windowBytes w oe 1024 with
      | .error a, _ => some (.poison, a)
      | _, .error a => some (.poison, a)
      | _, _ => none

/-- `gradq` (R433). -/
def execGradq (pred : Pred) (s : State) : Out :=
  inBlock s fun f =>
    let lanes := f.performing pred [.a, .b, .c]
    let f := lanes.foldl (fun (f : Frame) l =>
      match s.gradCheck f (f.val .a l).toNat (f.val .b l).toNat (f.val .c l).toNat with
      | some (c, a) => f.addFault c l (BitVec.ofNat 64 a)
      | none => f) f
    if f.hasFault then s.faulted f
    else s.defer f (.gradq (lanes.map fun l => (l, f.val .a l, f.val .b l, f.val .c l)))

/-- The compressed group of 256 gradients and error values, and the new error values (R287). -/
def gradGroup (g e : List Nat) : List Byte × List Nat :=
  let u := (g.zip e).map fun x => addCode x.1 x.2
  let mag := u.map fun x => x % 2 ^ 31
  let acc := match mag with
    | [] => 0
    | x :: xs => xs.foldl addCode x
  let scale := mulCode acc 0x3b800000
  let neg := u.map fun x => decide (2 ^ 31 ≤ x)
  let out := (u.zip neg).map fun x => addCode x.1 (if x.2 then scale else negCode scale)
  let signs := total (neg.zipIdx.map fun b => if b.1 then 2 ^ b.2 else 0)
  (leBytes 4 scale ++ List.replicate 12 0 ++ leBytes 32 signs, out)

/-- 32-bit codes of bytes. -/
def words32 (bs : List Byte) : List Nat := (List.range (bs.length / 4)).map fun i => leNat ((bs.drop (4 * i)).take 4)

/-- `gradq` of one lane at commit: what the core has still to send to its range comes first (R229), and the group's 48 bytes
and the error values are written after every read (R287). -/
def State.commitGrad (s : State) (w : Warp) (og oe oc : Nat) : State :=
  match w.pier.bind s.callWindow? with
  | none => s
  | some win =>
    let places := fun (o n : Nat) => (List.range n).map fun i => Place.hbm (win.phys + o + i) (win.attrAt (o + i))
    let touched := places og 1024 ++ places oe 1024 ++ places oc 64
    let s := s.drainOver w.id.core touched fun _ => true
    let s := foldState s (linesAt touched) fun s l => s.reachBank true l
    let read := fun (o : Nat) => words32 ((hbmBytes (places o 1024)).map s.homeByte)
    let r := gradGroup (read og) (read oe)
    let put := fun (s : State) (o : Nat) (bs : List Byte) => s.ownWrite w.id w.ctx w.relSeq false ((places o bs.length).zip bs)
    put (put s oc r.1) oe (r.2.map (leBytes 4)).flatten

/-- Fields of the destination operand of `rred` (R429): module. -/
def rredModule (c : W64) : Nat := (c.extractLsb' 0 10).toNat
/-- Aperture. -/
def rredAperture (c : W64) : Nat := (c.extractLsb' 16 8).toNat

/-- The packet image of a lane of `rred`, read as by `ldb`. -/
def State.readImage (s : State) (who : Issuer) (a : W64) : State × Option (List Byte) :=
  match s.access who .read a 64 with
  | .ok ps => s.loadBytes who .l2 false a.toNat ps
  | _ => (s, none)

/-- The checks of `rred` in one lane (R429); b is checked where the image, with the block's stores, holds operator 0x02. -/
def State.checkRred (s : State) (f : Frame) (a b c : W64) : Res Unit :=
  let who := s.who f
  if c.extractLsb' 10 6 ≠ 0 ∨ c.extractLsb' 24 40 ≠ 0 then .bad .address 0
  else if a.toNat % 64 ≠ 0 then .bad .alignment a
  else (s.access who .read a 64).bind fun ps =>
    let own := (ps.head?).bind fun p => f.forward 16 p
    let op := match own with
      | some x => some x
      | none => ((s.loadBytes who .l2 false a.toNat (ps.take 1)).2).bind fun bs => bs.head?
    if ps.any s.placePoisoned then .bad .poison a
    else if op ≠ some 2 then .ok ()
    else if b.toNat % 4 ≠ 0 then .bad .alignment b
    else (s.access who .atomic b 1024).bind fun _ => .ok ()

/-- `rred` (R429). -/
def execRred (pred : Pred) (s : State) : Out :=
  inBlock s fun f =>
    let lanes := f.performing pred [.a, .b, .c]
    (overLanes s f lanes fun s f l =>
      match s.checkRred f (f.val .a l) (f.val .b l) (f.val .c l) with
      | .wait => ⟨s, f, true⟩
      | .ok _ => ⟨s, f, false⟩
      | bad => ⟨s, f.met l 0 bad, false⟩).finish s fun s f =>
        s.defer f (.rred (lanes.map fun l => (l, f.val .a l, f.val .b l, f.val .c l)))

/-- Byte `i` of a packet. -/
def packetField (p : W512) (off n : Nat) : Nat := bits p.toNat (8 * (off + n) - 1) (8 * off)

/-- A packet is malformed under Table 10.8. -/
def packetMalformed (p : W512) : Bool :=
  let op := packetField p 0 1
  !(op = 1 || op = 2) || decide (31 < packetField p 1 1) || decide (15 < packetField p 2 1) || packetField p 3 1 != 0 ||
  decide (1023 < packetField p 0xc 2) || packetField p 0xe 2 != 0 || (op = 2 && packetField p 0x14 12 != 0)

/-- The element and shadow windows of a packet, where R280 lets them be used. -/
def State.packetWindows (s : State) (ctx : Nat) (p : W512) : Option (Window × Window) :=
  let stack := packetField p 2 1
  let idx := packetField p 1 1
  match s.window? ctx stack idx, s.window? ctx stack (idx + 32) with
  | some w, some sh =>
    if sh.writable && decide (w.len ≤ 2 ^ 30) && decide (16 * w.len ≤ sh.len) &&
        sh.va == (shadowAddress .addF32 (BitVec.ofNat 64 w.va)).toNat then some (w, sh) else none
  | _, _ => none

/-- Elements of a packet. -/
def packetCount (p : W512) : Nat := if packetField p 0 1 = 2 then 256 else 12

/-- Is every element of a packet an exact element of its window (R284)? -/
def packetInside (p : W512) (w : Window) : Bool :=
  let e := packetField p 8 4
  decide (4 * (e + packetCount p) ≤ w.len) && (List.range (packetCount p)).all fun i => (w.attrAt (4 * (e + i))).exact

/-- Addend `i` of a packet (R284). -/
def packetAddend (p : W512) (i : Nat) : Nat :=
  if packetField p 0 1 = 2 then
    let scale := packetField p 0x10 4
    if p.getLsbD (8 * 0x20 + i) then negCode scale else scale
  else packetField p (0x10 + 4 * i) 4

/-- An exact add made by the base die's atomic unit (R252, R284); none where a line is poisoned (R289). -/
def State.exactAdd (s : State) (ctx : Nat) (w sh : Window) (i : Nat) (a : Nat) : Option State :=
  let el := w.phys + 4 * i
  let sp := sh.phys + 64 * i
  if s.isPoisoned el || s.isPoisoned sp then none
  else
    let x := wrap512 (leNat ((List.range 64).map fun k => s.homeByte (sp + k)))
    let y := shadowAdd x (readFloat .f32 a)
    let put := fun (s : State) (at_ n v : Nat) =>
      s.performHbm (homeDie at_) (some ctx) true false ((leBytes n v).zipIdx.map fun b => (at_ + b.2, b.1))
    some (put (put s sp 64 (y % 2 ^ 512).toNat) el 4 (shadowValue .f32 y).toNat)

/-- A 32-bit field of a step record. -/
def State.stepField (s : State) (ctx : Nat) (record : W64) (off : Nat) : Nat :=
  s.devNat ctx 0 (record + BitVec.ofNat 64 off) 4

/-- Writes a field of a step record at its controller. -/
def State.setStepField (s : State) (ctx : Nat) (record : W64) (off n v : Nat) : State :=
  s.devWrite ctx 0 (record + BitVec.ofNat 64 off) (leBytes n v)

/-- Adds to a 32-bit counter of a step record. -/
def State.bumpStep (s : State) (ctx : Nat) (record : W64) (off : Nat) (by_ : Int) : State :=
  s.setStepField ctx record off 4 ((((s.stepField ctx record off : Nat) : Int) + by_) % 2 ^ 32).toNat

/-- How far the packet procedure has come: a packet is over with its status, or it is accepted and runs. -/
inductive PacketTurn where
  | over (st : PacketStatus)
  | runs (element shadow : Window)
  deriving DecidableEq, Repr

/-- THE PACKET PROCEDURE of R284 on the step record of a reduction aperture, up to its accept step. -/
def State.acceptPacket (s : State) (ctx : Nat) (record : W64) (p : W512) : State × PacketTurn :=
  let refuse := s.bumpStep ctx record 0x1c 1
  if packetMalformed p then (refuse, .over .unsupported)
  else
    let e := packetField p 8 4
    let sign : Bool := packetField p 0 1 = 2
    let ok := (s.packetWindows ctx p).filter fun w =>
      packetInside p w.1 && (!sign || (e % 256 == 0 && decide (e / 256 < s.stepField ctx record 8)))
    match ok with
    | none => (refuse, .over .unmapped)
    | some (w, sh) =>
      let deadline := BitVec.ofNat 32 (s.stepField ctx record 4)
      if packetField p 4 4 ≠ s.stepField ctx record 0 ∨ (deadline ≠ 0xffffffff ∧ passed (s.ctxClock ctx) deadline) then
        let c := packetField p 0xc 2
        let at_ := record + BitVec.ofNat 64 (0x20 + c / 8)
        let old := s.devNat ctx 0 at_ 1
        let s := s.bumpStep ctx record 0x14 1
        (s.devWrite ctx 0 at_ (leBytes 1 (Nat.lor old (2 ^ (c % 8)))), .over .late)
      else ((s.bumpStep ctx record 0x10 1).bumpStep ctx record 0x18 1, .runs w sh)

/-- The closing step of an accepted packet (R284, R289). -/
def State.closePacket (s : State) (r : PacketRun) : State × PacketStatus :=
  if r.poison then ((s.bumpStep r.ctx r.record 0x1c 1).bumpStep r.ctx r.record 0x18 (-1), .poison)
  else
    let at_ := 0x100 + 2 * (packetField r.packet 8 4 / 256)
    let n := s.devNat r.ctx 0 (r.record + BitVec.ofNat 64 at_) 2
    let s := if packetField r.packet 0 1 = 2 then s.setStepField r.ctx r.record at_ 2 (Nat.min (n + 1) 0xffff) else s
    (s.bumpStep r.ctx r.record 0x18 (-1), .ok)

/-- A pod-table entry (Table 2.7). -/
def State.podEntry (s : State) (m : Nat) : PodEntry := sget ⟨false, false, 0, 0, 0⟩ s.pod.entries m

/-- Puts a pod-table entry back. -/
def State.setPodEntry (s : State) (m : Nat) (e : PodEntry) : State :=
  { s with pod := { s.pod with entries := sset ⟨false, false, 0, 0, 0⟩ s.pod.entries m e } }

/-- Counts in the `DROPPED` field of a peer's entry (Table 2.7). -/
def State.dropPeer (s : State) (m : Nat) : State :=
  let e := s.podEntry m
  s.setPodEntry m { e with dropped := satAdd16 e.dropped 1 }

/-- The pod aperture of a number. -/
def State.podAperture? (s : State) (idx : Nat) : Option PodAperture := s.apertures.find? fun a => a.idx = idx

/-- The leaf entry of a page of a context, with its physical address. -/
def State.leafOf (s : State) (ctx page : Nat) : Option (Nat × Nat) :=
  match s.context? ctx with
  | none => none
  | some c => match s.walk 4 c.root (page % 2 ^ 36) with
    | .leaf e a _ => some (e, a)
    | _ => none

/-- The place of a byte that an outside agent reaches: of a replicated page it is the replica that `FRAME` names (R237). -/
def State.framePlace (s : State) (ctx page : Nat) (p : Place) : Place :=
  match p with
  | .hbm x attr =>
    match (if attr.repl then s.leafOf ctx page else none) with
    | some (e, _) => .hbm (setBits x 39 38 (homeDie (entryFrame e))) attr
    | none => p
  | p => p

/-- The places of `n` bytes of a context's address space that a host or a peer module accesses, or none where a page is not
present or forbids it (R45, R79, R237). -/
def State.outerPlaces (s : State) (ctx : Nat) (kind : AKind) (a n : Nat) : Option (List Place) :=
  match s.devPlaces ctx 0 kind a n with
  | .ok ps => some (ps.zipIdx.map fun p => s.framePlace ctx ((a + p.2) / 4096) p.1)
  | _ => none

/-- The die at which an access from outside arrives: the home of its bytes (R208). -/
def outerDie (ps : List Place) : Nat := ((ps.filterMap fun p => match p with | .hbm x _ => some (homeDie x) | _ => none).head?).getD 0

/-- Who the device is when it makes an access for a host or a peer module: no thread, at the home of the bytes. -/
def outerIssuer (ctx : Nat) (ps : List Place) : Issuer := ⟨⟨96 * outerDie ps, 0⟩, 0, ctx, none, none, []⟩

/-- Performs bytes written from outside, at their homes; to a replicated page as `st.mc` does (R45, R79, R237). -/
def State.writeOuter (s : State) (ctx : Nat) (cells : List (Place × Byte)) : State :=
  foldState s (List.range 4) fun s d => s.performBytes (96 * d) ctx true (cells.filter fun c => outerDie [c.1] = d)

/-- A write of 64 bytes at offset 0 of an ordinary aperture (R45). -/
def State.writeAperture (s : State) (a : PodAperture) (bs : List Byte) : State × PacketStatus :=
  match (if a.len < 64 ∨ !a.writable then none else s.outerPlaces a.ctx .write a.va 64) with
  | some ps => (s.writeOuter a.ctx (ps.zip bs), .ok)
  | none => (s, .unmapped)

/-- The 64 bytes of a packet's write reach an aperture. At a reduction aperture they are a packet (R281, R284): it is over at
once, or it is accepted and its adds begin; none while they run. At an ordinary aperture they are a write like any other
(R45, R281). `sender` names the thread of a packet that the module has sent to itself. -/
def State.receivePacket (s : State) (source : PodSource) (aperture : Nat) (p : W512) (sender : Option (Issuer × Nat × W64)) :
    State × Option PacketStatus :=
  match s.podAperture? aperture with
  | none => (s.dropPeer source.module_, some .unmapped)
  | some a =>
    if !a.reduction then
      match s.writeAperture a (leBytes 64 p.toNat) with
      | (s, .ok) => (s, some .ok)
      | (s, st) => (s.dropPeer source.module_, some st)
    else
      let record := BitVec.ofNat 64 a.va
      match s.acceptPacket a.ctx record p with
      | (s, .over st) => (s.dropPeer source.module_, some st)
      | (s, .runs w sh) => ({ s with packets := s.packets ++ [⟨a.ctx, record, p, w, sh, 0, false, source, sender⟩] }, none)

/-- One FP32 add without modifier at an element's home, for a fold-back (R288). -/
def State.foldAdd (s : State) (who : Issuer) (a : W64) (v : Nat) : State :=
  let go := fun (ps : List Place) => (s.atomicAt who ⟨.addF32, false, false, BitVec.ofNat 64 v, 0⟩ ps []).1
  match s.atomicPlaces who .addF32 false false a with
  | .ok ps => go ps
  | .bad .determinism _ => match s.access who .atomic a 4 with
    | .ok ps => go ps
    | _ => s.countError who.ctx
  | _ => s.countError who.ctx

/-- A lane's write to a module is lost (R49). -/
def Warp.loseRemote (w : Warp) (module_ lane : Nat) : Warp :=
  let this := fun (x : Nat × Mask) => decide (x.1 = module_)
  { w with
    lostRemote :=
      if w.lostRemote.any this then update this (fun x => (x.1, x.2 ||| maskOf [lane])) w.lostRemote
      else w.lostRemote ++ [(module_, maskOf [lane])] }

/-- What the completion of a packet to a module does at the sender (R49, R285, R288, R429): late sign groups are folded
back, and any other failure is a lost write of the lane. -/
def State.completePacket (s : State) (who : Issuer) (lane module_ : Nat) (p : W512) (errors : W64) (st : PacketStatus) : State :=
  if st = .ok then s
  else if st = .late ∧ packetField p 0 1 = 2 then
    let scale := packetField p 0x10 4
    foldState s (List.range 256) fun s i =>
      let v := if p.getLsbD (8 * 0x20 + i) then negCode scale else scale
      s.foldAdd who (errors + BitVec.ofNat 64 (4 * i)) v
  else
    if (s.owner? who).isSome then s.onOwner who fun w => w.loseRemote module_ lane
    else s.countError who.ctx

/-- The completion that the device sends to a peer, with the epoch of the request (R50); a failing one counts in the peer's
`DROPPED` where `count` says so. -/
def State.reply (s : State) (to_ : PodSource) (st : PacketStatus) (data : List Byte) (count : Bool) : State :=
  let s := { s with pod := { s.pod with reply := some ⟨to_, st, data⟩ } }
  if count then s.dropPeer to_.module_ else s

/-- A packet that has run is over: the sending module gets its completion, a thread of this module its effect (R285). -/
def State.endPacket (s : State) (r : PacketRun) (st : PacketStatus) : State :=
  let s := if st = .ok then s else s.dropPeer r.source.module_
  match r.sender with
  | some (who, lane, errors) => s.completePacket who lane r.source.module_ r.packet errors st
  | none => s.reply r.source st [] false

/-- The next step of an accepted packet, one of those of R284: an add (R252), or after the last its closing step. -/
def State.stepPacket (s : State) (k : Nat) : State :=
  match s.packets[k]? with
  | none => s
  | some r =>
    if r.next < packetCount r.packet then
      let e := packetField r.packet 8 4 + r.next
      let (s, bad) := match s.exactAdd r.ctx r.element r.shadow e (packetAddend r.packet r.next) with
        | some t => (t, r.poison)
        | none => (s, true)
      { s with packets := s.packets.set k { r with next := r.next + 1, poison := bad } }
    else
      let c := s.closePacket r
      ({ c.1 with packets := c.1.packets.eraseIdx k } : State).endPacket r c.2

/-- The ports in service. -/
def State.portsUp (s : State) : List Nat := (List.range 16).filter fun p => !s.pod.portsDown.contains p

/-- The port that carries a request to a 256-byte region of a module (R44, R54). The region of a packet is the one at offset 0 of
its aperture, which the aperture's number names (log 10). -/
def State.portFor (s : State) (m region : Nat) : Nat :=
  let up := s.portsUp
  (up[Config.portHash m region % Nat.max 1 up.length]?).getD 0

/-- Is there no room for the packets of an `rred` among the outstanding requests of their ports (R43)? -/
def State.rredWaits (s : State) (lanes : List (Nat × W64 × W64 × W64)) : Bool :=
  let ports := lanes.filterMap fun x =>
    if rredModule x.2.2.2 = s.pod.self.toNat then none else some (s.portFor (rredModule x.2.2.2) (rredAperture x.2.2.2))
  ports.any fun p => decide (2048 < (s.pod.out.filter fun r => !r.dead && r.port = p).length + (ports.filter fun q => q = p).length)

/-- One packet of `rred` at commit (R281, R288, R429, R47, R48, R51, R52). -/
def State.sendPacket (s : State) (who : Issuer) (lane : Nat) (a b c : W64) : State :=
  let r := s.readImage who a
  match r.2 with
  | none => r.1.completePacket who lane (rredModule c) 0 b .poison
  | some bs =>
    let s := r.1
    let p := BitVec.ofNat 512 (leNat bs)
    let m := rredModule c
    if m = s.pod.self.toNat then
      match s.receivePacket ⟨m, 0⟩ (rredAperture c) p (some (who, lane, b)) with
      | (s, some st) => s.completePacket who lane m p b st
      | (s, none) => s
    else
      let e := s.podEntry m
      if !s.pod.enable || !e.valid || e.fenced || s.portsUp = [] then s.completePacket who lane m p b .poison
      else
        let q : UaRequestOut := ⟨s.pod.nextTag, m, e.epoch, s.portFor m (rredAperture c), s.ticks, s.pod.timeout, who, lane, p, b, false⟩
        { s with pod := { s.pod with out := s.pod.out ++ [q], nextTag := s.pod.nextTag + 1 } }

/-- `rred` at commit: one packet for each lane, ascending (R429). -/
def State.commitRred (s : State) (who : Issuer) (lanes : List (Nat × W64 × W64 × W64)) : State :=
  foldState s lanes fun s x => s.sendPacket who x.1 x.2.1 x.2.2.1 x.2.2.2

end Sys2Proof.Machine
end

