-- ==== Sys2Proof/Machine/Stash.lean ====
section
/-!
DEFINITION. The stash instructions and their commit (spec/15_isa_memory.md R401, R402; spec/08_memory_hierarchy.md R211,
R212).
-/
namespace Sys2Proof.Machine

/-- Mappings and reservations of a context on a core (R401). -/
def State.stashOf (s : State) (core ctx : Nat) : List StashMap := s.stashMaps.filter fun m => m.core = core && m.ctx = ctx

/-- May the range be mapped (R211, R401)? Two mappings share no storage of a stash allocation: each line of a mapping has
the bytes of its own range (log 55). -/
def State.stashOk (s : State) (w : Warp) (g lg d : W64) : Bool :=
  let x := g.toNat
  let n := lg.toNat
  let o := d.toNat
  let maps := s.stashOf w.id.core w.ctx
  windowOf x == .global && decide (x + n ≤ 2 ^ 47) && x % 4096 == 0 && n % 4096 == 0 && o % 4096 == 0 &&
  decide (4096 ≤ n) &&
  (match w.stash with | some r => decide (o + n ≤ r.2) | none => false) &&
  decide (maps.length < 16) && maps.all fun m =>
    (decide (x + n ≤ m.base) || decide (m.base + m.len ≤ x)) &&
    (some m.alloc != w.stash.map Prod.fst || decide (o + n ≤ m.off) || decide (m.off + m.len ≤ o))

/-- Sends the value of log 6 to the target of a stash instruction in its performing lanes. -/
def State.sendStash (s : State) (f : Frame) (t0 : Target) (lanes : List Nat) : Frame :=
  f.send t0 (tokenOf fun l => if lanes.contains l then some (Config.stashToken s.stepNo) else none)

/-- `stmap` checks and reserves an entry when it fires (R401). -/
def execStmap (pred : Pred) (t0 : Target) (s : State) : Out :=
  inBlock s fun f =>
    match f.performing pred [.a, .b, .c] with
    | [] => s.fired f
    | l :: rest =>
      let w := s.frameWarp f
      let g := f.val .a l
      let lg := f.val .b l
      let d := f.val .c l
      if s.stashOk w g lg d then
        let r : StashMap := ⟨w.id.core, w.ctx, g.toNat, lg.toNat, (w.stash.map Prod.fst).getD 0, d.toNat, some (f.warp, f.strand)⟩
        let s := { s with stashMaps := s.stashMaps ++ [r] }
        s.defer (s.sendStash f t0 (l :: rest)) (.stmap g lg d)
      else s.faulted (f.addFaults .address (maskOf (l :: rest)) g)

/-- `stunmap` (R402). -/
def execStunmap (pred : Pred) (t0 : Target) (s : State) : Out :=
  inBlock s fun f =>
    match f.performing pred [.a] with
    | [] => s.fired f
    | l :: rest =>
      let w := s.frameWarp f
      let g := f.val .a l
      if (s.stashOf w.id.core w.ctx).any fun m => m.base = g.toNat && m.owner == none then
        s.defer (s.sendStash f t0 (l :: rest)) (.stunmap g)
      else s.faulted (f.addFaults .address (maskOf (l :: rest)) g)

/-- `stflush` (R402). -/
def execStflush (pred : Pred) (t0 : Target) (s : State) : Out :=
  inBlock s fun f =>
    match f.performing pred [.a, .b] with
    | [] => s.fired f
    | l :: rest => s.defer (s.sendStash f t0 (l :: rest)) (.stflush (f.val .a l) (f.val .b l))

/-- A reservation becomes a mapping at commit (R401). -/
def State.commitStmap (s : State) (f : Frame) (base : W64) : State :=
  let mine := fun (m : StashMap) => m.owner = some (f.warp, f.strand) && m.base = base.toNat
  { s with stashMaps := update mine (fun m => { m with owner := none }) s.stashMaps }

/-- `stunmap` at commit: the mapping's dirty bytes are written back, its lines invalidated and the mapping removed; one
that has already gone leaves nothing to do (R402). -/
def State.commitStunmap (s : State) (core ctx : Nat) (base : W64) : State :=
  match s.stashMaps.find? fun m => m.core = core && m.ctx = ctx && m.base = base.toNat && m.owner == none with
  | none => s
  | some m =>
    let p := fun (l : StashLine) => l.core = core && l.ctx = ctx && decide (m.base ≤ l.va) && decide (l.va < m.base + m.len)
    let s := s.stashClean p
    { s with
      stashLines := s.stashLines.filter fun l => !p l
      stashMaps := s.stashMaps.filter fun x => x ≠ m }

/-- `stflush` at commit: an empty length names every mapping (R402). -/
def State.commitStflush (s : State) (core ctx : Nat) (a b : W64) : State :=
  s.stashClean fun l => l.core = core && l.ctx = ctx &&
    (b = 0 || (decide (l.va < a.toNat + b.toNat) && decide (a.toNat < l.va + 64)))

end Sys2Proof.Machine
end

