-- ==== Sys2Proof/Machine/System.lean ====
section
/-!
DEFINITION. System registers, return from a handler and debug instructions (spec/16_isa_sync_work_system.md R434 to
R437).
-/
namespace Sys2Proof.Machine

/-- The value of a system register (Table 16.4). -/
def State.sysValue (s : State) (w : Warp) (r : SysReg) : W64 :=
  match r, s.context? w.ctx with
  | .ctxclk, _ => zext (s.ctxClock w.ctx)
  | .reftime, _ => BitVec.ofNat 64 (s.refTime w.ctx)
  | .ctxnum, _ => BitVec.ofNat 64 w.ctx
  | .lfsr, _ => zext w.lfsr
  | _, none => 0
  | .errcount, some c => zext c.errors
  | .calends, some c => c.boundary
  | .determ, some c => if c.det then 1 else 0
  | .swaprdy, some c => if c.swapReady then 1 else 0

/-- `sysrd` (R434). -/
def execSysrd (g : G) (r : SysReg) (s : State) : Out := valueOp g s fun f _ => some (s.sysValue (s.frameWarp f) r)

/-- `syswr` to the LFSR (R434). -/
def execSyswr (pred : Pred) (s : State) : Out := fromLowest pred [.a] s fun f l _ => s.defer f (.syswr (f.val32 .a l))

/-- `syswr` at commit: a written 0 is stored as 1 (Table 16.4). -/
def State.commitSyswr (s : State) (id : WarpId) (v : W32) : State :=
  s.onWarp id fun w => { w with lfsr := if v = 0 then 1 else v }

/-- `eret` (R173, R435): an exit to the strand's trap return; outside a handler the block faults. -/
def execEret (pred : Pred) (s : State) : Out :=
  inBlock s fun f =>
    let lanes := f.performing pred []
    let st := (s.frameWarp f).strand? f.strand
    let ret := (st.map fun st => st.trapRet).getD 0
    let inside := (st.map fun st => st.inHandler).getD false
    if lanes = [] then s.fired f
    else if !inside then s.faulted (f.addFaults .illegal (maskOf lanes) 0)
    else s.exitTo f lanes (fun _ => ret) fun _ => .eret

/-- `bkpt` (R436). -/
def execBkpt (pred : Pred) (s : State) : Out :=
  inBlock s fun f =>
    let lanes := f.performing pred []
    if lanes = [] then s.fired f else s.faulted (f.addFaults .breakpoint (maskOf lanes) 0)

/-- `halt.dbg` (R437). -/
def execHaltDbg (pred : Pred) (s : State) : Out :=
  inBlock s fun f =>
    let lanes := f.performing pred []
    if lanes = [] then s.fired f else s.defer f (.haltDbg f.slot (maskOf lanes))

end Sys2Proof.Machine
end

