-- ==== Sys2Proof/Machine/BlockCheck.lean ====
section
/-!
DEFINITION. The checks of a whole block when it is decoded (spec/06_execution_model.md R144, R145, R164;
spec/12_isa_formats.md R316 to R332; spec/14_isa_float_lane.md Table 14.1; spec/15_isa_memory.md R394), and the block in
flight that a block passing them becomes.
-/
namespace Sys2Proof.Machine

/-- What a compute slot takes and gives: its predicate mode, the operands its entry takes, its targets, the LSID of a
memory instruction. -/
structure SlotUse where
  pred : Pred
  ops : List Opnd
  targets : List Target
  lsid : Option Nat
  deriving DecidableEq, Repr

/-- A slot of format G with both targets. -/
def useG (g : G) (ops : List Opnd) : SlotUse := ⟨g.pred, ops, [g.t0, g.t1], none⟩

/-- A slot without targets. -/
def useP (p : Pred) (ops : List Opnd) : SlotUse := ⟨p, ops, [], none⟩

/-- A memory slot. -/
def useM (p : Pred) (lsid : BitVec 4) (ops : List Opnd) (t : List Target) : SlotUse := ⟨p, ops, t, some lsid.toNat⟩

/-- The targets of a load: two with 128 bits (R322). -/
def loadTargets (w : Width) (t : Target) : List Target := if w = .b128 then [t, nextTarget t] else [t]

/-- The operands of a store: three with 128 bits (R322). -/
def storeOps (w : Width) : List Opnd := if w = .b128 then [.a, .b, .c] else [.a, .b]

/-- What a word in a compute slot takes and gives, by its entry; none for the words of other positions, and for
events. -/
def slotUse (i : Instr) : Option SlotUse :=
  match i with
  | .ext _ | .hintPrio _ | .hintYield _ | .hintLat _ => some (useP .always [])
  | .movi p _ t0 => some ⟨p, [], [t0], none⟩
  | .br p _ | .call p _ | .rjwait p _ _ | .exit p | .trap p _ | .rjenrol p _ | .rjstrike p _ => some (useP p [])
  | .fan g => some (useG g [.a])
  | .null g => some (useG g [])
  | .brx p | .ret p => some (useP p [.a])
  | .add g _ | .sub g _ | .mul g _ | .mulhi g _ | .div g _ | .rem g _ | .min g _ | .max g _ | .lea g _ =>
    some (useG g [.a, .b])
  | .mad g _ => some (useG g [.a, .b, .c])
  | .neg g _ => some (useG g [.a])
  | .abs g _ => some (useG g [.a])
  | .and g _ | .or g _ | .xor g _ | .andn g _ | .shl g _ | .shr g _ | .sar g _ | .rotl g _ => some (useG g [.a, .b])
  | .not g _ | .clz g _ | .ctz g _ | .popc g _ | .brev g _ => some (useG g [.a])
  | .bfx g _ => some (useG g [.a, .b])
  | .bfi g _ | .sel g _ => some (useG g [.a, .b, .c])
  | .setp g _ _ => some (useG g [.a, .b])
  | .pand g | .por g | .pxor g => some (useG g [.a, .b])
  | .pnot g => some (useG g [.a])
  | .isect g | .isectX g => some (useG g [.a, .b])
  | .fadd g _ | .fsub g _ | .fmul g _ | .fmin g _ | .fmax g _ | .fscale g _ => some (useG g [.a, .b])
  | .ffma g _ => some (useG g [.a, .b, .c])
  | .fdiv g _ => some (useG g [.a, .b])
  | .fsqrt g _ => some (useG g [.a])
  | .fclass g _ => some (useG g [.a])
  | .fsetp g _ _ => some (useG g [.a, .b])
  | .frcp g | .frsq g | .fexp2 g | .flog2 g | .fsin g | .fcos g | .ftanh g => some (useG g [.a])
  | .expsub g => some (useG g [.a, .b])
  | .fdot2 g _ => some (useG g [.a, .b, .c])
  | .cvt g _ _ | .cvtSourceHigh g _ _ => some (useG g [.a])
  | .cvtmx g _ _ => some (useG g [.a])
  | .shfl g _ _ => some (useG g [.a, .b, .c])
  | .vote g _ => some (useG g [.a])
  | .redux g _ _ | .scan g _ _ => some (useG g [.a])
  | .matchLanes g _ => some (useG g [.a])
  | .elect g | .actmask g => some (useG g [])
  | .ld m | .ldb m => some (useM m.pred m.lsid [.a] (loadTargets m.width m.t0))
  | .ldacq m => some (useM m.pred m.lsid [.a] (loadTargets m.width m.t0))
  | .st m | .stMc m => some (useM m.pred m.lsid (storeOps m.width) [])
  | .strel m => some (useM m.pred m.lsid (storeOps m.width) [])
  | .pref p l _ _ => some (useM p l [.a] [])
  | .atom a => some (useM a.pred a.lsid [.a, .b] [a.t0])
  | .red p l _ _ _ _ => some (useM p l [.a, .b] [])
  | .cas p l _ _ _ t0 => some (useM p l [.a, .b, .c] [t0])
  | .fence p l _ _ => some (useM p l [] [])
  | .fenceRep p l => some (useM p l [.a, .b] [])
  | .inval p l _ => some (useM p l [.a, .b] [])
  | .stmap p t0 => some ⟨p, [.a, .b, .c], [t0], none⟩
  | .stunmap p t0 => some ⟨p, [.a], [t0], none⟩
  | .stflush p t0 => some ⟨p, [.a, .b], [t0], none⟩
  | .cpy p => some (useP p [.a, .b, .c])
  | .cpyg g => some (useG g [.a, .b])
  | .cpseal p => some (useP p [])
  | .cpwait p => some (useP p [.a])
  | .kvapp p _ => some (useP p [.a, .b, .c])
  | .mma p _ _ _ | .mmas p _ _ _ | .mzero p _ | .mprune p _ | .mwait p _ | .mwaitAll p | .tokpass p => some (useP p [])
  | .mdrain p _ ep _ _ => some (useP p (if ep then [] else [.a]))
  | .mpeer p _ _ => some (useP p [.a, .b])
  | .barArrive p _ _ b _ => some (useP p (if b then [.a, .b, .c] else [.a, .b]))
  | .barWait g _ _ => some (useG g [.a, .b])
  | .barReg p | .barDrop p | .barExpect p => some (useP p [.a, .b])
  | .plwait p | .yield p | .sleep p | .rwwait p _ | .syswr p => some (useP p [.a])
  | .rwrite p => some (useP p [.a, .b])
  | .deq g _ => some (useG g [.a, .b])
  | .enq g _ => some (useG g [.a])
  | .join p c => some (useP p (if c then [.a, .b] else [.a]))
  | .sbpost g => some (useG g [.a])
  | .sbpostFail g => some (useG g [.a])
  | .sbquery g => some (useG g [.a])
  | .nmcall p _ => some (useP p [.a, .b, .c])
  | .rred p => some (useP p [.a, .b, .c])
  | .nmret p => some (useP p [])
  | .nbop g op => some (useG g (if op = .dot then [.a, .b, .c] else [.a, .b]))
  | .nbmode g _ => some (useG g [.a])
  | .gradq p => some (useP p [.a, .b, .c])
  | .sysrd g _ => some (useG g [])
  | .eret p | .bkpt p | .haltDbg p => some (useP p [])
  | _ => none

/-- The targets of a read word (R318). -/
def readTargets (i : Instr) : Option (List Target) :=
  match i with
  | .rdV r | .rdS r | .rdP r | .rdX r => some [r.t0, r.t1]
  | _ => none

/-- The registers that a write word names, as (file, number) pairs: file 3 is the rejoin masks (R324). -/
def writeRegs (i : Instr) : Option (List (Nat × Nat)) :=
  match i with
  | .wrV w => some ((List.range (if w.pair then 2 else 1)).map fun k => (0, w.reg.toNat + k))
  | .wrS w => some ((List.range (if w.pair then 2 else 1)).map fun k => (1, w.reg.toNat + k))
  | .wrP w =>
    if w.pair then some ((List.range 64).map fun k => (2, k))
    else if w.reg.toNat < 64 then some [(2, w.reg.toNat)] else some [(3, w.reg.toNat - 64)]
  | _ => none

/-- Exit instructions (R144). -/
def isExit (i : Instr) : Bool :=
  match i with
  | .br .. | .brx .. | .call .. | .ret .. | .exit .. | .trap .. | .rjwait .. | .eret .. => true
  | _ => false

/-- A value-returning atomic (R153, R394). -/
def returningAtomic (i : Instr) : Bool :=
  match i with
  | .atom a => a.t0 != .none
  | .cas _ _ _ _ _ t0 => t0 != .none
  | _ => false

/-- Irrevocable instructions (R153). -/
def irrevocable (i : Instr) : Bool :=
  match i with
  | .deq .. | .enq .. | .sbpost .. | .sbpostFail .. => true
  | _ => returningAtomic i

/-- Instructions whose LSID must be above that of a returning atomic (R394). -/
def entersAfter (i : Instr) : Bool :=
  match i with
  | .st .. | .stMc .. | .strel .. | .red .. => true
  | .atom a => a.t0 == .none
  | .cas _ _ _ _ _ t0 => t0 == .none
  | _ => false

/-- Memory instructions that wait for every lower LSID (R149). -/
def waitsLower (i : Instr) : Bool :=
  match i with
  | .ld .. | .ldb .. | .ldacq .. | .fence .. | .fenceRep .. | .inval .. => true
  | _ => false

/-- Waiting instructions (R153, R416). -/
def isWait (i : Instr) : Bool :=
  match i with
  | .barWait .. | .mwait .. | .mwaitAll .. | .cpwait .. => true
  | _ => false

/-- Is the word an `ext` or a hint (R327)? -/
def isExtOrHint (i : Instr) : Bool :=
  match i with
  | .ext .. | .hintPrio .. | .hintYield .. | .hintLat .. => true
  | _ => false

/-- A payload of majors 0x28 to 0x2e carries only modifiers that its consumer accepts (R327, Table 14.1). -/
def modsOk (p : BitVec 25) (rz rs ftz prop sat : Bool) : Bool :=
  let m := (p.extractLsb' 0 3).toNat
  (m = 0 || (rz && decide (m ≤ 3)) || (rs && decide (m = 4))) &&
  (!p.getLsbD 3 || ftz) && (!p.getLsbD 4 || prop) && (!p.getLsbD 5 || sat) && decide (p.toNat < 64)

/-- Does the instruction after an `ext` give its payload a meaning (R327, R347, R369)? -/
def extOk (p : BitVec 25) (i : Instr) : Bool :=
  match i with
  | .movi .. => true
  | .lea .. => decide (p.toNat < 8)
  | .fadd _ t | .fsub _ t | .fmul _ t | .ffma _ t => modsOk p true false (t = .f32) false false
  | .fdiv _ t | .fsqrt _ t => modsOk p true false (t = .f32) false false
  | .fmin _ t | .fmax _ t => modsOk p false false (t = .f32) true false
  | .fscale .. => modsOk p true false false false false
  | .fclass .. | .fdot2 .. => modsOk p false false false false false
  | .fsetp _ _ t => modsOk p false false (t = .f32) false false
  | .frcp .. | .frsq .. | .fexp2 .. | .flog2 .. | .fsin .. | .fcos .. | .ftanh .. | .expsub .. =>
    modsOk p false false true false false
  | .cvt _ d _ | .cvtSourceHigh _ d _ =>
    if d = .e8m0 then modsOk p false false false false false
    else modsOk p true (d.isFloat && d != .f32 && d != .f64) false false d.isFloat
  | .cvtmx .. => modsOk p false true false false false
  | _ => false

/-- Majors that a pier core accepts, and main cores do (R332). -/
def coreAccepts (pier : Bool) (w : W32) : Bool :=
  let m := (w >>> 25).toNat
  if pier then (decide (m ≤ 0x52) && m != 0x4d && !(m = 0x52 && (w.extractLsb' 11 3).toNat = 4)) || m = 0x76
  else m != 0x76

/-- A decoded block: the header's fields, and its words with their meaning. -/
structure DecodedBlock where
  nrd : Nat
  nwr : Nat
  slots : Nat
  lsids : Nat
  iso : Bool
  exits : Nat
  reads : List Instr
  writes : List Instr
  compute : List Instr
  deriving DecidableEq, Repr

/-- The number of words of the block whose header this is (R316); none when it is not a header. -/
def blockWords (header : W32) : Option Nat :=
  match decode header with
  | .ok (.blk cnt nrd nwr ..) => some (2 + nrd.toNat + nwr.toNat + cnt.toNat)
  | _ => none

/-- May the word stand at a position (R331)? Position 0 is a read, 1 a write, 2 a compute slot. -/
def positionOk (kind : Nat) (i : Instr) : Bool :=
  match kind with
  | 0 => (readTargets i).isSome
  | 1 => (writeRegs i).isSome
  | _ => (slotUse i).isSome

/-- Is the word a `movi`? -/
def isMovi (i : Instr) : Bool :=
  match i with
  | .movi .. => true
  | _ => false

/-- The indexes of the words that are illegal on their own (R327, R331, R332), and of a `hint.lat` after which no slot
holds neither `movi` nor `ext` (R348, Table 13.3). -/
def illegalWords (pier : Bool) (words : List W32) (nrd nwr : Nat) : List Nat :=
  let dec := fun (i : Nat) => (words[i]?).map decode
  (List.range words.length).filter fun i =>
    match dec i with
    | some (.ok x) =>
      i != 0 && (!coreAccepts pier ((words[i]?).getD 0) ||
      !positionOk (if i ≤ nrd then 0 else if i ≤ nrd + nwr then 1 else 2) x ||
      match x with
      | .ext p => match dec (i + 1) with
        | none => true
        | some (.ok y) => isExtOrHint y || !extOk p y
        | some (.error _) => false
      | .hintLat _ => !(words.drop (i + 1)).any fun y =>
        match decode y with
        | .ok (.ext _) => false
        | .ok y => !isMovi y
        | .error _ => true
      | _ => false)
    | _ => true

/-- The decoded words of a block whose words are all legal. -/
def decodeBlock (words : List W32) : Option DecodedBlock :=
  match words with
  | [] => none
  | h :: rest =>
    let body := rest.filterMap fun w => match decode w with | .ok i => some i | .error _ => none
    match decode h with
    | .ok (.blk cnt nrd nwr lsid iso xcnt ls) => some {
        nrd := nrd.toNat, nwr := nwr.toNat, slots := cnt.toNat + 1, lsids := if ls then lsid.toNat + 1 else 0
        iso := iso, exits := xcnt.toNat + 1, reads := body.take nrd.toNat
        writes := (body.drop nrd.toNat).take nwr.toNat, compute := body.drop (nrd.toNat + nwr.toNat) }
    | _ => none

/-- The use of compute slot `k`. -/
def DecodedBlock.use (b : DecodedBlock) (k : Nat) : SlotUse := ((b.compute[k]?).bind slotUse).getD (useP .always [])

/-- The operands a compute slot takes, its predicate among them (R320). -/
def DecodedBlock.takes (b : DecodedBlock) (k : Nat) : List Opnd :=
  (b.use k).ops ++ (if (b.use k).pred = .always then [] else [.p])

/-- Index of the word of compute slot `k`. -/
def DecodedBlock.word (b : DecodedBlock) (k : Nat) : Nat := 1 + b.nrd + b.nwr + k

/-- May the producer of a word send to a target (R145, R318)? `own` is its compute slot; a read word has none. -/
def DecodedBlock.targetOk (b : DecodedBlock) (own : Option Nat) (t : Target) : Bool :=
  match t with
  | .none => true
  | .write n => decide (n.toNat < b.nwr)
  | .op o k =>
    decide (k.toNat < b.slots) && (match own with | none => true | some j => decide (j < k.toNat)) &&
    (b.takes k.toNat).contains o

/-- Every target of the block with the index of the word that names it. -/
def DecodedBlock.producers (b : DecodedBlock) : List (Nat × Option Nat × Target) :=
  (b.reads.zipIdx.map fun x => ((readTargets x.1).getD []).map fun t => (1 + x.2, none, t)).flatten ++
  ((List.range b.slots).map fun k => (b.use k).targets.map fun t => (b.word k, some k, t)).flatten

/-- The compute slots that satisfy `p`. -/
def DecodedBlock.slotsOf (b : DecodedBlock) (p : Instr → Bool) : List Nat :=
  (List.range b.slots).filter fun k => match b.compute[k]? with | some i => p i | none => false

/-- The memory instructions: slot and LSID. -/
def DecodedBlock.mems (b : DecodedBlock) : List (Nat × Nat) :=
  (List.range b.slots).filterMap fun k => (b.use k).lsid.map fun l => (k, l)

/-- The indexes of the words that complete a breach of R145, R317, R324 or R394 (R331). -/
def DecodedBlock.breaches (b : DecodedBlock) (pier : Bool) : List Nat :=
  let named := b.mems.map Prod.snd
  let header : Bool := (b.slotsOf isExit).length ≠ b.exits || !(List.range b.lsids).all (fun l => named.contains l) ||
    (b.iso && pier)
  let irr := b.slotsOf irrevocable
  let ret := (b.slotsOf returningAtomic).filterMap fun k => (b.use k).lsid
  let early := (b.slotsOf entersAfter).filter fun k => match (b.use k).lsid with
    | some l => ret.any fun r => decide (l ≤ r)
    | none => false
  let regs := b.writes.map fun i => (writeRegs i).getD []
  let overlap := (List.range b.nwr).filter fun i =>
    ((regs.take i).flatten).any fun r => ((regs[i]?).getD []).contains r
  let sent := b.producers.map fun p => p.2.2
  (if header then [0] else []) ++
  ((b.mems.filter fun m => decide (b.lsids ≤ m.2)).map fun m => b.word m.1) ++
  (irr.tail.map b.word) ++ (if b.iso then irr.map b.word else []) ++ early.map b.word ++
  overlap.map (fun i => 1 + b.nrd + i) ++
  ((b.producers.filter fun p => !b.targetOk p.2.1 p.2.2).map fun p => p.1) ++
  ((List.range b.slots).filter fun k => (b.takes k).any fun o => !sent.contains (.op o (BitVec.ofNat 5 k))).map b.word ++
  ((List.range b.nwr).filter fun i => !sent.contains (.write (BitVec.ofNat 4 i))).map fun i => 1 + b.nrd + i

/-- The word at which a block is illegal, if it is (R331). -/
def illegalAt (pier : Bool) (words : List W32) : Option Nat :=
  match decodeBlock words with
  | none => some 0
  | some b =>
    match minimum? (illegalWords pier words b.nrd b.nwr) with
    | some i => some i
    | none => minimum? (b.breaches pier)

/-- The vector registers that a block's words name, with the pair bit. -/
def DecodedBlock.vregs (b : DecodedBlock) : List (Nat × Bool) :=
  (b.reads ++ b.writes).filterMap fun i => match i with
    | .rdV r => some (r.reg.toNat, r.pair)
    | .wrV w => some (w.reg.toNat, w.pair)
    | _ => none

/-- Does the block hold a `call`? -/
def DecodedBlock.calls (b : DecodedBlock) : Bool := b.slotsOf (fun i => match i with | .call .. => true | _ => false) != []

/-- Does the block break R164 or R351 in a warp with `n` vector registers? -/
def DecodedBlock.registerFault (b : DecodedBlock) (n : Nat) : Bool :=
  (b.vregs.any fun r => decide (n ≤ r.1) || (r.2 && (r.1 % 2 == 1 || decide (n ≤ r.1 + 1)))) || (b.calls && decide (n < 2))

/-- The vector registers that a block reads or writes. -/
def DecodedBlock.touched (b : DecodedBlock) : List Nat :=
  (b.vregs.map fun r => if r.2 then [r.1, r.1 + 1] else [r.1]).flatten ++ (if b.calls then [0, 1] else [])

/-- Does an `ext` stand in the slot before? -/
def DecodedBlock.extBefore (b : DecodedBlock) (k : Nat) : Bool :=
  match k with
  | 0 => false
  | j + 1 => match b.compute[j]? with
    | some (.ext _) => true
    | _ => false

/-- The shape of a block in flight. -/
def DecodedBlock.shape (b : DecodedBlock) : Shape where
  cnt := b.slots
  nrd := b.nrd
  nwr := b.nwr
  lsids := b.lsids
  iso := b.iso
  exits := b.exits
  deps := (List.range b.slots).map fun k =>
    let fed := b.producers.filterMap fun p => match p.2.1, p.2.2 with
      | some j, .op _ n => if n.toNat = k then some j else none
      | _, _ => none
    dedup (fed ++ if b.extBefore k then [k - 1] else [])
  mems := b.mems.map fun m => (m.1, m.2, match b.compute[m.1]? with | some i => waitsLower i | none => false)
  irrevocable := (b.slotsOf irrevocable).head?
  waits := b.slotsOf isWait

/-- A block in flight before its header has run. -/
def freshFrame (id : WarpId) (strand : Nat) (pc : W64) (words : List W32) (shape : Shape) (active : Mask) : Frame where
  warp := id
  strand := strand
  pc := pc
  words := words
  at_ := 0
  shape := shape
  active := active
  tokens := []
  fired := []
  performed := []
  writes := []
  exts := []
  stores := []
  deferred := []
  exits := []
  flags := []
  faults := []
  bound := none
  rounded := false
  waiting := false
  readSig := []
  writeSig := []
  startCommit := none
  firstCommit := none
  uniform := []
  returned := []

end Sys2Proof.Machine
end

