-- ==== Sys2Proof/Machine/Fetch.lean ====
section
/-!
DEFINITION. Fetching a block (spec/06_execution_model.md R145, R152, R154, R164; spec/07_traps_and_context.md R168, R169;
spec/05_scheduler.md R130; spec/16_isa_sync_work_system.md R423, R451).
-/
namespace Sys2Proof.Machine

/-- One instruction word, fetched as by `ldb` from a page that may be executed (R102; log 11). The on-core windows hold no
page, so a fetch there is a *protection* fault (log 12); any other address is an offset of the window to a pier core (R260). -/
def State.fetchWord (s : State) (who : Issuer) (a : W64) : State × Res W32 :=
  if windowOf a.toNat = .scratch ∨ (windowOf a.toNat ≠ .global ∧ who.pier.isNone) then (s, .bad .protection a)
  else match s.access who .fetch a 4 with
    | .ok ps =>
      let r := s.loadBytes who .l2 false a.toNat ps
      match r.2 with
      | some bs => (r.1, .ok (BitVec.ofNat 32 (leNat bs)))
      | none => (r.1, .bad .poison (s.poisonAddress who a ps))
    | .bad c x => (s, .bad c (if x = 0 then a else x))
    | .absent p => (s, .absent p)
    | .wait => (s, .wait)

/-- `n` instruction words from an address. -/
def State.fetchWords (s : State) (who : Issuer) (a : W64) (n : Nat) : State × Res (List W32) :=
  (List.range n).foldl (fun acc i =>
    match acc.2 with
    | .ok ws =>
      match acc.1.fetchWord who (a + BitVec.ofNat 64 (4 * i)) with
      | (s, .ok w) => (s, .ok (ws ++ [w]))
      | (s, .bad c x) => (s, .bad c x)
      | (s, .absent p) => (s, .absent p)
      | (s, .wait) => (s, .wait)
    | _ => acc) (s, .ok [])

/-- The words of the block at an address: the header, and as many as it names (R316). -/
def State.fetchBlock (s : State) (who : Issuer) (a : W64) : State × Res (List W32) :=
  match s.fetchWords who a 1 with
  | (s, .ok [h]) => match blockWords h with
    | some n => s.fetchWords who a n
    | none => (s, .ok [h])
  | r => r

/-- The frame of a block that has only been fetched. -/
def fetchedFrame (w : Warp) (st : Strand) : Frame :=
  freshFrame w.id st.id st.pc [] ⟨0, 0, 0, 0, false, 0, [], [], none, []⟩ st.mask

/-- A fault found at fetch or decode: slot 0xff, every active lane (R169). -/
def State.fetchFault (s : State) (w : Warp) (st : Strand) (c : Cause) (a : W64) (park : Option Nat) : State :=
  s.takeFault (fetchedFrame w st) ⟨c, 0xff, st.mask, a, 0xff, 0, false, park⟩

/-- Registers that pending register drains of a warp will write (R451). -/
def State.drainRegs (s : State) (id : WarpId) : List Nat :=
  (s.matrix.filterMap fun c => match c.op with
    | .drain _ ctl _ => if c.who.serial = s.serialOf id then some ((List.range 32).map fun i => bits ctl.toNat 23 16 + i) else none
    | _ => none).flatten

/-- Does a block's use of vector registers wait for a register drain (R451)? -/
def State.awaitsDrain (s : State) (id : WarpId) (words : List W32) : Bool :=
  match decodeBlock words with
  | none => false
  | some b =>
    let d := s.drainRegs id
    b.touched.any fun r => d.contains r

/-- May a strand of a warp fetch its next block (R122, R141, R152, R158, R175, R420)? -/
def State.canFetch (s : State) (w : Warp) (st : Strand) : Bool :=
  w.status = .running && st.place = .active && st.held = none && st.hold = [] &&
  (s.frames.all fun f => f.warp ≠ w.id || f.strand ≠ st.id) &&
  (w.pier.isSome || match s.context? w.ctx with | some c => c.state = .resident && !c.recovering | none => false) &&
  (decide (st.restarts < 8) || (s.arbiter (coreDie w.id.core)).holder = some (w.id, st.id))

/-- Has a strand, restarted eight times, no place yet in the queue for the serial token (R158)? -/
def State.needsToken (s : State) (w : Warp) (st : Strand) : Bool :=
  let a := s.arbiter (coreDie w.id.core)
  decide (8 ≤ st.restarts) && a.holder != some (w.id, st.id) && !a.serial.contains (w.id, st.id)

/-- A strand joins the queue for the serial token of its die. -/
def State.requestToken (s : State) (w : Warp) (st : Strand) : State :=
  let d := coreDie w.id.core
  let a := s.arbiter d
  s.setArbiter d { a with serial := a.serial ++ [(w.id, st.id)] }

/-- All living lanes of a warp as one strand at an address, with no rejoin mask (R423; log 13). -/
def Warp.regroup (w : Warp) (pc : W64) : Warp :=
  { w with
    strands := [⟨w.nextStrand, pc, 0, w.living, .active, false, none, [], none, 0⟩]
    nextStrand := w.nextStrand + 1
    jE := [] }

/-- The record of a sibling that is not running retires with cancel status, once the warp's resident blocks have
committed (R130, R423). What has been fetched early for other strands of the warp is dropped. The decrement of the record's
join takes its retry entries from the dispatcher of the die of the warp, which is the model's choice (log 62). -/
def State.cancelRecord (s : State) (w : Warp) (h : HeldRecord) : State :=
  if s.frames.any fun f => f.warp = w.id then s
  else
    let s := s.clearWarp w.id
    let s := s.onWarp w.id fun w => { w.regroup h.block with held := none }
    let j := recJoin h.record
    let s := if j ≠ 0 ∧ j.toNat % 128 = 0 then s.deviceJoinWake w.ctx (coreDie w.id.core) j else s
    s.retireSiblings w.ctx (recGroup h.record)

/-- The address at which every active lane of a block goes on, once each lane's exit is known and all agree (R152). -/
def Frame.knownNext (f : Frame) : Option W64 :=
  let next := (lanesOf f.active).map fun l =>
    match f.exits.filter fun x => x.1 = l with
    | [(_, _, .go pc)] => some pc
    | [(_, _, .call pc _)] => some pc
    | _ => none
  match next with
  | some pc :: _ => if next.all fun x => x = some pc then some pc else none
  | _ => none

/-- The block of a strand that waits in a fetch frame (R152). -/
def State.early? (s : State) (w : Warp) (st : Strand) : Option EarlyFetch :=
  s.early.find? fun e => e.warp = w.id && e.strand = st.id

/-- A strand's fetch frame is free again. -/
def State.dropEarly (s : State) (warp : WarpId) (strand : Nat) : State :=
  { s with early := s.early.filter fun e => !(e.warp = warp && e.strand = strand) }

/-- The fetch frames of a warp's scheduler that are in use: it has 32 (R119, R152). -/
def State.earlyUsed (s : State) (id : WarpId) : Nat :=
  (s.early.filter fun e => e.warp.core = id.core && e.warp.slot / 16 = id.slot / 16).length

/-- Has a block of a warp taken a record, which its commit makes the warp hold, whose sibling is not running (R130, R422)? -/
def State.takesStopped (s : State) (w : Warp) : Bool :=
  s.frames.any fun f => f.warp = w.id && match f.bound.bind Replay.record with
    | some record => s.siblingStopped w.ctx record
    | none => false

/-- The successor that a strand may fetch before its current block commits: known in every lane, a fetch frame free, and
the sibling check passed (R152, R154). -/
def State.earlyNext (s : State) (w : Warp) (st : Strand) : Option W64 :=
  if w.status = .running && st.place = .active && (s.early? w st).isNone && decide (s.earlyUsed w.id < 32) && !s.cancelledRecord w &&
    !s.takesStopped w then
    (s.frames.find? fun f => f.warp = w.id && f.strand = st.id).bind Frame.knownNext
  else none

/-- Fetches a strand's next block early. A fetch that meets a fault is made again once the current block has committed. -/
def State.fetchEarly (s : State) (w : Warp) (st : Strand) (pc : W64) : State :=
  match s.fetchBlock w.issuer pc with
  | (s, .ok words) => { s with early := s.early ++ [⟨w.id, st.id, pc, words⟩] }
  | _ => s

/-- The words of a strand's next block: those that were fetched early, or those that are fetched now. -/
def State.nextWords (s : State) (w : Warp) (st : Strand) : State × Res (List W32) :=
  match s.early? w st with
  | some e => if e.pc = st.pc then (s, .ok e.words) else s.fetchBlock w.issuer st.pc
  | none => s.fetchBlock w.issuer st.pc

/-- The fetch and decode of a strand's next block: the first failing check decides (R168, R169). -/
def State.fetchNext (s : State) (w : Warp) (st : Strand) : State :=
  let r := s.nextWords w st
  match (if s.early = [] then r.1 else r.1.dropEarly w.id st.id, r.2) with
  | (_, .wait) => s
  | (s, .absent page) => s.fetchFault w st .pageFault (BitVec.ofNat 64 (Nat.max st.pc.toNat (page * 4096))) (some page)
  | (s, .bad c a) => s.fetchFault w st c a none
  | (s, .ok words) =>
    match illegalAt w.pier.isSome words with
    | some i => s.fetchFault w st .illegal (st.pc + BitVec.ofNat 64 (4 * i)) none
    | none =>
      match decodeBlock words with
      | none => s.fetchFault w st .illegal st.pc none
      | some b =>
        if b.registerFault w.vregs then s.fetchFault w st .register 0 none
        else if s.awaitsDrain w.id words then s
        else { s with frames := freshFrame w.id st.id st.pc words b.shape st.mask :: s.frames }

/-- A strand's turn to fetch: it leaves for the waiting list if it is rotating, asks for the serial token if it must,
retires a cancelled record, or fetches its next block; before its current block has committed it may fetch early. -/
def State.fetchTurn (s : State) (warp : WarpId) (strand : Nat) : State :=
  match s.warp? warp with
  | none => s
  | some w =>
    match w.strand? strand with
    | none => s
    | some st =>
      if st.place = .rotating && s.frames.all (fun f => f.warp ≠ warp || f.strand ≠ strand) then
        s.onWarp warp fun w => w.toTail strand
      else if st.place = .active && s.needsToken w st then s.requestToken w st
      else if !s.canFetch w st then
        match s.earlyNext w st with
        | some pc => s.fetchEarly w st pc
        | none => s
      else match w.held with
        | some h => if s.cancelledRecord w && (s.early? w st).isNone then s.cancelRecord w h else s.fetchNext w st
        | none => s.fetchNext w st

/-- `BLOCK_FETCH` (R152, R154). -/
def execBlockFetch (warp : WarpId) (strand : Nat) (s : State) : Out := .next (s.fetchTurn warp strand)

/-- `BLOCK_RETRY`: a block that found a queue or the park table full runs again (R103, R118, R166, R263, R404, R439). -/
def execBlockRetry (warp : WarpId) (strand : Nat) (s : State) : Out := .next (s.fetchTurn warp strand)

end Sys2Proof.Machine
end

