-- ==== Sys2Proof/Machine/Commit.lean ====
section
/-!
DEFINITION. The commit of a block as one step (spec/06_execution_model.md R142, R143, R150, R151, R155 to R160, R165 to
R167; spec/13_isa_block_control_integer.md R342, R343), and what of it is retried or faults in place of committing.
-/
namespace Sys2Proof.Machine

/-- Why a complete block does not commit: it runs again, or it faults at a slot. -/
inductive CommitEnd where
  | retry
  | fault (i : FaultInfo)
  deriving DecidableEq, Repr

/-- What a part of a commit answers. -/
abbrev Try := Except CommitEnd State

/-- Goes on with the next part of a commit. -/
def andTry (r : Try) (k : State → Try) : Try :=
  match r with
  | .ok s => k s
  | .error e => .error e

/-- Runs the parts of a commit in order until one does not go through. -/
def foldTry {α : Type} (s : State) (l : List α) (k : State → α → Try) : Try := l.foldl (fun r x => andTry r fun s => k s x) (.ok s)

/-- A fault of one lane that a commit meets at a slot. -/
def commitFault (f : Frame) (slot : Nat) (c : Cause) (m : Mask) : Try :=
  .error (.fault { f.faultAt slot c 0 0 with lanes := m })

/-- The lanes without exactly one exit, as faults (R150, R169). -/
def Frame.exitFaults (f : Frame) : List FaultInfo :=
  (lanesOf f.active).filterMap fun l =>
    match (f.exits.filter fun x => x.1 = l).map fun x => x.2.1 with
    | [] => some (f.faultAt (f.shape.cnt - 1) .malformed l 0)
    | [_] => none
    | ks => some (f.faultAt (ks.foldl Nat.max 0) .malformed l 0)

/-- The token of write slot `i`. -/
def Frame.written (f : Frame) (i : Nat) : Token := f.collected (.write (BitVec.ofNat 4 i))

/-- The value of the lowest active lane that is not null (R326). -/
def Frame.firstValue (f : Frame) (t : Token) : Option W64 := (lanesOf f.active).findSome? fun l => tokenAt t l

/-- One write word takes effect (R326, R342, R159). -/
def Warp.applyWrite (w : Warp) (f : Frame) (x : (WriteKind × BitVec 8 × Bool) × Nat) : Warp :=
  let t := f.written x.2
  let n := x.1.2.1.toNat
  let pair := x.1.2.2
  let each := fun (w : Warp) (g : Warp → Nat → W64 → Warp) =>
    foldState w (lanesOf f.active) fun w l => match tokenAt t l with | some v => g w l v | none => w
  match x.1.1 with
  | .v => each w fun w l v => let w := w.setV n l (lo32 v); if pair then w.setV (n + 1) l (hi32 v) else w
  | .s => match f.firstValue t with
    | some v => let w := w.setS n (lo32 v); if pair then w.setS (n + 1) (hi32 v) else w
    | none => w
  | .p =>
    if pair then each w fun w l v => w.setPreds l v
    else if n < 64 then each w fun w l v => w.setPred n l (v.getLsbD 0)
    else match f.firstValue t with
      | some v => w.setEnrol (n - 64) (lo32 v)
      | none => w

/-- The register writes and the link of `call` (R343 steps 1 and 2, R351). -/
def Warp.applyWrites (w : Warp) (f : Frame) : Warp :=
  let w := foldState w f.writes.zipIdx fun w x => w.applyWrite f x
  foldState w f.exits fun w x => match x.2.2 with
    | .call _ link => (w.setV 0 x.1 (lo32 link)).setV 1 x.1 (hi32 link)
    | _ => w

/-- An entry of a block's store buffer, or an action that takes its place among the stores (R151, R394, R399). -/
inductive StoreItem where
  | store (st : BufStore)
  | action (lsid lane : Nat) (d : Deferred)
  deriving DecidableEq, Repr

/-- The order of entry: ascending LSID, and within one LSID ascending lane (R151). -/
def StoreItem.order : StoreItem → Nat
  | .store st => 32 * st.lsid + st.lane
  | .action l k _ => 32 * l + k

/-- The LSID of an entry. -/
def StoreItem.lsid : StoreItem → Nat
  | .store st => st.lsid
  | .action l _ _ => l

/-- What a block enters into the memory system, in order. The lanes of an atomic without a returned value enter together, at
the place of the lowest of them among the stores of its LSID: R394 gives their order by LSID only, and this is the model's
choice (log 62). -/
def Frame.storeItems (f : Frame) : List StoreItem :=
  let acts := f.deferred.filterMap fun x => match x.2 with
    | .atomic lsid _ _ _ _ _ lanes => some (StoreItem.action lsid ((lanes.head?.map fun y => y.1).getD 0) x.2)
    | .fenceRep lsid _ _ => some (.action lsid 0 x.2)
    | _ => none
  sortBy StoreItem.order (f.stores.map StoreItem.store ++ acts)

/-- The stamp of a replica line. -/
def State.stamp (s : State) (line : Nat) : Nat × List Nat := sget (0, []) s.stamps line

/-- The four replicas of a line. -/
def replicas (line : Nat) : List Nat := (List.range 4).map fun d => setBits line 39 38 d

/-- The replica whose stamp wins (R238): the larger sum, then the lower die that wrote. -/
def State.winner (s : State) (line : Nat) : Nat :=
  (replicas line).foldl (fun best r =>
    let a := s.stamp best
    let b := s.stamp r
    if total a.2 < total b.2 || (total a.2 = total b.2 && b.1 < a.1) then r else best) (setBits line 39 38 0)

/-- Reconciles one replicated line (R238). -/
def State.reconcile (s : State) (ctx line : Nat) : State :=
  let rs := replicas line
  if rs.all fun r => s.stamp r = s.stamp (setBits line 39 38 0) then s
  else
    let w := s.winner line
    let bytes := (List.range 64).map fun i => s.homeByte (w + i)
    let put := fun (s : State) (r : Nat) =>
      let s := s.writeHome (homeDie r) (homeDie r) (some ctx) false false [] {} (bytes.zipIdx.map fun b => (r + b.2, b.1))
      { s with stamps := sset (0, []) s.stamps r (s.stamp w) }
    foldState s (rs.filter fun r => r ≠ w) put

/-- The lines of replicated pages in a range, at the die's own replicas (R399). -/
def State.repLines (s : State) (w : Warp) (a b : W64) : List Nat :=
  let last := a.toNat + b.toNat - 1
  let pages := if b = 0 then [] else (List.range (last / 4096 - a.toNat / 4096 + 1)).map fun i => a.toNat / 4096 + i
  (pages.map fun page =>
    match s.globalPlaces w.ctx (coreDie w.id.core) .read (page * 4096) 1 with
    | .ok [.hbm base attr] =>
      let lines := (List.range 64).filter fun i =>
        decide (page * 4096 + 64 * i ≤ last) && decide (a.toNat < page * 4096 + 64 * i + 64)
      if attr.repl then lines.map fun i => base + 64 * i else []
    | _ => []).flatten

/-- `fence.rep` at commit: the lines of replicated pages in the range, and then `fence.ar.pkg` by the lanes in which it
performed, whose release every later write of the warp makes (R226, R399). -/
def State.commitFenceRep (s : State) (w : Warp) (lanes : Mask) (a b : W64) : State :=
  let s := s.releaseNow w.id .pkg
  let s := foldState s (s.repLines w a b) fun s line => s.reconcile w.ctx line
  (s.onWarp w.id fun w => { w with relSeq := s.releasing w.relSeq .pkg }).acquire w.id w.ctx lanes .pkg

/-- The lanes in which the memory instruction with an LSID has performed (R148). -/
def Frame.performedBy (f : Frame) (lsid : Nat) : Mask := maskOf ((f.performed.filter fun x => x.1 = lsid).map fun x => x.2.1)

/-- One store item of a block enters the memory system (R151, R225, R226, R394). `block` is the number of the block, and `n`
that of the first write of its LSID, before which a release of that LSID puts what came earlier. A fence stands among the
stores as an entry without places. -/
def State.enterItem (s : State) (f : Frame) (block n : Nat) (x : StoreItem) : State :=
  let w := s.frameWarp f
  let entry : Entry := ⟨w.issuer, block, 32 * block + x.lsid, 0, w.relSeq⟩
  match x with
  | .store st =>
    let wide : Bool := match st.release with | some sc => decide (Scope.rank .pkg ≤ sc.rank) | none => false
    let s := if wide then s.stashRelease w.id.core else s
    let needs := match st.release with | some sc => releasingAt n w.relSeq sc | none => w.relSeq
    if st.places = [] then
      let s := s.onWarp w.id fun w => { w with relSeq := needs }
      if st.multicast then s.visibleNow w.id (st.release.getD .wrp) else s
    else s.enterStore { entry with lanes := maskOf [st.lane], needs := needs } st
  | .action _ _ (.atomic _ op wide isCas order sc lanes) => s.enterAtomics entry op wide isCas order sc lanes
  | .action _ _ (.fenceRep lsid a b) => s.commitFenceRep w (f.performedBy lsid) a b
  | .action .. => s

/-- Everything that a block enters into the memory system, LSID by LSID (R151). The block takes a number of its own. -/
def State.enterItems (s : State) (f : Frame) : State :=
  let block := s.nextWrite
  let s := { s with nextWrite := block + 1 }
  foldState s (dedup (f.storeItems.map StoreItem.lsid)) fun s k =>
    let n := s.nextWrite
    foldState s (f.storeItems.filter fun x => x.lsid = k) fun s x => s.enterItem f block n x

/-- A deposit is applied (R167). -/
def Warp.applyDeposit (w : Warp) (d : Deposit) : Warp :=
  let w := foldState w d.lanes fun w x => w.setV d.reg x.1 x.2
  { w with arrive := sset 0 w.arrive d.counter (w.arrival d.counter + 1) }

/-- Strands held by `rwwait` go on once each of their counts is reached (R420). -/
def Warp.testHolds (w : Warp) : Warp :=
  let open_ := fun (h : Nat × W32) => decide (2 ^ 31 ≤ (w.arrival h.1 - h.2).toNat)
  { w with strands := update (fun st => st.hold ≠ []) (fun st => { st with hold := st.hold.filter open_ }) w.strands }

/-- A boundary of a warp: its deposits are applied in order, and its holds are tested (R167, R420). -/
def Warp.boundary (w : Warp) : Warp :=
  ({ foldState w w.deposits Warp.applyDeposit with deposits := [] } : Warp).testHolds

/-- `rwrite` at commit (R165 to R167, R419). -/
def State.commitRwrite (s : State) (f : Frame) (slot : Nat) (d : W32) (lanes : List (Nat × W32)) : Try :=
  let w := s.frameWarp f
  let n := d.toNat
  let target : WarpId := ⟨w.id.core / 4 * 4 + bits n 9 8, bits n 5 0⟩
  let dep : Deposit := ⟨bits n 23 16, bits n 25 24, lanes⟩
  let bad := commitFault f slot .remote (maskOf (lanes.map fun x => x.1))
  match s.warp? target with
  | none => bad
  | some t =>
    let gone : Bool := match t.status with | .offCore .. => true | _ => false
    if t.ctx ≠ w.ctx ∨ gone ∨ t.vregs ≤ dep.reg then bad
    else if t.id ≠ w.id ∧ t.deposits = [] ∧ s.frames.all fun x => x.warp ≠ t.id then
      .ok (s.onWarp t.id fun t => (t.applyDeposit dep).testHolds)
    else if 4 ≤ t.deposits.length then .error .retry
    else .ok (s.onWarp t.id fun t => { t with deposits := t.deposits ++ [dep] })

/-- The lanes' actions on their phasers at commit, in ascending lane order (R413 to R415). A lane whose action has no
result would fault with *barrier*; the fault names every such lane (R169), and a lane after one that would fault finds
the phaser as the lanes before left it. `x` gives the lane, the phaser and the action's operands. -/
def State.phaserActs (s : State) (f : Frame) (slot : Nat) {Rest : Type} (lanes : List (Nat × Nat × Rest))
    (act : Rest → Phaser → Option Phaser) : Try :=
  let r := lanes.foldl (fun (a : State × List Nat) x =>
    match (a.1.phaser? x.2.1).bind (act x.2.2) with
    | some p => (a.1.setPhaser p, a.2)
    | none => (a.1, a.2 ++ [x.1])) (s, [])
  if r.2 = [] then .ok r.1 else commitFault f slot .barrier (maskOf r.2)

/-- `plwait` at commit: reads the watched address as by `ldb`, arms the watch on its line and enters back-off (R121, R162). -/
def State.commitPlwait (s : State) (f : Frame) (slot : Nat) (a : W64) (places : List Place) (m : Mask) : Try :=
  let r := s.loadBytes (s.who f) .l2 false a.toNat places
  match r.2, linesAt places with
  | some _, line :: _ => .ok (r.1.onWarp f.warp fun w => { w with
      backoff := if w.lastWatch = some line then Nat.min (w.backoff + 1) 8 else 1
      watch := some line
      lastWatch := some line
      inBackoff := true
      plBackoff := true })
  | _, _ => .error (.fault { f.faultAt slot .poison 0 a with lanes := m })

/-- Parks the enrolled lanes of an `rjwait` at a slot (R159, R356). -/
def State.commitRjwait (s : State) (f : Frame) (slot : Nat) : State :=
  let at_ := f.exits.filterMap fun x => match x.2.2 with
    | .rejoin j pc => if x.2.1 = slot then some (x.1, j, pc) else none
    | _ => none
  match at_ with
  | [] => s
  | (_, j, pc) :: _ =>
    s.onWarp f.warp fun w =>
      match w.strand? f.strand with
      | none => w
      | some st =>
        let m := maskOf (at_.map fun x => x.1) &&& w.enrol j
        if m = 0 then w
        else
          let parked : Strand := { st with
            id := w.nextStrand, pc := pc, mask := m, place := .parked j, restarts := 0, held := none, hold := []
            replay := st.replay.filter fun r => r.block ≠ f.pc }
          let w := w.onStrand f.strand fun st => { st with mask := st.mask &&& ~~~m }
          ({ w with strands := w.strands ++ [parked], nextStrand := w.nextStrand + 1 } : Warp).checkRejoin j

/-- An action deferred to commit takes effect (R220, R343 step 4). -/
def State.act (s : State) (f : Frame) (slot : Nat) (d : Deferred) : Try :=
  let w := s.frameWarp f
  match d with
  | .rjenrol j m => .ok (s.onWarp w.id fun w => w.rejoinEnrol j m)
  | .rjstrike j m => .ok (s.onWarp w.id fun w => w.rejoinClear j m)
  | .atomic .. => .ok s
  | .fenceRep .. => .ok s
  | .stmap base _ _ => .ok (s.commitStmap f base)
  | .stunmap base => .ok (s.commitStunmap w.id.core w.ctx base)
  | .stflush a b => .ok (s.commitStflush w.id.core w.ctx a b)
  | .cpy lanes =>
    if 256 < (s.runningCopies w.id.core).length + lanes.length then .error .retry else .ok (s.commitCpy w lanes)
  | .cpyg desc lanes =>
    if 256 < (s.runningCopies w.id.core).length + 1 then .error .retry else .ok (s.commitCpyg w desc lanes)
  | .cpseal m => .ok (s.commitCpseal w.id m)
  | .kvapp bf16 lanes => .ok ((s.releaseFor w.id w.relSeq).commitKvapp w bf16 lanes)
  | .matrix tile op =>
    if 16 ≤ (s.matrix.filter fun c => c.leader = w.id.core).length then .error .retry else .ok (s.commitMatrix w tile op)
  | .tokpass => .ok { s with tokens := sset 0 s.tokens (4 * w.id.core + w.id.slot / 16) (1 - w.id.slot % 16 / 8) }
  | .arrive so rel sc lanes =>
    let s := if rel then s.releaseNow w.id (s.scopeOf f sc) else s
    let acted := s.phaserActs f slot lanes (arriveAct so)
    if rel && decide (Scope.rank .pod ≤ sc.rank) && s.owesPackets w.serial (lanes.map fun x => x.1) then
      andTry acted fun _ => .ok { s with lateArrivals := s.lateArrivals ++ [⟨w.ctx, w.serial, so, lanes⟩] }
    else acted
  | .barReg lanes => s.phaserActs f slot lanes fun x p => p.register (x.extractLsb' 0 16)
  | .barDrop lanes => s.phaserActs f slot lanes fun x p => p.drop (x.extractLsb' 0 16)
  | .barExpect lanes => s.phaserActs f slot lanes fun x p => some (p.expect (x.extractLsb' 0 48))
  | .plwait a places m => s.commitPlwait f slot a places m
  | .yield n => .ok (if n = 0 then s else s.onWarp w.id fun w => { w with inBackoff := true, plBackoff := false })
  | .sleep _ => .ok s
  | .rwrite desc lanes => s.commitRwrite f slot desc lanes
  | .rwwait _ _ => .ok s
  | .deqDone .. => .ok s
  | .join lanes =>
    match s.joinLanes w.issuer lanes with
    | (s, woken, [], false) => .ok (s.wake rounds woken)
    | (_, _, [], true) => .error .retry
    | (_, _, bad, _) => commitFault f slot .queue (maskOf bad)
  | .nmcall ret call entry msg refused =>
    if 64 ≤ s.waitingCalls (call.extractLsb' 0 4).toNat then .error .retry else .ok (s.commitNmcall w ret call entry msg refused)
  | .rred lanes => .ok (s.commitRred w.issuer lanes)
  | .nmret => .ok s
  | .nbDot offset results => .ok ((s.releaseFor w.id w.relSeq).commitDot w.id.core offset results)
  | .gradq lanes => .ok (foldState (s.releaseFor w.id w.relSeq) lanes fun s x => s.commitGrad w x.2.1.toNat x.2.2.1.toNat x.2.2.2.toNat)
  | .syswr v => .ok (s.commitSyswr w.id v)
  | .haltDbg _ _ => .ok s

/-- Step 4 of R343: the flags of R298, deferred actions and the parking of `rjwait`, in slot order, and then the LFSR (R301).
No action reads or writes a predicate that a flag is kept in. -/
def State.acts (s : State) (f : Frame) : Try :=
  let s := if f.flags = [] then s else s.onWarp f.warp fun w => w.applyFlags f.flags
  andTry (foldTry s (List.range f.shape.cnt) fun s k =>
    foldTry (s.commitRjwait f k) (f.deferred.filter fun d => d.1 = k) fun s d => s.act f k d.2) fun s =>
      let step : Bool := f.rounded && !s.deterministic (s.frameWarp f).ctx
      .ok (if step then s.onWarp f.warp fun w => { w with lfsr := lfsrStep w.lfsr } else s)

/-- The successor of a lane that goes on (R142, R349): its trap vector if it traps, and the address. -/
def ExitKind.successor (x : ExitKind) (trapRet following : W64) : Option (Option Nat × W64) :=
  match x with
  | .go pc => some (none, pc)
  | .call pc _ => some (none, pc)
  | .rejoin _ pc => some (none, pc)
  | .done => none
  | .trap v _ => some (some v, following)
  | .eret => some (none, trapRet)

/-- The strands that a commit leaves: successor groups in ascending order of their lowest lane. -/
def Frame.groups (f : Frame) (st : Strand) : List ((Option Nat × W64) × Mask) :=
  let lanes := (lanesOf st.mask).filterMap fun l =>
    ((f.exits.find? fun x => x.1 = l).bind fun x => x.2.2.successor st.trapRet f.following).map fun k => (k, l)
  (dedup (lanes.map Prod.fst)).map fun k => (k, maskOf ((lanes.filter fun x => x.1 = k).map Prod.snd))

/-- What the block's deferred `sleep` and `rwwait` leave on its strands: where each stands, and its hold (R418, R420). -/
def Frame.sleepTicks (f : Frame) : Option Nat :=
  match f.deferred.filterMap fun d => match d.2 with | .sleep n => some n | _ => none with
  | [] => none
  | ns => some (ns.foldl Nat.max 0)
/-- The counter and count of each `rwwait` of the block that performed. -/
def Frame.holdOn (f : Frame) : List (Nat × W32) :=
  f.deferred.filterMap fun d => match d.2 with | .rwwait k c => some (k, c) | _ => none
/-- Does the block hold a `yield` that performed? -/
def Frame.yields (f : Frame) : Bool := f.deferred.any fun d => match d.2 with | .yield _ => true | _ => false
/-- Does an `eret` of the block fire? -/
def Frame.erets (f : Frame) : Bool := f.exits.any fun x => x.2.2 = .eret

/-- The division of lanes among successors (R142), the end of threads (R353, R160), `eret` (R173) and the places that
`sleep`, `yield` and a rotation leave (R122, R418). -/
def Warp.divide (w : Warp) (f : Frame) (now : Nat) : Warp :=
  match w.strand? f.strand with
  | none => w
  | some st =>
    let place : StrandPlace := match f.sleepTicks with
      | some n => .sleeping (now + n)
      | none => .waiting
    let make := fun (id : Nat) (g : (Option Nat × W64) × Mask) => ({ st with
      id := id, pc := g.1.2, mask := g.2, place := place, restarts := 0, held := none, hold := f.holdOn
      inHandler := st.inHandler && (!f.erets || g.1.1.isSome)
      replay := st.replay.filter fun r => r.block ≠ f.pc } : Strand)
    let ended := maskOf ((f.exits.filter fun x => x.2.2 = .done).map fun x => x.1)
    let leaves := st.place = .rotating || (f.yields && w.strands.any fun x => x.place = .waiting)
    let w := match f.groups st with
      | [] => { w with strands := w.strands.filter fun x => x.id ≠ st.id }
      | g :: rest =>
        let keep := make st.id g
        let others := rest.zipIdx.map fun (x : ((Option Nat × W64) × Mask) × Nat) => make (w.nextStrand + x.2) x.1
        let here := w.strands.map fun (x : Strand) => if x.id = st.id then { keep with place := st.place } else x
        let tail := (w.strands.filter fun (x : Strand) => x.id ≠ st.id) ++ others ++ [keep]
        { w with
          nextStrand := w.nextStrand + rest.length
          strands := if f.sleepTicks.isSome || leaves then tail else here ++ others }
    (w.endLanes ended).promote

/-- The traps of a commit: strand, vector and slot, in ascending vector order (R174). Lanes of one strand that trapped at
several slots take one trap, at the lowest of them (R169). -/
def State.trapsOf (s : State) (f : Frame) : List (Nat × Nat × Nat) :=
  let ts := f.exits.filterMap fun x => match x.2.2 with | .trap v k => some (x.1, v, k) | _ => none
  let one := fun (t : Nat × Nat × Nat) =>
    ((s.frameWarp f).strands.find? fun st => st.mask.getLsbD t.1).map fun st => (st.id, t.2.1, t.2.2)
  let all := sortBy (fun t => t.2.2) (ts.filterMap one)
  let firsts := all.foldl (fun acc t => if acc.any fun (u : Nat × Nat × Nat) => u.1 = t.1 then acc else acc ++ [t]) []
  sortBy (fun t => t.2.1) firsts

/-- `halt.dbg` of a committed block: a context fault *breakpoint* (R437). -/
def State.takeHalt (s : State) (f : Frame) : State :=
  match f.deferred.findSome? fun d => match d.2 with | .haltDbg k m => some (k, m) | _ => none with
  | none => s
  | some (k, m) =>
    let w := s.frameWarp f
    let low := (lowestLane m).getD 0
    let base : Strand := (w.strands.find? fun st => st.mask.getLsbD low).getD ⟨f.strand, f.pc, 0, f.active, .active, false, none, [], none, 0⟩
    let i : FaultInfo := ⟨.breakpoint, k, m, 0, 0xff, 0, false, none⟩
    s.contextFault f.warp f.pc m .breakpoint (s.faultRecord w base f.pc .breakpoint i)

/-- Does the block perform a write of its own (R156)? -/
def Frame.performsWrite (f : Frame) : Bool :=
  f.stores.any (fun st => st.places != []) ||
  f.deferred.any (fun d => match d.2 with
    | .atomic _ _ _ _ _ _ lanes => lanes != []
    | .kvapp _ lanes => lanes != []
    | .join lanes => lanes != []
    | .fenceRep .. => true
    | _ => false) ||
  (match f.bound, f.shape.irrevocable with
    | some r, some k =>
      let major := (((f.words[f.base + k]?).getD 0) >>> 25).toNat
      r.lanes != 0 && (major = 0x4f || major = 0x51)
    | _, _ => false)

/-- The places of a range that a block accesses at commit; none where it does not translate. -/
def State.placesAt (s : State) (w : Warp) (k : AKind) (a : W64) (n : Nat) : List Place :=
  match s.access w.issuer k a n with | .ok ps => ps | _ => []

/-- The four replicas of the replicated lines of a range, as places. -/
def State.repPlaces (s : State) (w : Warp) (a b : W64) : List Place :=
  ((s.repLines w a b).map fun line => (replicas line).map fun r => Place.hbm r ⟨true, false, false, false, false, false, true⟩).flatten

/-- The write signature of a block at commit: its stores and atomics, and what `join`, `kvapp` and `fence.rep` write
(R155; log 14). -/
def State.commitSig (s : State) (f : Frame) : List Nat :=
  let w := s.frameWarp f
  let late := fun (d : Nat × Deferred) => match d.2 with
    | .join lanes => (lanes.map fun x => x.2.2.1).flatten
    | .kvapp _ lanes => (lanes.map fun x => s.placesAt w .write x.2.1 (kvLength x.2.2.2.2)).flatten
    | .fenceRep _ a b => s.repPlaces w a b
    | _ => []
  dedup (f.writeSig ++ s.sigOf w.id.core (f.deferred.map late).flatten)

/-- The read signature of an isolated block at commit: its loads and atomics, and what its other instructions read in
memory: the objects of `join`, the page and the source of `kvapp`, the lines of `fence.rep`, the word of `plwait`, the
descriptor of `cpyg` and the images of `rred` (R155; log 14). -/
def State.commitReads (s : State) (f : Frame) : List Nat :=
  let w := s.frameWarp f
  let late := fun (d : Nat × Deferred) => match d.2 with
    | .join lanes => (lanes.map fun x => x.2.2.1).flatten
    | .kvapp bf16 lanes => (lanes.map fun x => s.placesAt w .read x.2.1 (kvLength x.2.2.2.2) ++
        s.placesAt w .read x.2.2.1 (x.2.2.2.2.toNat % 2 ^ 16 * if bf16 then 2 else 4)).flatten
    | .fenceRep _ a b => s.repPlaces w a b
    | .plwait _ places _ => places
    | .cpyg _ ((l, _) :: _) =>
      s.placesAt w .read ((tokenAt (f.collected (.op .b (BitVec.ofNat 5 d.1))) l).getD 0) 64
    | .rred lanes => (lanes.map fun x => s.placesAt w .read x.2.1 64).flatten
    | _ => []
  dedup (f.readSig ++ s.sigOf w.id.core (f.deferred.map late).flatten)

/-- Does a complete isolated block conflict with a commit since its first load (R157)? -/
def State.conflicts (s : State) (f : Frame) (sig : List Nat) : Bool :=
  let a := s.arbiter (coreDie f.warp.core)
  let since := match f.startCommit with | some n => n | none => f.firstCommit.getD a.number
  let later := a.history.filter fun h => decide (since < h.1)
  let mine := s.commitReads f ++ sig
  decide (later.length < a.number - since) || later.any fun h => h.2.any fun b => mine.contains b

/-- A committed block that performs a write receives a commit number, and its signature is kept among the latest 256
(R156). -/
def State.enterArbiter (s : State) (f : Frame) (sig : List Nat) : State :=
  if isPier f.warp.core || !f.performsWrite then s
  else
    let d := coreDie f.warp.core
    let a := s.arbiter d
    let h := a.history ++ [(a.number + 1, sig)]
    s.setArbiter d { a with number := a.number + 1, history := h.drop (h.length - 256) }

/-- Faults that a thread's end leaves unreported, as context faults (R192, R405, R440), and lost writes (R49). -/
def State.endReports (s : State) (f : Frame) (w0 : Warp) : State :=
  let living := ((s.warp? f.warp).map Warp.living).getD 0
  let record := fun (i : FaultInfo) =>
    recordBytes f.pc i.address i.lanes f.active i.cause.code 0xff 0xff i.epilogue false f.warp i.detail (s.refTime w0.ctx)
  let raise := fun (s : State) (i : FaultInfo) => s.faultContext w0.ctx f.warp f.pc i.lanes i.cause (record i)
  let dead := s.copies.filter fun c => c.who.serial = w0.serial && c.fault.isSome && c.lanes &&& living = 0
  let s := { s with copies := s.copies.filter fun c => !dead.contains c }
  let faults := dead.filterMap fun c => c.fault
  if living ≠ 0 then foldState s faults raise
  else
    let eps := s.epilogues.filterMap fun e => if e.who.serial = w0.serial && !e.reported then e.fault else none
    let lost := total ((((s.warp? f.warp).map fun w => w.lostRemote).getD []).map fun x => (lanesOf x.2).length)
    let s := s.onContext w0.ctx fun c => { c with errors := c.errors + BitVec.ofNat 32 lost }
    let s := match s.warp? f.warp with | some w => s.retireWarp w | none => s
    foldState s (faults ++ ((w0.heldFault.map fun h => h.info).toList) ++ eps) raise

/-- Does a strand wait for the serial token of its die, or hold it (R158)? -/
def State.asksToken (s : State) (id : WarpId) (strand : Nat) : Bool :=
  let a := s.arbiter (coreDie id.core)
  a.holder = some (id, strand) || a.serial.contains (id, strand)

/-- A rotation (R122): the strand that has been active longest leaves for the tail, at once when its block waits on a
condition or it has none, and otherwise once its block has committed. One that waits for the serial token stays: on the
waiting list it could not run the block that the token is for (R161). -/
def State.rotate (s : State) (id : WarpId) : State :=
  match s.warp? id with
  | none => s
  | some w =>
    if w.strands.all fun st => st.place ≠ .waiting then s
    else match w.strands.find? fun st => st.place = .active && !s.asksToken id st.id with
      | none => s
      | some st =>
        match s.frames.find? fun f => f.warp = id && f.strand = st.id with
        | none => s.onWarp id fun w => w.toTail st.id
        | some f =>
          if f.shape.waits.any fun k => !f.fired.contains k then (s.discard f).onWarp id fun w => w.toTail st.id
          else s.onWarp id fun w => w.onStrand st.id fun st => { st with place := .rotating }

/-- Counts a commit towards the next rotation (R122). -/
def State.countCommit (s : State) (id : WarpId) : State :=
  match s.warp? id with
  | none => s
  | some w =>
    if w.strands.all fun st => st.place ≠ .waiting then s.onWarp id fun w => { w with commits := 0 }
    else if 15 ≤ w.commits then (s.onWarp id fun w => { w with commits := 0 }).rotate id
    else s.onWarp id fun w => { w with commits := w.commits + 1 }

/-- What was fetched early for a warp stays only for a strand that still runs a block, or goes on at that address (R152). -/
def State.keepEarly (s : State) (id : WarpId) : State :=
  let goesOn := fun (e : EarlyFetch) => match (s.warp? id).bind fun w => w.strand? e.strand with
    | some st => e.pc = st.pc || s.frames.any fun f => f.warp = id && f.strand = st.id
    | none => false
  if s.early = [] then s else { s with early := s.early.filter fun e => e.warp ≠ id || goesOn e }

/-- The tail of a commit: the block's frame goes, lanes are divided, deposits are applied, the end of threads is
reported, traps are taken and held strands released (R343 steps 5 and 6). -/
def State.finishCommit (s : State) (f : Frame) (w0 : Warp) : State :=
  let s := { s with frames := s.frames.filter fun x => !(x.warp = f.warp && x.strand = f.strand) }
  let s := s.dropSerial f.warp f.strand
  let s := (s.onWarp f.warp fun w => (w.divide f s.ticks).boundary).keepEarly f.warp
  let s := if f.bound.map (fun r => r.queue) = some 1 then s else s.countAfter w0
  let s := s.countCommit f.warp
  let ends : Bool := f.deferred.any fun d => d.2 = .nmret
  match w0.pier with
  | some p =>
    if ends then s.commitNmret f.warp
    else
      let s := foldState s (s.trapsOf f) fun s t => s.takeTrap f.warp t.1 t.2.1 t.2.2 f.pc
      match s.warp? f.warp with
      | some w => if w.living = 0 then s.endPierWarp w p none none else s
      | none => s
  | none =>
    let s := foldState s (s.trapsOf f) fun s t => s.takeTrap f.warp t.1 t.2.1 t.2.2 f.pc
    let s := if f.erets then s.releaseHeld f.warp else s
    (s.takeHalt f).endReports f w0

/-- Everything a commit does, or why it does not take place (R343). The writes of an isolated block to lines homed on its
die are performed in that step, so that the block stands at one instant among the die's commits (R235). -/
def State.commitBlock (s : State) (f : Frame) : Try :=
  let w0 := s.frameWarp f
  let sig := s.commitSig f
  let s := s.onWarp f.warp fun w => w.applyWrites f
  let s := foldState s f.deferred fun s d => match d.2 with
    | .deqDone group record _ => s.commitDeq f group record
    | _ => s
  let s := s.enterItems f
  let die := coreDie f.warp.core
  let s := if f.shape.iso then s.drainHomed die fun q => q.warp = f.warp && q.commit = (s.arbiter die).number + 1 else s
  andTry (s.acts f) fun s => .ok ((s.enterArbiter f sig).finishCommit f w0).wakeWaiting

/-- An isolated block that conflicts starts again from its header; from the eighth restart it asks for the serial token
(R157, R158). -/
def State.restart (s : State) (f : Frame) : State :=
  let s := (s.discard f).onWarp f.warp fun w => w.onStrand f.strand fun st => { st with restarts := st.restarts + 1 }
  s.wakeWaiting

/-- The block stands aside until something happens. -/
def State.holdBlock (s : State) (f : Frame) : State := { s with frames := s.frames.tail ++ [{ f with waiting := true }] }

/-- Must the block wait at the point of commit: for a register drain (R451), for the holder of the serial token (R158), or
for room among the outstanding requests of a port (R43)? -/
def State.commitWaits (s : State) (f : Frame) : Bool :=
  s.awaitsDrain f.warp f.words ||
  (f.deferred.any fun d => match d.2 with | .rred lanes => s.rredWaits lanes | _ => false) ||
  (!isPier f.warp.core && f.performsWrite && match (s.arbiter (coreDie f.warp.core)).holder with
    | some h => h ≠ (f.warp, f.strand)
    | none => false)

/-- `BLOCK_COMMIT` (R150, R151, R154, R157): of the block at the head, once all its slots have fired. -/
def execBlockCommit (s : State) : Out :=
  .next (match s.frames with
    | [] => s
    | f :: _ =>
      if !f.allFired || f.faults != [] then s
      else match ({ f with faults := f.exitFaults } : Frame).worst? with
        | some i => (s.takeFault f i).wakeWaiting
        | none =>
          if s.commitWaits f then s.holdBlock f
          else if f.shape.iso && s.conflicts f (s.commitSig f) then s.restart f
          else match s.commitBlock f with
            | .ok s' => s'
            | .error .retry => (s.discard f).wakeWaiting
            | .error (.fault i) => (s.takeFault f i).wakeWaiting)

end Sys2Proof.Machine
end

