-- ==== Sys2Proof/Machine/Events.lean ====
section
/-!
DEFINITION. The events of running warps: the serial token, rotations, back-off, watches, deposits, sleeps, timeouts and
retries (spec/05_scheduler.md R104, R118, R121, R122, R132, R133; spec/06_execution_model.md R158, R162, R167;
spec/07_traps_and_context.md R179; spec/16_isa_sync_work_system.md R418, R420, R421).
-/
namespace Sys2Proof.Machine

/-- `SERIAL_TOKEN_GRANT`: the token of a die passes to the oldest request (R158). A request whose strand has gone, or
whose warp does not run on its core, is passed over (R161). The writes that the die's cores have still to perform on lines homed on it are performed, so that the holder passes
R157 (R235). -/
def execSerialTokenGrant (die : Nat) (s : State) : Out :=
  let a := s.arbiter die
  let alive := a.serial.filter fun r => match s.warp? r.1 with
    | some w => decide (w.status = .running) && (w.strand? r.2).isSome
    | none => false
  .next (if a.holder.isSome || die ≥ 4 then s
    else match alive with
      | [] => s.setArbiter die { a with serial := [] }
      | r :: rest => (s.setArbiter die { a with holder := some r, serial := rest }).drainHomed die (fun _ => true) |>.wakeWaiting)

/-- `STRAND_ROTATION`: the rotation that falls due after 256 cycles (R122). -/
def execStrandRotation (warp : WarpId) (s : State) : Out := .next (s.rotate warp).wakeWaiting

/-- `BACKOFF_END` (R121, R418). -/
def execBackoffEnd (warp : WarpId) (s : State) : Out :=
  .next (s.onWarp warp fun w => { w with inBackoff := false, plBackoff := false })

/-- `WATCH_CHANGE`: a write to the watched line has been performed: b returns to 0 and its back-off ends (R121, R162). -/
def execWatchChange (warp : WarpId) (s : State) : Out :=
  .next (s.onWarp warp fun w =>
    if w.watch.isSome && w.lastWatch.isNone then
      { w with backoff := 0, inBackoff := w.inBackoff && !w.plBackoff, plBackoff := false }
    else w)

/-- `DEPOSIT_APPLY`: at a boundary, the oldest deposit of a warp is applied, and its holds are tested (R167, R420). -/
def execDepositApply (warp : WarpId) (s : State) : Out :=
  .next (if s.frames.any fun f => f.warp = warp then s
    else s.onWarp warp fun w => match w.deposits with
      | [] => w
      | d :: rest => ({ w.applyDeposit d with deposits := rest } : Warp).testHolds)

/-- `SLEEP_END`: a strand whose sleep is over joins the tail of the waiting list (R418). -/
def execSleepEnd (warp : WarpId) (strand : Nat) (s : State) : Out :=
  .next (s.onWarp warp fun w =>
    match (w.strand? strand).map fun st => st.place with
    | some (StrandPlace.sleeping t) => if t ≤ s.ticks then w.toTail strand else w
    | _ => w)

/-- `DEQ_TIMEOUT`: a parked `deq` completes empty (R112, R421); one that a spill has written keeps what was left of its timeout
(R185). -/
def execDeqTimeout (warp : WarpId) (s : State) : Out :=
  .next (match (s.warp? warp).map fun w => (w.status, s.answersFor w.ctx) with
    | some (WarpStatus.parkedDeq r, true) =>
      if r.timeout ≠ 0xffffffff ∧ r.since + 100 * r.timeout.toNat ≤ s.ticks then s.completeDeq warp r.strand none else s
    | _ => s)

/-- Takes the first waiting decrement of a dispatcher out of its retry entries. -/
def dropJoinWait (die : Nat) : List JoinWait → List JoinWait
  | [] => []
  | j :: js => if j.die = die then js else j :: dropJoinWait die js

/-- `JOIN_RETRY`: the home dispatcher tries a waiting decrement again (R118). -/
def execJoinRetry (die : Nat) (s : State) : Out :=
  .next (match s.joinWaits.find? fun j => j.die = die with
    | none => (s.nextDiscard die).wakeWaiting
    | some j =>
      let r := ({ s with joinWaits := dropJoinWait die s.joinWaits } : State).deviceJoinNow j.ctx j.die j.object
      ((r.1.wake rounds r.2.toList).nextDiscard die).wakeWaiting)

/-- `SHARES` of a leaf entry (Table 4.15). -/
def entryShares (e : Nat) : Nat := bits e 59 52

/-- Writes `SHARES` of the leaf entry at a physical address. -/
def State.setShares (s : State) (entry addr n : Nat) : State :=
  let e := setBits entry 59 52 n
  s.performHbm (homeDie addr) none false false ([6, 7].map fun i => (addr + i, BitVec.ofNat 8 (bits e (8 * i + 7) (8 * i))))

/-- Appends a page address to the free list of a group (R133): one that finds the list full is lost. `COUNT` is written with
release at `.pkg`. -/
def State.appendFree (s : State) (g : Group) (page : W64) : State × Group :=
  let count := s.devNat g.ctx 0 g.freeList 8
  let cap := s.devNat g.ctx 0 (g.freeList + 8) 8
  if cap ≤ count then (s, { g with lost := g.lost + 1 })
  else
    let s := s.devWrite g.ctx 0 (g.freeList + BitVec.ofNat 64 (0x40 + 8 * count)) (leBytes 8 page.toNat)
    (s.devWrite g.ctx 0 g.freeList (leBytes 8 (count + 1)) s.releaseTag, g)

/-- The private pages of a sibling, read from its list with an acquire at `.pkg`; none where an entry cannot be read (R132). -/
def State.privatePages (s : State) (g : Group) (sibling : Nat) : State × Option (List W64) :=
  let entry := g.privList + BitVec.ofNat 64 (16 * sibling)
  let s := s.devAcquire g.ctx 0 entry 12
  match s.devRead g.ctx 0 entry 12 with
  | none => (s, none)
  | some bs =>
    let n := field bs 8 4
    let list := BitVec.ofNat 64 (field bs 0 8)
    if n = 0 then (s, some [])
    else
      let s := s.devAcquire g.ctx 0 list (8 * n)
      (s, (s.devRead g.ctx 0 list (8 * n)).map fun xs => (List.range n).map fun i => BitVec.ofNat 64 (field xs (8 * i) 8))

/-- One sibling's hold on a shared page ends (R132). -/
def State.releaseShared (s : State) (g : Group) (page : W64) : State × Group :=
  match s.leafOf g.ctx (page.toNat / 4096) with
  | none => (s.countError g.ctx, g)
  | some (e, a) =>
    let n := entryShares e
    if n = 0 then (s.countError g.ctx, g)
    else
      let s := s.setShares e a (n - 1)
      if n = 1 then s.appendFree g page else (s, g)

/-- `SIBLING_PAGE_RELEASE`: a retired sibling's pages are released, and the record is final with the last (R132 to R134,
R137). -/
def execSiblingPageRelease (handle : Nat) (sibling : Nat) (s : State) : Out :=
  .next (match s.groups.find? fun g => g.handle = handle with
    | none => s
    | some g =>
      match g.siblings[sibling]? with
      | none => s
      | some x =>
        if !x.retired || x.released then s
        else
          let own := s.privatePages g sibling
          let s := if own.2.isNone then own.1.countError g.ctx else own.1
          let r := (own.2.getD []).foldl (fun (acc : State × Group) p => acc.1.appendFree acc.2 p) (s, g)
          let r := g.shared.foldl (fun (acc : State × Group) p => acc.1.releaseShared acc.2 p) r
          let g := r.2.setSibling sibling fun x => { x with released := true }
          (r.1.putGroup g).finishGroup g.ctx handle)

/-- `DISPATCHER_SUMMARY_REPORT`: the eligible queues of a dispatcher, as the arbiter keeps them (R104). -/
def execDispatcherSummaryReport (die : Nat) (s : State) : Out :=
  .next (s.reportDie die)

/-- `SERVICE_TRAP_RETRY`: a service trap that found its ring slot held is taken again, by its vector entry as that stands now
(R172, R179). -/
def execServiceTrapRetry (warp : WarpId) (s : State) : Out :=
  .next (match s.warp? warp with
    | none => s
    | some w =>
      match w.status with
      | .serviceWait v _ strand slot block =>
        (s.onWarp warp fun w => { w with status := .running }).takeTrap warp strand v slot block
      | _ => s)

end Sys2Proof.Machine
end

