-- ==== Sys2Proof/Machine/Placement.lean ====
section
/-!
DEFINITION. Placing units and warps: the per-core limits, the placement of a launch, and the warps it creates
(spec/04_host_interface.md R88 to R90; spec/16_isa_sync_work_system.md R412; spec/17_isa_matrix.md R438).
-/
namespace Sys2Proof.Machine

/-- Cores of one instance of a domain (R13, R89). -/
def domainCores : Nat → Nat
  | 0 => 1 | 1 => 1 | 2 => 2 | 3 => 4 | 4 => 96 | _ => 384

/-- A size rounded up to 512 (R88). -/
def round512 (n : Nat) : Nat := (n + 511) / 512 * 512

/-- What a context or a plan takes of one core: store bytes, tiles, phasers, warps (Table 4.11). -/
structure CoreUse where
  bytes : Nat
  tiles : Nat
  phasers : Nat
  warps : Nat
  deriving DecidableEq, Repr

/-- The sum of two uses. -/
def CoreUse.plus (a b : CoreUse) : CoreUse :=
  ⟨a.bytes + b.bytes, a.tiles + b.tiles, a.phasers + b.phasers, a.warps + b.warps⟩

/-- Is a use within limits? -/
def CoreUse.within (a l : CoreUse) : Bool :=
  decide (a.bytes ≤ l.bytes) && decide (a.tiles ≤ l.tiles) && decide (a.phasers ≤ l.phasers) && decide (a.warps ≤ l.warps)

/-- Limits of one context on one core (Table 4.11). -/
def contextLimit (swapReady : Bool) : CoreUse := if swapReady then ⟨480 * 1024, 4, 32, 32⟩ else ⟨960 * 1024, 8, 64, 64⟩

/-- What one core has in all (R88). -/
def coreLimit : CoreUse := ⟨2 ^ 20, 8, 64, 64⟩

/-- Does a context hold storage on chip (Table 7.4, R185)? -/
def CtxState.onChip : CtxState → Bool
  | .resident | .spilling | .filled | .saveIncomplete => true
  | _ => false

/-- The warps of a context that hold storage on chip: in their slots, or in a shadow half. -/
def State.chipWarps (s : State) (ctx : Nat) : List Warp :=
  let here := s.warps.filter fun w => w.ctx = ctx && w.pier.isNone
  match s.context? ctx with
  | some c => if c.state.onChip then here ++ ((c.saved.map fun v => v.warps).getD []) else here
  | none => here

/-- What a list of warps and units takes of a core. -/
def coreUse (warps : List Warp) (allocs : List Alloc) (core : Nat) : CoreUse :=
  let ws := warps.filter fun w => w.id.core = core
  let us := allocs.filter fun a => a.core = core
  ⟨total (ws.map fun w => round512 w.regionSize) +
      total (us.map fun a => round512 ((a.scratch.map Prod.snd).getD 0) + round512 ((a.stash.map Prod.snd).getD 0)),
    total (us.map fun a => a.tiles.length), total (us.map fun a => a.phasers.length), ws.length⟩

/-- What a context takes of a core. -/
def State.contextUse (s : State) (ctx core : Nat) : CoreUse :=
  coreUse (s.chipWarps ctx) (s.allocs.filter fun a => a.ctx = ctx) core

/-- May a context take more of some cores (R88)? -/
def State.roomFor (s : State) (ctx : Nat) (swapReady : Bool) (warps : List Warp) (allocs : List Alloc) : Bool :=
  let cores := dedup ((warps.map fun w => w.id.core) ++ allocs.map fun a => a.core)
  cores.all fun k =>
    let own := (s.contextUse ctx k).plus (coreUse warps allocs k)
    let others := (s.contexts.filter fun c => c.num ≠ ctx).map fun c => s.contextUse c.num k
    own.within (contextLimit swapReady) && (others.foldl CoreUse.plus own).within coreLimit

/-- A piece of storage that warps or units ask for: core, whether it is a register region, key, and size (R196). -/
abbrev StorageAsk := Nat × Bool × Nat × Nat

/-- The storage that some warps and units take (R196). -/
def storageAsks (warps : List Warp) (allocs : List Alloc) : List StorageAsk :=
  (warps.map fun w => (w.id.core, true, w.serial, round512 w.regionSize)) ++
  (allocs.map fun a => ([a.scratch, a.stash].filterMap id).map fun x => (a.core, false, x.1, round512 x.2)).flatten

/-- Does what holds a piece of storage still stand? -/
def State.pieceLive (s : State) (p : Piece) : Bool :=
  if p.region then (s.chipWarps p.ctx).any fun w => w.serial = p.key
  else s.allocs.any fun a => a.ctx = p.ctx && a.core = p.core && ([a.scratch, a.stash].any fun x => x.map Prod.fst = some p.key)

/-- The two halves of a unified store (R196). -/
def storeHalves : List (Nat × Nat) := [(0, 0x80000), (0x80000, 0x100000)]

/-- Does a piece lie in a half? -/
def Piece.inHalf (p : Piece) (h : Nat × Nat) : Bool := decide (h.1 ≤ p.at_) && decide (p.at_ < h.2)

/-- The storage offsets that a context may hold on a core, as ranges to try: all of them, or of a swap-ready context its own
half. That is the one that it holds something of, or before that the first that no other context holds anything of, if there is
one (R196). -/
def storeRanges (swapReady : Bool) (mine others : List Piece) : List (Nat × Nat) :=
  if !swapReady then [(0, 0x100000)]
  else match storeHalves.filter fun h => mine.any fun p => p.inHalf h with
    | [] =>
      match storeHalves.filter fun h => others.all fun p => !p.inHalf h with
      | [] => storeHalves
      | free => free
    | own => own

/-- The lowest storage offset, a multiple of 512, from which `size` bytes are free in a range. -/
def firstFit (range : Nat × Nat) (size : Nat) (taken : List Piece) : Option Nat :=
  let free := fun (o : Nat) => decide (range.1 ≤ o) && decide (o + size ≤ range.2) &&
    taken.all fun p => decide (p.at_ + p.size ≤ o) || decide (o + size ≤ p.at_)
  (sortBy (fun o : Nat => o) (range.1 :: taken.map fun p => p.at_ + p.size)).find? free

/-- Gives a piece of storage to a context (R196). -/
def addPiece (ctx : Nat) (swapReady : Bool) (pieces : List Piece) (a : StorageAsk) : Option (List Piece) :=
  let here := pieces.filter fun p => p.core = a.1
  ((storeRanges swapReady (here.filter fun p => p.ctx = ctx) (here.filter fun p => p.ctx ≠ ctx)).findSome? fun r => firstFit r a.2.2.2 here).map fun o =>
    pieces ++ [⟨a.1, ctx, a.2.1, a.2.2.1, o, a.2.2.2⟩]

/-- Gives the warps and units of a context their storage offsets; none where they do not fit (R196; log 58). -/
def State.placeStorage (s : State) (ctx : Nat) (swapReady : Bool) (warps : List Warp) (allocs : List Alloc) : Option State :=
  let start := some (s.pieces.filter s.pieceLive)
  ((storageAsks warps allocs).foldl (fun (acc : Option (List Piece)) a => acc.bind fun ps => addPiece ctx swapReady ps a) start).map
    fun ps => { s with pieces := ps }

/-- A placed unit: its level, coordinates, descriptor and first core. -/
structure UnitPlan where
  coord : List Nat
  desc : Nat
  base : Nat
  deriving DecidableEq, Repr

/-- A placed warp: its core, coordinates, and the units it lives in, outermost first. -/
structure WarpPlan where
  core : Nat
  coord : List Nat
  units : List UnitPlan
  deriving DecidableEq, Repr

/-- The instance of domain `d` that a unit with coordinate `c` takes inside an instance of domain `dom` (R89). -/
def instanceBase (dom base d c : Nat) : Nat :=
  if d = dom then base else base + c % (domainCores dom / domainCores d) * domainCores d

/-- Places the units of the levels left inside an instance, from the outermost inwards (R89). -/
def placeLevels (first count : Nat) : List Nat → Nat → Nat → List Nat → List UnitPlan → List WarpPlan
  | [], _, base, coord, units => [⟨base, coord, units⟩]
  | d :: rest, dom, base, coord, units =>
    let n := if coord = [] then count else lvExtent d
    let lo := if coord = [] then first else 0
    ((List.range n).map fun i =>
      let c := lo + i
      let b := instanceBase dom base (lvDomain d) c
      placeLevels first count rest (lvDomain d) b (coord ++ [c]) (units ++ [⟨coord ++ [c], d, b⟩])).flatten

/-- The warps of a launch in ascending row-major order. -/
def launchPlan (bs : List Byte) (first count : Nat) : List WarpPlan :=
  placeLevels first count ((List.range (launchLevels bs)).map fun i => levelDesc bs i) 6 0 [] []

/-- How many warps a launch asks for. -/
def launchWarps (bs : List Byte) (count : Nat) : Nat :=
  ((List.range (launchLevels bs - 1)).map fun i => lvExtent (levelDesc bs (i + 1))).foldl (· * ·) count

/-- Warp slots in the order a launch takes them (R90). -/
def slotOrder : List Nat := (List.range 64).map fun i => 16 * (i % 4) + i / 4

/-- The warp's index in row-major order over all levels (R90). -/
def rowMajor (bs : List Byte) (coord : List Nat) : Nat :=
  coord.zipIdx.foldl (fun a c => a * lvExtent (levelDesc bs c.2) + c.1) 0

/-- The cores on which a unit holds anything (Table 4.10). -/
def UnitPlan.cores (u : UnitPlan) : List Nat :=
  let d := u.desc
  if lvScratch d = 0 ∧ lvStash d = 0 ∧ lvTiles d = 0 ∧ lvBarriers d = 0 then []
  else (List.range (domainCores (lvDomain d))).map fun i => u.base + i

/-- The part of a unit that each of its cores holds: `n` numbers its storage, `p` its first phaser, `tiles` its tiles. -/
def UnitPlan.allocs (u : UnitPlan) (ctx n p : Nat) (tiles members : List Nat) : List Alloc :=
  let d := u.desc
  u.cores.map fun k =>
    ⟨ctx, k,
      if lvScratch d = 0 then none else some (n * 2 ^ 24, lvScratch d),
      if lvStash d = 0 then none else some (n * 2 ^ 24 + 2 ^ 21, lvStash d),
      tiles,
      if k = u.base then (List.range (lvBarriers d)).map fun i => p + i else [],
      members⟩

/-- Tile numbers of a context for a unit, free on every core of the unit: the numbers tell a context's tiles from those of
every other context (log 15). -/
def freeTiles (allocs : List Alloc) (ctx : Nat) (u : UnitPlan) : List Nat :=
  let taken := ((allocs.filter fun a => a.ctx = ctx && u.cores.contains a.core).map fun a => a.tiles).flatten
  ((((List.range 64).map fun i => 64 * ctx + i).filter fun t => !taken.contains t)).take (lvTiles u.desc)

/-- A unit with what it was given: the number of its storage, its first phaser and its tiles. -/
structure PlacedUnit where
  plan : UnitPlan
  storage : Nat
  phaser : Nat
  tiles : List Nat
  deriving DecidableEq, Repr

/-- Its scratch on each of its cores. -/
def PlacedUnit.scratch (u : PlacedUnit) : Option (Nat × Nat) :=
  if lvScratch u.plan.desc = 0 then none else some (u.storage * 2 ^ 24, lvScratch u.plan.desc)

/-- Its stash. -/
def PlacedUnit.stash (u : PlacedUnit) : Option (Nat × Nat) :=
  if lvStash u.plan.desc = 0 then none else some (u.storage * 2 ^ 24 + 2 ^ 21, lvStash u.plan.desc)

/-- Its scratch on every core, as the cluster window reaches it (Table 8.2). -/
def PlacedUnit.shared (u : PlacedUnit) : List (Nat × Nat × Nat) :=
  match u.scratch with
  | none => []
  | some (base, len) => u.plan.cores.map fun k => (k, base, len)

/-- A launch as it grows: what it has allocated, the warps with their units, and the next free numbers. -/
structure LaunchBuild where
  allocs : List Alloc
  units : List PlacedUnit
  nextAlloc : Nat
  nextPhaser : Nat
  deriving DecidableEq, Repr

/-- Allocates one unit, on top of what stands in `old` (R88, R196). -/
def LaunchBuild.addUnit (b : LaunchBuild) (old : List Alloc) (ctx : Nat) (u : UnitPlan) (members : List Nat) : LaunchBuild :=
  let t := freeTiles (old ++ b.allocs) ctx u
  { allocs := b.allocs ++ u.allocs ctx b.nextAlloc b.nextPhaser t members
    units := b.units ++ [⟨u, b.nextAlloc, b.nextPhaser, t⟩]
    nextAlloc := b.nextAlloc + 1
    nextPhaser := b.nextPhaser + lvBarriers u.desc }

/-- The warp of a plan in a slot: its coordinates, frame base, seed, scratch, phasers and tiles (R90, R412, R438). -/
def WarpPlan.warp (p : WarpPlan) (bs : List Byte) (ctx slot serial : Nat) (b : LaunchBuild) : Warp :=
  let vregs := lvVregs (levelDesc bs (launchLevels bs - 1))
  let mine := b.units.filter fun u => p.units.contains u.plan
  let core := (mine.filter fun u => lvDomain u.plan.desc = 1).getLast?
  let shared := (mine.filter fun u => lvDomain u.plan.desc = 2 || lvDomain u.plan.desc = 3).getLast?
  let seed := Nat.xor (field bs 4 4) (rowMajor bs p.coord) % 2 ^ 32
  let lfsr : W32 := if seed = 0 then 1 else BitVec.ofNat 32 seed
  let w := Warp.fresh ⟨p.core, slot⟩ serial ctx vregs (BitVec.ofNat 64 (field bs 0x10 8))
  let w := { w with
    lvl := (List.range 8).map fun i => BitVec.ofNat 32 ((p.coord[i]?).getD 0)
    lfsr := lfsr
    launchSeed := BitVec.ofNat 32 (field bs 4 4)
    launchDet := launchDetBit bs
    swapReady := launchSwap bs
    launchFirst := field bs 0xe0 4
    launchCount := field bs 0xe4 4
    scratch := core.bind PlacedUnit.scratch
    stash := core.bind PlacedUnit.stash
    clusterScratch := (shared.map PlacedUnit.shared).getD []
    phasers := (mine.map fun (u : PlacedUnit) => (List.range (lvBarriers u.plan.desc)).map fun i => u.phaser + i).flatten
    tiles := ((mine.filter fun (u : PlacedUnit) => lvDomain u.plan.desc = 2).map fun (u : PlacedUnit) => u.tiles).flatten }
  (w.setS 2 (BitVec.ofNat 32 (field bs 0x18 4))).setS 3 (BitVec.ofNat 32 (field bs 0x1c 4))

/-- Gives each warp of a plan the first free slot of its core (R90); none where a core has no slot left. -/
def takeSlots (taken : List WarpId) : List WarpPlan → Option (List (WarpPlan × Nat))
  | [] => some []
  | p :: ps =>
    match slotOrder.find? fun k => !taken.contains ⟨p.core, k⟩ with
    | none => none
    | some k => (takeSlots (taken ++ [⟨p.core, k⟩]) ps).map fun r => (p, k) :: r

/-- Creates every unit and warp of a launch, or none (R88, R90, R196): the new state, and the warps created. -/
def State.launchUnits (s : State) (ctx : Nat) (bs : List Byte) (first count : Nat) : Option (State × Nat) :=
  if 24576 < launchWarps bs count then none
  else
    let plan := launchPlan bs first count
    match takeSlots (s.warps.map fun w => w.id) plan with
    | none => none
    | some slots =>
      let serials := slots.zipIdx.map fun x => (x.1.1, x.1.2, s.nextWarp + x.2)
      let units := dedup (plan.map fun p => p.units).flatten
      let members := fun (u : UnitPlan) => (serials.filter fun x => x.1.units.contains u).map fun x => x.2.2
      let b := units.foldl (fun (b : LaunchBuild) u => b.addUnit s.allocs ctx u (members u)) ⟨[], [], s.nextAlloc, s.nextPhaser⟩
      let warps := serials.map fun x => x.1.warp bs ctx x.2.1 x.2.2 b
      match if s.roomFor ctx (launchSwap bs) warps b.allocs then s.placeStorage ctx (launchSwap bs) warps b.allocs else none with
      | none => none
      | some s =>
        let phasers := (b.allocs.map fun a => a.phasers.map fun p => (⟨p, a.core, ctx, 0, 0, 0, 0, 0⟩ : Phaser)).flatten
        let cores := dedup (warps.map fun w => w.id.core)
        let live : Bool := s.chipWarps ctx ≠ []
        let s := s.onContext ctx fun c => { c with
          det := launchDetBit bs
          swapReady := launchSwap bs && (c.swapReady || !live) }
        let s := { s with
          warps := s.warps ++ warps
          allocs := s.allocs ++ b.allocs
          phasers := s.phasers ++ phasers
          tokens := s.tokens.filter fun t => !cores.contains (t.1 / 4)
          nextAlloc := b.nextAlloc
          nextPhaser := b.nextPhaser
          nextWarp := s.nextWarp + warps.length }
        some (foldState s (warps.map fun w => w.id) State.newReader, warps.length)

end Sys2Proof.Machine
end

