-- ==== Sys2Proof/Machine/Swap.lean ====
section
/-!
DEFINITION. Saving and restoring a context: the shadow swap, the spill, the core sections and header of the save area,
and loading a save (spec/07_traps_and_context.md R181 to R191).
-/
namespace Sys2Proof.Machine

/-- The cores that hold something of a context. -/
def State.contextCores (s : State) (ctx : Nat) : List Nat :=
  let saved := ((s.context? ctx).bind fun c => c.saved).map fun v => v.warps.map fun w => w.id.core
  dedup (((s.chipWarps ctx).map fun w => w.id.core) ++ saved.getD [] ++
    (s.allocs.filter fun a => a.ctx = ctx).map fun a => a.core)

/-- The parts of units that a save holds on a core. -/
def Saved.on (v : Saved) (core : Nat) : List Alloc := v.allocs.filter fun a => a.core = core

/-- The phasers of a save on a core, numbered as in its section. -/
def Saved.phasersOn (v : Saved) (core : Nat) : List Phaser :=
  ((v.on core).map fun a => a.phasers).flatten.filterMap fun p => v.phasers.find? fun x => x.id = p

/-- A phaser's 32 bytes (Table 7.9). -/
def Phaser.bytes (p : Phaser) : List Byte :=
  leBytes 2 p.phase.toNat ++ leBytes 2 p.members ++ leBytes 2 p.yet ++ leBytes 1 p.early ++
  leBytes 1 (if p.members = 0 then 0 else 1) ++ leBytes 8 p.pending.toNat ++ leBytes 16 0

/-- The phaser that 32 bytes hold, in the place of one saved. -/
def Phaser.load (p : Phaser) (bs : List Byte) : Phaser :=
  { p with
    phase := BitVec.ofNat 16 (field bs 0 2)
    members := field bs 2 2
    yet := field bs 4 2
    early := field bs 6 1
    pending := BitVec.ofNat 48 (field bs 8 8) }

/-- A stash mapping's 24 bytes (Table 7.9). -/
def StashMap.bytes (m : StashMap) : List Byte := leBytes 8 m.base ++ leBytes 8 m.len ++ leBytes 4 m.off ++ leBytes 4 1

/-- Where the scratch of a save lies on a core, in ascending order of its offset. -/
def Saved.scratchOn (v : Saved) (core : Nat) : List (Nat × Nat) := (v.on core).filterMap fun a => a.scratch

/-- The tiles a save holds on a core, in the order of the section. -/
def Saved.tilesOn (v : Saved) (core : Nat) : List Nat := ((v.on core).map fun a => a.tiles).flatten

/-- A run of bytes of a sparse memory. -/
def cellRun (m : List Host.Cell) (base n : Nat) : List Byte := (List.range n).map fun i => sget 0 m (base + i)

/-- The scratch image of a save on a core. -/
def Saved.image (v : Saved) (core : Nat) : List Byte :=
  ((v.scratchOn core).map fun r => cellRun v.store (core * Config.storeSpan + r.1) r.2).flatten

/-- The warps of a save on a core in ascending slot order, with the offset of each payload (R184). -/
def Saved.layout (v : Saved) (core : Nat) : List (Warp × Nat) × Nat :=
  (sortBy (fun w : Warp => w.id.slot) (v.warps.filter fun w => w.id.core = core)).foldl
    (fun (acc : List (Warp × Nat) × Nat) w => (acc.1 ++ [(w, acc.2)], acc.2 + w.payload.length)) ([], 0x41000)

/-- The token group of a scheduler in a save. -/
def Saved.token (v : Saved) (core i : Nat) : Nat := sget 0 v.tokens (core * 4 + i)

/-- The header of a core section, with its phasers and stash map (Table 7.9). -/
def Saved.sectionHead (v : Saved) (core : Nat) : List Byte :=
  let l := v.layout core
  let image := v.image core
  let ep := v.epilogues.find? fun e => e.core = core
  leBytes 4 (1 + if ep.isSome then 2 else 0) ++ leBytes 4 l.1.length ++
  ((List.range 4).map fun i => leBytes 1 (v.token core i)).flatten ++ leBytes 4 0 ++
  leBytes 4 (if image = [] then 0 else l.2) ++ leBytes 4 image.length ++ leBytes 8 0 ++
  (match ep with
    | none => List.replicate 96 0
    | some e => leBytes 8 (bits e.desc.toNat 63 0) ++ leBytes 4 e.stored ++ leBytes 4 e.total ++
        leBytes 48 (bits e.desc.toNat 447 64) ++ leBytes 32 0) ++
  fitBytes 2048 ((v.phasersOn core).map Phaser.bytes).flatten ++
  fitBytes 384 ((v.stash.filter fun m => m.core = core).map StashMap.bytes).flatten ++
  List.replicate 1536 0

/-- What the spill engine of a core writes, as runs of bytes at offsets of its section and in R184's order: the warp areas
in ascending slot order, the payloads, the scratch image, the tiles and the staging buffer. The core header follows them. -/
def Saved.body (v : Saved) (core ticks time : Nat) : List (Nat × List Byte) :=
  let l := v.layout core
  let area := fun (k : Nat) => match l.1.find? fun x => x.1.id.slot = k with
    | none => [(0x1000 * (k + 1), [(0 : Byte)])]
    | some x => x.1.areaRuns ticks time x.2
  ((List.range 64).map area).flatten ++ (l.1.map fun x => (x.2, x.1.payload)) ++ [(l.2, v.image core)] ++
  ((v.tilesOn core).zipIdx.map fun t => (0x131000 + 0x8000 * t.2, cellRun v.tiles (tileKey core t.1) 0x8000)) ++
  match v.epilogues.find? fun e => e.core = core with
  | some e => [(0x171000, fitBytes 0x8000 e.data)]
  | none => []

/-- The part of some runs that lies from offset `lo` on and below `hi`. -/
def runsWithin (lo hi : Nat) (runs : List (Nat × List Byte)) : List (Nat × List Byte) :=
  (runs.map fun r => (Nat.max r.1 lo, (r.2.take (hi - r.1)).drop (lo - r.1))).filter fun r => r.2 != []

/-- Where a restarted engine of a core goes on (R191). -/
def Context.resumesAt (c : Context) (core : Nat) : Nat :=
  ((c.resumeAt.find? fun x => x.1 = core).map fun x => x.2.toNat).getD 0x1000

/-- Has the engine of a core finished, or stopped, in this spill (R190)? -/
def Context.engineOver (c : Context) (core : Nat) : Bool := c.saveDone.contains core || c.saveFaults.any fun x => x.1 = core

/-- The spill engine of a core writes its section from where it stands, to the end with the header, or up to the offset of a
store that faults (R184, R190, R191). An offset in the header page comes after everything else. -/
def State.writeEngine (s : State) (c : Context) (v : Saved) (core : Nat) (stop : Option Nat) : State :=
  let start := c.resumesAt core
  let body := v.body core s.ticks (s.refTime c.num)
  let inHead := fun (o : Nat) => decide (o < 0x1000)
  let bodyEnd := match stop with | some o => if inHead o then 0x180000 else o | none => 0x180000
  let headEnd := match stop with | some o => if inHead o then o else 0 | none => 0x1000
  let runs := (if inHead start then [] else runsWithin start bodyEnd body) ++
    runsWithin (if inHead start then start else 0) headEnd [(0, v.sectionHead core)]
  let s := foldState s runs fun s r => s.writeSave c.num (sectionAt core + r.1) r.2
  if stop.isNone then s.onContext c.num fun c => { c with saveDone := c.saveDone ++ [core] } else s

/-- A warp as its save keeps it at a tick count: a page-parked warp runs again, a sleeping strand is ready, and a parked
`deq` keeps what is left of its timeout (R183, R185). -/
def Warp.forSave (w : Warp) (ticks : Nat) : Warp :=
  { w with
    deqLeft := match w.status with
      | .parkedDeq r => some (((w.strands.zipIdx.find? fun x => x.1.id = r.strand).map fun x => x.2).getD 0, r.left ticks)
      | _ => w.deqLeft
    status := match w.status with | .parkedPage .. => .running | x => x
    inBackoff := false
    plBackoff := false
    strands := w.strands.map fun (st : Strand) => { st with
      place := match st.place with | .sleeping _ => .waiting | .rotating => .waiting | x => x } }

/-- Takes the warps of a context out of everything that waits on them: blocks, page requests, serial tokens. -/
def State.detach (s : State) (ctx : Nat) : State :=
  let mine := s.warps.filter fun w => w.ctx = ctx && w.pier.isNone
  let ids := mine.map fun w => w.id
  let s := foldState s ids State.clearWarp
  let less := fun (r : PageRequest) => if r.ctx = ctx then { r with parked := [] } else r
  { s with pageRequests := s.pageRequests.map less }

/-- An empty save of some warps. -/
def Saved.ofWarps (ws : List Warp) : Saved := ⟨ws, [], [], [], [], [], [], [], []⟩

/-- The outgoing side of a shadow swap (R182, R183): blocks are discarded, the warps leave their slots, and the spill
follows. -/
def State.swapOutContext (s : State) (ctx : Nat) : State :=
  let s := s.detach ctx
  let mine := (s.warps.filter fun w => w.ctx = ctx && w.pier.isNone).map fun w => w.forSave s.ticks
  let cores := dedup (mine.map fun w => w.id.core)
  let tokens := s.tokens.filter fun t => cores.contains (t.1 / 4)
  let s := { s with warps := s.warps.filter fun w => !(w.ctx = ctx && w.pier.isNone) }
  let s := s.onContext ctx fun c => { c with saved := some { Saved.ofWarps mine with tokens := tokens } }
  s.setCtxState ctx .spilling

/-- Do blocks of a context still run to their boundary (R185)? -/
def State.stopping (s : State) (ctx : Nat) : Bool :=
  s.frames.any fun f => !f.waiting && match s.warp? f.warp with
    | some w => w.ctx = ctx && w.pier.isNone
    | none => false

/-- The stop of a context (R185): a block that waits on a condition is discarded, the others run to their boundary, and
the spill follows. -/
def State.stopContext (s : State) (ctx : Nat) : State :=
  let s := s.discardWhere fun f => f.waiting && match s.warp? f.warp with
    | some w => w.ctx = ctx && w.pier.isNone
    | none => false
  s.setCtxState ctx .spilling

/-- Has everything that a spill waits for ended (R184, R186)? -/
def State.spillReady (s : State) (ctx : Nat) : Bool :=
  !s.stopping ctx &&
  (s.copies.all fun c => c.who.ctx ≠ ctx || c.fault.isSome) &&
  (s.matrix.all fun c => c.who.ctx ≠ ctx) &&
  (s.epilogues.all fun e => e.who.ctx ≠ ctx || e.fault.isSome) &&
  (s.calls.all fun c => c.ctx ≠ ctx) &&
  (s.lateArrivals.all fun a => a.ctx ≠ ctx)

/-- Is a page of the save area in reach of the spill engine (R190)? -/
def State.savePageOk (s : State) (c : Context) (off : Nat) : Bool :=
  match s.savePage c (off / 4096) with
  | .ok _ => true
  | _ => false

/-- Are all pages that a spill of some cores writes in reach? -/
def State.saveOk (s : State) (c : Context) (cores : List Nat) : Bool :=
  (List.range 16).all (fun i => s.savePageOk c (4096 * i)) &&
  cores.all fun k => (List.range 384).all fun i => s.savePageOk c (sectionAt k + 4096 * i)

/-- Everything of a context that stays on chip once its warps have stopped, as a save (R184). -/
def State.gather (s : State) (c : Context) : Saved :=
  let ctx := c.num
  let here := (s.warps.filter fun w => w.ctx = ctx && w.pier.isNone).map fun w => w.forSave s.ticks
  let ws := here ++ (c.saved.map fun v => v.warps).getD []
  let allocs := s.allocs.filter fun a => a.ctx = ctx
  let cores := dedup (here.map fun w => w.id.core)
  let tokens := match c.saved with
    | some v => v.tokens
    | none => s.tokens.filter fun t => cores.contains (t.1 / 4)
  let inScratch := fun (cell : Host.Cell) => allocs.any fun a => match a.scratch with
    | some (b, n) => decide (a.core * Config.storeSpan + b ≤ cell.1) && decide (cell.1 < a.core * Config.storeSpan + b + n)
    | none => false
  let inTile := fun (cell : Host.Cell) => allocs.any fun a => a.tiles.any fun t =>
    decide (tileKey a.core t ≤ cell.1) && decide (cell.1 < tileKey a.core t + 0x8000)
  ⟨ws, allocs, s.phasers.filter fun p => p.ctx = ctx, tokens, s.stashMaps.filter fun m => m.ctx = ctx,
    s.copies.filter fun k => k.who.ctx = ctx, s.epilogues.filter fun e => e.who.ctx = ctx,
    s.store.filter inScratch, s.tiles.filter inTile⟩

/-- Frees everything that a context holds on chip. -/
def State.freeChip (s : State) (ctx : Nat) (v : Saved) : State :=
  let s := foldState s (s.stashLines.filter fun l => l.ctx = ctx) fun s l => s.stashWriteBack l
  { s with
    warps := s.warps.filter fun w => !(w.ctx = ctx && w.pier.isNone)
    allocs := s.allocs.filter fun a => a.ctx ≠ ctx
    pieces := s.pieces.filter fun p => p.ctx ≠ ctx
    phasers := s.phasers.filter fun p => p.ctx ≠ ctx
    copies := s.copies.filter fun k => k.who.ctx ≠ ctx
    epilogues := s.epilogues.filter fun e => e.who.ctx ≠ ctx
    stashMaps := s.stashMaps.filter fun m => m.ctx ≠ ctx
    stashLines := s.stashLines.filter fun l => l.ctx ≠ ctx
    l1 := s.l1.filter fun l => l.ctx ≠ ctx
    store := s.store.filter fun x => !v.store.contains x
    tiles := s.tiles.filter fun x => !v.tiles.contains x }

/-- Writes the device fields of the header that a finished save leaves (Table 7.8). -/
def State.writeHeader (s : State) (c : Context) (cores : List Nat) (boundary : W64) : State :=
  let s := s.writeSave c.num 0x10 (leBytes 8 boundary.toNat)
  let s := s.writeSave c.num 0x18 (leBytes 4 (s.ctxClock c.num).toNat)
  let s := s.writeSave c.num 0x1c (leBytes 4 c.errors.toNat)
  foldState s cores fun s k => s.writeSave c.num (0x8c0 + 8 * k) (leBytes 8 0x180000)

/-- Performs every pending write of a context: they belong to the calends that its save ends (R67). -/
def State.performWrites (s : State) (ctx : Nat) : State :=
  s.drain fun p => p.ctx = ctx

/-- The spill of a context is written: the sections that no engine has written yet, header, *valid*; what it held on chip is
free (R184, R185, R191). -/
def State.finishSpill (s : State) (c : Context) (boundary : W64) : State :=
  let s := (s.detach c.num).performWrites c.num
  let v := s.gather c
  let cores := dedup ((v.warps.map fun w => w.id.core) ++ v.allocs.map fun a => a.core)
  let s := s.freeChip c.num v
  let s := s.onContext c.num fun c => { c with saved := some v }
  let s := foldState s (cores.filter fun k => !c.saveDone.contains k) fun s k => s.writeEngine c v k none
  let s := s.onContext c.num fun c => { c with saveDone := [], resumeAt := [] }
  let s := s.writeHeader c cores boundary
  (s.setCtxState c.num (if c.faulting then .faulted else .saved)).wakeWaiting

/-- Free room in a core section for a payload of a saved warp, beside the other payloads and the scratch image; its old place
where it still fits there. -/
def State.savedRoom (s : State) (ctx : Nat) (v : Saved) (w : Warp) : Nat :=
  let read := fun (off : Nat) => s.readSave ctx off 4
  let area := fun (x : Warp) => warpArea x.id.core x.id.slot
  let image := sectionAt w.id.core + 0x10
  let others := v.warps.filter fun x => x.id.core = w.id.core && x.id ≠ w.id
  let taken := (others.map fun x => (read (area x + 8), read (area x + 12))) ++ [(read image, read (image + 4))]
  let n := w.payload.length
  let free := fun (o : Nat) => taken.all fun t => t.2 = 0 || decide (t.1 + t.2 ≤ o) || decide (o + n ≤ t.1)
  let ends := sortBy (fun o : Nat => o) (0x41000 :: taken.map fun t => (t.1 + t.2 + 63) / 64 * 64)
  ((read (area w + 8) :: ends).find? free).getD 0x41000

/-- A stash mapping read back from its 24 bytes; none where it is not valid. -/
def StashMap.load (m : StashMap) (bs : List Byte) : Option StashMap :=
  if field bs 20 4 % 2 = 0 then none else some { m with base := field bs 0 8, len := field bs 8 8, off := field bs 16 4 }

/-- An epilogue read back from the header of its core section and its staging buffer (Table 7.9). -/
def Epilogue.load (e : Epilogue) (head data : List Byte) : Epilogue :=
  { e with
    desc := BitVec.ofNat 512 (setBits (setBits e.desc.toNat 63 0 (field head 0x20 8)) 447 64 (field head 0x30 48))
    stored := field head 0x28 4
    total := field head 0x2c 4
    data := data.take e.data.length
    pieces := [] }

/-- The save of a context read back from the save area (R186). -/
def State.readSaved (s : State) (c : Context) (v : Saved) : Saved :=
  let run := fun (off n : Nat) (old : List Byte) => (s.saveBytes c off n).getD old
  let head := fun (k : Nat) => run (sectionAt k) 0xa00 ((v.sectionHead k).take 0xa00)
  let cores := dedup ((v.warps.map fun w => w.id.core) ++ v.allocs.map fun a => a.core)
  let phasers := (cores.map fun k => (v.phasersOn k).zipIdx.map fun p => p.1.load (((head k).drop (0x80 + 32 * p.2)).take 32)).flatten
  let tokens := cores.foldl (fun (t : List (Nat × Nat)) k =>
    (List.range 4).foldl (fun t i => sset 0 t (4 * k + i) (field (head k) (8 + i) 1)) t) ([] : List (Nat × Nat))
  let stash := (cores.map fun k => ((v.stash.filter fun m => m.core = k).zipIdx.filterMap fun m =>
    m.1.load (((head k).drop (0x880 + 24 * m.2)).take 24))).flatten
  let epilogues := v.epilogues.map fun e => e.load (head e.core) (run (sectionAt e.core + 0x171000) 0x8000 (fitBytes 0x8000 e.data))
  let store := cores.foldl (fun m k =>
    let image := run (sectionAt k + field (head k) 0x10 4) (v.image k).length (v.image k)
    ((v.scratchOn k).foldl (fun (acc : List Host.Cell × List Byte) r =>
      (setBytes acc.1 (k * Config.storeSpan + r.1) (acc.2.take r.2), acc.2.drop r.2)) (m, image)).1) ([] : List Host.Cell)
  let tiles := cores.foldl (fun m k => (v.tilesOn k).zipIdx.foldl (fun (m : List Host.Cell) t =>
    setBytes m (tileKey k t.1) (run (sectionAt k + 0x131000 + 0x8000 * t.2) 0x8000 (cellRun v.tiles (tileKey k t.1) 0x8000))) m)
    ([] : List Host.Cell)
  { v with
    warps := v.warps.map fun w => s.readWarp c.num w
    phasers := phasers
    tokens := tokens
    stash := stash
    epilogues := epilogues
    store := store
    tiles := tiles }

/-- Loads a save's storage onto the chip: units, phasers, scratch, tiles, stash map, and what its engines hold (R186). -/
def State.loadChip (s : State) (v : Saved) : State :=
  { s with
    allocs := s.allocs ++ v.allocs
    phasers := s.phasers ++ v.phasers
    stashMaps := s.stashMaps ++ v.stash
    copies := s.copies ++ v.copies
    epilogues := s.epilogues ++ v.epilogues
    store := v.store.foldl (fun m x => sset 0 m x.1 x.2) s.store
    tiles := v.tiles.foldl (fun m x => sset 0 m x.1 x.2) s.tiles }

/-- Puts the warps of a save into their slots, with the scheduler tokens as they stood (R120, R186): ready strands fill the
active set (R122, R418), and held strands that no handler and no request keeps go on (R175). -/
def State.enterWarps (s : State) (ctx : Nat) (v : Saved) : State :=
  let cores := dedup (v.warps.map fun w => w.id.core)
  let back := v.warps.map fun (w : Warp) => ({ w with status := w.status.restored } : Warp).promote
  let s := { s with
    warps := s.warps ++ back
    tokens := (v.tokens.foldl (fun (t : List (Nat × Nat)) (x : Nat × Nat) => sset 0 t x.1 x.2) (s.tokens.filter fun t => !cores.contains (t.1 / 4))) }
  let s := s.onContext ctx fun c => { c with saved := none, faulting := false }
  let s := foldState (s.setCtxState ctx .resident) (back.map fun w => w.id) State.newReader
  foldState s back fun s w =>
    if w.status = .running && w.strands.all fun st => !st.inHandler then s.releaseHeld w.id else s

/-- Are the slots of a save's warps free? -/
def State.slotsFree (s : State) (v : Saved) : Bool := v.warps.all fun w => (s.warp? w.id).isNone

/-- Other contexts that hold something of a core of the list. -/
def State.sharing (s : State) (ctx : Nat) (cores : List Nat) : List Context :=
  s.contexts.filter fun c => c.num ≠ ctx && c.state.onChip && (s.contextCores c.num).any fun k => cores.contains k

/-- Start (R181, R186): the context loaded and running in its cores and slots; none where R88 would be exceeded, its storage
does not fit (log 58), or a core of it holds a context whose save is incomplete (R190). -/
def State.startContext (s : State) (c : Context) : Option State :=
  match c.saved with
  | none => none
  | some old =>
    let v := s.readSaved c old
    let cores := dedup ((v.warps.map fun w => w.id.core) ++ v.allocs.map fun a => a.core)
    let held := (s.sharing c.num cores).any fun x => x.state = .saveIncomplete
    if !held && s.roomFor c.num c.swapReady v.warps v.allocs && s.slotsFree v then
      (s.placeStorage c.num c.swapReady v.warps v.allocs).map fun s => ((s.loadChip v).enterWarps c.num v).wakeWaiting
    else none

/-- Is the shadow half of a core of the list occupied (R181)? -/
def State.shadowTaken (s : State) (ctx : Nat) (cores : List Nat) : Bool :=
  let others := s.sharing ctx cores
  (others.any fun c => c.state ≠ .resident || !c.swapReady) ||
  cores.any fun k => decide (2 ≤ (others.filter fun c => (s.contextCores c.num).contains k).length)

/-- Fill (R181, R186): the save loaded into the shadow halves; none where one is occupied or R88 would be exceeded. -/
def State.fillContext (s : State) (c : Context) : Option State :=
  match c.saved with
  | none => none
  | some old =>
    let v := s.readSaved c old
    let cores := dedup ((v.warps.map fun w => w.id.core) ++ v.allocs.map fun a => a.core)
    if !s.shadowTaken c.num cores && s.roomFor c.num true v.warps v.allocs then
      (s.placeStorage c.num true v.warps v.allocs).map fun s =>
        ((s.loadChip v).onContext c.num fun c => { c with saved := some v }).setCtxState c.num .filled
    else none

/-- Is a swap of some cores refused (R182, R183)? -/
def State.swapRefused (s : State) (ctx : Nat) (cores : List Nat) : Bool :=
  (s.sharing ctx cores).any fun c => c.state = .spilling || c.state = .saveIncomplete

/-- The engines that no page stops run to their ends while another one's save is incomplete (R190). -/
def State.runEngines (s : State) (c : Context) : State :=
  let s := s.performWrites c.num
  let v := s.gather c
  foldState s ((s.contextCores c.num).filter fun k => !c.engineOver k && s.saveOk c [k]) fun s k => s.writeEngine c v k none

/-- Can the spill of a context go on: to its end, or, while a save is incomplete, by the engine of another core (R184, R190)? -/
def State.spillGoes (s : State) (c : Context) : Bool :=
  let cores := (s.contextCores c.num).filter fun k => !c.engineOver k
  !c.recovering && s.spillReady c.num &&
  match c.state with
  | .spilling => s.saveOk c cores
  | .saveIncomplete => cores.any fun k => s.saveOk c [k]
  | _ => false

/-- `SPILL_COMPLETE`: every core's engine has finished: the header is written and the halves are free (R184). With a
boundary due, it is complete, and the context runs on in its new calends (R67, R181). A spill that an unrecoverable fault has
met never finishes (R177). -/
def State.spillDone (s : State) (ctx : Nat) : State :=
  match s.context? ctx with
  | none => s
  | some c =>
    if c.recovering || !s.spillReady ctx then s
    else if c.state = .saveIncomplete then s.runEngines c
    else if c.state ≠ .spilling || !s.saveOk c ((s.contextCores ctx).filter fun k => !c.saveDone.contains k) then s
    else if c.boundaryDue then
      let b := c.boundary + 1
      let s := s.finishSpill c b
      match s.context? ctx with
      | none => s
      | some c =>
        let c := { c with boundary := b, boundaryDue := false, boundaryAt := s.ticks }
        let cal := { s.calends with
          snapshots := s.calends.snapshots ++ [⟨false, ctx, b, c⟩]
          complete := (s.calends.complete.filter fun x => x.1 ≠ ctx) ++ [(ctx, b)] }
        let s := ({ s with calends := cal } : State).onContext ctx fun _ => c
        if c.state = .saved then (s.startContext c).getD s else s
    else s.finishSpill c c.boundary

end Sys2Proof.Machine
end

