-- ==== Sys2Proof/Machine/Privileged.lean ====
section
/-!
DEFINITION. The privileged queue and what its commands do: contexts, queues, launches, windows, apertures, translations
and sibling groups (spec/04_host_interface.md R72 to R74, R94 to R99, R472; spec/05_scheduler.md R125, R126, R137;
spec/03_startup_and_management.md R57).
-/
namespace Sys2Proof

/-- The key of a virtual function among the privileged queues. -/
def VF.key (vf : VF) : Nat := (if vf.port then 64 else 0) + vf.fn.toNat

end Sys2Proof

namespace Sys2Proof.Machine

/-- Status codes of a privileged command (Table 4.13). -/
inductive CmdStatus where
  | ok | reserved | range | resources | noContext | unmapped | layout | unknown | exists_
  deriving DecidableEq, Repr

/-- The code of a status. -/
def CmdStatus.code : CmdStatus → Nat
  | .ok => 0 | .reserved => 1 | .range => 2 | .resources => 3 | .noContext => 4 | .unmapped => 5 | .layout => 6
  | .unknown => 7 | .exists_ => 8

/-- What a command answers: its status and result, or nothing yet (R95, R99). -/
inductive CmdDone where
  | now (status : CmdStatus) (result : Nat)
  | later
  deriving DecidableEq, Repr

/-- What performing a command gives. -/
abbrev CmdOut := State × CmdDone

/-- A failed command: no effect apart from its completion (R96). -/
def State.refuse (s : State) (st : CmdStatus) : CmdOut := (s, .now st 0)

/-- A command that is done. -/
def State.done (s : State) (result : Nat) : CmdOut := (s, .now .ok result)

/-- An argument of a command: `n` bytes at an offset (R97). -/
def cmdArg (cmd : W512) (off n : Nat) : Nat := packetField cmd off n

/-- Are all bytes zero that no argument names (R94, R97)? -/
def cmdClear (cmd : W512) (named : List (Nat × Nat)) : Bool :=
  (List.range 64).all fun i =>
    i == 0 || i == 2 || i == 3 || (decide (8 ≤ i) && decide (i < 16)) ||
    named.any (fun a => decide (a.1 ≤ i) && decide (i < a.1 + a.2)) || cmdArg cmd i 1 == 0

/-- The privileged queue of a function. -/
def State.privQueue (s : State) (vf : VF) : PrivQueue := sget ⟨0, [], none⟩ s.priv vf.key

/-- Puts a privileged queue back. -/
def State.setPriv (s : State) (vf : VF) (q : PrivQueue) : State := { s with priv := sset ⟨0, [], none⟩ s.priv vf.key q }

/-- Counts in `DROPPED` of a function's privileged status register (Table 4.2). -/
def State.dropCommand (s : State) (vf : VF) : State :=
  let q := s.privQueue vf
  s.setPriv vf { q with dropped := satAdd16 q.dropped 1 }

/-- A context of a function, by its number (R96: *no context*). -/
def State.ownContext? (s : State) (vf : VF) (n : Nat) : Option Context :=
  s.contexts.find? fun c => c.num = n && c.vf = vf

/-- A queue whose context belongs to a function (R98). -/
def State.ownQueue? (s : State) (vf : VF) (n : Nat) : Option WorkQueue :=
  match s.queue? n with
  | none => none
  | some q => if (s.ownContext? vf q.ctx).isSome then some q else none

/-- A number below `n` that is not taken: the device may return any of them (R98, R125; log 35). -/
def State.freeNumber (s : State) (n : Nat) (taken : List Nat) : Option Nat :=
  choose (Config.pick s.stepNo) ((List.range n).filter fun i => !taken.contains i)

/-- What a page that the device uses on a context's behalf must be (R472, R99). -/
structure PageNeed where
  write : Bool
  device : Bool
  deriving DecidableEq, Repr

/-- Does the page that a root's tables give meet a need? -/
def State.pageMeets (s : State) (root page : Nat) (need : PageNeed) : Bool :=
  match s.walk 4 root (page % 2 ^ 36) with
  | .leaf e _ _ => entryBit e 10 && (!need.write || entryBit e 1) && (!need.device || !entryBit e 8)
  | _ => false

/-- Do all pages of a range meet a need? -/
def State.rangeMeets (s : State) (root va len : Nat) (need : PageNeed) : Bool :=
  (List.range ((va + len - 1) / 4096 - va / 4096 + 1)).all fun i => s.pageMeets root (va / 4096 + i) need

/-- A range whose addresses are all canonical and do not wrap (R100). -/
def rangeCanonical (va len : Nat) : Bool := canonical va && canonical (va + len - 1) && decide (va + len ≤ 2 ^ 64)

/-- Is a page of a range a host page? -/
def State.anyHost (s : State) (root va len : Nat) : Bool :=
  (List.range ((va + len - 1) / 4096 - va / 4096 + 1)).any fun i =>
    match s.walk 4 root ((va / 4096 + i) % 2 ^ 36) with
    | .leaf e _ _ => entryBit e 8
    | _ => false

/-- Is a page of a range replicated (R236)? -/
def State.anyReplicated (s : State) (root va len : Nat) : Bool :=
  (List.range ((va + len - 1) / 4096 - va / 4096 + 1)).any fun i =>
    match s.walk 4 root ((va / 4096 + i) % 2 ^ 36) with
    | .leaf e _ _ => entryBit e 11
    | _ => false

/-- The checks of create context, and of recover context, from *range* on (R98, R187, R472). -/
def State.contextRefusal (s : State) (vf : VF) (cmd : W512) : Option CmdStatus :=
  let root := cmdArg cmd 0x18 8
  let save := cmdArg cmd 0x20 8
  let len := cmdArg cmd 0x28 8
  let mine := s.contexts.filter fun c => c.vf = vf
  if root % 4096 ≠ 0 ∨ Config.hbmBytes ≤ root ∨ save % 65536 ≠ 0 ∨ len < Config.saveBytes ∨ !rangeCanonical save len then
    some .range
  else if s.anyHost root save 65536 then some .range
  else if s.contexts.any fun c => c.vf.port = vf.port && c.pasid = cmdArg cmd 0x10 4 then some .exists_
  else if 64 ≤ mine.length ∨ 1024 ≤ s.contexts.length then some .resources
  else if !s.rangeMeets root save len ⟨true, false⟩ then some .unmapped
  else none

/-- Adds page `i` of a save area to the runs before it, the latest run first, if the page is one of the device (R102). -/
def State.capturePage (s : State) (root save : Nat) (acc : List SaveRun) (i : Nat) : List SaveRun :=
  match s.walk 4 root ((save / 4096 + i) % 2 ^ 36) with
  | .leaf e _ phys =>
    let one : SaveRun := ⟨i, 1, phys, entryAttr e⟩
    if entryBit e 8 then acc
    else match acc with
      | r :: rest =>
        if r.first + r.count = i && r.phys + 4096 * r.count = phys && r.attr = entryAttr e then { r with count := r.count + 1 } :: rest
        else one :: acc
      | [] => [one]
  | _ => acc

/-- The device pages of a save area under a root, as runs of contiguous pages (R102, R187). -/
def State.captureSave (s : State) (root save : Nat) : List SaveRun :=
  ((List.range (Config.saveBytes / 4096)).foldl (s.capturePage root save) []).reverse

/-- A fresh context (R98). -/
def freshContext (vf : VF) (cmd : W512) (num ticks : Nat) : Context where
  num := num
  vf := vf
  pasid := cmdArg cmd 0x10 4
  root := cmdArg cmd 0x18 8
  save := BitVec.ofNat 64 (cmdArg cmd 0x20 8)
  saveLen := BitVec.ofNat 64 (cmdArg cmd 0x28 8)
  state := .resident
  created := ticks
  errors := 0
  secondPort := false
  det := false
  swapReady := false
  boundary := 0
  nextSeq := 1
  requests := []
  saved := none
  faulting := false
  recovering := false
  boundaryDue := false
  boundaryAt := ticks
  faultedSave := none
  capture := []
  ring := none
  rings := []
  lost := false
  saveDone := []
  saveFaults := []
  resumeAt := []

/-- The device fields of a fresh save-area header (R98). -/
def State.initHeader (s : State) (ctx : Nat) : State :=
  let put := fun (s : State) (x : Nat × List Byte) => s.writeSave ctx x.1 x.2
  foldState s [(0, leBytes 4 0x53415645 ++ leBytes 4 1 ++ leBytes 4 0 ++ leBytes 2 ctx), (0x10, List.replicate 16 0),
    (0x50, leBytes 8 1 ++ leBytes 4 0), (0x880, List.replicate 64 0), (0x8c0, List.replicate 3072 0),
    (0x14c0, List.replicate 8 0)] put

/-- Forgets the undo segments and saves of a context: those kept of a context that a start ended (R56), or those of one
that lives. -/
def State.dropSegments (s : State) (former : Bool) (ctx : Nat) : State :=
  ({ s with calends := { s.calends with
      lines := s.calends.lines.filter fun u => u.ctx ≠ ctx || u.former != former
      snapshots := s.calends.snapshots.filter fun x => x.ctx ≠ ctx || x.former != former } } : State).settleWaits

/-- Forgets the boundaries and waits of a context. -/
def State.dropCalends (s : State) (ctx : Nat) : State :=
  (({ s with calends := { s.calends with
      complete := s.calends.complete.filter fun x => x.1 ≠ ctx
      waits := s.calends.waits.filter fun x => x.1 ≠ ctx } } : State).dropSegments false ctx)

/-- Create context (R98). -/
def cmdCreateContext (vf : VF) (cmd : W512) (s : State) : CmdOut :=
  if !cmdClear cmd [(0x10, 4), (0x18, 24)] ∨ 2 ^ 20 ≤ cmdArg cmd 0x10 4 then s.refuse .reserved
  else match s.contextRefusal vf cmd, s.freeNumber 1024 (s.contexts.map fun c => c.num) with
    | some st, _ => s.refuse st
    | none, none => s.refuse .resources
    | none, some n =>
      let c := { freshContext vf cmd n s.ticks with capture := s.captureSave (cmdArg cmd 0x18 8) (cmdArg cmd 0x20 8) }
      (({ s with contexts := s.contexts ++ [c] } : State).initHeader n).done n

/-- A stack without a queued or running call has its pseudo-channels switched to normal (R276). -/
def State.leaveCompute (s : State) (stack : Nat) : State :=
  if s.calls.any fun c => c.stack = stack && c.queued then s
  else s.setNearBank stack ((s.nearBank stack).request false (BitVec.allOnes 64))

/-- Ends the calls of a context: its pier warps end, its queued calls go, and no return message is written (R269). -/
def State.endCalls (s : State) (ctx : Nat) : State :=
  let mine := s.calls.filter fun c => c.ctx = ctx
  let gone := fun (w : Warp) => match w.pier with
    | some p => mine.any fun c => c.stack = p.stack && c.id = p.call
    | none => false
  let s := s.discardWhere fun f => match s.warp? f.warp with | some w => gone w | none => false
  let s := { s with
    warps := s.warps.filter fun w => !gone w
    calls := s.calls.filter fun c => c.ctx ≠ ctx }
  foldState s (dedup (mine.map fun c => c.stack)) fun s k => s.leaveCompute k

/-- A context is destroyed (R98, R137, R269): everything that is its own goes; no join is decremented. -/
def State.destroy (s : State) (ctx : Nat) : State :=
  let s := (s.detach ctx).endCalls ctx
  let s := (s.freeChip ctx (Saved.ofWarps [])).dropCalends ctx
  { s with
    contexts := s.contexts.filter fun c => c.num ≠ ctx
    queues := s.queues.filter fun q => q.ctx ≠ ctx
    joinWaits := s.joinWaits.filter fun j => j.ctx ≠ ctx
    discards := s.discards.filter fun j => j.ctx ≠ ctx
    groups := s.groups.filter fun g => g.ctx ≠ ctx
    windows := s.windows.filter fun w => w.ctx ≠ ctx
    apertures := s.apertures.filter fun a => a.ctx ≠ ctx
    pageRequests := s.pageRequests.filter fun r => r.ctx ≠ ctx
    ats := s.ats.filter fun t => t.ctx ≠ ctx
    tlb := s.tlb.filter fun t => t.ctx ≠ ctx
    matrix := s.matrix.filter fun c => c.who.ctx ≠ ctx
    packets := s.packets.filter fun r => r.ctx ≠ ctx
    lateArrivals := s.lateArrivals.filter fun a => a.ctx ≠ ctx
    pod := { s.pod with out := update (fun r => r.who.ctx = ctx) (fun r => { r with dead := true }) s.pod.out } }

/-- Destroy context (R98). -/
def cmdDestroyContext (vf : VF) (cmd : W512) (s : State) : CmdOut :=
  if !cmdClear cmd [(0x10, 2)] then s.refuse .reserved
  else match s.ownContext? vf (cmdArg cmd 0x10 2) with
    | none => s.refuse .noContext
    | some c => (s.destroy c.num).done 0

/-- The physical pages of a range for a device on a die; none where one is not a device page in reach. -/
def State.devicePages (s : State) (ctx die va len : Nat) : Option (List Nat) :=
  ((List.range ((va + len - 1) / 4096 - va / 4096 + 1)).map fun i =>
    match s.translate ctx die .read (va / 4096 + i) with
    | .ok (.dev base _) => some base
    | _ => none).foldr (fun x acc => match x, acc with
      | some b, some bs => some (b :: bs)
      | _, _ => none) (some [])

/-- Create queue (R74, R98). -/
def cmdCreateQueue (vf : VF) (cmd : W512) (s : State) : CmdOut :=
  let home := cmdArg cmd 0x12 1
  let cls := cmdArg cmd 0x13 1
  let weight := cmdArg cmd 0x14 1
  let log2n := cmdArg cmd 0x15 1
  let slot := cmdArg cmd 0x16 2
  let base := cmdArg cmd 0x18 8
  let bytes := 64 * 2 ^ log2n
  if !cmdClear cmd [(0x10, 8), (0x18, 8)] then s.refuse .reserved
  else match s.ownContext? vf (cmdArg cmd 0x10 2) with
    | none => s.refuse .noContext
    | some c =>
      if 3 < home ∨ 3 < cls ∨ weight = 0 ∨ log2n < 4 ∨ 20 < log2n ∨ (1024 ≤ slot ∧ slot ≠ 0xffff) ∨ base % bytes ≠ 0 ∨
          !rangeCanonical base bytes then s.refuse .range
      else if slot ≠ 0xffff ∧ s.queues.any fun q => q.aperture = some (vf, slot) then s.refuse .exists_
      else match s.freeNumber 65536 (s.queues.map fun q => q.num) with
        | none => s.refuse .resources
        | some n =>
          if !s.rangeMeets c.root base bytes ⟨true, true⟩ then s.refuse .unmapped
          else match s.devicePages c.num home base bytes with
            | none => s.refuse .unmapped
            | some pages =>
              let q : WorkQueue := ⟨n, c.num, BitVec.ofNat 64 base, pages, log2n, cls, weight, home,
                if slot = 0xffff then none else some (vf, slot), 0, 0, true, 0, 0, 0, s.ticks, none⟩
              ({ s with queues := s.queues ++ [q] } : State).done n

/-- Records of a queue that is being destroyed are discarded, oldest first, each with its join decrement (R83). -/
def State.discardRecords (s : State) (n : Nat) : Nat → State
  | 0 => s
  | k + 1 =>
    match s.queue? n with
    | none => s
    | some q =>
      let r := s.recordAt q q.head
      let s := s.putQueue { q with head := q.head + 1, discarded := satAdd16 q.discarded 1 }
      let s := if recJoin r ≠ 0 ∧ (recJoin r).toNat % 128 = 0 then s.deviceJoinWake q.ctx q.home (recJoin r) else s
      s.discardRecords n k

/-- Destroy queue (R83, R98). -/
def cmdDestroyQueue (vf : VF) (cmd : W512) (s : State) : CmdOut :=
  if !cmdClear cmd [(0x10, 4)] then s.refuse .reserved
  else match s.ownQueue? vf (cmdArg cmd 0x10 4) with
    | none => s.refuse .range
    | some q =>
      let s := (s.putQueue { q with enable := false }).discardRecords q.num q.count
      ({ s with queues := s.queues.filter fun x => x.num ≠ q.num } : State).done q.count

/-- Set class and weight (R98). -/
def cmdSetClassAndWeight (vf : VF) (cmd : W512) (s : State) : CmdOut :=
  let cls := cmdArg cmd 0x14 1
  let weight := cmdArg cmd 0x15 1
  if !cmdClear cmd [(0x10, 6)] then s.refuse .reserved
  else match s.ownQueue? vf (cmdArg cmd 0x10 4) with
    | none => s.refuse .range
    | some q =>
      if 3 < cls ∨ weight = 0 then s.refuse .range
      else (s.putQueue { q with cls := cls, weight := weight, waitStart := s.ticks }).done 0

/-- The 64-byte descriptor of a queue (Table 4.4). -/
def WorkQueue.descriptor (q : WorkQueue) : List Byte :=
  leBytes 8 q.base.toNat ++
  leBytes 8 (q.log2n + q.cls * 2 ^ 8 + q.weight * 2 ^ 16 + q.home * 2 ^ 24 + q.ctx * 2 ^ 32 +
    (match q.aperture with | some a => a.2 | none => 0xffff) * 2 ^ 48) ++
  leBytes 4 q.head.toNat ++ leBytes 4 q.tail.toNat ++ leBytes 8 (if q.enable then 1 else 0) ++
  leBytes 2 q.overflow ++ leBytes 2 q.malformed ++ leBytes 2 q.discarded ++ List.replicate 26 0

/-- Query queue (R98). -/
def cmdQueryQueue (vf : VF) (cmd : W512) (s : State) : CmdOut :=
  if !cmdClear cmd [(0x10, 4), (0x18, 8)] then s.refuse .reserved
  else match s.ownQueue? vf (cmdArg cmd 0x10 4) with
    | none => s.refuse .range
    | some q => (s.writeHost vf.port (cmdArg cmd 0x18 8) q.descriptor).done 0

/-- Launch (R87 to R91, R98). -/
def cmdLaunch (vf : VF) (cmd : W512) (s : State) : CmdOut :=
  let va := cmdArg cmd 0x18 8
  let first := cmdArg cmd 0x20 4
  let count := cmdArg cmd 0x24 4
  if !cmdClear cmd [(0x10, 2), (0x18, 16)] then s.refuse .reserved
  else match s.ownContext? vf (cmdArg cmd 0x10 2) with
    | none => s.refuse .noContext
    | some c =>
      if va % 256 ≠ 0 ∨ c.state ≠ .resident ∨ c.recovering then s.refuse .range
      else match s.devRead c.num 0 (BitVec.ofNat 64 va) 256 with
        | none => s.refuse .unmapped
        | some bs =>
          if !launchOk bs ∨ lvExtent (levelDesc bs 0) < first + count then s.refuse .range
          else match s.launchUnits c.num bs first count with
            | none => s.refuse .resources
            | some (s, n) => s.done n

/-- Map window (R99, R270). -/
def cmdMapWindow (vf : VF) (cmd : W512) (s : State) : CmdOut :=
  let stack := cmdArg cmd 0x12 1
  let idx := cmdArg cmd 0x13 1
  let perm := cmdArg cmd 0x14 1
  let va := cmdArg cmd 0x18 8
  let len := cmdArg cmd 0x20 8
  let w : Bool := bits perm 1 1 = 1
  if !cmdClear cmd [(0x10, 5), (0x18, 16)] ∨ 4 ≤ perm then s.refuse .reserved
  else match s.ownContext? vf (cmdArg cmd 0x10 2) with
    | none => s.refuse .noContext
    | some c =>
      if 15 < stack ∨ 63 < idx ∨ va % 65536 ≠ 0 ∨ len % 65536 ≠ 0 ∨ len = 0 ∨ 2 ^ 34 < len ∨ !rangeCanonical va len then
        s.refuse .range
      else if s.anyReplicated c.root va len then s.refuse .range
      else if s.windows.any fun x => x.ctx = c.num && x.stack = stack && x.idx = idx then s.refuse .exists_
      else if !s.rangeMeets c.root va len ⟨w, true⟩ then s.refuse .unmapped
      else
        let leaves : List (Nat × Bool × Bool) := (List.range (len / 4096)).map fun i =>
          match s.walk 4 c.root ((va / 4096 + i) % 2 ^ 36) with
          | .leaf e _ phys => (phys, entryBit e 2, entryBit e 5)
          | _ => (0, false, false)
        let phys : Nat := ((leaves.head?).map fun x => x.1).getD 0
        if phys % 2 ^ 21 ≠ 0 ∨ stackOf phys ≠ stack ∨ stackOf (phys + len - 1) ≠ stack ∨
            leaves.zipIdx.any (fun (x : (Nat × Bool × Bool) × Nat) => decide (x.1.1 ≠ phys + 4096 * x.2)) then s.refuse .layout
        else
          let win : Window := ⟨c.num, stack, idx, bits perm 0 0 = 1, w, va, len, phys, leaves.map fun x => x.2.1,
            leaves.map fun x => x.2.2, false⟩
          ({ s with windows := s.windows ++ [win] } : State).done 0

/-- Do started calls still run on a window (R99)? -/
def State.windowBusy (s : State) (ctx stack idx : Nat) : Bool :=
  s.calls.any fun c => c.ctx = ctx && c.stack = stack && c.windowIdx = idx && c.started

/-- Removes a window whose unmap is complete. -/
def State.dropWindow (s : State) (ctx stack idx : Nat) : State :=
  { s with windows := s.windows.filter fun w => !(w.ctx = ctx && w.stack = stack && w.idx = idx) }

/-- Unmap window (R99): unbound at once for new calls, and complete when no started call runs on it. -/
def cmdUnmapWindow (vf : VF) (cmd : W512) (s : State) : CmdOut :=
  let stack := cmdArg cmd 0x12 1
  let idx := cmdArg cmd 0x13 1
  if !cmdClear cmd [(0x10, 4)] then s.refuse .reserved
  else match s.ownContext? vf (cmdArg cmd 0x10 2) with
    | none => s.refuse .noContext
    | some c =>
      if (s.window? c.num stack idx).isNone then s.refuse .range
      else
        let mine := fun (k : Call) => k.ctx = c.num && k.stack = stack && k.windowIdx = idx && !k.started
        let this := fun (w : Window) => w.ctx = c.num && w.stack = stack && w.idx = idx
        let named := fun (d : Deferred) => match d with
          | .nmcall ret call entry msg r =>
            .nmcall ret call entry msg (r || ((call.extractLsb' 0 4).toNat = stack && (call.extractLsb' 8 6).toNat = idx))
          | d => d
        let fired := fun (f : Frame) => decide ((s.frameWarp f).ctx = c.num)
        let s := { s with
          frames := update fired (fun f => { f with deferred := f.deferred.map fun d => (d.1, named d.2) }) s.frames
          calls := update mine (fun k => { k with refused := true }) s.calls
          windows := update this (fun w => { w with closing := true }) s.windows }
        if s.windowBusy c.num stack idx then (s, .later) else (s.dropWindow c.num stack idx).done 0

/-- Bind pod aperture (R45, R98, R281). -/
def cmdBindPodAperture (vf : VF) (cmd : W512) (s : State) : CmdOut :=
  let idx := cmdArg cmd 0x10 2
  let perm := cmdArg cmd 0x14 1
  let va := cmdArg cmd 0x18 8
  let len := cmdArg cmd 0x20 8
  let red : Bool := bits perm 2 2 = 1
  if !cmdClear cmd [(0x10, 5), (0x18, 16)] ∨ 8 ≤ perm then s.refuse .reserved
  else match s.ownContext? vf (cmdArg cmd 0x12 2) with
    | none => s.refuse .noContext
    | some c =>
      let recordOk : Bool := match s.walk 4 c.root (va / 4096 % 2 ^ 36) with
        | .leaf e _ _ => entryBit e 6 && entryBit e 10 && va % 256 == 0 && len == 0 && canonical va
        | _ => false
      if 255 < idx ∨ (red ∧ !recordOk) ∨ (!red ∧ (len = 0 ∨ !rangeCanonical va len)) then s.refuse .range
      else if (s.podAperture? idx).isSome then s.refuse .exists_
      else
        let a : PodAperture := ⟨idx, c.num, bits perm 0 0 = 1, bits perm 1 1 = 1, red, va, len⟩
        ({ s with apertures := s.apertures ++ [a] } : State).done 0

/-- Bind second port (R33). -/
def cmdBindSecondPort (vf : VF) (cmd : W512) (s : State) : CmdOut :=
  if !cmdClear cmd [(0x10, 2)] then s.refuse .reserved
  else match s.ownContext? vf (cmdArg cmd 0x10 2) with
    | none => s.refuse .noContext
    | some c => (s.onContext c.num fun c => { c with secondPort := true }).done 0

/-- Does a block in flight hold translations that it has not yet used (R35)? -/
def Frame.holdsTranslations (f : Frame) : Bool := f.stores ≠ [] || f.deferred ≠ []

/-- The two conditions of R35 for a range of a context: the cached translations go, what was translated with one has been
sent, and uncommitted blocks that hold one are discarded. -/
def State.invalidate (s : State) (ctx va len : Nat) : State :=
  let hit := fun (page : Nat) => decide (va / 4096 ≤ page % 2 ^ 52) && decide (page * 4096 < va + len)
  let s := s.drain fun p => p.ctx = ctx
  let s := s.discardWhere fun f => f.holdsTranslations && match s.warp? f.warp with
    | some w => w.ctx = ctx && w.pier.isNone
    | none => false
  { s with
    ats := s.ats.filter fun t => !(t.ctx = ctx && hit t.page)
    tlb := s.tlb.filter fun t => !(t.ctx = ctx && hit t.page) }

/-- Invalidate translations (R102). -/
def cmdInvalidateTranslations (vf : VF) (cmd : W512) (s : State) : CmdOut :=
  if !cmdClear cmd [(0x10, 2), (0x18, 16)] then s.refuse .reserved
  else match s.ownContext? vf (cmdArg cmd 0x10 2) with
    | none => s.refuse .noContext
    | some c => (s.invalidate c.num (cmdArg cmd 0x18 8) (cmdArg cmd 0x20 8)).done 0

/-- A list of 64-bit words that the device reads; none where it cannot be read. -/
def State.readWords (s : State) (ctx : Nat) (va n : Nat) : Option (List Nat) :=
  if n = 0 then some []
  else (s.devRead ctx 0 (BitVec.ofNat 64 va) (8 * n)).map fun bs => (List.range n).map fun i => field bs (8 * i) 8

/-- Is a shared page's entry a key-value page whose `SHARES` can rise by `n` for each time the list names it (R126)? -/
def State.shareOk (s : State) (ctx n : Nat) (pages : List Nat) (page : Nat) : Bool :=
  match s.leafOf ctx (page / 4096) with
  | none => false
  | some (e, _) =>
    let times := (pages.filter fun p => p / 4096 = page / 4096).length
    entryBit e 7 && decide (entryShares e + n * times ≤ 255)

/-- Create sibling group (R125 to R127). -/
def cmdCreateSiblingGroup (vf : VF) (cmd : W512) (s : State) : CmdOut :=
  let n := cmdArg cmd 0x12 1
  let q0 := cmdArg cmd 0x13 1
  let q := if q0 = 0 then n / 2 + 1 else q0
  let shared := cmdArg cmd 0x14 4
  let rec_ := cmdArg cmd 0x18 8
  let list := cmdArg cmd 0x20 8
  let free := cmdArg cmd 0x28 8
  let priv := cmdArg cmd 0x30 8
  if !cmdClear cmd [(0x10, 40)] then s.refuse .reserved
  else match s.ownContext? vf (cmdArg cmd 0x10 2) with
    | none => s.refuse .noContext
    | some c =>
      let inPages := fun (va len : Nat) (w : Bool) => len == 0 || (rangeCanonical va len && s.rangeMeets c.root va len ⟨w, false⟩)
      let cap := s.devNat c.num 0 (BitVec.ofNat 64 (free + 8)) 8
      match s.readWords c.num list shared, s.freeNumber 1024 (s.groups.map fun g => g.handle - 1) with
      | some pages, h =>
        if n = 0 ∨ 64 < n ∨ n < q ∨ rec_ % 128 ≠ 0 ∨ list % 8 ≠ 0 ∨ free % 64 ≠ 0 ∨ priv % 16 ≠ 0 then s.refuse .range
        else if !inPages rec_ (128 + 8 * n) true || !inPages list (8 * shared) false || !inPages free 64 true ||
            !inPages free (64 + 8 * cap) true || !inPages priv (16 * n) false then s.refuse .range
        else if !pages.all fun p => s.shareOk c.num n pages p then s.refuse .range
        else match h with
          | none => s.refuse .resources
          | some k =>
            let s := foldState s pages fun s p =>
              match s.leafOf c.num (p / 4096) with
              | some (e, a) => s.setShares e a (entryShares e + n)
              | none => s
            let sib : Sibling := ⟨.running, false, 0, 0, false, false⟩
            let g : Group := ⟨k + 1, c.num, q, BitVec.ofNat 64 rec_, pages.map (BitVec.ofNat 64), BitVec.ofNat 64 free,
              BitVec.ofNat 64 priv, List.replicate n sib, [], none, 0, 0⟩
            (({ s with groups := s.groups ++ [g] } : State).putGroup g).done (k + 1)
      | none, _ => s.refuse .range

/-- A context taken from a save under another number: its warps, units, phasers, tiles and what its engines hold. -/
def Saved.renumber (v : Saved) (old new : Nat) : Saved :=
  let tile := fun (t : Nat) => t % 64 + 64 * new
  let who := fun (w : Issuer) => { w with ctx := new }
  { warps := v.warps.map fun w => { w with ctx := new, tiles := w.tiles.map tile }
    allocs := v.allocs.map fun a => { a with ctx := new, tiles := a.tiles.map tile }
    phasers := v.phasers.map fun p => { p with ctx := new }
    tokens := v.tokens
    stash := v.stash.map fun m => { m with ctx := new }
    copies := v.copies.map fun c => { c with who := who c.who }
    epilogues := v.epilogues.map fun e => { e with who := who e.who, tile := tile e.tile }
    store := v.store
    tiles := sortBy (fun x : Host.Cell => x.1)
      (v.tiles.map fun x => (x.1 + 0x8000 * 64 * new - 0x8000 * 64 * old, x.2)) }

/-- Puts back the old contents of an undo line (R69). -/
def State.replayLine (s : State) (u : UndoLine) : State :=
  match u.place with
  | .hbm p _ =>
    let s := s.performHbm (homeDie p) none false false (u.old.zipIdx.map fun b => (p + b.2, b.1))
    { s with l1 := s.l1.filter fun l => l.line ≠ p }
  | .host port a => s.writeHost port a u.old
  | _ => s

/-- Replays the undo segments of a context from a boundary upwards, newest first (R69). -/
def State.replaySegments (s : State) (former : Bool) (ctx : Nat) (b : W64) : State :=
  foldState s (s.calends.lines.filter fun u => u.former = former && u.ctx = ctx && decide (b.toNat ≤ u.boundary.toNat)).reverse
    fun s u => s.replayLine u

/-- Is a line of the undo segments of a context from boundary `b` upwards poisoned (R69)? -/
def State.undoPoisoned (s : State) (former : Bool) (ctx b : Nat) : Bool :=
  s.calends.lines.any fun u => u.former = former && u.ctx = ctx && decide (b ≤ u.boundary.toNat) &&
    s.isPoisoned ((u.stack + 1) * 2 ^ 36 - s.undoBytes + 64 * (Config.undoSlot ctx u.boundary.toNat u.line % (s.undoBytes / 64)))

/-- The save of a boundary that is still kept (R69). Where two warm starts have left two former contexts of one number (log 42),
it is the older one's, and the segments of both are replayed: R57 does not tell them apart, and this is the model's choice. -/
def State.snapshot? (s : State) (former : Bool) (ctx : Nat) (b : W64) : Option Context :=
  (s.calends.snapshots.find? fun x => x.former = former && x.ctx = ctx && x.boundary = b).map fun x => x.context

/-- Is the save-area header of a former context not the one that recover context asks for: its number, *valid*, and after
the replay its boundary (R57)? A header page that is not present shows nothing. -/
def State.headerDiffers (s replayed : State) (n former : Nat) (b : W64) : Bool :=
  match (s.context? n).bind fun c => s.saveBytes c 0 0x20 with
  | none => false
  | some bs =>
    field bs 0xc 2 != former || field bs 8 4 % 2 == 0 || replayed.readSave n 0x10 8 != b.toNat

/-- Recover context (R57). The recovered context holds the save of boundary B and runs on in calends B, so that B stays a
boundary that it can be rolled back to (R69). -/
def cmdRecoverContext (vf : VF) (cmd : W512) (s : State) : CmdOut :=
  let former := cmdArg cmd 0x30 2
  let b : W64 := BitVec.ofNat 64 (cmdArg cmd 0x38 8)
  if !cmdClear cmd [(0x10, 4), (0x18, 24), (0x30, 2), (0x38, 8)] ∨ 2 ^ 20 ≤ cmdArg cmd 0x10 4 then s.refuse .reserved
  else match s.contextRefusal vf cmd, s.freeNumber 1024 (s.contexts.map fun c => c.num) with
    | some .range, _ => s.refuse .range
    | st, num =>
      let n := num.getD 1024
      let c := { freshContext vf cmd n s.ticks with capture := s.captureSave (cmdArg cmd 0x18 8) (cmdArg cmd 0x20 8) }
      let t := ({ s with contexts := s.contexts ++ [c] } : State)
      let replayed := t.replaySegments true former b
      match s.snapshot? true former b with
      | none => s.refuse .range
      | some old =>
        if t.undoPoisoned true former b.toNat || t.headerDiffers replayed n former b then s.refuse .range
        else match st with
          | some x => s.refuse x
          | none =>
            let c := { c with
              state := .saved
              errors := old.errors
              det := old.det
              swapReady := old.swapReady
              boundary := b
              nextSeq := old.nextSeq
              requests := old.requests
              ring := old.ring
              rings := old.rings
              saved := old.saved.map fun v => v.renumber former n }
            let u := ((replayed.writeSave n 0xc (leBytes 2 n)).onContext n fun _ => c).dropSegments true former
            (({ u with calends := { u.calends with
              snapshots := u.calends.snapshots ++ [⟨false, n, b, c⟩]
              complete := u.calends.complete ++ [(n, b)] } } : State)).done n

/-- The context and argument of a pre-empt command (R181): refused under *reserved* and *no context*. -/
def preempt (vf : VF) (cmd : W512) (s : State) (f : Context → CmdOut) : CmdOut :=
  if !cmdClear cmd [(0x10, 3), (0x18, 8)] then s.refuse .reserved
  else match s.ownContext? vf (cmdArg cmd 0x10 2) with
    | none => s.refuse .noContext
    | some c => f c

/-- Swap out (R181, R182). -/
def cmdSwapOut (vf : VF) (cmd : W512) (s : State) : CmdOut :=
  preempt vf cmd s fun c =>
    if c.state ≠ .resident ∨ !c.swapReady ∨ c.recovering then s.refuse .range
    else if s.swapRefused c.num (s.contextCores c.num) then s.refuse .resources
    else (s.swapOutContext c.num).done 0

/-- Fill (R181). -/
def cmdFill (vf : VF) (cmd : W512) (s : State) : CmdOut :=
  preempt vf cmd s fun c =>
    if c.state ≠ .saved ∨ !c.swapReady then s.refuse .range
    else match s.fillContext c with
      | some t => t.done 0
      | none => s.refuse .resources

/-- Swap in (R181, R182): contexts resident on its cores go out, and each must be swap-ready. -/
def cmdSwapIn (vf : VF) (cmd : W512) (s : State) : CmdOut :=
  preempt vf cmd s fun c =>
    let cores := s.contextCores c.num
    let out := (s.sharing c.num cores).filter fun x => x.state = .resident
    if c.state ≠ .filled ∨ out.any (fun x => !x.swapReady) then s.refuse .range
    else if s.swapRefused c.num (dedup (cores ++ (out.map fun x => s.contextCores x.num).flatten)) then s.refuse .resources
    else
      let s := foldState s out fun s x => s.swapOutContext x.num
      (s.enterWarps c.num (c.saved.getD (Saved.ofWarps []))).wakeWaiting.done 0

/-- Stop (R181, R185): complete once every warp stands at a block boundary; waiting blocks are discarded. -/
def cmdStop (vf : VF) (cmd : W512) (s : State) : CmdOut :=
  preempt vf cmd s fun c =>
    if c.state ≠ .resident ∨ c.recovering then s.refuse .range
    else
      let s := s.stopContext c.num
      if s.stopping c.num then (s, .later) else s.done 0

/-- Start (R181, R186). -/
def cmdStart (vf : VF) (cmd : W512) (s : State) : CmdOut :=
  preempt vf cmd s fun c =>
    if c.state ≠ .saved ∧ c.state ≠ .faulted then s.refuse .range
    else match s.startContext c with
      | some t => t.done 0
      | none => s.refuse .resources

/-- The ring of an outstanding request: the one that it was written to (R187). -/
def Context.ringOf (c : Context) (seq : W64) : Nat × Nat := ((c.rings.find? fun x => x.1 = seq).map fun x => x.2).getD (0, 0)

/-- The reply words of a service request in their lanes' registers (R180). -/
def State.replied (s : State) (c : Context) (w : Warp) (seq : W64) : Warp :=
  match w.status with
  | .offCore _ lanes _ words =>
    let base := ringSlot (c.ringOf seq) seq + 0x40
    let word := fun (l i : Nat) =>
      BitVec.ofNat 32 (leNat ((List.range 4).map fun k => sget 0 s.host (hostAddr c.vf.port (base + 16 * l + 4 * i + k))))
    let w := foldState w (lanesOf lanes) fun w l => foldState w (List.range words) fun w i => w.setV i l (word l i)
    { w with status := .running }
  | _ => w

/-- Resume service call (R180): the warp runs again in its slot; where its context is not resident, its save is updated:
its warp area and payload, and nothing else. -/
def cmdResume (vf : VF) (cmd : W512) (s : State) : CmdOut :=
  preempt vf cmd s fun c =>
    let seq : W64 := BitVec.ofNat 64 (cmdArg cmd 0x18 8)
    match c.state, c.requests.find? fun r => r.1 = seq with
    | .saveIncomplete, _ => s.refuse .range
    | _, none => s.refuse .range
    | _, some r =>
      let less := s.onContext c.num fun c => { c with
        requests := c.requests.filter fun x => x.1 ≠ seq
        rings := c.rings.filter fun x => x.1 ≠ seq }
      let less := less.writeSave c.num 0x58 (leBytes 4 (c.requests.length - 1))
      match s.warps.find? fun w => w.id = r.2 && w.ctx = c.num && w.pier.isNone with
      | some w =>
        let s := less.setWarp (s.replied c (s.readWarp c.num w) seq).promote
        (s.releaseHeld w.id).wakeWaiting.done 0
      | none =>
        match c.saved with
        | none => less.done 0
        | some v =>
          match v.warps.find? fun w => w.id = r.2 with
          | none => less.done 0
          | some w =>
            let w := s.replied c (s.readWarp c.num w) seq
            let s := less.onContext c.num fun c => { c with saved := some { v with warps := update (fun x => x.id = r.2) (fun _ => w) v.warps } }
            (if c.state = .spilling then s else s.saveWarp w (s.savedRoom c.num v w)).done 0

/-- Restart save engine (R191): each stopped engine goes on from its recorded offset. -/
def cmdRestartSaveEngine (vf : VF) (cmd : W512) (s : State) : CmdOut :=
  if !cmdClear cmd [(0x10, 2)] then s.refuse .reserved
  else match s.ownContext? vf (cmdArg cmd 0x10 2) with
    | none => s.refuse .noContext
    | some c =>
      if c.state ≠ .saveIncomplete then s.refuse .range
      else
        let goesOn := fun (c : Context) => { c with
          resumeAt := c.saveFaults ++ c.resumeAt.filter fun x => c.saveFaults.all fun y => y.1 ≠ x.1
          saveFaults := [] }
        ((s.onContext c.num goesOn).setCtxState c.num .spilling).done 0

/-- A command with an opcode or an action that no table lists (R96, R181). -/
def cmdUnknown (vf : VF) (cmd : W512) (s : State) : CmdOut :=
  if cmdArg cmd 0 1 = 0x0e then preempt vf cmd s fun _ => s.refuse .range else s.refuse .unknown

/-- A command that waited behind another, performed by its opcode and action (R95). -/
def runCommand (vf : VF) (cmd : W512) (s : State) : CmdOut :=
  match cmdArg cmd 0 1 with
  | 0x01 => cmdCreateContext vf cmd s
  | 0x02 => cmdDestroyContext vf cmd s
  | 0x03 => cmdCreateQueue vf cmd s
  | 0x04 => cmdDestroyQueue vf cmd s
  | 0x05 => cmdSetClassAndWeight vf cmd s
  | 0x06 => cmdQueryQueue vf cmd s
  | 0x07 => cmdLaunch vf cmd s
  | 0x08 => cmdMapWindow vf cmd s
  | 0x09 => cmdUnmapWindow vf cmd s
  | 0x0a => cmdBindPodAperture vf cmd s
  | 0x0b => cmdBindSecondPort vf cmd s
  | 0x0c => cmdInvalidateTranslations vf cmd s
  | 0x0d => cmdCreateSiblingGroup vf cmd s
  | 0x0e => match cmdArg cmd 0x12 1 with
    | 0 => cmdSwapOut vf cmd s
    | 1 => cmdFill vf cmd s
    | 2 => cmdSwapIn vf cmd s
    | 3 => cmdStop vf cmd s
    | 4 => cmdStart vf cmd s
    | 5 => cmdResume vf cmd s
    | _ => cmdUnknown vf cmd s
  | 0x0f => cmdRestartSaveEngine vf cmd s
  | 0x10 => cmdRecoverContext vf cmd s
  | _ => cmdUnknown vf cmd s

/-- Writes a command's completion record into the owning host's memory (R94). -/
def State.complete (s : State) (vf : VF) (cmd : W512) (st : CmdStatus) (result : Nat) : State :=
  s.writeHost vf.port (cmdArg cmd 8 8)
    (leBytes 2 (cmdArg cmd 2 2) ++ leBytes 1 st.code ++ leBytes 5 0 ++ leBytes 8 result)

/-- What follows the performing of a command: its completion, or the wait that holds the queue (R95). -/
def State.answered (vf : VF) (cmd : W512) : CmdOut → State
  | (s, .now st r) => s.complete vf cmd st r
  | (s, .later) => let q := s.privQueue vf; s.setPriv vf { q with busy := some cmd }

/-- Performs the commands of a queue in order until one must wait (R95). -/
def drainQueue (vf : VF) : Nat → State → State
  | 0, s => s
  | fuel + 1, s =>
    let q := s.privQueue vf
    match q.busy, q.pending with
    | none, cmd :: rest =>
      let s := s.setPriv vf { q with pending := rest }
      drainQueue vf fuel (State.answered vf cmd (runCommand vf cmd s))
    | _, _ => s

/-- Is what a waiting command waits for over (R99, R181)? -/
def State.busyOver (s : State) (cmd : W512) : Bool :=
  let ctx := cmdArg cmd 0x10 2
  if cmdArg cmd 0 1 = 0x09 then !s.windowBusy ctx (cmdArg cmd 0x12 1) (cmdArg cmd 0x13 1) else !s.stopping ctx

/-- Completes the command that a function's queue waits for, once it is over, and performs those behind it (R95, R99). -/
def State.settleQueue (s : State) (vf : VF) : State :=
  let q := s.privQueue vf
  match q.busy with
  | none => s
  | some cmd =>
    if !s.busyOver cmd then s
    else
      let s := if cmdArg cmd 0 1 = 0x09 then s.dropWindow (cmdArg cmd 0x10 2) (cmdArg cmd 0x12 1) (cmdArg cmd 0x13 1) else s
      let s := (s.setPriv vf { q with busy := none }).complete vf cmd .ok 0
      drainQueue vf 64 s

/-- Settles every privileged queue. -/
def State.settleQueues (s : State) : State :=
  foldState s (s.priv.map fun x => x.1) fun s k => s.settleQueue ⟨64 ≤ k, BitVec.ofNat 6 (k % 64)⟩

/-- THE PRIVILEGED QUEUE (R94, R95): a command is dropped and counted for a misaligned completion address or a full queue,
waits behind a command whose completion is outstanding, or is performed by `f`. -/
def State.privileged (s : State) (vf : VF) (cmd : W512) (f : State → CmdOut) : State :=
  let q := s.privQueue vf
  if !s.startup.ready then s
  else if cmdArg cmd 8 8 % 16 ≠ 0 then s.dropCommand vf
  else match q.busy with
    | some _ =>
      if 63 ≤ q.pending.length then s.dropCommand vf
      else s.setPriv vf { q with pending := q.pending ++ [cmd] }
    | none => State.answered vf cmd (f s)

/-- `CREATE_CONTEXT` (R98). -/
def execCreateContext (vf : VF) (cmd : W512) (s : State) : Out := .next (s.privileged vf cmd (cmdCreateContext vf cmd))
/-- `DESTROY_CONTEXT` (R98). -/
def execDestroyContext (vf : VF) (cmd : W512) (s : State) : Out := .next (s.privileged vf cmd (cmdDestroyContext vf cmd)).settleQueues
/-- `CREATE_QUEUE` (R74, R98). -/
def execCreateQueue (vf : VF) (cmd : W512) (s : State) : Out := .next (s.privileged vf cmd (cmdCreateQueue vf cmd))
/-- `DESTROY_QUEUE` (R98). -/
def execDestroyQueue (vf : VF) (cmd : W512) (s : State) : Out := .next (s.privileged vf cmd (cmdDestroyQueue vf cmd))
/-- `SET_CLASS_AND_WEIGHT` (R98). -/
def execSetClassAndWeight (vf : VF) (cmd : W512) (s : State) : Out := .next (s.privileged vf cmd (cmdSetClassAndWeight vf cmd))
/-- `QUERY_QUEUE` (R98). -/
def execQueryQueue (vf : VF) (cmd : W512) (s : State) : Out := .next (s.privileged vf cmd (cmdQueryQueue vf cmd))
/-- `LAUNCH` (R90). -/
def execLaunch (vf : VF) (cmd : W512) (s : State) : Out := .next (s.privileged vf cmd (cmdLaunch vf cmd))
/-- `MAP_WINDOW` (R99). -/
def execMapWindow (vf : VF) (cmd : W512) (s : State) : Out := .next (s.privileged vf cmd (cmdMapWindow vf cmd))
/-- `UNMAP_WINDOW` (R99). -/
def execUnmapWindow (vf : VF) (cmd : W512) (s : State) : Out := .next (s.privileged vf cmd (cmdUnmapWindow vf cmd))
/-- `BIND_POD_APERTURE` (R45, R281). -/
def execBindPodAperture (vf : VF) (cmd : W512) (s : State) : Out := .next (s.privileged vf cmd (cmdBindPodAperture vf cmd))
/-- `BIND_SECOND_PORT` (R33). -/
def execBindSecondPort (vf : VF) (cmd : W512) (s : State) : Out := .next (s.privileged vf cmd (cmdBindSecondPort vf cmd))
/-- `INVALIDATE_TRANSLATIONS` (R102). -/
def execInvalidateTranslations (vf : VF) (cmd : W512) (s : State) : Out :=
  .next (s.privileged vf cmd (cmdInvalidateTranslations vf cmd))
/-- `CREATE_SIBLING_GROUP` (R126). -/
def execCreateSiblingGroup (vf : VF) (cmd : W512) (s : State) : Out := .next (s.privileged vf cmd (cmdCreateSiblingGroup vf cmd))
/-- `SWAP_OUT` (R181, R182). -/
def execSwapOut (vf : VF) (cmd : W512) (s : State) : Out := .next (s.privileged vf cmd (cmdSwapOut vf cmd)).settleQueues
/-- `FILL` (R181). -/
def execFill (vf : VF) (cmd : W512) (s : State) : Out := .next (s.privileged vf cmd (cmdFill vf cmd))
/-- `SWAP_IN` (R181, R182). -/
def execSwapIn (vf : VF) (cmd : W512) (s : State) : Out := .next (s.privileged vf cmd (cmdSwapIn vf cmd))
/-- `STOP` (R181, R185). -/
def execStop (vf : VF) (cmd : W512) (s : State) : Out := .next (s.privileged vf cmd (cmdStop vf cmd))
/-- `START` (R181, R186). -/
def execStart (vf : VF) (cmd : W512) (s : State) : Out := .next (s.privileged vf cmd (cmdStart vf cmd))
/-- `RESUME_SERVICE_CALL` (R180). -/
def execResumeServiceCall (vf : VF) (cmd : W512) (s : State) : Out := .next (s.privileged vf cmd (cmdResume vf cmd))
/-- `RESTART_SAVE_ENGINE` (R191). -/
def execRestartSaveEngine (vf : VF) (cmd : W512) (s : State) : Out := .next (s.privileged vf cmd (cmdRestartSaveEngine vf cmd))
/-- `RECOVER_CONTEXT` (R57). -/
def execRecoverContext (vf : VF) (cmd : W512) (s : State) : Out := .next (s.privileged vf cmd (cmdRecoverContext vf cmd))
/-- An undefined opcode or action (R96, R181). -/
def execUnknownPrivilegedCommand (vf : VF) (cmd : W512) (s : State) : Out := .next (s.privileged vf cmd (cmdUnknown vf cmd))

/-- `SPILL_COMPLETE` (R184). -/
def execSpillComplete (context : Nat) (s : State) : Out := .next (s.spillDone context).settleQueues

/-- `SAVE_FAULT` (R190): a store of a core's spill engine meets a page that cannot be translated: what it wrote before is
written, the engine stops with its progress in the header, and a record with cause *save fault* and a notice of kind 3 are
written. The engines of the other cores are not affected. -/
def execSaveFault (context : Nat) (core : Nat) (address : W64) (progress : W32) (s : State) : Out :=
  .next (match s.context? context with
    | none => s
    | some c =>
      let off := (address - c.save).toNat
      let closed : Bool := c.state ≠ .spilling && c.state ≠ .saveIncomplete
      if closed || c.recovering || !s.spillReady context || !(s.contextCores context).contains core || c.engineOver core ||
          off ≠ sectionAt core + progress.toNat || s.savePageOk c (off / 4096 * 4096) then s
      else
        let s := (s.performWrites context).writeEngine c (s.gather c) core (some progress.toNat)
        let s := s.onContext context fun c => { c with saveFaults := c.saveFaults ++ [(core, progress)] }
        let s := s.writeSave context (0x8c0 + 8 * core) (leBytes 8 (progress.toNat + 2 ^ 63))
        let s := if s.readSave context 0x14c0 8 = 0 then s.writeSave context 0x14c0 (leBytes 8 address.toNat) else s
        let id : WarpId := ⟨core, 0⟩
        let s := s.writeSave context 0x880 (recordBytes 0 address 0 0 Cause.saveFault.code 0xff 0xff false false id 0 (s.refTime context))
        let s := s.setCtxState context .saveIncomplete
        (s.notice context 3 0 0 Cause.saveFault.code id).settleQueues)

end Sys2Proof.Machine
end

