-- ==== Sys2Proof/Machine/Sha256.lean ====
section
/-!
DEFINITION. SHA-256, the digest that spec/03_startup_and_management.md R59 and R60 name: FIPS 180-4, taken from outside the
spec (log 7).
-/
namespace Sys2Proof.Machine

/-- The 64 round constants. -/
def shaK : List W32 :=
  [0x428a2f98, 0x71374491, 0xb5c0fbcf, 0xe9b5dba5, 0x3956c25b, 0x59f111f1, 0x923f82a4, 0xab1c5ed5] ++
  [0xd807aa98, 0x12835b01, 0x243185be, 0x550c7dc3, 0x72be5d74, 0x80deb1fe, 0x9bdc06a7, 0xc19bf174] ++
  [0xe49b69c1, 0xefbe4786, 0x0fc19dc6, 0x240ca1cc, 0x2de92c6f, 0x4a7484aa, 0x5cb0a9dc, 0x76f988da] ++
  [0x983e5152, 0xa831c66d, 0xb00327c8, 0xbf597fc7, 0xc6e00bf3, 0xd5a79147, 0x06ca6351, 0x14292967] ++
  [0x27b70a85, 0x2e1b2138, 0x4d2c6dfc, 0x53380d13, 0x650a7354, 0x766a0abb, 0x81c2c92e, 0x92722c85] ++
  [0xa2bfe8a1, 0xa81a664b, 0xc24b8b70, 0xc76c51a3, 0xd192e819, 0xd6990624, 0xf40e3585, 0x106aa070] ++
  [0x19a4c116, 0x1e376c08, 0x2748774c, 0x34b0bcb5, 0x391c0cb3, 0x4ed8aa4a, 0x5b9cca4f, 0x682e6ff3] ++
  [0x748f82ee, 0x78a5636f, 0x84c87814, 0x8cc70208, 0x90befffa, 0xa4506ceb, 0xbef9a3f7, 0xc67178f2]

/-- The first chaining value. -/
def shaStart : List W32 :=
  [0x6a09e667, 0xbb67ae85, 0x3c6ef372, 0xa54ff53a, 0x510e527f, 0x9b05688c, 0x1f83d9ab, 0x5be0cd19]

/-- A word of a list; 0 beyond its end. -/
def wordAt (l : List W32) (i : Nat) : W32 := (l[i]?).getD 0

/-- A big-endian word of four bytes. -/
def beWord (b : List Byte) : W32 := b.foldl (fun x y => x <<< 8 ||| y.setWidth 32) 0

/-- The message padded to whole 64-byte blocks. -/
def shaPad (m : List Byte) : List Byte :=
  m ++ [0x80] ++ List.replicate ((119 - m.length % 64) % 64) 0 ++ (leBytes 8 (8 * m.length)).reverse

/-- The next word of the message schedule, of the sixteen before it. -/
def shaNext (w : List W32) : W32 :=
  let x := wordAt w 1
  let y := wordAt w 14
  wordAt w 0 + (x.rotateRight 7 ^^^ x.rotateRight 18 ^^^ x >>> 3) + wordAt w 9 +
    (y.rotateRight 17 ^^^ y.rotateRight 19 ^^^ y >>> 10)

/-- One round on the eight working words, with a schedule word and a constant. -/
def shaRound (h : List W32) (w k : W32) : List W32 :=
  let a := wordAt h 0
  let e := wordAt h 4
  let ch := e &&& wordAt h 5 ^^^ ~~~e &&& wordAt h 6
  let maj := a &&& wordAt h 1 ^^^ a &&& wordAt h 2 ^^^ wordAt h 1 &&& wordAt h 2
  let t := wordAt h 7 + (e.rotateRight 6 ^^^ e.rotateRight 11 ^^^ e.rotateRight 25) + ch + k + w
  (t + (a.rotateRight 2 ^^^ a.rotateRight 13 ^^^ a.rotateRight 22) + maj) :: (h.take 3 ++ (wordAt h 3 + t) :: (h.drop 4).take 3)

/-- The rounds of one block: constants left, the window of sixteen schedule words, the working words. -/
def shaRounds : List W32 → List W32 → List W32 → List W32
  | [], _, h => h
  | k :: ks, w, h => shaRounds ks (w.tail ++ [shaNext w]) (shaRound h (wordAt w 0) k)

/-- One 64-byte block taken into the chaining value. -/
def shaBlock (h : List W32) (b : List Byte) : List W32 :=
  let w := (List.range 16).map fun i => beWord ((b.drop (4 * i)).take 4)
  List.zipWith (· + ·) h (shaRounds shaK w h)

/-- SHA-256 of a byte string: its 32 bytes, the first in bits [7:0]. -/
def sha256 (m : List Byte) : BitVec 256 :=
  let p := shaPad m
  let h := (List.range (p.length / 64)).foldl (fun h i => shaBlock h ((p.drop (64 * i)).take 64)) shaStart
  BitVec.ofNat 256 (leNat ((h.map fun x => (leBytes 4 x.toNat).reverse).flatten))

end Sys2Proof.Machine
end

