-- ==== Sys2Proof/Machine/Management.lean ====
section
/-!
DEFINITION. Starting the module, firmware, attestation, the almanac, the mailbox, power, clocks and cooling
(spec/01_package.md R19 to R30; spec/03_startup_and_management.md R55 to R66).
-/
namespace Sys2Proof.Machine

/-- Writes an almanac entry (R64, Table 3.4): the oldest of 2,048 goes when the ring is full. -/
def State.almanacAdd (s : State) (event source detail : Nat) : State :=
  let e : AlmanacEntry := ⟨BitVec.ofNat 64 (s.ticks - s.startup.coldAt), s.almanacSeq, BitVec.ofNat 16 event,
    BitVec.ofNat 16 source, BitVec.ofNat 128 detail⟩
  let ring := s.almanac ++ [e]
  { s with almanac := ring.drop (ring.length - 2048), almanacSeq := s.almanacSeq + 1 }

/-- The 32 bytes of an almanac entry (Table 3.4). -/
def AlmanacEntry.bytes (e : AlmanacEntry) : List Byte :=
  leBytes 8 e.time.toNat ++ leBytes 4 e.seq.toNat ++ leBytes 2 e.event.toNat ++ leBytes 2 e.source.toNat ++
  leBytes 16 e.detail.toNat

/-- Changes the start-up state. -/
def State.onStartup (s : State) (f : Startup → Startup) : State := { s with startup := f s.startup }

/-- Changes the power state. -/
def State.onPower (s : State) (f : Power → Power) : State := { s with power := f s.power }

/-- Every context is ended and everything that the cores, engines and queues hold is gone (R56); what lies in memory stays. -/
def State.endAll (s : State) : State :=
  { s with
    contexts := [], queues := [], wrr := [], joinWaits := [], discards := [], summaries := [], groups := [], windows := []
    apertures := [], packets := [], lateArrivals := [], pageRequests := [], ats := [], tlb := []
    warps := [], frames := [], early := [], tokens := [], arbiters := List.replicate 4 Arbiter.reset
    clocks := List.replicate 4 [0, 0, 0, 0], phasers := [], copies := [], matrix := []
    epilogues := [], tiles := [], allocs := [], pieces := [], calls := [], nearBanks := [], l1 := [], stashMaps := []
    stashLines := [], acks := [], probes := [], l2 := [], writes := [], unarrived := []
    past := [], readers := [], rewritten := [], stamps := [], store := [], priv := [] }

/-- The segments of the undo regions, and the saves of their boundaries, are those of contexts that a start has ended (R56,
R57). -/
def State.keepUndo (s : State) : State :=
  { s with
    calends := { s.calends with
      lines := s.calends.lines.map fun u => { u with former := true }
      snapshots := s.calends.snapshots.map fun x => { x with former := true }
      complete := []
      waits := [] } }

/-- Drops the undo region with its segments (R56). -/
def State.clearUndo (s : State) : State :=
  { s with calends := { s.calends with lines := [], snapshots := [], complete := [], waits := [] } }

/-- A start begins (R55, R56, R22, R61): every context ends, the registers take their reset values, the cycle counts begin
again (R325), and a pending slot is tried. What the rules do not name at a start stays: the clocks that the limiter has
lowered, its calm counts and open throttle events, the gating and refresh of the stacks, the low-flow state, and the
calends interval (logs 41 and 42). -/
def State.beginStart (s : State) (warm : Bool) : State :=
  let s := s.endAll
  let s := if warm then s.keepUndo else s.clearUndo
  let s := { s with
    hbm := if warm then s.hbm else []
    poisoned := if warm then s.poisoned else []
    mailboxes := [Mailbox.reset, Mailbox.reset]
    cycles := List.replicate 4 0
    pierCycles := List.replicate 16 0
    calends := if warm then s.calends else { s.calends with fraction := s.calends.nextFraction }
    pod := { s.pod with timeout := 5000, self := 0x3ff, enable := false, entries := [] } }
  let s := s.onPower fun p => { p with on := true, tripped := false, hostLimit := 4200 }
  s.onStartup fun u => { u with
    ready := false
    warm := warm
    step := 0
    locked := false
    lockedSince := u.lockedSince && warm
    pendingSlot := none
    trying := match u.pendingSlot with | some p => some p | none => u.trying
    holds := if warm then [5, 6, 8].filter fun k => Config.storedOk k s.stepNo else []
    reused := []
    coldAt := if warm then u.coldAt else s.ticks }

/-- A cold start begins; it also begins a new count of failed attempts where the module was locked (R55, R58). -/
def State.coldStart (s : State) : State :=
  (s.beginStart false).onStartup fun u => { u with fails := if s.startup.locked || !s.power.on || s.power.tripped then 0 else u.fails }

/-- The active slot: the one that the attempt runs from (R61). -/
def Startup.runs (u : Startup) : Bool := u.trying.getD u.slot

/-- The contents of a flash slot. -/
def Startup.flash (u : Startup) (slot : Bool) : Sparse Byte := if slot then u.slotB else u.slotA

/-- A start step fails (R55, R58, R61): its code goes to the almanac; the next attempt is a warm start from the previous
slot, or the module is locked at the third. -/
def State.failStep (s : State) (k : Nat) : State :=
  let s := s.almanacAdd 0x0001 0 k
  let n := s.startup.fails + 1
  let s := s.onStartup fun u => { u with
    fails := n
    step := k
    trying := none }
  if 3 ≤ n then (s.almanacAdd 0x0002 0 k).onStartup fun u => { u with locked := true, lockedSince := true }
  else s.beginStart true

/-- Is the stored result of step `k` reused in this start (R56)? -/
def State.reuses (s : State) (k : Nat) : Bool := s.startup.warm && s.startup.holds.contains k

/-- Registers whose images step 0x03 measures (Table 3.2): M1 and M7 hold no image. -/
def imageRegisters : List Nat := [0, 2, 3, 4, 5, 6]

/-- What a measurement register is extended with (Table 3.2). M1's contents are the 32-byte key digest and then the 8-byte
counter, little-endian: Table 3.2 gives no layout (log 7). -/
def State.measured (s : State) (k : Nat) : List Byte :=
  let u := s.startup
  match k with
  | 1 => leBytes 32 Config.keyDigest.toNat ++ leBytes 8 u.counter.toNat
  | 7 => leBytes 1 (if u.warm then 1 else 0) ++
      (([5, 6, 8].filter fun k => s.reuses k).map fun k => Config.storedResults k).flatten
  | k => Config.image (u.flash u.runs) k

/-- The measurement log after step 0x03 (R59): M := SHA-256(M ‖ SHA-256(image)). -/
def State.measure (s : State) : List (BitVec 256) :=
  (List.range 8).map fun k =>
    let m := (s.startup.log[k]?).getD 0
    sha256 (leBytes 32 m.toNat ++ leBytes 32 (sha256 (s.measured k)).toNat)

/-- The checks of R60 on a flash slot: *signature*, then *rollback*. -/
def Startup.slotCheck (u : Startup) (slot : Bool) : Nat :=
  if !Config.signaturesOk (u.flash slot) then 3
  else if imageRegisters.any fun k => (Config.imageVersion (u.flash slot) k).2.toNat < u.counter.toNat then 4
  else 0

/-- The lowest security version among the images of a slot (R61). -/
def Startup.lowestVersion (u : Startup) (slot : Bool) : Nat :=
  (minimum? (imageRegisters.map fun k => (Config.imageVersion (u.flash slot) k).2.toNat)).getD 0

/-- What a start step that succeeds does (Table 3.1, R50, R54, R56, R59, R61). -/
def State.passStep (s : State) (k : Nat) : State :=
  let s := s.onStartup fun u => { u with step := k }
  match k with
  | 2 => s.onStartup fun u => { u with log := List.replicate 8 0 }
  | 3 => s.onStartup fun u => { u with log := s.measure }
  | 5 =>
    if s.reuses 5 then s.onStartup fun u => { u with reused := u.reused ++ [5] }
    else ({ s with hbm := [], poisoned := [] } : State).clearUndo
  | 6 => if s.reuses 6 then s.onStartup fun u => { u with reused := u.reused ++ [6] } else s.clearUndo
  | 7 => { s with pod := { s.pod with out := [], portsDown := [], reply := none, entries := [] } }
  | 8 => if s.reuses 8 then s.onStartup fun u => { u with reused := u.reused ++ [8] } else s
  | 10 =>
    let u := s.startup
    let slot := u.runs
    let s := if u.trying.isSome then s.almanacAdd 0x000c 0 (if slot then 1 else 0) else s
    s.onStartup fun u => { u with
      ready := true
      fails := 0
      slot := slot
      trying := none
      counter := if u.trying.isSome ∧ u.counter.toNat < u.lowestVersion slot then BitVec.ofNat 64 (u.lowestVersion slot) else u.counter }
  | _ => s

/-- `START_STEP`: the next step completes or fails (R55 to R61). -/
def execStartStep (ok : Bool) (s : State) : Out :=
  let u := s.startup
  let k := u.step + 1
  .next (if u.ready || u.locked || !s.power.on || s.power.tripped || decide (10 < k) then s
    else if !ok || (k == 4 && u.slotCheck u.runs != 0) then s.failStep k
    else s.passStep k)

/-- `POWER_GOOD`: the baseboard controller has applied power: a cold start begins (R19, R55). -/
def execPowerGood (s : State) : Out := .next (if s.power.on || s.power.tripped then s else s.coldStart)

/-- Everything that needs the rails is gone (R19, R27). -/
def State.loseRails (s : State) : State :=
  let s := ({ s.endAll with hbm := [], poisoned := [] } : State).clearUndo
  let s := { s with pod := { s.pod with out := [], reply := none } }
  s.onStartup fun u => { u with ready := false, step := 0, reused := [] }

/-- `POWER_REMOVAL`: the baseboard controller removes the module's power: the rails go down together (R19). The management
processor, which holds the open throttle events, goes with them. -/
def execPowerRemoval (s : State) : Out :=
  .next (({ s.loseRails with mailboxes := [Mailbox.reset, Mailbox.reset] } : State).onPower fun p =>
    { p with on := false, tripped := false, events := [] })

/-- `PF_RESET`: a reset of a physical function: a cold start where the module is locked, else a warm start (R37, R55, R56). -/
def execPfReset (_port : Bool) (s : State) : Out :=
  .next (if !s.power.on || s.power.tripped then s
    else if s.startup.locked then s.coldStart else s.beginStart true)

/-- `FUNCTION_LEVEL_RESET`: every context of a virtual function is destroyed, and its queue is empty (R37). -/
def execFunctionLevelReset (vf : VF) (s : State) : Out :=
  .next ((foldState s (s.contexts.filter fun c => c.vf = vf) fun s c => s.destroy c.num).setPriv vf ⟨0, [], none⟩).settleQueues

/-- The mailbox of a port. -/
def State.mailbox (s : State) (port : Bool) : Mailbox := (s.mailboxes[if port then 1 else 0]?).getD Mailbox.reset

/-- Puts a mailbox back. -/
def State.setMailbox (s : State) (port : Bool) (m : Mailbox) : State :=
  { s with mailboxes := [if port then s.mailbox false else m, if port then m else s.mailbox true] }

/-- Status codes of the mailbox (Table 3.5). -/
inductive MbxCode where
  | ok | range | unknown | signature | rollback | locked | notReady
  deriving DecidableEq, Repr

/-- The code in `CODE`. -/
def MbxCode.byte : MbxCode → BitVec 8
  | .ok => 0 | .range => 1 | .unknown => 2 | .signature => 3 | .rollback => 4 | .locked => 5 | .notReady => 6

/-- A 32-bit argument of a mailbox command. -/
def State.mbxArg (s : State) (port : Bool) (off : Nat) : Nat := leNat (getBytes (s.mailbox port).data off 4)

/-- A command completes: its code, and its result in `MBX_DATA` (R65). The command is over. -/
def State.mbxDone (s : State) (port : Bool) (c : MbxCode) (result : List Byte) : State :=
  let m := s.mailbox port
  s.setMailbox port { m with
    busy := false
    cmd := none
    serving := false
    done := true
    code := c.byte
    reslen := BitVec.ofNat 16 result.length
    data := setBytes m.data 0 result }

/-- Is the management processor alive: on its own rail, which a trip leaves up (R19, R27)? -/
def Power.auxiliary (p : Power) : Bool := p.on || p.tripped

/-- THE MAILBOX (R65). A write of `MBX_CMD` sets `BUSY`, and while `BUSY` is 1 it sets `OVERRUN` in its place. When the
processor serves the mailbox the command `i` runs: a locked module runs only what `locked` allows (R58), and an argument
above 4,096 bytes is out of range. -/
def State.mbxCommand (s : State) (port : Bool) (i : Instr) (arglen : BitVec 24) (locked : Bool) (f : State → State) : State :=
  let m := s.mailbox port
  if !s.power.auxiliary then s
  else if !m.serving then s.setMailbox port (if m.busy then { m with overrun := true } else { m with busy := true, cmd := some i })
  else if s.startup.locked && !locked then s.mbxDone port .locked []
  else if 4096 < arglen.toNat then s.mbxDone port .range []
  else f s

/-- The port whose mailbox the management processor serves next: where both wait, the other than last time (R65). -/
def State.mailboxTurn? (s : State) : Option Bool :=
  if !s.power.auxiliary then none
  else match (s.mailbox false).busy, (s.mailbox true).busy with
    | true, true => some !s.lastServed
    | true, false => some false
    | false, true => some true
    | false, false => none

/-- The management processor takes up the command of a mailbox (R65). -/
def State.serveMailbox (s : State) (port : Bool) : State :=
  { s.setMailbox port { s.mailbox port with serving := true } with lastServed := port }

/-- The limit in force of R22: while coolant flow is low, not above 3.0 kW (R30). -/
def Power.limit (p : Power) : Nat := if p.flowLow then Nat.min p.hostLimit 3000 else p.hostLimit

/-- `READ_SENSORS` (R22, R30, R66). The result's layout is open, and so is the length of its part with the samples: the model
keeps at most 2,048 bytes of that part, so that the counts and the limits that follow it stay (log 4). -/
def execReadSensors (port : Bool) (arglen : BitVec 24) (s : State) : Out :=
  .next (s.mbxCommand port (.readSensors port arglen) arglen false fun s =>
    s.mbxDone port .ok ((Config.sensorBytes s.power.latest s.stepNo).take 2048 ++
      (s.corrected.map fun c => leBytes 4 c.1 ++ leBytes 4 c.2).flatten ++
      leBytes 4 s.power.hostLimit ++ leBytes 4 s.power.limit))

/-- `SET_POWER_LIMIT` (R22). -/
def execSetPowerLimit (port : Bool) (arglen : BitVec 24) (s : State) : Out :=
  .next (s.mbxCommand port (.setPowerLimit port arglen) arglen false fun s =>
    let w := s.mbxArg port 0
    if w < 2000 ∨ 4200 < w ∨ w % 50 ≠ 0 then s.mbxDone port .range []
    else (s.onPower fun p => { p with hostLimit := w }).mbxDone port .ok [])

/-- The attestation report up to its signature (Table 3.3). -/
def State.report (s : State) (nonce : List Byte) : List Byte :=
  let u := s.startup
  let certs := Config.certificates.take 3328
  let pair := fun (k : Nat) =>
    match k with
    | 1 => leBytes 4 1 ++ leBytes 4 (u.counter.toNat % 2 ^ 32)
    | 7 => leBytes 8 0
    | k => let v := Config.imageVersion (u.flash u.runs) k; leBytes 4 v.1.toNat ++ leBytes 4 v.2.toNat
  leBytes 4 0x41545352 ++ leBytes 4 1 ++ leBytes 4 (0x180 + certs.length + 384) ++
  leBytes 4 ((if u.warm then 1 else 0) + if u.lockedSince then 2 else 0) ++
  ((List.range 8).map fun k => leBytes 32 ((u.log[k]?).getD 0).toNat).flatten ++
  ((List.range 8).map pair).flatten ++ leBytes 8 u.counter.toNat ++ fitBytes 32 nonce ++ leBytes 4 certs.length ++
  leBytes 4 0 ++ certs

/-- `ATTEST` (R62). -/
def execAttest (port : Bool) (arglen : BitVec 24) (s : State) : Out :=
  .next (s.mbxCommand port (.attest port arglen) arglen false fun s =>
    if !s.startup.ready then s.mbxDone port .notReady []
    else
      let r := s.report (getBytes (s.mailbox port).data 0 32)
      s.mbxDone port .ok (r ++ fitBytes 384 (Config.reportSignature r)))

/-- `READ_ALMANAC` (R64): up to 128 entries from a first sequence number. -/
def execReadAlmanac (port : Bool) (arglen : BitVec 24) (s : State) : Out :=
  .next (s.mbxCommand port (.readAlmanac port arglen) arglen false fun s =>
    let first := BitVec.ofNat 32 (s.mbxArg port 0)
    let count := s.mbxArg port 4
    if 128 < count then s.mbxDone port .range []
    else
      let hit := s.almanac.filter fun e => (e.seq - first).toNat < count
      s.mbxDone port .ok (hit.map AlmanacEntry.bytes).flatten)

/-- `WRITE_UPDATE_CHUNK`: bytes of the inactive slot, the one that this start does not run from (R61); they unmark it. -/
def execWriteUpdateChunk (port : Bool) (arglen : BitVec 24) (s : State) : Out :=
  .next (s.mbxCommand port (.writeUpdateChunk port arglen) arglen true fun s =>
    let n := arglen.toNat
    if n < 4 ∨ 4036 < n then s.mbxDone port .range []
    else
      let off := s.mbxArg port 0
      let bs := getBytes (s.mailbox port).data 4 (n - 4)
      let s := s.onStartup fun u =>
        let u := { u with pendingSlot := if u.pendingSlot = some (!u.runs) then none else u.pendingSlot }
        if u.runs then { u with slotA := setBytes u.slotA off bs } else { u with slotB := setBytes u.slotB off bs }
      s.mbxDone port .ok [])

/-- `COMMIT_UPDATE`: the inactive slot is checked and marked pending (R60, R61). -/
def execCommitUpdate (port : Bool) (arglen : BitVec 24) (s : State) : Out :=
  .next (s.mbxCommand port (.commitUpdate port arglen) arglen true fun s =>
    let other := !s.startup.runs
    match s.startup.slotCheck other with
    | 0 => (s.onStartup fun u => { u with pendingSlot := some other }).mbxDone port .ok []
    | 3 => s.mbxDone port .signature []
    | _ => s.mbxDone port .rollback [])

/-- `SET_CALENDS` (R68): interval in ms and undo fraction in ‰; a new fraction takes effect at the next cold start. -/
def execSetCalends (port : Bool) (arglen : BitVec 24) (s : State) : Out :=
  .next (s.mbxCommand port (.setCalends port arglen) arglen false fun s =>
    let i := s.mbxArg port 0
    let f := s.mbxArg port 4
    if i < 10 ∨ 10000 < i ∨ f < 10 ∨ 100 < f then s.mbxDone port .range []
    else ({ s with calends := { s.calends with interval := i, nextFraction := f } } : State).mbxDone port .ok [])

/-- `WARM_START`: the module restarts (R56). -/
def execWarmStart (port : Bool) (arglen : BitVec 24) (s : State) : Out :=
  .next (s.mbxCommand port (.warmStart port arglen) arglen false fun s => if s.power.tripped then s.mbxDone port .notReady [] else s.beginStart true)

/-- `COLD_START`: the module restarts (R55, R58). -/
def execColdStart (port : Bool) (arglen : BitVec 24) (s : State) : Out :=
  .next (s.mbxCommand port (.coldStart port arglen) arglen true fun s => s.coldStart)

/-- An opcode that Table 3.6 does not list (R65); *locked* comes first on a locked module (R58). -/
def execUnknownMailboxCommand (port : Bool) (opcode : BitVec 8) (arglen : BitVec 24) (s : State) : Out :=
  .next (s.mbxCommand port (.unknownMailboxCommand port opcode arglen) arglen false fun s => s.mbxDone port .unknown [])

/-- A module trips (R27): the cause goes to the almanac and every rail but auxiliary drops. How the entry codes the cause is
the model's choice (log 41): `DETAIL` 1 for a die, 2 for a stack, 4 for coolant flow; `SOURCE` the die or stack, 0 for
flow. -/
def State.trip (s : State) (source detail : Nat) : State :=
  ((s.almanacAdd 0x0005 source detail).loseRails).onPower fun p => { p with on := false, tripped := true }

/-- Coolant flow in one interval (R27, R30): warnings once a second, the lowered limit, and how long flow has been too low.
A warning's entry holds the flow in mL/min in `DETAIL` and 0 in `SOURCE`: the model's choice (log 41). -/
def State.coolant (s : State) (flow : Nat) : State :=
  let p := s.power
  let low : Bool := 4000 ≤ flow && flow < 6000
  let due : Bool := low && (p.warned = 0 || decide (10000 ≤ p.warned))
  let s := if due then s.almanacAdd 0x000d 0 flow else s
  let ok := if flow < 6000 then 0 else p.flowOk + 1
  s.onPower fun p => { p with
    flowLow := (p.flowLow || low) && decide (ok < 10000)
    flowOk := ok
    flowBelow := if flow < 4000 then p.flowBelow + 1 else 0
    warned := if low then (if due then 1 else p.warned + 1) else 0 }

/-- What the causes of Table 1.4 ask of one unit: a step down under a cause, no change, or leave to step up. -/
inductive Ask where
  | down (cause : Nat)
  | hold
  | up
  deriving DecidableEq, Repr

/-- Joins what two causes ask: down wins, with the first cause, then hold (R24). -/
def Ask.join : Ask → Ask → Ask
  | .down c, _ => .down c
  | _, .down c => .down c
  | .hold, _ => .hold
  | _, .hold => .hold
  | .up, .up => .up

/-- A temperature cause with its two thresholds in 0.1 °C: down at the first, up below the second. -/
def askTemp (cause : Nat) (t high low : Int) : Ask := if high ≤ t then .down cause else if low ≤ t then .hold else .up

/-- What the causes ask of a die (Table 1.4). -/
def askDie (limit : Nat) (x : Sensors) (d : Nat) : Ask :=
  let power : Ask := if limit < x.power then .down 0 else if limit ≤ x.power + 100 then .hold else .up
  let inlet : Ask := if 450 < x.inlet then .down 3 else if 400 < x.inlet then .hold else .up
  (power.join (askTemp 1 ((x.dieTemp[d]?).getD 0) 950 920)).join inlet

/-- What the causes ask of a stack (Table 1.4). -/
def askStack (x : Sensors) (k : Nat) : Ask := askTemp 2 ((x.stackTemp[k]?).getD 0) 950 900

/-- The clock of a unit in MHz. -/
def Power.clock (p : Power) (u : Nat) : Nat := if u < 4 then (p.dieClock[u]?).getD 1750 else (p.pierClock[u - 4]?).getD 1200

/-- Sets the clock of a unit. -/
def Power.setClock (p : Power) (u v : Nat) : Power :=
  if u < 4 then { p with dieClock := p.dieClock.set u v } else { p with pierClock := p.pierClock.set (u - 4) v }

/-- Lowest and highest clock of a unit (R23). -/
def clockRange (u : Nat) : Nat × Nat := if u < 4 then (800, 1750) else (600, 1200)

/-- The number of a unit as the almanac names it: the die's, or the stack's (Table 3.4). -/
def unitNumber (u : Nat) : Nat := if u < 4 then u else u - 4

/-- The almanac entry of a throttle event, or of a forced action as one of its own (R28): `kind` is 0 but for the gating of
a stack's bandwidth, which tells it from its doubled refresh. The places of the fields in `DETAIL` are the model's choice
(log 40). -/
def State.writeThrottle (s : State) (event kind : Nat) (e : ThrottleEvent) : State :=
  s.almanacAdd event (unitNumber e.unit)
    (e.before + e.after * 2 ^ 16 + e.steps * 2 ^ 32 + e.cause * 2 ^ 48 + kind * 2 ^ 56 + e.first % 2 ^ 64 * 2 ^ 64)

/-- Ends the throttle event of a unit that a condition picks: it is written and forgotten (R28). -/
def State.endThrottle (s : State) (u : Nat) (p : ThrottleEvent → Bool) : State :=
  match s.power.events.find? fun e => e.unit = u && p e with
  | none => s
  | some e => (s.writeThrottle 0x0003 0 e).onPower fun q => { q with events := q.events.filter fun x => x.unit ≠ u }

/-- A clock step of a unit joins its run, or begins a new one (R28). The time of its first step is the count of reference ticks
since reset, although the `TIME` of the entry counts from the last cold start: R28 names no epoch, and this is the model's
choice (log 40). -/
def State.throttleStep (s : State) (u cause : Nat) (up : Bool) (before after : Nat) : State :=
  let s := s.endThrottle u fun e => e.cause ≠ cause || e.up != up
  s.onPower fun p =>
    if p.events.any fun e => e.unit = u then
      { p with events := update (fun e => e.unit = u) (fun e => { e with after := after, steps := e.steps + 1 }) p.events }
    else { p with events := p.events ++ [⟨u, cause, up, before, after, s.ticks, 1⟩] }

/-- One control interval of a unit (R24, R28): at most one step down; a step up after ten intervals without a call for less. -/
def State.stepUnit (s : State) (u : Nat) (ask : Ask) : State :=
  let p := s.power
  let c := p.clock u
  let r := clockRange u
  let calm := (p.calm[u]?).getD 0 + 1
  match ask with
  | .down cause =>
    let s := s.onPower fun p => { p with calm := p.calm.set u 0, lowered := p.lowered.set u cause }
    if c ≤ r.1 then s.endThrottle u fun _ => true
    else (s.throttleStep u cause false c (c - 25)).onPower fun p => p.setClock u (c - 25)
  | .hold => (s.endThrottle u fun _ => true).onPower fun p => { p with calm := p.calm.set u calm }
  | .up =>
    if c < r.2 ∧ 10 ≤ calm then
      ((s.throttleStep u ((p.lowered[u]?).getD 0) true c (c + 25)).onPower fun p => p.setClock u (c + 25)).onPower fun p =>
        { p with calm := p.calm.set u 0 }
    else (s.endThrottle u fun _ => true).onPower fun p => { p with calm := p.calm.set u calm }

/-- A forced action of a die: at 105 °C its clock goes to 0.80 GHz at once, as one event of as many steps (Table 1.4, R28). -/
def State.forceDie (s : State) (d : Nat) : State :=
  let c := s.power.clock d
  let s := s.endThrottle d fun _ => true
  ((s.writeThrottle 0x0004 0 ⟨d, 1, false, c, 800, s.ticks, (c - 800) / 25⟩).onPower fun p => p.setClock d 800).onPower fun p =>
    { p with calm := p.calm.set d 0, lowered := p.lowered.set d 1 }

/-- Forced actions of a stack: refresh doubles at 85 °C, bandwidth is gated at 100 °C (Table 1.4); no clock steps. -/
def State.forceStack (s : State) (x : Sensors) (k : Nat) : State :=
  let t := (x.stackTemp[k]?).getD 0
  let hot : Bool := 850 ≤ t
  let gate : Bool := 1000 ≤ t
  let c := s.power.clock (4 + k)
  let e : ThrottleEvent := ⟨4 + k, 2, false, c, c, s.ticks, 0⟩
  let s := if hot && !(s.power.refresh[k]?).getD false then s.writeThrottle 0x0004 0 e else s
  let s := if gate && !(s.power.gated[k]?).getD false then s.writeThrottle 0x0004 1 e else s
  s.onPower fun p => { p with refresh := p.refresh.set k hot, gated := p.gated.set k gate }

/-- Does the interval trip the module, and for what (R27)? -/
def State.tripCause (s : State) (x : Sensors) : Option (Nat × Nat) :=
  match (List.range 4).find? fun d => 1150 ≤ (x.dieTemp[d]?).getD 0 with
  | some d => some (d, 1)
  | none =>
    match (List.range 16).find? fun k => 1100 ≤ (x.stackTemp[k]?).getD 0 with
    | some k => some (k, 2)
    | none => if 10000 ≤ s.power.flowBelow then some (0, 4) else none

/-- Has a control interval passed since the last one (R24)? The management processor samples on the auxiliary rail (R19). -/
def State.controlDue (s : State) : Bool := s.power.auxiliary && decide (s.power.controlAt + 10000 ≤ s.ticks)

/-- `CONTROL_INTERVAL`: 100 µs of reference time have passed: the sensors are sampled, and the limiter runs (R24 to R30).
After a trip there is no clock to move, and the samples and the flow warnings go on. A throttle event that is open when the
module trips stays open, until its 10 ms are over or a step after the next start ends it: R28 does not say what a trip does to
it, and this is the model's choice (log 41). -/
def execControlInterval (sensors : Sensors) (s : State) : Out :=
  .next (if !s.controlDue then s
    else
      let s := (s.onPower fun p => { p with latest := sensors, controlAt := s.ticks }).coolant sensors.flow
      if s.power.tripped then s
      else match s.tripCause sensors with
      | some c => s.trip c.1 c.2
      | none =>
        let limit := s.power.limit
        let s := foldState s (List.range 4) fun s d =>
          if 1050 ≤ (sensors.dieTemp[d]?).getD 0 ∧ s.power.clock d ≠ 800 then s.forceDie d
          else s.stepUnit d (askDie limit sensors d)
        foldState s (List.range 16) fun s k => (s.stepUnit (4 + k) (askStack sensors k)).forceStack sensors k)

/-- `THROTTLE_EVENT_TIMEOUT`: a throttle event that has not ended within 10 ms is written, by a management processor that
has power (R28). -/
def execThrottleEventTimeout (unit : Nat) (s : State) : Out :=
  .next (if s.power.auxiliary then s.endThrottle unit fun e => decide (e.first + 1000000 ≤ s.ticks) else s)

end Sys2Proof.Machine
end

