-- ==== Sys2Proof/Machine/Links.lean ====
section
/-!
DEFINITION. Host ports, registers of the physical and virtual functions, translation and page requests, UALink and the pod
(spec/02_links.md R31 to R54; spec/04_host_interface.md R72 to R79, R103; spec/07_traps_and_context.md R195;
spec/10_near_memory.md R279 to R285).
-/
namespace Sys2Proof

/-- Is the request one of the kinds and sizes of Table 2.3? A write that does not write every byte lies within one aligned
64-byte unit. -/
def UaRequest.supported (r : UaRequest) : Bool :=
  let whole : Bool := (r.length = 64 || r.length = 128 || r.length = 256) && r.offset % r.length = 0
  match r.kind with
  | .unsupported => false
  | .read => whole
  | .write bs =>
    bs.length = r.length && ((whole && (r.length = 64 || bs.all fun b => b.isSome)) || (decide (1 ≤ r.length) && decide (r.offset % 64 + r.length ≤ 64)))
  | .atomic op wide _ cmp =>
    let n := if wide then 8 else 4
    r.length = n && r.offset % n = 0 &&
    match op with
    | .add | .exch | .minS | .minZ | .maxS | .maxZ => true
    | .addF32 => !wide && cmp.isNone
    | _ => false

end Sys2Proof

namespace Sys2Proof.Machine

/-- Do the module's registers other than the mailbox answer: it has power, and is not start-locked (R19, R58)? -/
def State.answers (s : State) : Bool := s.power.on && !s.startup.locked

/-- The queue bound to an enqueue aperture slot (R73). -/
def State.queueAt? (s : State) (vf : VF) (slot : Nat) : Option WorkQueue := s.queues.find? fun q => q.aperture = some (vf, slot)

/-- `HOST_ENQUEUE`: a write to an enqueue aperture (R73, R75 to R79): a whole record is offered to its queue. -/
def execHostEnqueue (vf : VF) (slot : Nat) (whole : Bool) (record : W512) (s : State) : Out :=
  .next (if !s.startup.ready then s
    else match s.queueAt? vf slot with
      | none => s.dropCommand vf
      | some q =>
        if !whole then s.putQueue { q with malformed := satAdd16 q.malformed 1 }
        else (s.enqueueWake q record).1.wakeWaiting)

/-- `POD_CONTROL_WRITE`: the pod control register (R51, Table 2.6). Requests that are outstanding while `ENABLE` is cleared
keep their timeouts (log 60). -/
def execPodControlWrite (value : W32) (s : State) : Out :=
  let t := bits value.toNat 19 0
  .next (if !s.answers then s
    else { s with
      pod := { s.pod with
        timeout := if t < 100 then 100 else Nat.min t 1000000
        self := BitVec.ofNat 10 (bits value.toNat 29 20)
        enable := value.getLsbD 30 } })

/-- Clears the bits of a 16-bit field that are written 1 (Table 0.1). -/
def clear16 (old new : Nat) : Nat := Nat.xor old (Nat.land old (new % 2 ^ 16))

/-- Clears the bits of a 32-bit field that are written 1 (Table 0.1). -/
def clear32 (old new : Nat) : Nat := Nat.xor old (Nat.land old (new % 2 ^ 32))

/-- A 1 is written to `FENCED` of a module's entry (R50, R53): the epoch rises, or the refusal is recorded. -/
def State.clearFenced (s : State) (m : Nat) : State :=
  let e := s.podEntry m
  if !e.fenced then s
  else if e.epoch = 0xffff then s.almanacAdd 0x0007 m (0xffff + 2 ^ 64)
  else (s.setPodEntry m { e with fenced := false, epoch := e.epoch + 1 }).almanacAdd 0x0007 m (e.epoch + 1)

/-- A write of a module's entry in the pod table (R50, R52, Table 2.7). -/
def State.writePodEntry (s : State) (m : Nat) (value : W64) : State :=
  let e := s.podEntry m
  let s := s.setPodEntry m { e with
    valid := value.getLsbD 0
    dropped := clear16 e.dropped (bits value.toNat 23 8)
    timeouts := clear16 e.timeouts (bits value.toNat 39 24) }
  if value.getLsbD 1 then s.clearFenced m else s

/-- `FENCED_CLEAR`: the entry is written with its own `VALID`, with 1 in `FENCED` and with zeros elsewhere (R50, R53). -/
def execFencedClear (module_ : Nat) (s : State) : Out :=
  .next (if 1024 ≤ module_ || !s.answers then s else s.clearFenced module_)

/-- A write of bytes of a mailbox other than a command (R65, Table 3.5). -/
def State.writeMailbox (s : State) (port : Bool) (offset size : Nat) (value : W64) : State :=
  let m := s.mailbox port
  let ones := fun (i : Nat) => decide (offset ≤ 4) && decide (4 < offset + size) && value.getLsbD (8 * (4 - offset) + i)
  let data := (List.range size).filter fun i => decide (0x1000 ≤ offset + i) && decide (offset + i < 0x2000)
  s.setMailbox port { m with
    done := m.done && !ones 1
    overrun := m.overrun && !ones 2
    data := foldState m.data data fun d i => sset 0 d (offset + i - 0x1000) (BitVec.ofNat 8 (bits value.toNat (8 * i + 7) (8 * i))) }

/-- The 64-bit value of eight bytes at a context's address, as the home has them, or zero where none can be read (R79). -/
def State.readOuter (s : State) (ctx : Nat) (a : W64) : W64 :=
  match s.outerPlaces ctx .read a.toNat 8 with
  | some ps => BitVec.ofNat 64 (leNat (((s.loadBytes (outerIssuer ctx ps) .home false a.toNat ps).2).getD []))
  | none => 0

/-- `REGISTER_WRITE`: a write to any other register (R7, R52, R65, R72, R73, R279), or to device memory through a BAR (R79,
R237; log 59), or a store of the host's own program to its memory, such as a service reply (R180, R463). -/
def execRegisterWrite (target : RegTarget) (value : W64) (s : State) : Out :=
  .next (match target with
    | .mailbox port offset size => if s.power.auxiliary then s.writeMailbox port offset size value else s
    | .vfBar0 vf offset =>
      if !s.answers then s
      else if offset = 0x40 then
        let q := s.privQueue vf
        s.setPriv vf { q with dropped := clear16 q.dropped (bits value.toNat 23 8) }
      else s.dropCommand vf
    | .vfBar2 vf offset =>
      if !s.answers then s
      else match s.queueAt? vf (offset / 4096) with
      | some q => s.putQueue { q with malformed := satAdd16 q.malformed 1 }
      | none => s.dropCommand vf
    | .podEntry m => if 1024 ≤ m || !s.answers then s else s.writePodEntry m value
    | .nbMode stack word =>
      let n := s.nearBank stack
      if word = 2 && s.answers then
        s.setNearBank stack { n with
          stalls := clear32 n.stalls (bits value.toNat 31 0)
          switches := clear32 n.switches (bits value.toNat 63 32) }
      else s
    | .memory ctx a =>
      match (if s.startup.ready then s.outerPlaces ctx .write a.toNat 8 else none) with
      | some ps => (s.writeOuter ctx (ps.zip (leBytes 8 value.toNat))).wakeWaiting
      | none => s
    | .hostMemory port a => (s.writeHost port a (leBytes 8 value.toNat)).wakeWaiting
    | .other .. => s)

/-- The pod control register (Table 2.6). -/
def Pod.control (p : Pod) : Nat := p.timeout + p.self.toNat * 2 ^ 20 + (if p.enable then 2 ^ 30 else 0)

/-- A pod-table entry (Table 2.7). -/
def PodEntry.word (e : PodEntry) : Nat :=
  (if e.valid then 1 else 0) + (if e.fenced then 2 else 0) + e.dropped * 2 ^ 8 + e.timeouts * 2 ^ 24 + e.epoch * 2 ^ 40

/-- The queue status of an enqueue aperture slot (Table 4.3). -/
def WorkQueue.status (q : WorkQueue) : Nat :=
  (q.tail - q.head).toNat + q.overflow * 2 ^ 32 + (if q.enable then 2 ^ 48 else 0)

/-- The privileged status register (Table 4.2): the commands accepted and not yet completed, and `DROPPED`. -/
def PrivQueue.status (q : PrivQueue) : Nat := q.pending.length + (if q.busy.isSome then 1 else 0) + q.dropped * 2 ^ 8

/-- `MBX_STATUS` (Table 3.5). -/
def Mailbox.status (m : Mailbox) : Nat :=
  (if m.busy then 1 else 0) + (if m.done then 2 else 0) + (if m.overrun then 4 else 0) + m.code.toNat * 2 ^ 8 +
    m.reslen.toNat * 2 ^ 16

/-- `MBX_START` (Table 3.5). -/
def Startup.word (u : Startup) : Nat :=
  u.step + u.fails * 2 ^ 8 + (if u.locked then 2 ^ 10 else 0) + (if u.runs then 2 ^ 11 else 0)

/-- Byte of a mailbox: `MBX_CMD` is write-only and reads as zero (R65, Tables 0.1 and 3.5). -/
def State.mailboxByte (s : State) (port : Bool) (offset : Nat) : Byte :=
  let m := s.mailbox port
  if 4 ≤ offset ∧ offset < 8 then BitVec.ofNat 8 (m.status / 2 ^ (8 * (offset - 4)))
  else if 8 ≤ offset ∧ offset < 12 then BitVec.ofNat 8 (s.startup.word / 2 ^ (8 * (offset - 8)))
  else if 0x1000 ≤ offset ∧ offset < 0x2000 then sget 0 m.data (offset - 0x1000)
  else 0

/-- A stack's near-bank mode register, by 64-bit word (Table 10.6). -/
def NearBank.word (n : NearBank) (k : Nat) : W64 :=
  match k with
  | 0 => n.cmode
  | 1 => n.pending
  | 2 => BitVec.ofNat 64 (n.stalls + n.switches * 2 ^ 32)
  | _ => 0

/-- A HOST'S READ (R7, R51, R52, R65, R72, R73, R79, R237, R279): eight bytes of a register or of device memory, or of a
mailbox as many as the target names. A write-only or reserved field, and an offset that no table lists, reads as zero. -/
def State.hostRead (s : State) (target : RegTarget) : W64 :=
  match target with
  | .mailbox port offset size =>
    if s.power.auxiliary then BitVec.ofNat 64 (leNat ((List.range size).map fun i => s.mailboxByte port (offset + i))) else 0
  | .vfBar0 vf offset => if s.answers && offset == 0x40 then BitVec.ofNat 64 (s.privQueue vf).status else 0
  | .vfBar2 vf offset =>
    if s.answers && offset % 4096 == 0x40 then
      match s.queueAt? vf (offset / 4096) with
      | some q => BitVec.ofNat 64 q.status
      | none => 0
    else 0
  | .podEntry m => if m < 1024 && s.answers then BitVec.ofNat 64 (s.podEntry m).word else 0
  | .nbMode stack word => if s.answers then (s.nearBank stack).word word else 0
  | .memory ctx a => if s.startup.ready then s.readOuter ctx a else 0
  | .hostMemory port a => BitVec.ofNat 64 (leNat ((List.range 8).map fun i => sget 0 s.host (hostAddr port (a + i))))
  | .other _ offset => if s.answers && offset == 0xf000 then BitVec.ofNat 64 s.pod.control else 0

/-- `ATS_INVALIDATION`: the host takes back translations of a PASID (R35). -/
def execAtsInvalidation (port : Bool) (pasid : Nat) (address length : W64) (s : State) : Out :=
  .next (foldState s (s.contexts.filter fun c => c.pasid = pasid && (c.vf.port = port || c.secondPort)) fun s c =>
    s.invalidate c.num address.toNat length.toNat).wakeWaiting

/-- `ATS_TRANSLATION_COMPLETION`: the host answers a translation request of a die (R34): the die's second-level TLB caches the
answer. A refusal raises a page request, but for a pinned page, whose refusal is remembered until an access has met it (R102, R103; log 53). -/
def execAtsTranslationCompletion (context page : Nat) (asker : AtsAsker) (entry : Option AtsEntry) (s : State) : Out :=
  let this := fun (r : PageRequest) => r.ctx = context && r.page = page
  let pin : Bool := match s.leafOf context page with | some (e, _) => entryBit e 10 | none => false
  let old := fun (t : AtsLine) => t.die = asker.die && t.ctx = context && t.page = page && t.port = asker.port
  let keep := fun (s : State) => ({ s with
    ats := (s.ats.filter fun t => !old t) ++ [⟨asker.die, context, page, asker.port, entry⟩] } : State)
  .next (if (s.context? context).isNone || 4 ≤ asker.die then s
    else if entry.isSome then
      ({ keep s with pageRequests := s.pageRequests.filter fun r => !(this r && (r.answered || r.parked = [])) } : State).wakeWaiting
    else if pin then (keep s).wakeWaiting
    else (s.requestPage context page).wakeWaiting)

/-- Is a 4 KiB page of a context present now, as far as the device can tell (R103)? -/
def State.pagePresent (s : State) (ctx page : Nat) : Bool :=
  match s.leafOf ctx page with
  | none => false
  | some (e, _) => !entryBit e 8 || s.ats.any fun t => t.ctx = ctx && t.page = page && t.entry.isSome

/-- A warp parked on a page runs again, and its block is executed again (R103, R195). -/
def State.unpark (s : State) (id : WarpId) : State :=
  s.onWarp id fun w => match w.status with
    | .parkedPage .. => { w with status := .running }
    | _ => w

/-- A warp parked on a page takes its fault (R103). -/
def State.faultParked (s : State) (id : WarpId) : State :=
  match s.warp? id with
  | none => s
  | some w =>
    match w.status with
    | .parkedPage _ strand i =>
      let s := s.unpark id
      match w.strand? strand with
      | some st => s.takeFault (fetchedFrame { w with status := .running } st) { i with cause := .pageFault, park := none }
      | none => s
    | _ => s

/-- `PAGE_RESPONSE`: the host answers a page request: the parked warps resume in the order in which they parked, or take
*page fault* (R103, R195). -/
def execPageResponse (context page : Nat) (code : PageCode) (s : State) : Out :=
  let this := fun (r : PageRequest) => r.ctx = context && r.page = page
  .next (match s.pageRequests.find? fun r => this r && !r.answered with
    | none => s
    | some r =>
      let n := r.successes + 1
      let present := s.pagePresent context page
      let host : Bool := match s.leafOf context page with | some (e, _) => entryBit e 8 | none => false
      let gone := { s with pageRequests := s.pageRequests.filter fun x => !this x }
      let kept := { s with pageRequests := update this (fun x => { x with successes := n, answered := true, parked := [] }) s.pageRequests }
      let run := fun (s : State) => foldState s r.parked fun s id => s.unpark id
      let fault := fun (s : State) => foldState s r.parked fun s id => s.faultParked id
      (match code with
      | .success =>
        if present then run gone
        else if n < 3 ∨ (host ∧ n = 3) then run kept
        else fault gone
      | _ => fault gone).wakeWaiting)

/-- A host write that is pending, of a warp. -/
def State.pendingHost (s : State) (id : WarpId) : Option PendingWrite :=
  s.writes.find? fun p => p.warp = id && p.places.any fun x => match x with | .host .. => true | _ => false

/-- The port of the host bytes among some places. -/
def hostPort (ps : List Place) : Bool := ps.any fun x => match x with | .host port _ => port | _ => false

/-- The host address of the first host byte among some places. -/
def hostAddress (ps : List Place) : Nat := ((ps.filterMap fun p => match p with | .host _ a => some a | _ => none).head?).getD 0

/-- A host timeout is written to the almanac (R36, R64, Table 3.4): the port, the address and the context. The address is that
of the load, the host address of a lost write, and 0 for a copy; its place in `DETAIL` and that of the context are the
model's choice (log 40). -/
def State.noteHostTimeout (s : State) (port : Bool) (address ctx : Nat) : State :=
  s.almanacAdd 0x0008 (if port then 1 else 0) (address + ctx * 2 ^ 64 + 2 ^ 80)

/-- `HOST_TIMEOUT`: a request to a host has timed out (R36): a load or an atomic faults its block, a write is lost for every lane
whose bytes it has, a copy stops, and the almanac shows it. -/
def execHostTimeout (what : TimedOut) (s : State) : Out :=
  .next (match what with
    | .load port warp strand slot lanes address =>
      match s.frames.find? fun f => f.warp = warp && f.strand = strand && f.performed.any fun p => p.2.2 = slot with
      | none => s
      | some f =>
        ((s.noteHostTimeout port address.toNat ((s.frameWarp f).ctx)).takeFault f ⟨.hostTimeout, slot, lanes, address, 0xff, 0, false, none⟩).wakeWaiting
    | .write warp lane =>
      match s.pendingHost warp with
      | none => s
      | some p =>
        let s := { s with writes := s.writes.filter fun q => q.seq ≠ p.seq }
        (s.onWarp warp fun w => { w with lostHost := w.lostHost ||| p.lanes ||| maskOf [lane] }).noteHostTimeout (hostPort p.places) (hostAddress p.places) p.ctx
    | .copy port core =>
      match s.nextCopy core with
      | none => s
      | some c => ((s.noteHostTimeout port 0 c.who.ctx).stopCopy c .hostTimeout 0).wakeWaiting)

/-- Completes with poison every outstanding request that `p` picks (R47, R49). -/
def State.poisonOut (s : State) (p : UaRequestOut → Bool) : State :=
  let hit := s.pod.out.filter fun r => !r.dead && p r
  let s := { s with pod := { s.pod with out := update (fun r => !r.dead && p r) (fun r => { r with dead := true }) s.pod.out } }
  foldState s hit fun s r => s.completePacket r.who r.lane r.module_ r.packet r.errors .poison

/-- A peer is fenced (R47, R48, R53): its bit is set, every outstanding request to it completes with poison, and the almanac
records it. -/
def State.fencePeer (s : State) (m : Nat) : State :=
  let e := s.podEntry m
  let s := (s.setPodEntry m { e with fenced := true }).poisonOut fun r => r.module_ = m
  if e.fenced then s else s.almanacAdd 0x0006 m e.epoch

/-- The timeout of a request to a peer expires: it is counted, and the peer is fenced (R47, R52). -/
def State.peerTimesOut (s : State) (m : Nat) : State :=
  let e := s.podEntry m
  (s.setPodEntry m { e with timeouts := satAdd16 e.timeouts 1 }).fencePeer m

/-- `COMPLETION_TIMEOUT`: an outbound request's timeout has expired (R47). -/
def execCompletionTimeout (tag : Nat) (s : State) : Out :=
  .next (match s.pod.out.find? fun r => r.tag = tag && !r.dead with
    | none => s
    | some r =>
      if s.ticks < r.issued + r.timeout then s
      else (s.peerTimesOut r.module_).wakeWaiting)

/-- `OUTBOUND_COMPLETION_TIMEOUT`: a peer has not accepted a completion within the timeout (R48). -/
def execOutboundCompletionTimeout (module_ : Nat) (s : State) : Out :=
  .next (if 1024 ≤ module_ then s else (s.fencePeer module_).wakeWaiting)

/-- `PORT_FAILURE`: a UALink port goes out of service (R54). -/
def execPortFailure (port : Nat) (s : State) : Out :=
  .next (if 16 ≤ port || s.pod.portsDown.contains port then s
    else
      let s := { s with pod := { s.pod with portsDown := s.pod.portsDown ++ [port] } }
      ((s.poisonOut fun r => r.port = port).almanacAdd 0x0009 port 0).wakeWaiting)

/-- A completion for an outbound request reaches the module: accepted where its epoch is the entry's and the peer is not
fenced, and otherwise dropped and counted (R48, R50). One that comes after its request was completed with poison counts as
any other that is dropped, and so does one that comes while `ENABLE` is 0 (log 60). -/
def State.acceptCompletion (s : State) (tag epoch : Nat) (st : PacketStatus) : State :=
  match s.pod.out.find? fun r => r.tag = tag with
  | none => s
  | some r =>
    let e := s.podEntry r.module_
    let gone := { s with pod := { s.pod with out := s.pod.out.filter fun x => x.tag ≠ tag } }
    if r.dead then gone.dropPeer r.module_
    else if e.fenced ∨ epoch ≠ e.epoch ∨ !s.pod.enable then s.dropPeer r.module_
    else (gone.completePacket r.who r.lane r.module_ r.packet r.errors st).wakeWaiting

/-- `UALINK_INBOUND_COMPLETION` (R48, R50). -/
def execUalinkInboundCompletion (tag epoch : Nat) (s : State) : Out := .next (s.acceptCompletion tag epoch .ok)

/-- `PACKET_COMPLETION`: a reduction packet's completion, with its status (R49, R285, R288). -/
def execPacketCompletion (tag epoch : Nat) (status : PacketStatus) (s : State) : Out :=
  .next (s.acceptCompletion tag epoch status)

/-- Is inbound traffic of a peer dropped, and counted (R48, R51)? -/
def State.inboundDropped (s : State) (m : Nat) : Bool := !s.pod.enable || (s.podEntry m).fenced

/-- The places of an inbound request, or none where its page or aperture forbids it (R45). An atomic asks for the write
permission alone, although it also returns the old value (log 60). On a host page only the operations of a PCIe AtomicOp are
there (R32, R395). An atomic add to an exact element has its shadow with it
(R252). -/
def State.inboundPlaces (s : State) (a : PodAperture) (r : UaRequest) : Option (List Place) :=
  let w : Bool := match r.kind with | .read => false | _ => true
  if a.len < r.offset + r.length ∨ (w ∧ !a.writable) ∨ (!w ∧ !a.readable) then none
  else
    let x := a.va + r.offset
    let onHost := fun (ps : List Place) => ps.any fun p => match p with | .host .. => true | _ => false
    match r.kind, s.outerPlaces a.ctx (if w then .write else .read) x r.length with
    | .atomic op _ _ none, some ps =>
      if onHost ps && op != .add && op != .exch then none
      else if isExact op ps then
        (s.outerPlaces a.ctx .write (shadowAddress op (BitVec.ofNat 64 x)).toNat 64).map fun sh => ps ++ sh
      else some ps
    | _, r => r

/-- Performs an inbound read, write or atomic (R45, R237). -/
def State.performInbound (s : State) (a : PodAperture) (r : UaRequest) (ps : List Place) : State × PacketStatus × List Byte :=
  let who := outerIssuer a.ctx ps
  let poisoned := ps.any s.placePoisoned
  match r.kind with
  | .read =>
    match s.loadBytes who .home false (a.va + r.offset) ps with
    | (s, some bs) => (s, .ok, bs)
    | (s, none) => (s, .poison, [])
  | .write bs => (s.writeOuter a.ctx ((ps.zip bs).filterMap fun c => c.2.map fun b => (c.1, b)), .ok, [])
  | .atomic op wide x cmp =>
    if poisoned then (s, .poison, [])
    else
      let o := s.atomicAt who (match cmp with
        | some c => ⟨.exch, wide, true, c, x⟩
        | none => ⟨op, wide, false, x, 0⟩) ps []
      (o.1, .ok, leBytes (if wide then 8 else 4) o.2.toNat)
  | .unsupported => (s, .unsupported, [])

/-- A packet reaches a reduction aperture; its completion goes out at once, or once its adds have run (R284, R285). -/
def State.inboundPacket (s : State) (source : PodSource) (aperture : Nat) (packet : W512) : State :=
  match s.receivePacket source aperture packet none with
  | (s, some st) => s.reply source st [] false
  | (s, none) => s

/-- The bytes of a write that has every byte enable set. -/
def allBytes (bs : List (Option Byte)) : Option (List Byte) :=
  if bs.all fun b => b.isSome then some (bs.filterMap fun b => b) else none

/-- An inbound request that is not dropped: it is performed, or completes with the status that says why not (R43, R45,
R281). -/
def State.takeInbound (s : State) (r : UaRequest) : State :=
  let refuse := fun (st : PacketStatus) => s.reply r.source st [] true
  match s.podAperture? r.aperture with
  | none => refuse (if r.supported then .unmapped else .unsupported)
  | some a =>
    if a.reduction then
      match r.kind with
      | .write bs =>
        match (if r.offset = 0 ∧ bs.length = 64 ∧ r.length = 64 then allBytes bs else none) with
        | some bs => s.inboundPacket r.source r.aperture (BitVec.ofNat 512 (leNat bs))
        | none => refuse .unsupported
      | _ => refuse .unsupported
    else if !r.supported then refuse .unsupported
    else match s.inboundPlaces a r with
      | none => refuse .unmapped
      | some ps =>
        let o := s.performInbound a r ps
        o.1.reply r.source o.2.1 o.2.2 false

/-- Inbound traffic of a peer: dropped and counted (R48, R51), without effect until the module is Ready (R55), or taken. -/
def State.inbound (s : State) (source : Nat) (take : State → State) : State :=
  if !s.answers then s
  else if s.inboundDropped source then s.dropPeer source
  else if !s.startup.ready then s
  else (take s).wakeWaiting

/-- `UALINK_INBOUND_REQUEST`: a peer's request through a pod aperture (R43, R45, R48, R51, R281). -/
def execUalinkInboundRequest (r : UaRequest) (s : State) : Out := .next (s.inbound r.source.module_ fun s => s.takeInbound r)

/-- `REDUCTION_PACKET`: a packet reaches a reduction aperture (R281, R284, R285). -/
def execReductionPacket (source : PodSource) (aperture : Nat) (packet : W512) (s : State) : Out :=
  .next (s.inbound source.module_ fun s => s.inboundPacket source aperture packet)

end Sys2Proof.Machine
end

