-- ==== Sys2Proof/Machine/NearEngine.lean ====
section
/-!
DEFINITION. The engine of near-memory calls and the near-bank controllers (spec/10_near_memory.md R262 to R269, R277, R278).
-/
namespace Sys2Proof.Machine

/-- A call of a stack by its number. -/
def State.call? (s : State) (stack id : Nat) : Option Call := s.calls.find? fun c => c.stack = stack && c.id = id

/-- Puts a call back. -/
def State.putCall (s : State) (c : Call) : State :=
  { s with calls := update (fun x => x.stack = c.stack && x.id = c.id) (fun _ => c) s.calls }

/-- The window that a call names, as long as it is bound or the call keeps it (R99, R268). -/
def State.windowOfCall (s : State) (c : Call) : Option Window :=
  s.windows.find? fun w => w.ctx = c.ctx && w.stack = c.stack && w.idx = c.windowIdx

/-- Drops every copy of a range of HBM in the L2s of some dies, with the stash copies there written back first (R264,
R267, R212, R214). -/
def State.dropRange (s : State) (dies : List Nat) (phys len : Nat) : State :=
  let inside := fun (a : Nat) => decide (phys ≤ a) && decide (a < phys + len)
  let lines := dedup ((s.stashLines.filter fun l => dies.contains (coreDie l.core) && inside l.line).map fun l => l.line)
  let s := foldState s lines fun s l => s.evictStash l fun x => dies.contains (coreDie x.core)
  foldState s dies fun s d => s.arriveOn d fun u => inside u.phys

/-- `NM_CALL_QUEUED`: the range write-back and invalidate is done, and the call enters the tail of its stack's queue
(R264). -/
def execNmCallQueued (stack : Nat) (s : State) : Out :=
  .next (match s.calls.find? fun c => c.stack = stack && !c.queued with
    | none => s
    | some c =>
      let s := match s.windowOfCall c with
        | some w => s.dropRange (dedup [coreDie c.core, stack / 4]) w.phys w.len
        | none => s
      s.putCall { c with queued := true, moment := s.moments })

/-- `WARPS` of the call control word (Table 10.2). -/
def Call.warps (c : Call) : Nat := (c.msg.extractLsb' 0 8).toNat
/-- `PVREGS`. -/
def Call.pvregs (c : Call) : Nat := (c.msg.extractLsb' 8 8).toNat
/-- `PSCRATCH`. -/
def Call.pscratch (c : Call) : Nat := (c.msg.extractLsb' 16 8).toNat

/-- Is a field of the control word outside Table 10.2? -/
def Call.badControl (c : Call) : Bool :=
  c.warps == 0 || decide (128 < c.warps) || c.pvregs == 0 || decide (128 < c.pvregs) || decide (96 < c.pscratch) ||
  c.msg.extractLsb' 24 8 != 0

/-- Bytes that a call needs on pier core `i` of its stack (R265). -/
def Call.needs (c : Call) (i : Nat) : Nat :=
  let n := (c.warps + 15 - i) / 16
  if n = 0 then 0 else n * (128 * c.pvregs + 640) + 1024 * c.pscratch

/-- Bytes that the calls running on a pier core take of it (R265). -/
def State.pierUse (s : State) (stack i : Nat) : Nat :=
  let here := s.warps.filter fun w => w.id.core = pierCore stack i
  let ids := dedup (here.filterMap fun w => w.pier.map fun p => p.call)
  total (here.map fun w => w.regionSize) +
  total ((ids.filterMap fun k => s.call? stack k).map fun c => 1024 * c.pscratch)

/-- Does a call fit on every pier core that it uses (R265)? -/
def State.callFits (s : State) (c : Call) : Bool :=
  (List.range c.warps).all (fun k => (s.warp? ⟨pierCore c.stack (k % 16), k / 16⟩).isNone) &&
  (List.range 16).all fun i => c.needs i == 0 || decide (s.pierUse c.stack i + c.needs i ≤ 131072)

/-- Warp `k` of a call as it starts (R265, R301); `base` is the storage offset of the call's scratch. -/
def Call.warp (c : Call) (k serial base : Nat) : Warp :=
  let w := Warp.fresh ⟨pierCore c.stack (k % 16), k / 16⟩ serial c.ctx c.pvregs c.entry
  let seed := BitVec.xor (c.msg.extractLsb' 32 32) (BitVec.ofNat 32 k)
  let w := { w with
    pier := some ⟨c.stack, c.id, k⟩
    lvl := (BitVec.ofNat 32 k) :: (BitVec.ofNat 32 c.warps) :: List.replicate 6 0
    lfsr := if seed = 0 then 1 else seed
    scratch := some (base, 1024 * c.pscratch) }
  (List.range 16).foldl (fun (w : Warp) i => w.setS i (c.msg.extractLsb' (32 * i) 32)) w

/-- Is a call refused at the head of the queue (R265)? -/
def State.callRefused (s : State) (c : Call) : Bool :=
  c.badControl || (List.range 16).any (fun i => decide (131072 < c.needs i)) || c.refused || (s.windowOfCall c).isNone

/-- `NM_CALL_START`: the call at the head of its stack's queue starts where its warps fit, with nothing fetched early in the
slots that it takes, or is refused (R265). -/
def execNmCallStart (stack : Nat) (s : State) : Out :=
  .next (match s.calls.find? fun c => c.stack = stack && c.queued && !c.started with
    | none => s
    | some c =>
      if s.callRefused c then s.putCall { c with started := true, refused := true, since := s.ticks }
      else if !s.callFits c then s
      else
        let base := s.nextAlloc * 2 ^ 24
        let ws := (List.range c.warps).map fun k => c.warp k (s.nextWarp + k) base
        let ids := ws.map fun w => w.id
        let s := { s with early := s.early.filter fun e => !ids.contains e.warp }
        let s := { s with warps := s.warps ++ ws, nextAlloc := s.nextAlloc + 1, nextWarp := s.nextWarp + c.warps }
        (foldState s ids State.newReader).putCall { c with started := true, since := s.ticks })

/-- The warps of a call that have not ended. -/
def State.callWarps (s : State) (c : Call) : List Warp :=
  s.warps.filter fun w => match w.pier with
    | some p => p.stack = c.stack && p.call = c.id
    | none => false

/-- `NM_CALL_TIMEOUT`: one second of reference time after its start, a call's remaining warps are ended between blocks
(R266). -/
def execNmCallTimeout (stack call : Nat) (s : State) : Out :=
  .next (match s.call? stack call with
    | none => s
    | some c =>
      let left := s.callWarps c
      if !c.started ∨ left = [] ∨ s.ticks < c.since + 100000000 then s
      else
        let s := foldState s left fun s w => s.clearWarp w.id
        let ids := left.map fun w => w.id
        let s := { s with warps := s.warps.filter fun w => !ids.contains w.id }
        s.putCall { c with timedOut := true })

/-- The return message (Table 10.3). -/
def Call.message (c : Call) : List Byte :=
  let status := if c.refused then 2 else if c.timedOut then 3 else if c.fault.isSome then 1 else 0
  let head := match c.fault with
    | some (k, i) =>
      leBytes 1 status ++ leBytes 1 (if status = 1 then i.cause.code else 0) ++ leBytes 1 k ++ leBytes 1 i.slot ++
      leBytes 1 (if i.cause = .softwareTrap then i.detail.toNat else 0) ++ leBytes 3 0 ++ leBytes 8 i.address.toNat
    | none => leBytes 16 status
  head ++ (c.payload ++ List.replicate 48 0).take 48

/-- Performs the writes that the pier warps of a context on a stack have still to send: the return of a call covers those of
its warps (R267). -/
def State.drainCall (s : State) (c : Call) : State :=
  s.drain fun q => q.ctx = c.ctx && (List.range 16).any fun k => pierCore c.stack k = q.core

/-- `NM_CALL_RETURN`: every warp of a call has ended: their writes are performed, the range is dropped, the return message is written, the phaser is
reduced, and the calling core's first-level lines go (R267). -/
def execNmCallReturn (stack call : Nat) (s : State) : Out :=
  .next (match s.call? stack call with
    | none => s
    | some c =>
      if !c.started ∨ s.callWarps c ≠ [] then s
      else
        let s := s.drainCall c
        let s := match s.windowOfCall c with
          | some w => s.dropRange [0, 1, 2, 3] w.phys w.len
          | none => s
        let s := s.devWrite c.ctx (coreDie c.core) c.ret c.message s.releaseTag
        let s := (s.reducePhaser (some c.phaser) 64).invalidateL1 c.core c.ctx
        let s := { s with calls := s.calls.filter fun x => !(x.stack = c.stack && x.id = c.id) }
        ((s.leaveCompute stack).settleQueues).wakeWaiting)

/-- `ROW_STEP_END`: the row steps of a stack's units end with no ordinary access held (R277). A held access is served in
the step that ends the row step for it (`NearBank.serve`), and is counted there. -/
def execRowStepEnd (stack : Nat) (s : State) : Out :=
  .next (s.setNearBank stack { s.nearBank stack with rows := [], held := [] })

/-- The units of a stack that have served the accesses they held reopen their row and go on with the next row step (R277). -/
def State.reopenRows (s : State) (stack : Nat) : State := s.setNearBank stack (s.nearBank stack).reopen

/-- `MODE_SWITCH_COMPLETE`: a deferred switch of a pseudo-channel to normal mode takes effect (R278). -/
def execModeSwitchComplete (stack pseudo : Nat) (s : State) : Out :=
  .next (s.setNearBank stack ((s.nearBank stack).complete ((1 : W64) <<< pseudo)))

end Sys2Proof.Machine
end

