-- ==== Sys2Proof/Machine/MemoryEvents.lean ====
section
/-!
DEFINITION. What the memory system does on its own, memory errors, and calends
(spec/02_links.md R39, R42; spec/03_startup_and_management.md R66 to R70; spec/07_traps_and_context.md R177;
spec/08_memory_hierarchy.md R212 to R215; spec/09_memory_model.md R221, R225, R229 to R234).
-/
namespace Sys2Proof.Machine

/-- `WRITE_PERFORMED`: one of the writes that may be performed next is performed (R151, R221, R225, R229, R232). -/
def execWritePerformed (s : State) : Out :=
  let ready := s.writes.filter s.eligible
  .next (match choose (Config.pick s.stepNo) ready with
    | some p => (s.perform p).wakeWaiting
    | none => s)

/-- `SPAN_WRITE_ARRIVAL`: one of the writes that have not arrived on a die arrives there, with what must arrive before it
(R232, R233, R234). -/
def execSpanWriteArrival (die : Nat) (s : State) : Out :=
  let late := dedup ((s.unarrived.filter fun u => u.die = die).map fun u => u.seq)
  .next (match choose (Config.pick s.stepNo) late with
    | some q => (s.arriveOn die fun u => decide (u.seq = q)).wakeWaiting
    | none => s)

/-- `STASH_PROBE`: a core writes back its dirty bytes of a line, and keeps the line shared or drops it (R212 to R214). -/
def execStashProbe (core context line : Nat) (invalidate : Bool) (s : State) : Out :=
  let this := fun (l : StashLine) => l.core = core && l.ctx = context
  .next (if invalidate then s.evictStash (lineOf line) this
    else s.stashClean fun l => decide (l.line = lineOf line) && this l)

/-- `STASH_ACKNOWLEDGEMENT`: a probed cluster answers: its probe count and the issuing core's counter fall by 1 (R215). -/
def execStashAcknowledgement (core : Nat) (s : State) : Out :=
  .next ({ s with
    acks := sset 0 s.acks core (s.pendingAcks core - 1)
    probes := s.probes.eraseP fun x => x.1 = core } : State).wakeWaiting

/-- An L2 slice's refusals and queue. -/
def State.l2Slice (s : State) (die slice : Nat) : L2Slice :=
  (s.l2.find? fun x => x.die = die && x.slice = slice).getD ⟨die, slice, [], [], []⟩

/-- Puts a slice's refusals and queue back. -/
def State.setL2Slice (s : State) (x : L2Slice) : State :=
  { s with l2 := (s.l2.filter fun y => !(y.die = x.die && y.slice = x.slice)) ++ [x] }

/-- `L2_RETRY`: a slice has no response slot for a request, named by its number: the fourth refusal enters it in the slice's
queue; a granted request is admitted (R39). -/
def execL2Retry (die slice request : Nat) (s : State) : Out :=
  let x := s.l2Slice die slice
  .next (if x.granted.contains request then
      s.setL2Slice { x with granted := x.granted.filter fun r => r ≠ request }
    else if x.queue.contains request then s
    else
      let n := sget 0 x.refusals request + 1
      if n < 4 then s.setL2Slice { x with refusals := sset 0 x.refusals request n }
      else s.setL2Slice { x with refusals := sset 0 x.refusals request 0, queue := x.queue ++ [request] })

/-- `RESERVATION_GRANT`: a freed response slot goes to the oldest entry of the slice's queue (R39). -/
def execReservationGrant (die slice : Nat) (s : State) : Out :=
  let x := s.l2Slice die slice
  .next (match x.queue with
    | [] => s
    | r :: rest => s.setL2Slice { x with queue := rest, granted := x.granted ++ [r] })

/-- First writes of the device's own reports, which no full undo region holds up: those that found no room are not logged
(R68, R177; log 42). -/
def State.dropOverfull (s t : State) : State :=
  let n := s.calends.lines.length
  let room := fun (u : UndoLine) => decide (64 * (t.undoLines u.stack).length ≤ t.undoBytes)
  { t with calends := { t.calends with lines := t.calends.lines.take n ++ (t.calends.lines.drop n).filter room } }

/-- An unrecoverable fault of a context (R177): its blocks are discarded, the record and the notice are written, and it
runs nothing more until its rollback. -/
def State.unrecoverable (s : State) (ctx : Nat) (id : WarpId) (cause : Cause) (address : W64) : State :=
  match s.context? ctx with
  | none => s
  | some _ =>
    let s := s.discardWhere fun f => match s.warp? f.warp with | some w => w.ctx = ctx | none => false
    let t := s.writeSave ctx 0x880 (recordBytes 0 address 0 0 cause.code 0xff 0xff false false id 0 (s.refTime ctx))
    (s.dropOverfull (t.notice ctx 2 0 0 cause.code id)).onContext ctx fun c => { c with recovering := true }

/-- Does a table, or anything below it, lie on one of some dies (R100, R236)? -/
def State.tableOn (s : State) (dies : List Nat) : Nat → Nat → Bool
  | 0, _ => false
  | below + 1, table =>
    dies.contains (homeDie table) || (List.range 512).any fun i =>
      let e := s.tableEntry table i
      if !entryBit e 0 then false
      else if below = 0 || entryBit e 3 then !entryBit e 8 && (entryBit e 11 || dies.contains (homeDie (entryFrame e)))
      else s.tableOn dies below (entryFrame e)

/-- `SPAN_ERROR`: an error that link-level retry does not correct is an unrecoverable fault of every context with memory on
either die (R42). -/
def execSpanError (dieA dieB : Nat) (s : State) : Out :=
  let hit := s.contexts.filter fun c => s.tableOn [dieA, dieB] 4 c.root
  let s := s.almanacAdd 0x000a dieA dieB
  .next (foldState s hit fun s c => s.unrecoverable c.num ⟨96 * dieA, 0⟩ .uncorrectable 0).wakeWaiting

/-- Is an offset inside a piece of storage? -/
def inPiece (offset : Nat) (r : Option (Nat × Nat)) : Bool :=
  match r with
  | some (base, len) => decide (base ≤ offset) && decide (offset < base + len)
  | none => false

/-- The context that owns a word of a unified store, by its storage offset (R66, R196): on a main core the piece that holds
it; on a pier core the scratch or the register region of a warp (log 15). -/
def State.storeOwner (s : State) (core offset : Nat) : Option Nat :=
  if isPier core then
    (s.warps.find? fun w => w.id.core = core &&
      (inPiece offset w.scratch || inPiece offset (some (0x10000 * w.id.slot, w.regionSize)))).map fun w => w.ctx
  else
    (s.pieces.find? fun p => p.core = core && inPiece offset (some (p.at_, p.size)) && s.pieceLive p).map fun p => p.ctx

/-- The context that owns a word of an accumulator store (R66, R438, log 15). -/
def State.tileOwner (s : State) (core offset : Nat) : Option Nat :=
  (s.allocs.find? fun a => a.core = core && a.tiles.contains (offset / 0x8000)).map fun a => a.ctx

/-- Writes an uncorrectable error to the almanac (R64): where it was found, its address, and the context, if any. The places
of the fields in `DETAIL` are the model's choice (log 41). -/
def State.noteError (s : State) (source address : Nat) (ctx : Option Nat) : State :=
  s.almanacAdd 0x000a source (address + match ctx with | some c => c * 2 ^ 64 + 2 ^ 80 | none => 0)

/-- A line is poisoned, whatever of it has been rewritten since it was poisoned before (R66). -/
def State.poisonLine (s : State) (line : Nat) : State :=
  { s with
    poisoned := if s.poisoned.contains line then s.poisoned else s.poisoned ++ [line]
    rewritten := s.rewritten.filter fun x => x.1 ≠ line }

/-- An uncorrectable error in a word of a core's own store (R66). -/
def State.storeError (s : State) (core offset : Nat) (owner : Option Nat) : State :=
  let s := s.noteError (coreDie core) offset owner
  match owner with
  | some c => (s.unrecoverable c ⟨core, 0⟩ .uncorrectable 0).wakeWaiting
  | none => s

/-- `UNCORRECTABLE_ERROR`: a line is poisoned, or the context that owns the word takes an unrecoverable fault (R66). -/
def execUncorrectableError (site : ErrorSite) (s : State) : Out :=
  .next (match site with
    | .line phys _ => (s.noteError (stackOf phys) phys none).poisonLine (lineOf phys)
    | .unifiedStore core offset => s.storeError core offset (s.storeOwner core offset)
    | .accumulator core offset => s.storeError core offset (s.tileOwner core offset))

/-- The structure of Table 3.7 that an error was found in: unified store, accumulator store, L2 and L3, HBM. -/
def errorStructure : ErrorSite → Nat
  | .unifiedStore .. => 0
  | .accumulator .. => 1
  | .line _ hbm => if hbm then 3 else 2

/-- `CORRECTED_ERROR`: counted for its structure (R66). -/
def execCorrectedError (site : ErrorSite) (s : State) : Out :=
  let k := errorStructure site
  .next { s with corrected := sset 0 s.corrected k (sget 0 s.corrected k + 1) }

/-- A boundary of a context begins: it is saved, through the shadow swap where it is swap-ready and may be swapped, and
otherwise after being stopped at its next block boundary (R67). -/
def State.beginBoundary (s : State) (ctx : Nat) : State :=
  match s.context? ctx with
  | none => s
  | some c =>
    if c.state ≠ .resident ∨ c.recovering ∨ c.boundaryDue then s
    else
      let s := s.onContext ctx fun c => { c with boundaryDue := true }
      if c.swapReady && !s.swapRefused ctx (s.contextCores ctx) then s.swapOutContext ctx else s.stopContext ctx

/-- `CALENDS_BOUNDARY`: the calends interval of a context has passed (R67, R68). -/
def execCalendsBoundary (context : Nat) (s : State) : Out :=
  .next (match s.context? context with
    | none => s
    | some c => if s.ticks < c.boundaryAt + 100000 * s.calends.interval then s else (s.beginBoundary context).wakeWaiting)

/-- `EARLY_BOUNDARY`: the undo region of a stack is 75% full: the contexts whose segments it holds come to a boundary (R68;
which contexts is the model's choice, log 42). -/
def execEarlyBoundary (stack : Nat) (s : State) : Out :=
  let mine := s.undoLines stack
  let ctxs := dedup ((mine.filter fun u => !u.former).map fun u => u.ctx)
  .next (if 4 * (64 * mine.length) < 3 * s.undoBytes then s
    else (foldState s ctxs fun s c => s.beginBoundary c).wakeWaiting)

/-- `UNDO_OVERFLOW`: first writes of a context have waited for more than 1 s (R68). -/
def execUndoOverflow (context : Nat) (s : State) : Out :=
  .next (match s.context? context with
    | none => s
    | some c =>
      let long := s.calends.waits.any fun x => x.1 = context && s.undoFull x.2.1 && decide (x.2.2 + 100000000 < s.ticks)
      if c.recovering ∨ !long then s else (s.unrecoverable context ⟨0, 0⟩ .undoOverflow 0).wakeWaiting)

/-- The undo lines and saves of a context that lives, of the boundaries that `p` picks, are gone. -/
def State.dropBoundaries (s : State) (ctx : Nat) (lines saves : Nat → Bool) : State :=
  { s with calends := { s.calends with
      lines := s.calends.lines.filter fun u => u.former || u.ctx ≠ ctx || !lines u.boundary.toNat
      snapshots := s.calends.snapshots.filter fun x => x.former || x.ctx ≠ ctx || !saves x.boundary.toNat } }

/-- Segments and saves of boundaries below `b` are released (R69). -/
def State.releaseSegments (s : State) (ctx b : Nat) : State :=
  (s.dropBoundaries ctx (fun k => decide (k < b)) fun k => decide (k < b)).settleWaits

/-- Segments and saves above boundary `b`, and segment `b`, are gone once they have been replayed (R69). -/
def State.dropReplayed (s : State) (ctx b : Nat) : State :=
  let s := s.dropBoundaries ctx (fun k => decide (b ≤ k)) fun k => decide (b < k)
  ({ s with calends := { s.calends with
      complete := s.calends.complete.map fun x => if x.1 = ctx then (ctx, BitVec.ofNat 64 b) else x
      waits := s.calends.waits.filter fun x => x.1 ≠ ctx } } : State).settleWaits

/-- A rolled-back context, as the save of a boundary leaves it (R69). -/
def Context.rolledBack (c old : Context) (b now : Nat) : Context :=
  { old with
    vf := c.vf, pasid := c.pasid, root := c.root, save := c.save, saveLen := c.saveLen, secondPort := c.secondPort
    created := c.created
    boundary := BitVec.ofNat 64 b
    recovering := false, boundaryDue := false, faulting := false, boundaryAt := now
    saveDone := [], saveFaults := [], resumeAt := [] }

/-- A rollback is written to the almanac (R64, R69): the module's number, the context, the boundary, and whether the context
is lost. The places of the fields in `DETAIL` are the model's choice (log 41). -/
def State.noteRollback (s : State) (ctx b : Nat) (lost : Bool) : State :=
  s.almanacAdd 0x000b s.pod.self.toNat (ctx + b % 2 ^ 64 * 2 ^ 16 + if lost then 2 ^ 80 else 0)

/-- A context stops, with whatever it has on chip and any spill of it that still runs (R69). -/
def State.haltContext (s : State) (c : Context) : State :=
  let ctx := c.num
  let s := ((s.detach ctx).endCalls ctx).performWrites ctx
  let s := s.freeChip ctx (s.gather c)
  { s with
    matrix := s.matrix.filter fun m => m.who.ctx ≠ ctx
    lateArrivals := s.lateArrivals.filter fun a => a.ctx ≠ ctx
    packets := s.packets.filter fun r => match r.sender with | some x => x.1.ctx ≠ ctx | none => true
    pod := { s.pod with out := update (fun r => r.who.ctx = ctx) (fun r => { r with dead := true }) s.pod.out } }

/-- The rollback of a context to a boundary (R69): stop, replay, restore, almanac entry. Where the save is not held, or an
undo-log line is poisoned, the context is lost and runs no more: nothing can be rolled back then, and what its last writes would
have logged is not kept. -/
def State.rollback (s : State) (ctx b : Nat) : State :=
  match s.context? ctx with
  | none => s
  | some c =>
    let kept := s.calends.lines
    let s := s.haltContext c
    let lost := ({ s with calends := { s.calends with lines := kept } } : State).onContext ctx fun c => { c with recovering := true, lost := true }
    let lose := lost.noteRollback ctx b true
    match s.snapshot? false ctx (BitVec.ofNat 64 b) with
    | none => lose
    | some old =>
      if s.undoPoisoned false ctx b then lose
      else
        let s := (s.replaySegments false ctx (BitVec.ofNat 64 b)).dropReplayed ctx b
        let s := (s.onContext ctx fun c => c.rolledBack old b s.ticks).noteRollback ctx b false
        match s.context? ctx with
        | some c => (s.startContext c).getD s
        | none => s

/-- Does a module take part in the exchange of boundaries: a member of the pod that is not fenced (R48, R52, R70)? -/
def State.takesPart (s : State) (m : Nat) : Bool := (s.podEntry m).valid && !(s.podEntry m).fenced

/-- The boundary that the modules of a job agree on: the lowest that each has completed, this module's own among them; one that
takes no part does not count (R70). -/
def State.agreedBoundary (s : State) (ctx : Nat) (boundaries : List (Nat × Option Nat)) : Nat :=
  let own := ((s.calends.complete.find? fun x => x.1 = ctx).map fun x => x.2.toNat).getD 0
  ((boundaries.filter fun x => s.takesPart x.1).filterMap fun x => x.2).foldl Nat.min own

/-- `BOUNDARY_EXCHANGE`: the job's modules, each named with the highest boundary that it has completed, agree on one: older
segments are released, or the context is rolled back to it (R69, R70). A module that is named with none has not answered within
the timeout of R47, and is fenced. -/
def execBoundaryExchange (context : Nat) (boundaries : List (Nat × Option Nat)) (rollback : Bool) (s : State) : Out :=
  let silent := boundaries.filter fun x => x.2.isNone && s.takesPart x.1
  let s := foldState s silent fun s x => s.peerTimesOut x.1
  let b := s.agreedBoundary context boundaries
  .next ((if rollback then s.rollback context b else s.releaseSegments context b).settleQueues).wakeWaiting

end Sys2Proof.Machine
end

