-- ==== Sys2Proof/Machine/Dispatch.lean ====
section
/-!
DEFINITION. The dispatch of every instruction and event to its meaning, one arm for each constructor of `Instr`.
-/
namespace Sys2Proof.Machine

def exec (i : Instr) (s : State) : Host.Outcome State Fault Refusal :=
  match i with
  | .blk cnt nrd nwr lsid iso xcnt ls => Sys2Proof.Machine.execBlk cnt nrd nwr lsid iso xcnt ls s
  | .rdV r => Sys2Proof.Machine.execRdV r s
  | .rdS r => Sys2Proof.Machine.execRdS r s
  | .rdP r => Sys2Proof.Machine.execRdP r s
  | .rdX r => Sys2Proof.Machine.execRdX r s
  | .wrV w => Sys2Proof.Machine.execWrV w s
  | .wrS w => Sys2Proof.Machine.execWrS w s
  | .wrP w => Sys2Proof.Machine.execWrP w s
  | .ext payload => Sys2Proof.Machine.execExt payload s
  | .hintPrio n => Sys2Proof.Machine.execHintPrio n s
  | .hintYield n => Sys2Proof.Machine.execHintYield n s
  | .hintLat n => Sys2Proof.Machine.execHintLat n s
  | .movi pred imm t0 => Sys2Proof.Machine.execMovi pred imm t0 s
  | .br pred off => Sys2Proof.Machine.execBr pred off s
  | .call pred off => Sys2Proof.Machine.execCall pred off s
  | .rjwait pred j off => Sys2Proof.Machine.execRjwait pred j off s
  | .fan g => Sys2Proof.Machine.execFan g s
  | .null g => Sys2Proof.Machine.execNull g s
  | .brx pred => Sys2Proof.Machine.execBrx pred s
  | .ret pred => Sys2Proof.Machine.execRet pred s
  | .exit pred => Sys2Proof.Machine.execExit pred s
  | .trap pred vector => Sys2Proof.Machine.execTrap pred vector s
  | .rjenrol pred j => Sys2Proof.Machine.execRjenrol pred j s
  | .rjstrike pred j => Sys2Proof.Machine.execRjstrike pred j s
  | .add g t => Sys2Proof.Machine.execAdd g t s
  | .sub g t => Sys2Proof.Machine.execSub g t s
  | .mul g t => Sys2Proof.Machine.execMul g t s
  | .mulhi g t => Sys2Proof.Machine.execMulhi g t s
  | .mad g t => Sys2Proof.Machine.execMad g t s
  | .div g t => Sys2Proof.Machine.execDiv g t s
  | .rem g t => Sys2Proof.Machine.execRem g t s
  | .neg g t => Sys2Proof.Machine.execNeg g t s
  | .abs g t => Sys2Proof.Machine.execAbs g t s
  | .min g t => Sys2Proof.Machine.execMin g t s
  | .max g t => Sys2Proof.Machine.execMax g t s
  | .lea g t => Sys2Proof.Machine.execLea g t s
  | .and g t => Sys2Proof.Machine.execAnd g t s
  | .or g t => Sys2Proof.Machine.execOr g t s
  | .xor g t => Sys2Proof.Machine.execXor g t s
  | .andn g t => Sys2Proof.Machine.execAndn g t s
  | .not g t => Sys2Proof.Machine.execNot g t s
  | .shl g t => Sys2Proof.Machine.execShl g t s
  | .shr g t => Sys2Proof.Machine.execShr g t s
  | .sar g t => Sys2Proof.Machine.execSar g t s
  | .rotl g t => Sys2Proof.Machine.execRotl g t s
  | .clz g t => Sys2Proof.Machine.execClz g t s
  | .ctz g t => Sys2Proof.Machine.execCtz g t s
  | .popc g t => Sys2Proof.Machine.execPopc g t s
  | .brev g t => Sys2Proof.Machine.execBrev g t s
  | .bfx g t => Sys2Proof.Machine.execBfx g t s
  | .bfi g t => Sys2Proof.Machine.execBfi g t s
  | .sel g t => Sys2Proof.Machine.execSel g t s
  | .setp g c t => Sys2Proof.Machine.execSetp g c t s
  | .pand g => Sys2Proof.Machine.execPand g s
  | .por g => Sys2Proof.Machine.execPor g s
  | .pxor g => Sys2Proof.Machine.execPxor g s
  | .pnot g => Sys2Proof.Machine.execPnot g s
  | .isect g => Sys2Proof.Machine.execIsect g s
  | .isectX g => Sys2Proof.Machine.execIsectX g s
  | .fadd g t => Sys2Proof.Machine.execFadd g t s
  | .fsub g t => Sys2Proof.Machine.execFsub g t s
  | .fmul g t => Sys2Proof.Machine.execFmul g t s
  | .ffma g t => Sys2Proof.Machine.execFfma g t s
  | .fmin g t => Sys2Proof.Machine.execFmin g t s
  | .fmax g t => Sys2Proof.Machine.execFmax g t s
  | .fdiv g t => Sys2Proof.Machine.execFdiv g t s
  | .fsqrt g t => Sys2Proof.Machine.execFsqrt g t s
  | .fscale g t => Sys2Proof.Machine.execFscale g t s
  | .fclass g t => Sys2Proof.Machine.execFclass g t s
  | .fsetp g c t => Sys2Proof.Machine.execFsetp g c t s
  | .frcp g => Sys2Proof.Machine.execFrcp g s
  | .frsq g => Sys2Proof.Machine.execFrsq g s
  | .fexp2 g => Sys2Proof.Machine.execFexp2 g s
  | .flog2 g => Sys2Proof.Machine.execFlog2 g s
  | .fsin g => Sys2Proof.Machine.execFsin g s
  | .fcos g => Sys2Proof.Machine.execFcos g s
  | .ftanh g => Sys2Proof.Machine.execFtanh g s
  | .expsub g => Sys2Proof.Machine.execExpsub g s
  | .fdot2 g t => Sys2Proof.Machine.execFdot2 g t s
  | .cvt g dst src => Sys2Proof.Machine.execCvt g dst src s
  | .cvtSourceHigh g dst src => Sys2Proof.Machine.execCvtSourceHigh g dst src s
  | .cvtmx g src elem => Sys2Proof.Machine.execCvtmx g src elem s
  | .shfl g wide mode => Sys2Proof.Machine.execShfl g wide mode s
  | .vote g op => Sys2Proof.Machine.execVote g op s
  | .redux g op t => Sys2Proof.Machine.execRedux g op t s
  | .scan g op t => Sys2Proof.Machine.execScan g op t s
  | .matchLanes g wide => Sys2Proof.Machine.execMatchLanes g wide s
  | .elect g => Sys2Proof.Machine.execElect g s
  | .actmask g => Sys2Proof.Machine.execActmask g s
  | .ld m => Sys2Proof.Machine.execLd m s
  | .st m => Sys2Proof.Machine.execSt m s
  | .ldb m => Sys2Proof.Machine.execLdb m s
  | .ldacq m => Sys2Proof.Machine.execLdacq m s
  | .strel m => Sys2Proof.Machine.execStrel m s
  | .stMc m => Sys2Proof.Machine.execStMc m s
  | .pref pred lsid l1 off => Sys2Proof.Machine.execPref pred lsid l1 off s
  | .atom a => Sys2Proof.Machine.execAtom a s
  | .red pred lsid wide scope order op => Sys2Proof.Machine.execRed pred lsid wide scope order op s
  | .cas pred lsid wide scope order t0 => Sys2Proof.Machine.execCas pred lsid wide scope order t0 s
  | .fence pred lsid kind scope => Sys2Proof.Machine.execFence pred lsid kind scope s
  | .fenceRep pred lsid => Sys2Proof.Machine.execFenceRep pred lsid s
  | .inval pred lsid off => Sys2Proof.Machine.execInval pred lsid off s
  | .stmap pred t0 => Sys2Proof.Machine.execStmap pred t0 s
  | .stunmap pred t0 => Sys2Proof.Machine.execStunmap pred t0 s
  | .stflush pred t0 => Sys2Proof.Machine.execStflush pred t0 s
  | .cpy pred => Sys2Proof.Machine.execCpy pred s
  | .cpyg g => Sys2Proof.Machine.execCpyg g s
  | .cpseal pred => Sys2Proof.Machine.execCpseal pred s
  | .cpwait pred => Sys2Proof.Machine.execCpwait pred s
  | .kvapp pred src => Sys2Proof.Machine.execKvapp pred src s
  | .mma pred tile acc group => Sys2Proof.Machine.execMma pred tile acc group s
  | .mmas pred tile acc group => Sys2Proof.Machine.execMmas pred tile acc group s
  | .mzero pred tile => Sys2Proof.Machine.execMzero pred tile s
  | .mdrain pred tile ep f64 group => Sys2Proof.Machine.execMdrain pred tile ep f64 group s
  | .mpeer pred tile s32 => Sys2Proof.Machine.execMpeer pred tile s32 s
  | .mprune pred group => Sys2Proof.Machine.execMprune pred group s
  | .mwait pred tile => Sys2Proof.Machine.execMwait pred tile s
  | .mwaitAll pred => Sys2Proof.Machine.execMwaitAll pred s
  | .tokpass pred => Sys2Proof.Machine.execTokpass pred s
  | .barArrive pred scope rel bytes so => Sys2Proof.Machine.execBarArrive pred scope rel bytes so s
  | .barWait g scope par => Sys2Proof.Machine.execBarWait g scope par s
  | .barReg pred => Sys2Proof.Machine.execBarReg pred s
  | .barDrop pred => Sys2Proof.Machine.execBarDrop pred s
  | .barExpect pred => Sys2Proof.Machine.execBarExpect pred s
  | .plwait pred => Sys2Proof.Machine.execPlwait pred s
  | .yield pred => Sys2Proof.Machine.execYield pred s
  | .rwrite pred => Sys2Proof.Machine.execRwrite pred s
  | .rwwait pred k => Sys2Proof.Machine.execRwwait pred k s
  | .sleep pred => Sys2Proof.Machine.execSleep pred s
  | .deq g group => Sys2Proof.Machine.execDeq g group s
  | .enq g group => Sys2Proof.Machine.execEnq g group s
  | .join pred counted => Sys2Proof.Machine.execJoin pred counted s
  | .sbpost g => Sys2Proof.Machine.execSbpost g s
  | .sbpostFail g => Sys2Proof.Machine.execSbpostFail g s
  | .sbquery g => Sys2Proof.Machine.execSbquery g s
  | .nmcall pred group => Sys2Proof.Machine.execNmcall pred group s
  | .rred pred => Sys2Proof.Machine.execRred pred s
  | .nmret pred => Sys2Proof.Machine.execNmret pred s
  | .nbop g op => Sys2Proof.Machine.execNbop g op s
  | .nbmode g compute => Sys2Proof.Machine.execNbmode g compute s
  | .gradq pred => Sys2Proof.Machine.execGradq pred s
  | .sysrd g r => Sys2Proof.Machine.execSysrd g r s
  | .syswr pred => Sys2Proof.Machine.execSyswr pred s
  | .eret pred => Sys2Proof.Machine.execEret pred s
  | .bkpt pred => Sys2Proof.Machine.execBkpt pred s
  | .haltDbg pred => Sys2Proof.Machine.execHaltDbg pred s
  | .blockFetch warp strand => Sys2Proof.Machine.execBlockFetch warp strand s
  | .blockCommit => Sys2Proof.Machine.execBlockCommit s
  | .serialTokenGrant die => Sys2Proof.Machine.execSerialTokenGrant die s
  | .strandRotation warp => Sys2Proof.Machine.execStrandRotation warp s
  | .backoffEnd warp => Sys2Proof.Machine.execBackoffEnd warp s
  | .watchChange warp => Sys2Proof.Machine.execWatchChange warp s
  | .blockRetry warp strand => Sys2Proof.Machine.execBlockRetry warp strand s
  | .depositApply warp => Sys2Proof.Machine.execDepositApply warp s
  | .sleepEnd warp strand => Sys2Proof.Machine.execSleepEnd warp strand s
  | .deqTimeout warp => Sys2Proof.Machine.execDeqTimeout warp s
  | .joinRetry die => Sys2Proof.Machine.execJoinRetry die s
  | .siblingPageRelease handle sibling => Sys2Proof.Machine.execSiblingPageRelease handle sibling s
  | .hostEnqueue vf slot whole record => Sys2Proof.Machine.execHostEnqueue vf slot whole record s
  | .createContext vf cmd => Sys2Proof.Machine.execCreateContext vf cmd s
  | .destroyContext vf cmd => Sys2Proof.Machine.execDestroyContext vf cmd s
  | .createQueue vf cmd => Sys2Proof.Machine.execCreateQueue vf cmd s
  | .destroyQueue vf cmd => Sys2Proof.Machine.execDestroyQueue vf cmd s
  | .setClassAndWeight vf cmd => Sys2Proof.Machine.execSetClassAndWeight vf cmd s
  | .queryQueue vf cmd => Sys2Proof.Machine.execQueryQueue vf cmd s
  | .launch vf cmd => Sys2Proof.Machine.execLaunch vf cmd s
  | .mapWindow vf cmd => Sys2Proof.Machine.execMapWindow vf cmd s
  | .unmapWindow vf cmd => Sys2Proof.Machine.execUnmapWindow vf cmd s
  | .bindPodAperture vf cmd => Sys2Proof.Machine.execBindPodAperture vf cmd s
  | .bindSecondPort vf cmd => Sys2Proof.Machine.execBindSecondPort vf cmd s
  | .invalidateTranslations vf cmd => Sys2Proof.Machine.execInvalidateTranslations vf cmd s
  | .createSiblingGroup vf cmd => Sys2Proof.Machine.execCreateSiblingGroup vf cmd s
  | .swapOut vf cmd => Sys2Proof.Machine.execSwapOut vf cmd s
  | .fill vf cmd => Sys2Proof.Machine.execFill vf cmd s
  | .swapIn vf cmd => Sys2Proof.Machine.execSwapIn vf cmd s
  | .stop vf cmd => Sys2Proof.Machine.execStop vf cmd s
  | .start vf cmd => Sys2Proof.Machine.execStart vf cmd s
  | .resumeServiceCall vf cmd => Sys2Proof.Machine.execResumeServiceCall vf cmd s
  | .restartSaveEngine vf cmd => Sys2Proof.Machine.execRestartSaveEngine vf cmd s
  | .recoverContext vf cmd => Sys2Proof.Machine.execRecoverContext vf cmd s
  | .spillComplete context => Sys2Proof.Machine.execSpillComplete context s
  | .saveFault context core address progress => Sys2Proof.Machine.execSaveFault context core address progress s
  | .readSensors port arglen => Sys2Proof.Machine.execReadSensors port arglen s
  | .setPowerLimit port arglen => Sys2Proof.Machine.execSetPowerLimit port arglen s
  | .attest port arglen => Sys2Proof.Machine.execAttest port arglen s
  | .readAlmanac port arglen => Sys2Proof.Machine.execReadAlmanac port arglen s
  | .writeUpdateChunk port arglen => Sys2Proof.Machine.execWriteUpdateChunk port arglen s
  | .commitUpdate port arglen => Sys2Proof.Machine.execCommitUpdate port arglen s
  | .setCalends port arglen => Sys2Proof.Machine.execSetCalends port arglen s
  | .warmStart port arglen => Sys2Proof.Machine.execWarmStart port arglen s
  | .coldStart port arglen => Sys2Proof.Machine.execColdStart port arglen s
  | .podControlWrite value => Sys2Proof.Machine.execPodControlWrite value s
  | .fencedClear module => Sys2Proof.Machine.execFencedClear module s
  | .registerWrite target value => Sys2Proof.Machine.execRegisterWrite target value s
  | .powerGood => Sys2Proof.Machine.execPowerGood s
  | .powerRemoval => Sys2Proof.Machine.execPowerRemoval s
  | .startStep ok => Sys2Proof.Machine.execStartStep ok s
  | .pfReset port => Sys2Proof.Machine.execPfReset port s
  | .functionLevelReset vf => Sys2Proof.Machine.execFunctionLevelReset vf s
  | .controlInterval sensors => Sys2Proof.Machine.execControlInterval sensors s
  | .throttleEventTimeout unit => Sys2Proof.Machine.execThrottleEventTimeout unit s
  | .atsInvalidation port pasid address length => Sys2Proof.Machine.execAtsInvalidation port pasid address length s
  | .atsTranslationCompletion context page asker entry => Sys2Proof.Machine.execAtsTranslationCompletion context page asker entry s
  | .pageResponse context page code => Sys2Proof.Machine.execPageResponse context page code s
  | .hostTimeout what => Sys2Proof.Machine.execHostTimeout what s
  | .l2Retry die slice request => Sys2Proof.Machine.execL2Retry die slice request s
  | .reservationGrant die slice => Sys2Proof.Machine.execReservationGrant die slice s
  | .stashProbe core context line invalidate => Sys2Proof.Machine.execStashProbe core context line invalidate s
  | .stashAcknowledgement core => Sys2Proof.Machine.execStashAcknowledgement core s
  | .spanWriteArrival die => Sys2Proof.Machine.execSpanWriteArrival die s
  | .spanError dieA dieB => Sys2Proof.Machine.execSpanError dieA dieB s
  | .ualinkInboundRequest r => Sys2Proof.Machine.execUalinkInboundRequest r s
  | .ualinkInboundCompletion tag epoch => Sys2Proof.Machine.execUalinkInboundCompletion tag epoch s
  | .completionTimeout tag => Sys2Proof.Machine.execCompletionTimeout tag s
  | .outboundCompletionTimeout module => Sys2Proof.Machine.execOutboundCompletionTimeout module s
  | .portFailure port => Sys2Proof.Machine.execPortFailure port s
  | .reductionPacket source aperture packet => Sys2Proof.Machine.execReductionPacket source aperture packet s
  | .packetCompletion tag epoch status => Sys2Proof.Machine.execPacketCompletion tag epoch status s
  | .uncorrectableError site => Sys2Proof.Machine.execUncorrectableError site s
  | .calendsBoundary context => Sys2Proof.Machine.execCalendsBoundary context s
  | .earlyBoundary stack => Sys2Proof.Machine.execEarlyBoundary stack s
  | .undoOverflow context => Sys2Proof.Machine.execUndoOverflow context s
  | .boundaryExchange context boundaries rollback => Sys2Proof.Machine.execBoundaryExchange context boundaries rollback s
  | .matrixCommandStart leader => Sys2Proof.Machine.execMatrixCommandStart leader s
  | .tileExpected leader => Sys2Proof.Machine.execTileExpected leader s
  | .matrixCommandComplete leader => Sys2Proof.Machine.execMatrixCommandComplete leader s
  | .epilogueComplete leader => Sys2Proof.Machine.execEpilogueComplete leader s
  | .epilogueStoreFault core => Sys2Proof.Machine.execEpilogueStoreFault core s
  | .mpeerAdd leader => Sys2Proof.Machine.execMpeerAdd leader s
  | .mpeerTimeout leader => Sys2Proof.Machine.execMpeerTimeout leader s
  | .copyComplete core => Sys2Proof.Machine.execCopyComplete core s
  | .copyFault core => Sys2Proof.Machine.execCopyFault core s
  | .nmCallQueued stack => Sys2Proof.Machine.execNmCallQueued stack s
  | .nmCallStart stack => Sys2Proof.Machine.execNmCallStart stack s
  | .nmCallTimeout stack call => Sys2Proof.Machine.execNmCallTimeout stack call s
  | .nmCallReturn stack call => Sys2Proof.Machine.execNmCallReturn stack call s
  | .rowStepEnd stack => Sys2Proof.Machine.execRowStepEnd stack s
  | .modeSwitchComplete stack pseudo => Sys2Proof.Machine.execModeSwitchComplete stack pseudo s
  | .writePerformed => Sys2Proof.Machine.execWritePerformed s
  | .dispatcherSummaryReport die => Sys2Proof.Machine.execDispatcherSummaryReport die s
  | .serviceTrapRetry warp => Sys2Proof.Machine.execServiceTrapRetry warp s
  | .correctedError site => Sys2Proof.Machine.execCorrectedError site s
  | .unknownPrivilegedCommand vf cmd => Sys2Proof.Machine.execUnknownPrivilegedCommand vf cmd s
  | .unknownMailboxCommand port opcode arglen => Sys2Proof.Machine.execUnknownMailboxCommand port opcode arglen s

end Sys2Proof.Machine
end

