-- ==== Sys2Proof/Machine/Step.lean ====
section
/-!
DEFINITION. One step of the machine: who goes next, and the instruction it runs (spec/05_scheduler.md R119, R141 to R143;
spec/06_execution_model.md R146, R152; spec/95_what_each_step_holds.md; log 2).
-/
namespace Sys2Proof.Machine

/-- Who goes next: a block in flight with its next word, an event, the command of a mailbox that the management processor
serves (R65), an add or the closing step of a reduction packet (R284), an arrival that waited for packets (R46), an element
of a copy (R240) or of an epilogue (R453), the reopening of the rows of near-bank units (R277), the replacement of a first-level line (R205), or the eviction of a stash directory entry (R213; log 51).
`input` is the first event that the outside world has in store. -/
inductive Turn where
  | block (warp : WarpId) (strand : Nat)
  | event (i : Instr)
  | serve (port : Bool)
  | packet (k : Nat)
  | arrival
  | move (core : Nat)
  | storeUnit (core : Nat)
  | reopen (stack : Nat)
  | replace (core ctx line : Nat)
  | evict (die region : Nat)
  | input
  deriving DecidableEq, Repr

/-- Can a block in flight run its next word, or commit? -/
def State.runnable (s : State) (f : Frame) : Bool :=
  !f.waiting && decide (f.at_ ≤ f.words.length) &&
  match s.warp? f.warp with
  | some w => w.status = .running
  | none => false

/-- A block between its header and its first compute slot: its register reads are one instant (R341). -/
def Frame.reading (f : Frame) : Bool := decide (0 < f.at_) && decide (f.at_ < f.base)

/-- The blocks that can go on. -/
def State.blockTurns (s : State) : List Turn :=
  (s.frames.filter s.runnable).map fun f => .block f.warp f.strand

/-- The strands that can fetch, early or not, queue for the serial token, or leave for the waiting list (R122, R152, R158). -/
def State.fetchTurns (s : State) : List Turn :=
  (s.warps.map fun w => (w.strands.filter fun st =>
    s.canFetch w st || (s.earlyNext w st).isSome || (st.place = .active && s.needsToken w st) ||
    (st.place = .rotating && s.frames.all fun f => f.warp ≠ w.id || f.strand ≠ st.id)).map fun st =>
      Turn.event (.blockFetch w.id st.id)).flatten

/-- An event, where its condition holds. -/
def when_ (b : Bool) (i : Instr) : List Turn := if b then [.event i] else []

/-- Events of one warp and its strands that have fallen due. -/
def State.warpTurns (s : State) (w : Warp) : List Turn :=
  when_ (w.strands.any fun st => st.place = .waiting) (.strandRotation w.id) ++
  when_ w.inBackoff (.backoffEnd w.id) ++
  when_ (w.watch.isSome && w.lastWatch.isNone && w.backoff != 0) (.watchChange w.id) ++
  when_ (w.deposits != [] && s.frames.all fun f => f.warp ≠ w.id) (.depositApply w.id) ++
  (match w.status with
    | .parkedDeq r => when_ (s.answersFor w.ctx && r.timeout != 0xffffffff && decide (r.since + 100 * r.timeout.toNat ≤ s.ticks)) (.deqTimeout w.id)
    | .serviceWait .. => [.event (.serviceTrapRetry w.id)]
    | _ => []) ++
  (w.strands.map fun st => match st.place with
    | .sleeping t => when_ (decide (t ≤ s.ticks)) (.sleepEnd w.id st.id)
    | _ => []).flatten

/-- Events of the matrix engines (R439, R453, R455). -/
def State.matrixTurns (s : State) : List Turn :=
  ((dedup (s.matrix.map fun c => c.leader)).map fun l => match s.headCommand l with
    | none => []
    | some c =>
      if !c.started then [Turn.event (.matrixCommandStart l)]
      else match c.op with
        | .peer .. => [.event (.mpeerAdd l)] ++ when_ (decide (c.since + 100000 ≤ s.ticks)) (.mpeerTimeout l)
        | _ => [.event (.matrixCommandComplete l)] ++ when_ (c.predicted.isSome && !c.expected) (.tileExpected l)).flatten ++
  ((s.epilogues.filter fun e => e.fault.isNone).map fun e =>
    [Turn.event (.epilogueComplete e.leader), .event (.epilogueStoreFault e.core), .storeUnit e.core]).flatten

/-- Events of a near-memory call (R264 to R267). -/
def State.callTurns (s : State) (c : Call) : List Turn :=
  if !c.queued then [.event (.nmCallQueued c.stack)]
  else if !c.started then [.event (.nmCallStart c.stack)]
  else if s.callWarps c = [] then [.event (.nmCallReturn c.stack c.id)]
  else when_ (decide (c.since + 100000000 ≤ s.ticks)) (.nmCallTimeout c.stack c.id)

/-- Events of the memory system, the copy engines and the near-bank controllers. -/
def State.memoryTurns (s : State) : List Turn :=
  when_ (s.writes.any s.eligible) .writePerformed ++
  ((dedup (s.unarrived.map fun u => u.die)).map fun d => Turn.event (.spanWriteArrival d)) ++
  (s.acks.map fun a => Turn.event (.stashAcknowledgement a.1)) ++
  (((s.l2.filter fun x => x.queue != []).map fun x => Turn.event (.reservationGrant x.die x.slice))) ++
  ((dedup ((s.copies.filter fun c => c.fault.isNone).map fun c => c.who.warp.core)).map fun k =>
    [Turn.event (.copyComplete k), .event (.copyFault k), .move k]).flatten ++
  (s.nearBanks.map fun n => when_ (n.2.rows != []) (.rowStepEnd n.1) ++ (if n.2.held = [] then [] else [.reopen n.1]) ++
    ((List.range 64).filter fun i => n.2.pending.getLsbD i).map fun i => Turn.event (.modeSwitchComplete n.1 i)).flatten ++
  (s.l1.map fun l => Turn.replace l.core l.ctx l.line) ++
  ((dedup (s.stashLines.map fun l => (coreDie l.core, l.line / 512))).map fun x => Turn.evict x.1 x.2)

/-- Events of the dispatchers, the ballot table, the commit arbiters and the privileged queues. -/
def State.workTurns (s : State) : List Turn :=
  ((dedup ((s.joinWaits ++ s.discards).map fun j => j.die)).map fun d => Turn.event (.joinRetry d)) ++
  ((dedup (s.queues.map fun q => q.home)).map fun d =>
    when_ (decide (sget [] s.summaries d ≠ s.summary d)) (.dispatcherSummaryReport d)).flatten ++
  (s.groups.map fun g => ((g.siblings.zipIdx.filter fun x => x.1.retired && !x.1.released).map fun x =>
    Turn.event (.siblingPageRelease g.handle x.2))).flatten ++
  ((List.range 4).map fun d => when_ ((s.arbiter d).holder.isNone && (s.arbiter d).serial != []) (.serialTokenGrant d)).flatten ++
  (s.contexts.map fun c => when_ (s.spillGoes c) (.spillComplete c.num)).flatten ++
  ((List.range s.packets.length).map fun k => Turn.packet k) ++
  (if s.readyArrival.isSome then [.arrival] else []) ++
  (s.priv.map fun q => match q.2.busy with
    | some cmd => when_ (s.busyOver cmd) (.spillComplete (cmdArg cmd 0x10 2))
    | none => []).flatten

/-- Events of the management processor, the pod timers and calends (R28, R24, R47, R55, R67, R68). -/
def State.managementTurns (s : State) : List Turn :=
  let u := s.startup
  when_ (!u.ready && !u.locked && s.power.on && !s.power.tripped && decide (u.step < 10)) (.startStep (Config.startOk s.stepNo)) ++
  when_ s.controlDue (.controlInterval (Config.sensors s.stepNo)) ++
  ((s.power.events.filter fun e => s.power.auxiliary && decide (e.first + 1000000 ≤ s.ticks)).map fun e => Turn.event (.throttleEventTimeout e.unit)) ++
  ((s.pod.out.filter fun r => !r.dead && decide (r.issued + r.timeout ≤ s.ticks)).map fun r =>
    Turn.event (.completionTimeout r.tag)) ++
  ((s.contexts.filter fun c => c.state = .resident && !c.recovering && !c.boundaryDue &&
      decide (c.boundaryAt + 100000 * s.calends.interval ≤ s.ticks)).map fun c => Turn.event (.calendsBoundary c.num)) ++
  ((s.calends.waits.filter fun x => s.undoFull x.2.1 && decide (x.2.2 + 100000000 < s.ticks)).map fun x =>
    Turn.event (.undoOverflow x.1)) ++
  ((dedup (s.calends.lines.map fun l => l.stack)).map fun k =>
    when_ (decide (3 * s.undoBytes ≤ 4 * (64 * (s.undoLines k).length))) (.earlyBoundary k)).flatten

/-- Everything that could go next (log 2). -/
def State.turns (s : State) : List Turn :=
  s.blockTurns ++ s.fetchTurns ++ (s.warps.map s.warpTurns).flatten ++ s.matrixTurns ++ (s.calls.map s.callTurns).flatten ++
  s.memoryTurns ++ s.workTurns ++ s.managementTurns ++ (match s.mailboxTurn? with | some p => [.serve p] | none => []) ++ (if s.inputs = [] then [] else [.input])

/-- Does the block at the head read its registers (R341)? -/
def State.readingHead (s : State) : Bool :=
  match s.frames.head? with
  | some f => f.reading && s.runnable f
  | none => false

/-- Who goes next: the head block while it reads its registers (R341); otherwise any of those that can, in an order that
no rule gives (log 2); none when nothing can happen but the passing of time. -/
def State.turn? (s : State) : Option Turn :=
  match s.frames.head? with
  | some f => if s.readingHead then some (.block f.warp f.strand) else choose (Config.pick s.stepNo) s.turns
  | none => choose (Config.pick s.stepNo) s.turns

/-- The block of a strand comes to the head of the blocks in flight. -/
def State.front (s : State) (warp : WarpId) (strand : Nat) : State :=
  let this := fun (f : Frame) => f.warp = warp && f.strand = strand
  match s.frames with
  | [] => s
  | f :: rest => if this f then s else { s with frames := (f :: rest).filter this ++ (f :: rest).filter fun x => !this x }

/-- The word that the head block runs next: its instruction, or the commit once its words are done. -/
def State.nextInstr (s : State) : Except Refusal Instr :=
  match s.frames.head? with
  | none => .ok .blockCommit
  | some f =>
    match f.words[f.at_]? with
    | none => .ok .blockCommit
    | some w =>
      match decode w with
      | .ok i => .ok i
      | .error _ => .error .illegalWord

/-- Runs what the head block does next. -/
def State.runHead (s : State) : Out :=
  match s.nextInstr with
  | .ok i => exec i s
  | .error r => .refused r

/-- Takes a turn. -/
def State.takeTurn (s : State) : Turn → Out
  | .packet k => .next (s.stepPacket k).wakeWaiting
  | .arrival => .next s.nextArrival
  | .move core => .next (s.moveOne core)
  | .storeUnit core => .next (s.storeOne core).wakeWaiting
  | .reopen stack => .next (s.reopenRows stack)
  | .replace core ctx line => .next (s.dropL1 core ctx line)
  | .evict die region => .next (s.evictRegion die region)
  | .block warp strand => (s.front warp strand).runHead
  | .event i => exec i s
  | .serve port =>
    match (s.mailbox port).cmd with
    | none => .next s
    | some i => exec i (s.serveMailbox port)
  | .input =>
    match s.inputs with
    | [] => .next s
    | i :: rest => exec i { s with inputs := rest }

/-- The contexts and stacks where a turn that leads from `s` to `t` would log first writes beyond a full undo region (R68). -/
def State.overfull (s t : State) : List (Nat × Nat) :=
  dedup (((t.calends.lines.drop s.calends.lines.length).filter fun u =>
    decide (t.undoBytes < 64 * (t.undoLines u.stack).length)).map fun u => (u.ctx, u.stack))

/-- First writes wait, from now on unless they do already (R68). -/
def State.firstWritesWait (s : State) (xs : List (Nat × Nat)) : State :=
  let new := xs.filter fun x => s.calends.waits.all fun y => (y.1, y.2.1) ≠ x
  { s with calends := { s.calends with waits := s.calends.waits ++ new.map fun x => (x.1, x.2, s.ticks) } }

/-- What a turn leaves: where it would write first to a line whose undo region is full, it waits and nothing of it happens
(R68). -/
def State.holdFirstWrites (s : State) : Out → Out
  | .next t =>
    if t.calends.lines.length ≤ s.calends.lines.length then .next t
    else match s.overfull t with
      | [] => .next t
      | xs => .next (s.firstWritesWait xs)
  | .fault r => .fault r
  | .refused r => .refused r

/-- Time passes with a step (log 1), but none while a block reads its registers: the reads of a block are one instant
(R341). -/
def State.advance (s : State) : State :=
  if s.readingHead then { s with stepNo := s.stepNo + 1 }
  else { s with
    stepNo := s.stepNo + 1
    tlb := match Config.caches s.stepNo with
      | some x => s.cacheTranslation x.1 x.2
      | none => s.tlb
    ticks := s.ticks + Config.elapsed s.stepNo
    cycles := (List.range 4).map fun d => s.cyclesOf d + Config.cycles d s.stepNo
    pierCycles := (List.range 16).map fun k => s.pierCyclesOf k + Config.pierCycles k s.stepNo }

/-- What a step from `s` to `t` leaves: phases that were due have ended, unless the step is part of the instant in which a
block reads its registers, and time has passed. -/
def State.pass (s t : State) : State := (if s.readingHead then t else s.endPhases t).advance

/-- What an outcome leaves at the end of a step from `s`. -/
def State.passTime (s : State) : Out → Out
  | .next t => .next (s.pass t)
  | .fault r => .fault r
  | .refused r => .refused r

/-- ONE STEP of the machine. -/
def step (s : State) : Host.Outcome State Fault Refusal :=
  match s.turn? with
  | none => .next (s.pass s)
  | some t => s.passTime (s.holdFirstWrites (s.takeTurn t))

/-- A header with no reads and no writes over one slot, or with one read, or one write word, and one slot (R317). -/
def probeHeader (nrd nwr : BitVec 4) : W32 := encode (.blk 0 nrd nwr 0 false 0 true)

/-- A block whose next word is `w`: the header itself, a read or write word, or compute slot 0. -/
def probeFrame (id : WarpId) (w : W32) : Frame :=
  let one := fun (h : W32) (at_ : Nat) =>
    let words := if at_ = 0 then [w] else [h, w]
    let shape : Shape := match decodeBlock words with
      | some b => b.shape
      | none => ⟨1, 0, 0, 1, false, 1, [[]], [], none, []⟩
    { freshFrame id 0 0x1000 words shape (BitVec.allOnes 32) with at_ := at_ }
  match decode w with
  | .ok (.blk ..) => one w 0
  | .ok (.rdV _) | .ok (.rdS _) | .ok (.rdP _) | .ok (.rdX _) => one (probeHeader 1 0) 1
  | .ok (.wrV _) | .ok (.wrS _) | .ok (.wrP _) => one (probeHeader 0 1) 1
  | _ => one (probeHeader 0 0) 1

/-- Is an instruction one of those that exist on pier cores only (R259)? -/
def pierOnly (i : Instr) : Bool :=
  match i with
  | .nmret .. | .nbop .. | .nbmode .. | .gradq .. => true
  | _ => false

/-- The module started, with one context, one warp, and a block in flight whose next word is the word `w` of `nbits` bits
(log 18): a launch, a fetch, and the words before `w` stand behind this state. -/
def State.withFetchWord (s : State) (nbits w : Nat) : State :=
  let word : W32 := BitVec.ofNat 32 (w % 2 ^ nbits)
  let pier : Bool := match decode word with | .ok i => pierOnly i | .error _ => false
  let id : WarpId := if pier then ⟨pierCore 0 0, 0⟩ else ⟨0, 0⟩
  let warp := { Warp.fresh id 1 0 32 0x1000 with pier := if pier then some ⟨0, 0, 0⟩ else none }
  { s with
    inputs := []
    startup := { s.startup with ready := true }
    contexts := [freshContext ⟨false, 0⟩ 0 0 s.ticks]
    warps := [warp]
    frames := [probeFrame id word] }

end Sys2Proof.Machine
end

