-- ==== Sys2Proof/Safety.lean ====
section
/-!
DEFINITION. The terms in which claims about the machine are stated: where a block stands, what firing a slot may change,
and what holds of every state that the machine should reach.
-/
namespace Sys2Proof

/-- An operation on the low `w` bits of an operand, the result's other bits zero (R357). -/
def IType.on1 (t : IType) (f : {w : Nat} → BitVec w → BitVec w) (a : W64) : W64 :=
  match t with
  | .s32 | .z32 => Machine.zext (f (Machine.lo32 a))
  | .s64 | .z64 => f a

/-- An operation on the low `w` bits of two operands, the result's other bits zero (R357). -/
def IType.on2 (t : IType) (f : {w : Nat} → BitVec w → BitVec w → BitVec w) (a b : W64) : W64 :=
  match t with
  | .s32 | .z32 => Machine.zext (f (Machine.lo32 a) (Machine.lo32 b))
  | .s64 | .z64 => f a b

/-- An operation on the low `w` bits of three operands, the result's other bits zero (R357). -/
def IType.on3 (t : IType) (f : {w : Nat} → BitVec w → BitVec w → BitVec w → BitVec w) (a b c : W64) : W64 :=
  match t with
  | .s32 | .z32 => Machine.zext (f (Machine.lo32 a) (Machine.lo32 b) (Machine.lo32 c))
  | .s64 | .z64 => f a b c

/-- Is `a` below `b`, as two's complement or unsigned as the type says (R357)? -/
def IType.below (t : IType) (a b : W64) : Bool :=
  match t with
  | .s32 => (Machine.lo32 a).slt (Machine.lo32 b)
  | .z32 => (Machine.lo32 a).ult (Machine.lo32 b)
  | .s64 => a.slt b
  | .z64 => a.ult b

/-- The low `w` bits of an operand (R357). -/
def IType.keep (t : IType) (a : W64) : W64 := t.on1 (fun x => x) a

/-- Bits [2w−1:w] of the exact product (Table 13.7). -/
def IType.upper (t : IType) (a b : W64) : W64 :=
  match t with
  | .s32 => Machine.zext (((Machine.lo32 a).signExtend 64 * (Machine.lo32 b).signExtend 64).extractLsb' 32 32)
  | .z32 => Machine.zext (((Machine.lo32 a).setWidth 64 * (Machine.lo32 b).setWidth 64).extractLsb' 32 32)
  | .s64 => (a.signExtend 128 * b.signExtend 128).extractLsb' 64 64
  | .z64 => (a.setWidth 128 * b.setWidth 128).extractLsb' 64 64

/-- The quotient and the remainder of R358, its corners apart. -/
def IType.divided (t : IType) (a b : W64) : W64 × W64 :=
  match t with
  | .s32 => (Machine.zext ((Machine.lo32 a).sdiv (Machine.lo32 b)), Machine.zext ((Machine.lo32 a).srem (Machine.lo32 b)))
  | .z32 => (Machine.zext (Machine.lo32 a / Machine.lo32 b), Machine.zext (Machine.lo32 a % Machine.lo32 b))
  | .s64 => (a.sdiv b, a.srem b)
  | .z64 => (a / b, a % b)

/-- The die temperature of a sample, in 0.1 °C. -/
def Sensors.die (x : Sensors) (d : Nat) : Int := (x.dieTemp[d]?).getD 0

/-- The stack temperature of a sample, in 0.1 °C. -/
def Sensors.stack (x : Sensors) (k : Nat) : Int := (x.stackTemp[k]?).getD 0

end Sys2Proof

namespace Sys2Proof.Machine

/-- The block at the head of those in flight stands at a compute slot, with no fault recorded (R146, R169). -/
structure AtSlot (s : State) (f : Frame) : Prop where
  head : s.frames.head? = some f
  slot : f.base ≤ f.at_
  clean : f.faults = []

/-- Nothing but null has been sent to a target in any lane (R146). -/
def Frame.Unfed (f : Frame) (t : Target) : Prop := ∀ l, tokenAt (f.collected t) l = none

/-- The two targets of a word have received nothing and are not one consumer. -/
structure Frame.Open (f : Frame) (g : G) : Prop where
  t0 : f.Unfed g.t0
  t1 : f.Unfed g.t1
  apart : g.t0 = g.t1 → g.t0 = .none

/-- What a target holds in a lane. -/
def Frame.holds (f : Frame) (t : Target) (l : Nat) : Option W64 := tokenAt (f.collected t) l

/-- A block after its running slot has sent `v0` to `T0` and `v1` to `T1` and has fired: nothing else of it has changed but
the word that runs next and the commit number of its first fired slot. -/
structure Frame.SentPair (f : Frame) (g : G) (v0 v1 : Nat → Option W64) (f' : Frame) : Prop where
  t0 : g.t0 ≠ .none → ∀ l, f'.holds g.t0 l = v0 l
  t1 : g.t1 ≠ .none → ∀ l, f'.holds g.t1 l = v1 l
  others : ∀ t, t ≠ g.t0 → t ≠ g.t1 → f'.collected t = f.collected t
  fired : f'.fired = f.fired ++ [f.slot]
  kept : { f' with tokens := f.tokens, fired := f.fired, at_ := f.at_, firstCommit := f.firstCommit } = f

/-- A block after its running slot has sent one value to both targets and has fired. -/
def Frame.Sent (f : Frame) (g : G) (v : Nat → Option W64) (f' : Frame) : Prop := f.SentPair g v v f'

/-- A block after its running slot has left an action to the commit and has fired, sending nothing (R220). -/
structure Frame.Deferred (f : Frame) (d : Deferred) (f' : Frame) : Prop where
  left : f'.deferred = f.deferred ++ [(f.slot, d)]
  fired : f'.fired = f.fired ++ [f.slot]
  kept : { f' with deferred := f.deferred, fired := f.fired, at_ := f.at_, firstCommit := f.firstCommit } = f

/-- A block after its running slot has fired without any other effect on it. -/
structure Frame.Passed (f f' : Frame) : Prop where
  fired : f'.fired = f.fired ++ [f.slot]
  kept : { f' with fired := f.fired, at_ := f.at_, firstCommit := f.firstCommit } = f

/-- The block at the head of those in flight stands at its header or at a register word, with no fault recorded (R316). -/
structure AtRegisterWord (s : State) (f : Frame) : Prop where
  head : s.frames.head? = some f
  word : f.at_ < f.base
  clean : f.faults = []

/-- Two targets of a read word have received nothing and are not one consumer. -/
structure Frame.OpenRead (f : Frame) (r : RWord) : Prop where
  t0 : f.Unfed r.t0
  t1 : f.Unfed r.t1
  apart : r.t0 = r.t1 → r.t0 = .none

/-- A block after a read word has sent `v` to its targets in every active lane: nothing else of it has changed but the word
that runs next (R341). -/
structure Frame.ReadOut (f : Frame) (r : RWord) (v : Nat → W64) (f' : Frame) : Prop where
  t0 : r.t0 ≠ .none → ∀ l, f'.holds r.t0 l = if f.active.getLsbD l then some (v l) else none
  t1 : r.t1 ≠ .none → ∀ l, f'.holds r.t1 l = if f.active.getLsbD l then some (v l) else none
  others : ∀ t, t ≠ r.t0 → t ≠ r.t1 → f'.collected t = f.collected t
  kept : { f' with tokens := f.tokens, at_ := f.at_ } = f

/-- The block has gone on to its next word and has not changed otherwise. -/
def Frame.MovedOn (f f' : Frame) : Prop := { f' with at_ := f.at_ } = f

/-- The block after its running slot has fired `g` and nothing else of it: `g` with the slot marked, the word that runs next,
and the commit number of its first fired slot. -/
structure Frame.FiredAs (f g f' : Frame) : Prop where
  fired : f'.fired = f.fired ++ [f.slot]
  kept : { f' with fired := g.fired, at_ := g.at_, firstCommit := g.firstCommit } = g

/-- A block after its running slot has computed `v` with the flags `fl` in its performing lanes, sent it to both targets,
null elsewhere, and fired (R147, R298, R368). -/
structure Frame.Computed (f : Frame) (g : G) (need : List Opnd) (v : Nat → W64) (fl : Nat → FlagSet) (f' : Frame) : Prop where
  flags : f'.flags = f.flags ++ ((f.performing g.pred need).map fun l => (l, fl l)).filter fun x => x.2 != 0
  sent : ({ f with flags := f'.flags } : Frame).Sent g (fun l => if f.performs g.pred need l then some (v l) else none) f'

/-- A block after its running slot has made the lanes of a list leave it, each in its way, and has fired (R349). -/
structure Frame.Left (f : Frame) (e : List (Nat × Nat × ExitKind)) (f' : Frame) : Prop where
  exits : f'.exits = f.exits ++ e
  fired : f'.fired = f.fired ++ [f.slot]
  kept : { f' with exits := f.exits, fired := f.fired, at_ := f.at_, firstCommit := f.firstCommit } = f

/-- The value of a one-operand instruction in a lane: null unless the lane performs (R147). -/
def Frame.lane1 (f : Frame) (p : Pred) (r : W64 → W64) (l : Nat) : Option W64 :=
  if f.passes p l then (f.arg .a l).map r else none

/-- The value of a two-operand instruction in a lane: null unless the lane performs (R147). -/
def Frame.lane2 (f : Frame) (p : Pred) (r : W64 → W64 → W64) (l : Nat) : Option W64 :=
  if f.passes p l then (f.arg .a l).bind fun a => (f.arg .b l).map (r a) else none

/-- The value of a three-operand instruction in a lane: null unless the lane performs (R147). -/
def Frame.lane3 (f : Frame) (p : Pred) (r : W64 → W64 → W64 → W64) (l : Nat) : Option W64 :=
  if f.passes p l then (f.arg .a l).bind fun a => (f.arg .b l).bind fun b => (f.arg .c l).map (r a b) else none

/-- The instruction `i` runs in the block `f` at the head of `s`, and leaves the block as `p` says and the rest of the
machine as it was. -/
def Runs (i : Instr) (s : State) (p : Frame → Prop) : Prop := ∃ f', p f' ∧ exec i s = .next (s.setFrame f')

/-- An instruction computes in every performing lane a value of `width` bits, and raises flags there (R368, R375). -/
def Computes (i : Instr) (s : State) (f : Frame) (g : G) (need : List Opnd) (width : Nat) : Prop :=
  Runs i s fun f' => ∃ v fl, f.Computed g need v fl f' ∧ ∀ l, (v l).toNat < 2 ^ width

/-- The magnitude of a finite value. -/
def Val.magnitude : Val → Rat
  | .fin _ m e => (m : Rat) * (2 : Rat) ^ e
  | _ => 0

/-- The value of a finite operand. -/
def Val.rat (v : Val) : Rat := if v.neg then -v.magnitude else v.magnitude

/-- The number that an exact result without `sticky` stands for. -/
def Exact.rat (x : Exact) : Rat := if x.neg then -((x.m : Rat) * (2 : Rat) ^ x.e) else (x.m : Rat) * (2 : Rat) ^ x.e

/-- An exact result of sign `neg` stands for a magnitude `q`: it is `q`, or with `sticky` `q` lies strictly between it and the
next number of 64 bits or more, which lies between no two neighbours of any format. -/
def Exact.Holds (x : Exact) (neg : Bool) (q : Rat) : Prop :=
  x.neg = neg ∧
  if x.sticky then 2 ^ 64 ≤ x.m ∧ (x.m : Rat) * (2 : Rat) ^ x.e < q ∧ q < ((x.m : Rat) + 1) * (2 : Rat) ^ x.e
  else (x.m : Rat) * (2 : Rat) ^ x.e = q

/-- A value and its flags are an exact result rounded once to a format under the modifiers of a slot (R296 to R299). -/
def Rounded (x : Exact) (t : Fmt) (r : Rounding) (ftz : Bool) (y : W64 × FlagSet) : Prop := y = (Ideal.num x).write t r ftz 0

/-- An instruction computes in each lane a value and flags of which `p` holds (R368). -/
def Gives (i : Instr) (s : State) (f : Frame) (g : G) (need : List Opnd) (p : Nat → W64 × FlagSet → Prop) : Prop :=
  Runs i s fun f' => ∃ v fl, f.Computed g need v fl f' ∧ ∀ l, p l (v l, fl l)

/-- An integer operand of a conversion (R295, R377). -/
def intOperand (t : Fmt) (a : W64) : Int :=
  match t with
  | .s8 => (a.extractLsb' 0 8).toInt
  | .s32 => (lo32 a).toInt
  | .z32 => (lo32 a).toNat
  | .s64 => a.toInt
  | _ => a.toNat

/-- An integer clamped to 0 to 254, as a scale is (R302, Table 11.10). -/
def clampScale (k : Int) : Nat := if k < 0 then 0 else if 254 < k then 254 else k.toNat

/-- The DRAM bank group, counted over the stack, of the byte at a window offset (R270, Table 8.4). -/
def bankGroup (o : Nat) : Nat := 8 * ((o / 2 ^ 7 % 32) ^^^ (o / 2 ^ 16 % 32)) + 4 * (o / 2 ^ 6 % 2) + o / 2 ^ 12 % 4

/-- What a node of the near-bank tree makes of its children from left to right: those without a partial are skipped (R273). -/
def folded (op : Nat → Nat → Nat) (children : List (Option Nat)) : Option Nat :=
  match children.filterMap id with
  | [] => none
  | a :: rest => some (rest.foldl op a)

/-- The near-bank tree over the leaves of the 256 bank groups: four of them a pseudo-channel, two of those a channel, and the
32 channels at the pier core (R271, R273). -/
def bankTree (op : Nat → Nat → Nat) (leaf : Nat → Option Nat) : Option Nat :=
  let node := fun (k : Nat) (below : Nat → Option Nat) n => folded op ((List.range k).map fun i => below (k * n + i))
  node 32 (node 2 (node 4 leaf)) 0

/-- The operators of Table 10.5 but `dot`; a pair has m in its low word, and any NaN gives NaN. -/
def bankOp (op : NbOp) (a b : Nat) : Nat :=
  let plus := fun (x y : Nat) => (add32 (BitVec.ofNat 64 x) (BitVec.ofNat 64 y)).1.toNat
  match op with
  | .isum => (a + b) % 2 ^ 32
  | .fmax => (minMax .f32 true false a b).1.toNat
  | .ses =>
    let m := (minMax .f32 true true (a % 2 ^ 32) (b % 2 ^ 32)).1.toNat
    m + 2 ^ 32 * plus (mulCode (a / 2 ^ 32) (expCode (a % 2 ^ 32) m)) (mulCode (b / 2 ^ 32) (expCode (b % 2 ^ 32) m))
  | _ => plus a b

/-- The instruction `i` runs in the block `f`, leaves the block as `p` says and the rest of the machine as `t` is. -/
def RunsTo (i : Instr) (s t : State) (p : Frame → Prop) : Prop := ∃ f', p f' ∧ exec i s = .next (t.setFrame f')

/-- The block with an action of its running slot left to the commit (R220). -/
def Frame.leaving (f : Frame) (d : Machine.Deferred) : Frame := { f with deferred := f.deferred ++ [(f.slot, d)] }

/-- The block with its running slot's LSID performed in some lanes (R148). -/
def Frame.claiming (f : Frame) (lanes : List Nat) : Frame :=
  { f with performed := f.performed ++ lanes.map fun l => (f.lsidOf f.slot, l, f.slot) }

/-- No lane of a list has performed the running slot's LSID (R148). -/
def Frame.Unclaimed (f : Frame) (lanes : List Nat) : Prop :=
  ∀ x ∈ f.performed, x.1 = f.lsidOf f.slot → x.2.1 ∉ lanes

/-- No store is being sent, no first-level cache or stash holds a line, every near-bank unit stands as after reset, and
nothing that has been obtained at its home is yet to be obtained on a die. -/
structure State.Settled (s : State) : Prop where
  writes : s.writes = []
  l1 : s.l1 = []
  stashMaps : s.stashMaps = []
  stashLines : s.stashLines = []
  banks : s.nearBanks = []
  arrived : ∀ u ∈ s.unarrived, u.due = false ∧ u.seq < s.nextWrite

/-- No write of the block's warp has been lost, and no packet is out: nothing that a release reports or waits for. -/
structure State.NothingLost (s : State) (f : Frame) : Prop where
  host : (s.frameWarp f).lostHost = 0
  remote : (s.frameWarp f).lostRemote = []
  out : s.pod.out = []
  packets : s.packets = []

/-- What a read of a byte on a core shows: on-core storage, a register region, a host's memory, a memory-side byte at its
controller, and another byte of HBM as the die's L2 showed it at a moment (R221) or, for an acquire at `.pkg` and wider, at its
home (R224, R232); under a race with a near-memory call any value that the byte has had (R268). -/
def State.showsAt (s : State) (atHome : Bool) (core moment : Nat) : Place → Byte
  | .hbm phys a =>
    s.racedByte core phys (if a.memside || atHome then s.homeByte phys else s.l2At (coreDie core) phys moment)
  | .store k o => sget 0 s.store (k * Config.storeSpan + o)
  | .regWin slot o => match s.warp? ⟨core, slot⟩ with | some w => w.regionByte o | none => 0
  | .host port a => sget 0 s.host (hostAddr port a)

/-- What a read of a byte on a core shows now. -/
def State.shows (s : State) (atHome : Bool) (core : Nat) (p : Place) : Byte := s.showsAt atHome core s.moments p

/-- No access by a core to a byte of some places races a near-memory call (R268). -/
def State.Unraced (s : State) (core : Nat) (places : List Place) : Prop := ∀ x ∈ hbmBytes places, s.racedCall? core x = none

/-- A load may run: each performing lane's access passes its checks and reads no poison, its LSID is free there, and its
targets have received nothing. -/
structure LoadReady (s : State) (f : Frame) (pred : Pred) (width : Width) (off : BitVec 8) (t0 : Target)
    (places : Nat → List Place) : Prop where
  unclaimed : f.Unclaimed (f.performing pred [.a])
  checked : ∀ l ∈ f.performing pred [.a], s.access (s.who f) .read (f.ea off width.bytes l) width.bytes = .ok (places l)
  sound : ∀ l ∈ f.performing pred [.a], ∀ p ∈ places l, s.placePoisoned p = false
  unfed : f.Unfed t0
  unfedHigh : width = .b128 → f.Unfed (nextTarget t0) ∧ (nextTarget t0 = t0 → t0 = .none)

/-- A block after its running slot has loaded bytes in its performing lanes: little-endian and zero-extended to `T0`, the
high half of 128 bits to the next target, null elsewhere (R322, R389). -/
structure Frame.Loaded (f : Frame) (pred : Pred) (width : Width) (t0 : Target) (bytes : Nat → List Byte) (f' : Frame) :
    Prop where
  low : t0 ≠ .none → ∀ l, f'.holds t0 l =
    if f.performs pred [.a] l then some (BitVec.ofNat 64 (leNat ((bytes l).take 8))) else none
  high : width = .b128 → nextTarget t0 ≠ .none → ∀ l, f'.holds (nextTarget t0) l =
    if f.performs pred [.a] l then some (BitVec.ofNat 64 (leNat ((bytes l).drop 8))) else none
  others : ∀ t, t ≠ t0 → (width = .b128 → t ≠ nextTarget t0) → f'.collected t = f.collected t
  fired : f'.fired = f.fired ++ [f.slot]
  kept : { f' with
    tokens := f.tokens, fired := f.fired, at_ := f.at_, firstCommit := f.firstCommit, readSig := f.readSig
    startCommit := f.startCommit } = f.claiming (f.performing pred [.a])
  signature : f.shape.iso = false → f'.readSig = f.readSig ∧ f'.startCommit = f.startCommit

/-- The lanes of a store, and the bytes it stores in a lane: the low bytes of operand b, and for 128 bits those of b and
then of c (R322). -/
def Frame.storing (f : Frame) (pred : Pred) (width : Width) : List Nat :=
  f.performing pred (if width = .b128 then [.a, .b, .c] else [.a, .b])

/-- The bytes a store takes from its operands in a lane (R322). -/
def Frame.stored (f : Frame) (width : Width) (l : Nat) : List Byte :=
  (List.range width.bytes).map fun i =>
    if i < 8 then (f.val .b l).extractLsb' (8 * i) 8 else (f.val .c l).extractLsb' (8 * (i - 8)) 8

/-- A store may run: each performing lane's access passes its checks, and its LSID is free there. -/
structure StoreReady (s : State) (f : Frame) (pred : Pred) (width : Width) (off : BitVec 8) (places : Nat → List Place) :
    Prop where
  unclaimed : f.Unclaimed (f.storing pred width)
  checked : ∀ l ∈ f.storing pred width, s.access (s.who f) .write (f.ea off width.bytes l) width.bytes = .ok (places l)

/-- The new value of an element under an atomic operation (Table 15.5). -/
def combined (op : AOp) (wide : Bool) (old b : W64) : W64 :=
  let s : IType := if wide then .s64 else .s32
  let z : IType := if wide then .z64 else .z32
  match op with
  | .add => z.on2 (fun x y => x + y) old b
  | .minS => z.keep (if s.below b old then b else old)
  | .minZ => z.keep (if z.below b old then b else old)
  | .maxS => z.keep (if s.below old b then b else old)
  | .maxZ => z.keep (if z.below old b then b else old)
  | .and => z.on2 (fun x y => x &&& y) old b
  | .or => z.on2 (fun x y => x ||| y) old b
  | .xor => z.on2 (fun x y => x ^^^ y) old b
  | .exch => z.keep b
  | .addF32 => floatSum .f32 old b
  | .addF64 => floatSum .f64 old b
  | .addBf16 => floatSum .bf16 old b

/-- An atomic may run: each performing lane passes its checks, its LSID is free there, and it is no second run (R153). -/
structure AtomicReady (s : State) (f : Frame) (lanes : List Nat) (op : AOp) (wide isCas : Bool) (order : Order)
    (places : Nat → List Place) : Prop where
  unclaimed : f.Unclaimed lanes
  checked : ∀ l ∈ lanes, s.atomicPlaces (s.who f) op wide isCas (f.val .a l) = .ok (places l)
  first : s.kept? f = none
  released : orderReleases order = true → s.NothingLost f

/-- A block after an atomic without a target has left its operations to the commit (R394). -/
def Frame.AtomicLeft (f : Frame) (lanes : List Nat) (op : AOp) (wide isCas : Bool) (order : Order) (scope : Scope)
    (places : Nat → List Place) (f' : Frame) : Prop :=
  f.FiredAs { (f.claiming lanes).leaving (.atomic (f.lsidOf f.slot) op wide isCas order scope
      (lanes.map fun l => (l, f.val .a l, places l, f.val .b l, f.val .c l))) with
    readSig := f'.readSig, writeSig := f'.writeSig, startCommit := f'.startCommit } f'

/-- A block after an atomic with a target keeps what was returned while it is bound, and has sent it (R153, R394). -/
structure Frame.AtomicBound (f : Frame) (lanes : List Nat) (t0 : Target) (v : Nat → W64) (f' : Frame) : Prop where
  sent : ∀ l, f'.holds t0 l = if l ∈ lanes then some (v l) else none
  bound : ∃ r, f'.bound = some r ∧ r.block = f.pc ∧ r.lanes = maskOf lanes ∧ r.record = none ∧
    ∀ l, tokenAt r.tok l = if l ∈ lanes then some (v l) else none
  others : ∀ t, t ≠ t0 → f'.collected t = f.collected t
  fired : f'.fired = f.fired ++ [f.slot]
  kept : { f' with
    tokens := f.tokens, fired := f.fired, at_ := f.at_, firstCommit := f.firstCommit, readSig := f.readSig
    writeSig := f.writeSig, startCommit := f.startCommit, bound := f.bound } = f.claiming lanes

/-- A block after an irrevocable instruction has sent one status to both targets of its performing lanes, and is bound
(R153). -/
def Frame.StatusSent (f : Frame) (g : G) (need : List Opnd) (status : W64) (f' : Frame) : Prop :=
  (∃ r, f'.bound = some r ∧ r.block = f.pc) ∧
  ({ f with bound := f'.bound } : Frame).Sent g (fun l => if f.performs g.pred need l then some status else none) f'

/-- The block stands at a fault of its running slot alone, and nothing of it can still fire (R169). -/
def Frame.Stuck (f : Frame) (i : FaultInfo) : Prop := ({ f with faults := [i] } : Frame).nextSlot? = none

/-- The instruction `i` takes the fault `info` at once: the block goes, and the exception is taken (R154, R169). -/
def Takes (i : Instr) (s : State) (f : Frame) (info : FaultInfo) : Prop :=
  ∃ n : Option Nat, let f' := { f with faults := [info], firstCommit := n }
    exec i s = .next ((s.setFrame f').takeFault f' info)

/-- Nothing of the block can still fire below the faults of its running slot (R169). -/
def Frame.StuckAt (f : Frame) (infos : List FaultInfo) : Prop := ({ f with faults := infos } : Frame).nextSlot? = none

/-- The instruction `i` records a fault in each of some lanes, and the one fault `info` that names them all is taken at once:
the block goes, and the exception is taken (R154, R169). -/
def TakesEach (i : Instr) (s : State) (f : Frame) (infos : List FaultInfo) (info : FaultInfo) : Prop :=
  ∃ n : Option Nat, let f' := { f with faults := infos, firstCommit := n }
    exec i s = .next ((s.setFrame f').takeFault f' info)

/-- The stored bytes of every memory are in canonical form. -/
structure State.Canonical (s : State) : Prop where
  hbm : Memory.wf s.hbm = true
  host : Memory.wf s.host = true
  store : Memory.wf s.store = true
  tiles : Memory.wf s.tiles = true

/-- A queue answers requests from its head record, which is well formed and neither cancelled nor a candidate for
substitution (R82, R108, R115, R131). -/
structure Deliverable (s : State) (w : Warp) (first count : Nat) (q : WorkQueue) : Prop where
  only : (s.queues.filter fun x => s.eligibleQueue w first count x) = [q]
  found : s.queue? q.num = some q
  home : q.home < 4
  formed : s.recordMalformed q (s.recordAt q q.head) = false
  live : s.recordCancelled q (s.recordAt q q.head) = false
  plain : (s.recordAt q q.head).getLsbD 346 = false

/-- A warp that may ask for work: its block is the head one, it holds no record and no queue, and its `deq` is legal (R84,
R421). -/
structure MayAsk (s : State) (f : Frame) (w : Warp) (a : W64) : Prop where
  warp : s.warp? f.warp = some w
  first : s.kept? f = none
  held : w.held = none
  free : ∀ q ∈ s.queues, q.exclHolder ≠ some w.id
  left : w.deqLeft = none
  legal : deqBad w a = false

/-- No warp is parked on a `deq`. -/
def State.NoneParked (s : State) : Prop := ∀ w ∈ s.warps, ∀ r, w.status ≠ .parkedDeq r

/-- The event `i` takes place, and the machine it leaves is as `p` says. -/
def Ends (i : Instr) (s : State) (p : State → Prop) : Prop := ∃ t, exec i s = .next t ∧ p t

/-- No privileged queue waits for a completion (R95). -/
def State.NoneBusy (s : State) : Prop := ∀ x ∈ s.priv, x.2.busy = none

/-- A privileged command reaches a module that runs its queue at once: the completion address is aligned, no byte is set
that no argument names, and no completion is outstanding (R94, R95, R97). -/
structure Commanded (s : State) (vf : VF) (cmd : W512) (named : List (Nat × Nat)) : Prop where
  ready : s.startup.ready = true
  aligned : cmdArg cmd 8 8 % 16 = 0
  idle : s.NoneBusy
  plain : cmdClear cmd named = true

/-- The command `i` is performed as `t`, and its completion record holds its number, the status *ok* and a result (R94). -/
def Performs (i : Instr) (s t : State) (vf : VF) (cmd : W512) (result : Nat) : Prop :=
  let bytes : List Byte := leBytes 2 (cmdArg cmd 2 2) ++ [0, 0, 0, 0, 0, 0] ++ leBytes 8 result
  exec i s = .next { t with host := setBytes t.host (hostAddr vf.port (cmdArg cmd 8 8)) bytes }

/-- A command for a context of its own function (R96). -/
structure OwnContext (s : State) (vf : VF) (n : Nat) (c : Context) : Prop where
  found : s.context? n = some c
  mine : c.vf = vf

/-- A mailbox command that runs: the management processor has power and serves the mailbox, and the module is not locked,
unless the command runs on a locked module too (R58, R65). -/
structure Mailed (s : State) (port : Bool) (arglen : BitVec 24) (always : Bool) : Prop where
  on : s.power.auxiliary = true
  serving : (s.mailbox port).serving = true
  unlocked : always = false → s.startup.locked = false
  short : arglen.toNat ≤ 4096

/-- The mailbox command `i` is performed as `t`, and its mailbox shows a code and a result (R65, Table 3.5). -/
def Answers (i : Instr) (s t : State) (port : Bool) (code : BitVec 8) (result : List Byte) : Prop :=
  exec i s = .next (t.setMailbox port { t.mailbox port with
    busy := false, cmd := none, serving := false, done := true, code := code, reslen := BitVec.ofNat 16 result.length
    data := setBytes (t.mailbox port).data 0 result })

/-- The mailbox command `i` is written while the port's mailbox is not being served: it waits its turn, or, behind one that
waits, it sets `OVERRUN` and is lost (R65). -/
def Posts (i : Instr) (s : State) (port : Bool) : Prop :=
  let m := s.mailbox port
  exec i s = .next (s.setMailbox port (if m.busy then { m with overrun := true } else { m with busy := true, cmd := some i }))

/-- A strand may fetch the block whose words are `ws`: the words are laid out in memory that may be executed, they pass the
checks of a block, and nothing else holds the strand back (R145, R152, R154). -/
structure Fetchable (s : State) (w : Warp) (st : Strand) (ws : List W32) (b : DecodedBlock) : Prop where
  warp : s.warp? w.id = some w
  strand : w.strand? st.id = some st
  may : s.canFetch w st = true
  token : s.needsToken w st = false
  early : s.early? w st = none
  record : s.cancelledRecord w = false
  whole : ws.length ≠ 0 ∧ blockWords (ws.headD 0) = some ws.length
  laid : ∀ (i : Nat) (h : i < ws.length), let a := st.pc + BitVec.ofNat 64 (4 * i)
    windowOf a.toNat = .global ∧ ∃ ps, s.access w.issuer .fetch a 4 = .ok ps ∧
      (∀ q ∈ ps, s.placePoisoned q = false) ∧ BitVec.ofNat 32 (leNat (ps.map (s.shows false w.id.core))) = ws[i]
  legal : illegalAt w.pier.isSome ws = none
  decoded : decodeBlock ws = some b
  registers : b.registerFault w.vregs = false
  drained : s.awaitsDrain w.id ws = false
  settled : s.Settled

/-- The head block is complete: all its slots have fired, each lane has left it once, in the same way, and it belongs to the
one strand of its warp, which holds no record and waits for nothing (R150, R343). -/
structure Complete (s : State) (f : Frame) (w : Warp) (st : Strand) (e : ExitKind) : Prop where
  head : s.frames.head? = some f
  fired : f.allFired = true
  clean : f.faults = []
  left : ∃ k < f.shape.cnt, f.exits = (lanesOf st.mask).map fun l => (l, k, e)
  active : f.active = st.mask
  some_ : st.mask ≠ 0
  warp : s.warp? f.warp = some w
  named : w.id = f.warp
  one : w.strands = [st]
  strand : st.id = f.strand
  place : st.place = .active
  first : st.id < w.nextStrand
  loose : f.bound = none ∧ s.awaitsDrain f.warp f.words = false
  idle : w.deposits = [] ∧ w.held = none ∧ st.hold = []
  copies : ∀ c ∈ s.copies, c.who.serial ≠ w.serial

/-- The block leaves nothing to its commit but register writes: no store, no deferred action and no flag. -/
def Frame.Quiet (f : Frame) : Prop := f.stores = [] ∧ f.deferred = [] ∧ f.flags = []

/-- The head block is complete, leaves one action of slot `k` to its commit, and nothing else but register writes and flags;
nobody holds its die's serial token. -/
structure Leaves (s : State) (f : Frame) (w : Warp) (st : Strand) (pc : W64) (k : Nat) (d : Deferred) : Prop where
  complete : Complete s f w st (.go pc)
  loose : f.shape.iso = false
  stores : f.stores = []
  action : f.deferred = [(k, d)]
  slot : k < f.shape.cnt
  token : (s.arbiter (coreDie f.warp.core)).holder = none

/-- The four bits of a line of device memory are in a signature (R155). -/
def Signed (sig : List Nat) (phys : Nat) : Prop :=
  let h := (mix64 (BitVec.ofNat 64 (phys / 64))).toNat
  ∀ b ∈ [h % 2 ^ 10, h / 2 ^ 10 % 2 ^ 10, h / 2 ^ 20 % 2 ^ 10, h / 2 ^ 30 % 2 ^ 10], b ∈ sig

/-- An isolated block after a load in some lanes: its lines are in the read signature, and it has the number of the commit
that its arbiter had reached at its first load (R155, R156, R235). -/
def Frame.Noted (f : Frame) (s : State) (lanes : List Nat) (places : Nat → List Place) (f' : Frame) : Prop :=
  f.shape.iso = true → ∀ l ∈ lanes, f'.startCommit = some (f.startCommit.getD (s.reachedCommit (coreDie f.warp.core))) ∧
    ∀ x a, .hbm x a ∈ places l → Signed f'.readSig x

/-- An isolated block conflicts (R157): a block that committed since its first load, or since its first fired slot, has a
signature in common with it, or is no longer kept. -/
def State.Conflicting (s : State) (f : Frame) : Prop :=
  let a := s.arbiter (coreDie f.warp.core)
  let since := match f.startCommit with | some n => n | none => f.firstCommit.getD a.number
  (a.history.filter fun h => since < h.1).length < a.number - since ∨
  ∃ h ∈ a.history, since < h.1 ∧ ∃ b ∈ h.2, b ∈ f.readSig ∨ b ∈ f.writeSig

/-- What a commit leaves of a block and its one strand: the frame is gone, the register writes are done but for the flags,
and the strand stands as `st'` (R142, R143, R342). -/
def State.Committed (s t : State) (f : Frame) (w : Warp) (st' : Strand) : Prop :=
  (∀ x ∈ t.frames, ¬(x.warp = f.warp ∧ x.strand = f.strand)) ∧
  ∃ w', t.warp? f.warp = some w' ∧ w'.v = (w.applyWrites f).v ∧ w'.s = (w.applyWrites f).s ∧ w'.strands = [st']

/-- A strand gone on at an address after a commit of a block (R142, R153, R158). -/
def Strand.gone (st : Strand) (block pc : W64) : Strand :=
  { st with pc := pc, restarts := 0, held := none, replay := st.replay.filter fun r => r.block ≠ block }

/-- A fetched block's first lanes and shape (R144, R152). -/
def State.Fetched (s : State) (w : Warp) (st : Strand) (ws : List W32) (b : DecodedBlock) : State :=
  { s with frames := freshFrame w.id st.id st.pc ws b.shape st.mask :: s.frames }

/-- The module has lost what a start takes from it: every context, warp, block and queue, with the registers at their reset
values and the start before its first step (R55, R56). -/
structure State.Restarted (t : State) : Prop where
  contexts : t.contexts = []
  warps : t.warps = []
  frames : t.frames = []
  queues : t.queues = []
  step : t.startup.step = 0
  ready : t.startup.ready = false
  limit : t.power.hostLimit = 4200
  pod : t.pod.timeout = 5000 ∧ t.pod.self = 0x3ff ∧ t.pod.enable = false

/-- The bytes of a list of places on a core are those of a list. -/
def State.holdsAt (s : State) (core : Nat) (places : List Place) (bytes : List Byte) : Prop :=
  places.map (s.placeByte core) = bytes

/-- Places of HBM of this die's address map, without a replica and each once. -/
def PlainPlaces (places : List Place) : Prop :=
  (places.map Place.key).Nodup ∧ ∀ q ∈ places, ∃ x y, q = .hbm x y ∧ y.repl = false

/-- A packet that R284 lets in: its windows and elements, its step, its deadline, and no poisoned line. -/
structure PacketReady (s : State) (ctx : Nat) (rec_ : W64) (p : W512) : Prop where
  formed : packetMalformed p = false
  inside : ∃ w, s.packetWindows ctx p = some w ∧ packetInside p w.1 = true
  group : packetField p 0 1 = 2 → packetField p 8 4 % 256 = 0 ∧ packetField p 8 4 / 256 < s.stepField ctx rec_ 8
  step : packetField p 4 4 = s.stepField ctx rec_ 0
  deadline : s.stepField ctx rec_ 4 = 0xffffffff
  sound : s.poisoned = []

/-- The warp of a serial number. -/
def State.serialWarp (s : State) (n : Nat) : Option Warp := s.warps.find? fun w => w.serial = n

/-- No strand of a list is held (R175). -/
def Unheld (sts : List Strand) : Prop := ∀ st ∈ sts, st.held = none

end Sys2Proof.Machine
end

