-- ==== Sys2Proof/Certificates/Slice0/Obligations.lean ====
section
/-!
DEFINITION. The statements about this machine. Each docstring names the rules of spec/ it formalises.
-/
open Sys2Proof Sys2Proof.Machine

/-- `add`, `sub`, `mul`, `mad` and `neg` work modulo 2^w on the low w bits of their operands, and give both targets the
result in every performing lane; nothing else changes (R357, Table 13.7). -/
def Obligations.WrappingArithmetic : Prop :=
  ∀ (s : State) (f : Frame) (g : G) (t : IType), AtSlot s f → f.Open g →
    Runs (.add g t) s (f.Sent g (f.lane2 g.pred (t.on2 fun a b => a + b))) ∧
    Runs (.sub g t) s (f.Sent g (f.lane2 g.pred (t.on2 fun a b => a - b))) ∧
    Runs (.mul g t) s (f.Sent g (f.lane2 g.pred (t.on2 fun a b => a * b))) ∧
    Runs (.mad g t) s (f.Sent g (f.lane3 g.pred (t.on3 fun a b c => a * b + c))) ∧
    Runs (.neg g t) s (f.Sent g (f.lane1 g.pred (t.on1 fun a => -a)))

/-- `mulhi` gives the upper half of the exact product, `abs` the magnitude modulo 2^w, `min` and `max` the lesser and the
greater, each as the type reads its operands (R357, Table 13.7). -/
def Obligations.TypedArithmetic : Prop :=
  ∀ (s : State) (f : Frame) (g : G) (t : IType) (u : SType), AtSlot s f → f.Open g →
    Runs (.mulhi g t) s (f.Sent g (f.lane2 g.pred t.upper)) ∧
    Runs (.abs g u) s (f.Sent g (f.lane1 g.pred (u.toI.on1 fun a => if a.msb then -a else a))) ∧
    Runs (.min g t) s (f.Sent g (f.lane2 g.pred fun a b => t.keep (if t.below b a then b else a))) ∧
    Runs (.max g t) s (f.Sent g (f.lane2 g.pred fun a b => t.keep (if t.below a b then b else a)))

/-- `div` truncates toward zero and `rem` takes the sign of the dividend; a divisor of 0 gives all ones and the dividend
(R358). The overflowing signed division is that of two's complement: the dividend, and 0. -/
def Obligations.DivisionAndRemainder : Prop :=
  ∀ (s : State) (f : Frame) (g : G) (t : IType), AtSlot s f → f.Open g →
    Runs (.div g t) s (f.Sent g (f.lane2 g.pred fun a b =>
      if t.keep b = 0 then t.keep (BitVec.allOnes 64) else (t.divided a b).1)) ∧
    Runs (.rem g t) s (f.Sent g (f.lane2 g.pred fun a b =>
      if t.keep b = 0 then t.keep a else (t.divided a b).2))

/-- The logic instructions and the shifts, with amounts of w and more as Table 13.9 gives them (R360). -/
def Obligations.LogicAndShifts : Prop :=
  ∀ (s : State) (f : Frame) (g : G) (t : ZType), AtSlot s f → f.Open g →
    Runs (.and g t) s (f.Sent g (f.lane2 g.pred (t.toI.on2 fun a b => a &&& b))) ∧
    Runs (.or g t) s (f.Sent g (f.lane2 g.pred (t.toI.on2 fun a b => a ||| b))) ∧
    Runs (.xor g t) s (f.Sent g (f.lane2 g.pred (t.toI.on2 fun a b => a ^^^ b))) ∧
    Runs (.andn g t) s (f.Sent g (f.lane2 g.pred (t.toI.on2 fun a b => a &&& ~~~b))) ∧
    Runs (.not g t) s (f.Sent g (f.lane1 g.pred (t.toI.on1 fun a => ~~~a))) ∧
    Runs (.shl g t) s (f.Sent g (f.lane2 g.pred fun a b => t.toI.on1 (fun x => x <<< (lo32 b).toNat) a)) ∧
    Runs (.shr g t) s (f.Sent g (f.lane2 g.pred fun a b => t.toI.on1 (fun x => x >>> (lo32 b).toNat) a)) ∧
    Runs (.sar g t) s (f.Sent g (f.lane2 g.pred fun a b => t.toI.on1 (fun x => x.sshiftRight (lo32 b).toNat) a)) ∧
    Runs (.rotl g t) s (f.Sent g (f.lane2 g.pred fun a b => t.toI.on1 (fun x => x.rotateLeft (lo32 b).toNat) a))

/-- Leading zeros, trailing zeros, set bits and the reversal of the low w bits (Table 13.9). -/
def Obligations.BitCounts : Prop :=
  ∀ (s : State) (f : Frame) (g : G) (t : ZType), AtSlot s f → f.Open g →
    Runs (.clz g t) s (f.Sent g (f.lane1 g.pred (t.toI.on1 BitVec.clz))) ∧
    Runs (.ctz g t) s (f.Sent g (f.lane1 g.pred (t.toI.on1 BitVec.ctz))) ∧
    Runs (.popc g t) s (f.Sent g (f.lane1 g.pred (t.toI.on1 BitVec.cpop))) ∧
    Runs (.brev g t) s (f.Sent g (f.lane1 g.pred (t.toI.on1 BitVec.reverse)))

/-- `bfx` takes the field of length l′ at position p′ and extends it by type, and `bfi` puts the low bits of b there
(R361), bit by bit. -/
def Obligations.BitFields : Prop :=
  ∃ (x : IType → W64 → W64 → W64) (r : ZType → W64 → W64 → W64 → W64),
    (∀ t a b i, i < 64 →
      let p := min (b.toNat % 256) t.width
      let l := min (b.toNat / 256 % 256) (t.width - p)
      (x t a b).getLsbD i = if i < l then a.getLsbD (p + i)
        else decide (i < t.width) && t.signed && decide (0 < l) && a.getLsbD (p + l - 1)) ∧
    (∀ t a b c i, i < 64 →
      let p := min (c.toNat % 256) t.toI.width
      let l := min (c.toNat / 256 % 256) (t.toI.width - p)
      (r t a b c).getLsbD i = if p ≤ i ∧ i < p + l then b.getLsbD (i - p)
        else decide (i < t.toI.width) && a.getLsbD i) ∧
    ∀ (s : State) (f : Frame) (g : G), AtSlot s f → f.Open g →
      (∀ t, Runs (.bfx g t) s (f.Sent g (f.lane2 g.pred (x t)))) ∧
      ∀ t, Runs (.bfi g t) s (f.Sent g (f.lane3 g.pred (r t)))

/-- `sel` takes the operand its condition chooses, and the operand not chosen may be null (R362). -/
def Obligations.Selection : Prop :=
  ∀ (s : State) (f : Frame) (g : G) (t : ZType), AtSlot s f → f.Open g →
    Runs (.sel g t) s (f.Sent g fun l =>
      if f.passes g.pred l then
        (f.arg .c l).bind fun c => (if c.getLsbD 0 then f.arg .a l else f.arg .b l).map t.toI.keep
      else none)

/-- `setp` compares by type, and the predicate instructions act on bit 0 of their operands; each sends 0 or 1 (R363,
R364). -/
def Obligations.ComparisonsAndPredicates : Prop :=
  ∀ (s : State) (f : Frame) (g : G) (t : IType), AtSlot s f → f.Open g →
    let bit := fun (x : W64) => x.getLsbD 0
    let sends := fun (b : Bool) => (if b then 1 else 0 : W64)
    Runs (.setp g .eq t) s (f.Sent g (f.lane2 g.pred fun a b => sends (decide (t.keep a = t.keep b)))) ∧
    Runs (.setp g .ne t) s (f.Sent g (f.lane2 g.pred fun a b => sends (decide (t.keep a ≠ t.keep b)))) ∧
    Runs (.setp g .lt t) s (f.Sent g (f.lane2 g.pred fun a b => sends (t.below a b))) ∧
    Runs (.setp g .le t) s (f.Sent g (f.lane2 g.pred fun a b => sends (!t.below b a))) ∧
    Runs (.setp g .gt t) s (f.Sent g (f.lane2 g.pred fun a b => sends (t.below b a))) ∧
    Runs (.setp g .ge t) s (f.Sent g (f.lane2 g.pred fun a b => sends (!t.below a b))) ∧
    Runs (.pand g) s (f.Sent g (f.lane2 g.pred fun a b => sends (bit a && bit b))) ∧
    Runs (.por g) s (f.Sent g (f.lane2 g.pred fun a b => sends (bit a || bit b))) ∧
    Runs (.pxor g) s (f.Sent g (f.lane2 g.pred fun a b => sends (bit a != bit b))) ∧
    Runs (.pnot g) s (f.Sent g (f.lane1 g.pred fun a => sends (!bit a)))

/-- `isect` sends the intersection of two bitmap words to `T0` and both bit counts to `T1` (R365); `isect.x` sends, in the
lanes whose bit is set in both words, the number of set bits below it in each, and null in the others (R366). -/
def Obligations.BitmapIntersection : Prop :=
  ∀ (s : State) (f : Frame) (g : G), AtSlot s f → f.Open g →
    let below := fun (x : W64) (l : Nat) => zext (x.setWidth l).cpop
    Runs (.isect g) s (f.SentPair g
      (f.lane2 g.pred fun a b => zext (lo32 a &&& lo32 b))
      (f.lane2 g.pred fun a b => join32 (lo32 b).cpop (lo32 a).cpop)) ∧
    Runs (.isectX g) s (f.SentPair g
      (fun l => (f.lane2 g.pred (fun a b => if a.getLsbD l && b.getLsbD l then 1 else 0) l).bind fun x =>
        if x = 1 then (f.arg .a l).map fun a => below a l else none)
      (fun l => (f.lane2 g.pred (fun a b => if a.getLsbD l && b.getLsbD l then 1 else 0) l).bind fun x =>
        if x = 1 then (f.arg .b l).map fun b => below b l else none))

/-- `movi` sends its immediate, widened by a preceding `ext`; `fan` its operand unchanged; `null` null in every active
lane; `lea` the 64-bit address a + (b′ shl k) modulo 2^64 (R327, R344, R345, R346, R359). -/
def Obligations.MovesAndAddresses : Prop :=
  ∀ (s : State) (f : Frame) (g : G) (imm : BitVec 15) (t : IType), AtSlot s f → f.Open g →
    (g.t1 = .none → Runs (.movi g.pred imm g.t0) s (f.Sent g fun l =>
      if f.passes g.pred l then
        some (match f.ext? with | none => imm.signExtend 64 | some e => (e ++ imm).signExtend 64)
      else none)) ∧
    Runs (.fan g) s (f.Sent g (f.lane1 g.pred fun a => a)) ∧
    Runs (.null g) s (f.Sent g fun _ => none) ∧
    Runs (.lea g t) s (f.Sent g (f.lane2 g.pred fun a b =>
      a + (match t with
        | .s32 => (lo32 b).signExtend 64
        | .z32 => (lo32 b).setWidth 64
        | .s64 | .z64 => b : W64) <<< (match f.ext? with | none => 0 | some e => e.toNat % 8)))

/-- Register reads take the register's value, both of a pair with `PAIR`, in every active lane, and change nothing but the
tokens (R341, Table 13.1). What `rd.x` reads (Table 12.5): lane, slot, core, cluster, die, module, the held record's sibling,
the coordinates, the clock, the copy batch, the arrival counters, the fault record's address in a handler, and the enrolment
masks, with their values on a main core and on a pier core. -/
def Obligations.RegisterReads : Prop :=
  (∀ (s : State) (f : Frame) (r : RWord) (w : Warp), AtRegisterWord s f → f.OpenRead r → s.warp? f.warp = some w →
      let n := r.reg.toNat
      let both := fun (hi lo : W32) => if r.pair then (zext hi <<< 32) ||| zext lo else zext lo
      Runs (.rdV r) s (f.ReadOut r fun l => both (w.vreg (n + 1) l) (w.vreg n l)) ∧
      Runs (.rdS r) s (f.ReadOut r fun _ => both (w.sreg (n + 1)) (w.sreg n)) ∧
      Runs (.rdP r) s (f.ReadOut r fun l => if r.pair then w.preds l else zext ((w.preds l).extractLsb' n 1))) ∧
  ∀ (s : State) (f : Frame) (p : Bool) (t1 t0 : Target) (w : Warp), AtRegisterWord s f → s.warp? f.warp = some w →
    f.OpenRead ⟨0, p, t1, t0⟩ →
    let reads := fun (n : BitVec 8) (v : Nat → W64) => Runs (.rdX ⟨n, p, t1, t0⟩) s (f.ReadOut ⟨n, p, t1, t0⟩ v)
    reads 0x00 (fun l => BitVec.ofNat 64 l) ∧
    reads 0x01 (fun _ => BitVec.ofNat 64 w.id.slot) ∧
    reads 0x05 (fun _ => zext s.pod.self) ∧
    (w.held = none → reads 0x06 fun _ => 0) ∧
    (∀ (i : BitVec 3) x, w.lvl[i.toNat]? = some x → reads (0x08 + i.setWidth 8) fun _ => zext x) ∧
    (∀ j : BitVec 4, reads (0x20 + j.setWidth 8) fun _ => zext (w.enrol j.toNat)) ∧
    (w.pier = none →
      reads 0x02 (fun _ => BitVec.ofNat 64 (w.id.core % 96)) ∧
      reads 0x03 (fun _ => BitVec.ofNat 64 (w.id.core % 96 / 4)) ∧
      (w.id.core < 384 → reads 0x04 fun _ => BitVec.ofNat 64 (w.id.core / 96)) ∧
      (∀ h, w.held = some h → reads 0x06 fun _ => BitVec.ofNat 64 (recSib h.record + recGroup h.record * 2 ^ 16)) ∧
      reads 0x10 (fun _ => BitVec.ofNat 64 (s.cyclesOf (coreDie w.id.core))) ∧
      reads 0x12 (fun l => zext (sget 0 w.cpbatch l)) ∧
      (∀ k : BitVec 2, reads (0x14 + k.setWidth 8) fun _ => zext (w.arrival k.toNat)) ∧
      ∀ st c, w.strand? f.strand = some st → s.context? w.ctx = some c → reads 0x18 fun _ =>
        if st.inHandler then c.save + BitVec.ofNat 64 (warpArea w.id.core w.id.slot + 0xb20) else 0) ∧
    ∀ q stack i, w.pier = some q → stack < 16 → i < 16 → w.id.core = pierCore stack i →
      reads 0x02 (fun _ => BitVec.ofNat 64 i) ∧ reads 0x03 (fun _ => BitVec.ofNat 64 stack) ∧
      reads 0x04 (fun _ => BitVec.ofNat 64 (stack / 4)) ∧ reads 0x06 (fun _ => 0) ∧
      reads 0x10 (fun _ => BitVec.ofNat 64 (s.pierCyclesOf stack)) ∧ reads 0x12 (fun _ => 0) ∧
      (∀ k : BitVec 2, reads (0x14 + k.setWidth 8) fun _ => 0) ∧ reads 0x18 (fun _ => 0)

/-- The header declares the block's shape, and the block's uniform groups are those of its warp from then on; a write word takes
its place among the block's writes; neither does anything else (R324, R340, R342). `ext` keeps its payload for the next slot; the hints change issue timing only: `hint.prio` and `hint.lat`
fire and do nothing, and `hint.yield` with a count that is not 0 counts its warp as in back-off (R327, R347, R348, Table
13.3). -/
def Obligations.HeadersWritesAndHints : Prop :=
  (∀ (s : State) (f : Frame), AtRegisterWord s f →
    (∀ cnt nrd nwr lsid iso xcnt ls, Runs (.blk cnt nrd nwr lsid iso xcnt ls) s fun f' =>
      f'.shape.cnt = cnt.toNat + 1 ∧ f'.shape.nrd = nrd.toNat ∧ f'.shape.nwr = nwr.toNat ∧
      f'.shape.lsids = (if ls then lsid.toNat + 1 else 0) ∧ f'.shape.iso = iso ∧ f'.shape.exits = xcnt.toNat + 1 ∧
      ({ f with shape := f'.shape, uniform := (s.frameWarp f).s } : Frame).MovedOn f') ∧
    ∀ w : WWord,
      Runs (.wrV w) s ({ f with writes := f.writes ++ [(.v, w.reg, w.pair)] } : Frame).MovedOn ∧
      Runs (.wrS w) s ({ f with writes := f.writes ++ [(.s, w.reg, w.pair)] } : Frame).MovedOn ∧
      Runs (.wrP w) s ({ f with writes := f.writes ++ [(.p, w.reg, w.pair)] } : Frame).MovedOn) ∧
  ∀ (s : State) (f : Frame), AtSlot s f →
    (∀ p, Runs (.ext p) s (f.FiredAs { f with exts := f.exts ++ [(f.slot + 1, p)] })) ∧
    (∀ n, Runs (.hintPrio n) s (f.FiredAs f)) ∧
    (∀ n, Runs (.hintLat n) s (f.FiredAs f)) ∧
    Runs (.hintYield 0) s (f.FiredAs f) ∧
    ∀ n, n ≠ 0 → ∃ f', f.FiredAs f f' ∧
      exec (.hintYield n) s = .next ((s.onWarp f.warp fun w => { w with inBackoff := true, plBackoff := false }).setFrame f')

/-- Each exit makes its performing lanes leave the block: `br` and `rjwait` to A + 16 × offset, `call` with the following
address as link, `brx` and `ret` to operand a, `exit` for good, and `trap` to its vector; a successor must be canonical,
16-byte aligned and outside the on-core windows (R349 to R354, R356). -/
def Obligations.ExitsTaken : Prop :=
  ∀ (s : State) (f : Frame) (p : Pred), AtSlot s f →
    let leaves := fun (need : List Opnd) (k : Nat → ExitKind) => f.Left ((f.performing p need).map fun l => (l, f.slot, k l))
    (∀ off, successorOk (f.pc + 16 * off.signExtend 64) = true →
      Runs (.br p off) s (leaves [] fun _ => .go (f.pc + 16 * off.signExtend 64)) ∧
      Runs (.call p off) s (leaves [] fun _ => .call (f.pc + 16 * off.signExtend 64) f.following)) ∧
    (∀ j off, successorOk (f.pc + 16 * off.signExtend 64) = true →
      Runs (.rjwait p j off) s (leaves [] fun _ => .rejoin j.toNat (f.pc + 16 * off.signExtend 64))) ∧
    ((∀ l ∈ f.performing p [.a], successorOk (f.val .a l) = true) →
      Runs (.brx p) s (leaves [.a] fun l => .go (f.val .a l)) ∧ Runs (.ret p) s (leaves [.a] fun l => .go (f.val .a l))) ∧
    Runs (.exit p) s (leaves [] fun _ => .done) ∧
    ∀ v, successorOk f.following = true → Runs (.trap p v) s (leaves [] fun _ => .trap v.toNat f.slot)

/-- A successor that is not canonical, not a multiple of 16, or in the scratch or cluster-scratch window makes the block
faulty with cause *address* at the exit's slot, in each of its lanes and with that lane's successor as the address (R349): here
for each exit that has a successor, where nothing below it can still fire, so that the fault is taken at once, for all those
lanes and with the address of the lowest (R169). -/
def Obligations.BadSuccessorFaults : Prop :=
  (∀ a : W64, successorOk a = true ↔
    (a.extractLsb' 48 16 = (if a.getLsbD 47 then BitVec.allOnes 16 else 0)) ∧ a.extractLsb' 0 4 = 0 ∧
    ¬(0xffffff0000000000 ≤ a.toNat ∧ a.toNat < 0xffffff0000c00000)) ∧
  ∀ (s : State) (f : Frame) (p : Pred), AtSlot s f →
    let faults := fun (i : Instr) (need : List Opnd) (pc : Nat → W64) =>
      ∀ l rest, (f.performing p need).filter (fun k => !successorOk (pc k)) = l :: rest →
        let infos := (l :: rest).map fun k => f.faultAt f.slot .address k (pc k)
        f.StuckAt infos → TakesEach i s f infos { f.faultAt f.slot .address l (pc l) with lanes := maskOf (l :: rest) }
    faults (.brx p) [.a] (f.val .a) ∧ faults (.ret p) [.a] (f.val .a) ∧
    (∀ off : BitVec 23, faults (.br p off) [] (fun _ => f.pc + 16 * off.signExtend 64) ∧
      faults (.call p off) [] fun _ => f.pc + 16 * off.signExtend 64) ∧
    (∀ j (off : BitVec 19), faults (.rjwait p j off) [] fun _ => f.pc + 16 * off.signExtend 64) ∧
    ∀ v, faults (.trap p v) [] fun _ => f.following

/-- Every floating-point and special-function instruction completes: it computes a value of its result's width in every
performing lane, with flags to be set at commit, and changes nothing else (R367, R368). On finite operands `fadd`, `fsub`, `fmul`,
`ffma`, `fdiv`, `fsqrt` and `fdot2` give the exact result rounded once, the sign of an exact zero as R371 and R311 give it; a
division by zero and the root of a negative number give what R371 says (R296, R306, R371, R376). -/
def Obligations.FloatingPointCompletes : Prop :=
  ∀ (s : State) (f : Frame) (g : G) (t : FType) (u : FType2) (h : HType) (c : FCond), AtSlot s f → f.Open g →
    (Computes (.fadd g t) s f g [.a, .b] t.fmt.width ∧ Computes (.fsub g t) s f g [.a, .b] t.fmt.width ∧
    Computes (.fmul g t) s f g [.a, .b] t.fmt.width ∧ Computes (.ffma g t) s f g [.a, .b, .c] t.fmt.width ∧
    Computes (.fmin g t) s f g [.a, .b] t.fmt.width ∧ Computes (.fmax g t) s f g [.a, .b] t.fmt.width ∧
    Computes (.fdiv g u) s f g [.a, .b] u.fmt.width ∧ Computes (.fsqrt g u) s f g [.a] u.fmt.width ∧
    Computes (.fscale g t) s f g [.a, .b] t.fmt.width ∧ Computes (.fclass g t) s f g [.a] 32 ∧
    Computes (.fsetp g c t) s f g [.a, .b] 1 ∧ Computes (.fdot2 g h) s f g [.a, .b, .c] 32 ∧
    Computes (.frcp g) s f g [.a] 32 ∧ Computes (.frsq g) s f g [.a] 32 ∧ Computes (.fexp2 g) s f g [.a] 32 ∧
    Computes (.flog2 g) s f g [.a] 32 ∧ Computes (.fsin g) s f g [.a] 32 ∧ Computes (.fcos g) s f g [.a] 32 ∧
    Computes (.ftanh g) s f g [.a] 32 ∧ Computes (.expsub g) s f g [.a, .b] 32) ∧
    (let r := fun (l : Nat) => s.rounding f l 0
     let finite := fun (m : Fmt) (l : Nat) (os : List Opnd) => ∀ o ∈ os, (f.fval o l m).isFinite = true
     let down := decide (f.mods.mode = 3)
     (let a := fun (l : Nat) => f.fval .a l t.fmt
      let b := fun (l : Nat) => f.fval .b l t.fmt
      let c := fun (l : Nat) => f.fval .c l t.fmt
      let turned := fun (l : Nat) => (a l).neg != (b l).neg
      Gives (.fadd g t) s f g [.a, .b] (fun l y => finite t.fmt l [.a, .b] → ∃ x : Exact, x.sticky = false ∧
        x.rat = (a l).rat + (b l).rat ∧
        (x.m = 0 → x.neg = if (a l).isZero && (b l).isZero && !turned l then (a l).neg else down) ∧
        Rounded x t.fmt (r l) f.mods.ftz y) ∧
      Gives (.fsub g t) s f g [.a, .b] (fun l y => finite t.fmt l [.a, .b] → ∃ x : Exact, x.sticky = false ∧
        x.rat = (a l).rat - (b l).rat ∧
        (x.m = 0 → x.neg = if (a l).isZero && (b l).isZero && turned l then (a l).neg else down) ∧
        Rounded x t.fmt (r l) f.mods.ftz y) ∧
      Gives (.fmul g t) s f g [.a, .b] (fun l y => finite t.fmt l [.a, .b] → ∃ x : Exact, x.sticky = false ∧
        x.rat = (a l).rat * (b l).rat ∧ x.neg = turned l ∧ Rounded x t.fmt (r l) f.mods.ftz y) ∧
      Gives (.ffma g t) s f g [.a, .b, .c] (fun l y => finite t.fmt l [.a, .b, .c] → ∃ x : Exact, x.sticky = false ∧
        x.rat = (a l).rat * (b l).rat + (c l).rat ∧
        (x.m = 0 → x.neg = if ((a l).isZero || (b l).isZero) && (c l).isZero && turned l == (c l).neg then (c l).neg else down) ∧
        Rounded x t.fmt (r l) f.mods.ftz y)) ∧
     (let a := fun (l : Nat) => f.fval .a l u.fmt
      let b := fun (l : Nat) => f.fval .b l u.fmt
      let turned := fun (l : Nat) => (a l).neg != (b l).neg
      Gives (.fdiv g u) s f g [.a, .b] (fun l y => finite u.fmt l [.a, .b] →
        ((b l).isZero = false → ∃ x : Exact, x.Holds (turned l) ((a l).magnitude / (b l).magnitude) ∧
          Rounded x u.fmt (r l) f.mods.ftz y) ∧
        ((b l).isZero = true → (a l).isZero = false → y = (BitVec.ofNat 64 (withSign u.fmt (turned l) u.fmt.infCode), 8)) ∧
        ((b l).isZero = true → (a l).isZero = true → y = (BitVec.ofNat 64 u.fmt.quietNan, 16))) ∧
      Gives (.fsqrt g u) s f g [.a] (fun l y => finite u.fmt l [.a] →
        ((a l).isZero = true ∨ (a l).neg = false → ∃ x : Exact, x.neg = (a l).neg ∧
          (if x.sticky then 2 ^ 64 ≤ x.m ∧ x.rat * x.rat < (a l).magnitude ∧
              (a l).magnitude < (((x.m : Rat) + 1) * (2 : Rat) ^ x.e) * (((x.m : Rat) + 1) * (2 : Rat) ^ x.e)
            else x.rat * x.rat = (a l).magnitude) ∧
          Rounded x u.fmt (r l) f.mods.ftz y) ∧
        ((a l).isZero = false → (a l).neg = true → y = (BitVec.ofNat 64 u.fmt.quietNan, 16)))) ∧
     let el := fun (o : Opnd) (i l : Nat) => readFloat h.fmt (low h.fmt (f.val o l >>> (16 * i)))
     let c := fun (l : Nat) => readFloat .f32 (low .f32 (f.val .c l))
     let minus := fun (i l : Nat) => ((el .a i l).isZero || (el .b i l).isZero) && ((el .a i l).neg != (el .b i l).neg)
     Gives (.fdot2 g h) s f g [.a, .b, .c] (fun l y =>
       (∀ i, i < 2 → (el .a i l).isFinite = true ∧ (el .b i l).isFinite = true) → (c l).isFinite = true →
       ∃ x : Exact, x.sticky = false ∧
         x.rat = (el .a 0 l).rat * (el .b 0 l).rat + (el .a 1 l).rat * (el .b 1 l).rat + (c l).rat ∧
         (x.m = 0 → x.neg = (minus 0 l && minus 1 l && (c l).isZero && (c l).neg)) ∧
         Rounded x .f32 .rne false y))

/-- Conversions (R301, R302, R377 to R379; Tables 11.10, 14.6). `cvt` of either major sends both targets the source's value,
rounded once to a float format by the mode, or to an integer by the mode and then clamped to its range, or the scale of its
magnitude; NaN and the infinities give what Table 11.10 says. `cvtmx` sends an element to `T0` and one scale, the same in every
performing lane, to `T1`. With `.rs` a performing lane marks the block, so that its commit steps the LFSR. -/
def Obligations.ConversionsComplete : Prop :=
  ∀ (s : State) (f : Frame) (g : G) (dst src : Fmt) (m : MxSrc) (e : MxElem), AtSlot s f → f.Open g →
    let f0 : Frame := { f with rounded := f.rounded || (decide (f.performing g.pred [.a] ≠ []) && decide (f.mods.mode = 4)) }
    let source := fun (l : Nat) => readFloat src (low src (f.val .a l))
    let r := fun (l : Nat) => s.rounding f l (BitVec.ofNat 64 (low src (f.val .a l)))
    let code := fun (n : Nat) => (BitVec.ofNat 64 n : W64)
    let number := fun (neg : Bool) (q : Rat) (l : Nat) (y : W64 × FlagSet) => ∃ x : Exact, x.sticky = false ∧ x.neg = neg ∧
      x.rat = q ∧ y = (code (x.round dst (r l) f.mods.sat).1, (x.round dst (r l) f.mods.sat).2)
    let converts := fun (i : Instr) => Runs i s fun f' => ∃ v fl, f0.Computed g [.a] v fl f' ∧ (∀ l, (v l).toNat < 2 ^ dst.width) ∧
      ∀ l, let y := (v l, fl l)
      (src.isFloat = true → dst.isFloat = true →
        ((source l).isFinite = true → number (source l).neg (source l).rat l y) ∧
        ((source l).isNan = true →
          y = (code dst.quietNan, if (source l).signals || dst ∈ [.e2m3, .e3m2, .e2m1] then 16 else 0)) ∧
        (∀ n, source l = .inf n → y =
          if dst ∈ [.f64, .f32, .f16, .bf16, .e5m2] ∧ f.mods.sat = false then (code (withSign dst n dst.infCode), 0)
          else (code (withSign dst n dst.maxCode), 5))) ∧
      (src ∈ [.s8, .s32, .z32, .s64, .z64] → dst.isFloat = true →
        number (decide (intOperand src (f.val .a l) < 0)) (intOperand src (f.val .a l)) l y) ∧
      (src = .e8m0 → dst = .f32 → let n := (f.val .a l).toNat % 256
        (n = 255 → y = (0x7fc00000, 0)) ∧ (n ≠ 255 → number false ((2 : Rat) ^ ((n : Int) - 127)) l y)) ∧
      (src.isFloat = true → dst = .e8m0 →
        ((source l).isFinite = false → (v l) = 0xff) ∧ ((source l).isZero = true → y = (0, 0)) ∧
        ((source l).isFinite = true → (source l).isZero = false → ∃ k : Int, (2 : Rat) ^ k ≤ (source l).magnitude ∧
          (source l).magnitude < (2 : Rat) ^ (k + 1) ∧ y = (code (clampScale (k + 127)), 0))) ∧
      (src.isFloat = true → dst ∈ [.s32, .z32, .s64, .z64] →
        let low_ : Int := if dst = .s32 then -2 ^ 31 else if dst = .s64 then -2 ^ 63 else 0
        let high : Int := if dst = .s32 then 2 ^ 31 - 1 else if dst = .z32 then 2 ^ 32 - 1 else if dst = .s64 then 2 ^ 63 - 1 else 2 ^ 64 - 1
        let put := fun (n : Int) => if dst = .s32 ∨ dst = .z32 then zext (BitVec.ofInt 32 n) else BitVec.ofInt 64 n
        ((source l).isNan = true → y = (0, 16)) ∧
        (∀ n, source l = .inf n → y = (put (if n then low_ else high), 16)) ∧
        (∀ neg k x, source l = .fin neg k x → let z := Exact.onGrid ⟨neg, k, x, false⟩ (r l) 0
          let n : Int := if neg then -(z.1 : Int) else z.1
          y = if n < low_ then (put low_, 16) else if high < n then (put high, 16) else (put n, if z.2 then 1 else 0)))
    converts (.cvt g dst src) ∧ converts (.cvtSourceHigh g dst src) ∧
    Runs (.cvtmx g m e) s fun f' => ∃ (v : Nat → W64) (x : Nat) (fl : Nat → FlagSet),
      let lanes := f.performing g.pred [.a]
      let value := fun (l : Nat) => readFloat m.fmt (low m.fmt (f.val .a l))
      (∀ l, (v l).toNat < 2 ^ e.fmt.width) ∧ x < 256 ∧
      f'.flags = f.flags ++ (lanes.map fun l => (l, fl l)).filter (fun y => y.2 != 0) ∧
      ({ f0 with flags := f'.flags } : Frame).SentPair g
        (fun l => if f.performs g.pred [.a] l then some (v l) else none)
        (fun l => if f.performs g.pred [.a] l then some (code x) else none) f' ∧
      ((∃ l ∈ lanes, (value l).isFinite = false) → x = 255 ∧ ∀ l ∈ lanes, v l = 0 ∧ fl l = if (value l).isNan then 16 else 0) ∧
      ((∀ l ∈ lanes, (value l).isFinite = true) →
        ((∀ l ∈ lanes, (value l).isZero = true) → x = 0) ∧
        ((∃ l ∈ lanes, (value l).isZero = false) → ∃ k : Int, (∃ l ∈ lanes, (2 : Rat) ^ k ≤ (value l).magnitude) ∧
          (∀ l ∈ lanes, (value l).magnitude < (2 : Rat) ^ (k + 1)) ∧ x = clampScale (k - e.fmt.emax + 127)) ∧
        ∀ l ∈ lanes, let q := (value l).rat * (2 : Rat) ^ (127 - (x : Int))
          let largest := (readFloat e.fmt e.fmt.maxCode).magnitude
          (largest < (value l).magnitude * (2 : Rat) ^ (127 - (x : Int)) →
            (v l, fl l) = (code (withSign e.fmt (value l).neg e.fmt.maxCode), 5)) ∧
          ((value l).magnitude * (2 : Rat) ^ (127 - (x : Int)) ≤ largest → ∃ y : Exact, y.sticky = false ∧
            y.neg = (value l).neg ∧ y.rat = q ∧
            let o := y.round e.fmt (s.rounding f l (code (low m.fmt (f.val .a l)))) true
            (v l, fl l) = (code o.1, o.2)))

/-- An arithmetic result that is NaN is the default quiet NaN of its format, and a signalling NaN operand raises invalid
(R298, R300, R371, R376, Table 11.2): in a lane where any operand, or for `fdot2` any element, is NaN. -/
def Obligations.NanOperandsGiveQuietNan : Prop :=
  ∀ (s : State) (f : Frame) (g : G) (t : FType) (u : FType2) (h : HType), AtSlot s f → f.Open g →
    let quiet := fun (i : Instr) (need : List Opnd) (m : Fmt) (vals : Nat → List Val) =>
      Gives i s f g need fun l y => (∃ v ∈ vals l, v.isNan = true) →
        y.1 = BitVec.ofNat 64 m.quietNan ∧ ((∃ v ∈ vals l, v.signals = true) → y.2.getLsbD 4 = true)
    let of := fun (m : Fmt) (os : List Opnd) (l : Nat) => os.map fun o => f.fval o l m
    let el := fun (o : Opnd) (i l : Nat) => readFloat h.fmt (low h.fmt (f.val o l >>> (16 * i)))
    quiet (.fadd g t) [.a, .b] t.fmt (of t.fmt [.a, .b]) ∧ quiet (.fsub g t) [.a, .b] t.fmt (of t.fmt [.a, .b]) ∧
    quiet (.fmul g t) [.a, .b] t.fmt (of t.fmt [.a, .b]) ∧ quiet (.ffma g t) [.a, .b, .c] t.fmt (of t.fmt [.a, .b, .c]) ∧
    quiet (.fscale g t) [.a, .b] t.fmt (of t.fmt [.a]) ∧ quiet (.fdiv g u) [.a, .b] u.fmt (of u.fmt [.a, .b]) ∧
    quiet (.fsqrt g u) [.a] u.fmt (of u.fmt [.a]) ∧
    quiet (.fdot2 g h) [.a, .b, .c] .f32 fun l =>
      [el .a 0 l, el .a 1 l, el .b 0 l, el .b 1 l, readFloat .f32 (low .f32 (f.val .c l))]

/-- `fmin` and `fmax` order −0 below +0, give the other operand where exactly one is a quiet NaN, and the default quiet NaN
where both are NaN, where one signals (raising invalid) and, with `.prop`, where either is NaN (R304). -/
def Obligations.MinimumAndMaximum : Prop :=
  ∀ (s : State) (f : Frame) (g : G) (t : FType), AtSlot s f → f.Open g →
    let x := fun l => f.fval .a l t.fmt
    let y := fun l => f.fval .b l t.fmt
    let a := fun l => BitVec.ofNat 64 (f.code .a l t.fmt)
    let b := fun l => BitVec.ofNat 64 (f.code .b l t.fmt)
    let quiet := (BitVec.ofNat 64 t.fmt.quietNan : W64)
    let rule := fun (greater : Bool) (v : Nat → W64) (fl : Nat → FlagSet) => ∀ l,
      let signal := (x l).signals || (y l).signals
      fl l = (if signal then 16 else 0) ∧
      (signal → v l = quiet) ∧ ((x l).isNan → (y l).isNan → v l = quiet) ∧
      (f.mods.prop → (x l).isNan || (y l).isNan → v l = quiet) ∧
      (!signal → !f.mods.prop → (x l).isNan → !(y l).isNan → v l = b l) ∧
      (!signal → !f.mods.prop → !(x l).isNan → (y l).isNan → v l = a l) ∧
      (!(x l).isNan → !(y l).isNan → v l = a l ∨ v l = b l) ∧
      (!(x l).isNan → !(y l).isNan → compareVals (x l) (y l) = some .lt → v l = if greater then b l else a l) ∧
      (!(x l).isNan → !(y l).isNan → compareVals (x l) (y l) = some .gt → v l = if greater then a l else b l) ∧
      ((x l).isZero → (y l).isZero → (x l).neg → !(y l).neg → v l = if greater then b l else a l) ∧
      ((x l).isZero → (y l).isZero → !(x l).neg → (y l).neg → v l = if greater then a l else b l)
    Runs (.fmin g t) s (fun f' => ∃ v fl, f.Computed g [.a, .b] v fl f' ∧ rule false v fl) ∧
    Runs (.fmax g t) s (fun f' => ∃ v fl, f.Computed g [.a, .b] v fl f' ∧ rule true v fl)

/-- The eight conditions of `fsetp` (Table 14.3): any NaN makes a comparison unordered, which only `ne` and `nan` hold of;
invalid is raised for a signalling NaN and nothing else (R304, R374). -/
def Obligations.FloatComparisons : Prop :=
  ∀ (s : State) (f : Frame) (g : G) (t : FType), AtSlot s f → f.Open g →
    let x := fun l => f.fval .a l t.fmt
    let y := fun l => f.fval .b l t.fmt
    let sends := fun (c : FCond) (holds : Ordering → Bool) (unordered : Bool) =>
      Runs (.fsetp g c t) s fun f' => ∃ v fl, f.Computed g [.a, .b] v fl f' ∧ ∀ l,
        fl l = (if (x l).signals || (y l).signals then 16 else 0) ∧
        ((x l).isNan || (y l).isNan → v l = if unordered then 1 else 0) ∧
        (!(x l).isNan → !(y l).isNan → ∃ o, compareVals (x l) (y l) = some o ∧ v l = (if holds o then 1 else 0) ∧
          ((x l).isZero → (y l).isZero → o = .eq))
    sends .eq (fun o => o == .eq) false ∧ sends .ne (fun o => o != .eq) true ∧
    sends .lt (fun o => o == .lt) false ∧ sends .le (fun o => o != .gt) false ∧
    sends .gt (fun o => o == .gt) false ∧ sends .ge (fun o => o != .lt) false ∧
    sends .num (fun _ => true) false ∧ sends .nan (fun _ => false) true

/-- `fclass` sends exactly one bit, the class of R373, and raises nothing. -/
def Obligations.FloatClass : Prop :=
  ∀ (s : State) (f : Frame) (g : G) (t : FType), AtSlot s f → f.Open g →
    Runs (.fclass g t) s fun f' => ∃ v, f.Sent g (f.lane1 g.pred v) f' ∧ ∀ a : W64,
      let c := low t.fmt a
      let top := signOf t.fmt c
      (∃ k, k ≤ 9 ∧ v a = 1 <<< k) ∧
      (t.fmt.infCode < magOf t.fmt c → v a = if (c.testBit (t.fmt.man - 1)) then 2 else 1) ∧
      (magOf t.fmt c = t.fmt.infCode → v a = if top then 4 else 0x200) ∧
      (magOf t.fmt c < t.fmt.infCode → 2 ^ t.fmt.man ≤ magOf t.fmt c → v a = if top then 8 else 0x100) ∧
      (0 < magOf t.fmt c → magOf t.fmt c < 2 ^ t.fmt.man → v a = if top then 0x10 else 0x80) ∧
      (magOf t.fmt c = 0 → v a = if top then 0x20 else 0x40)

/-- Rounding a magnitude m to a multiple of 2^sh in each mode of Table 11.7 (R296): nearest with ties to even, toward zero,
and toward the infinities; the result is inexact just where it differs; and with `.rs` and the bits b, up where the first 32
bits of the fraction and b carry (R301). Rounding a number to a format takes the multiple of its last place, on the subnormal grid
where it is small; past the largest finite value it overflows as Table 11.8 gives; its flags are those of Table 11.9 (R297,
R298). -/
def Obligations.RoundingModes : Prop :=
  (∀ (neg : Bool) (m sh : Nat),
    let at_ := fun (r : Rounding) => (Exact.onGrid ⟨neg, m, 0, false⟩ r (sh + 1)).1 * 2 ^ (sh + 1)
    let n := (Exact.onGrid ⟨neg, m, 0, false⟩ .rne (sh + 1)).1
    (2 * m ≤ 2 * at_ .rne + 2 ^ (sh + 1) ∧ 2 * at_ .rne ≤ 2 * m + 2 ^ (sh + 1) ∧
      (2 * m = 2 * at_ .rne + 2 ^ (sh + 1) ∨ 2 * at_ .rne = 2 * m + 2 ^ (sh + 1) → n % 2 = 0)) ∧
    (at_ .rz ≤ m ∧ m < at_ .rz + 2 ^ (sh + 1)) ∧
    (if neg then at_ .rup ≤ m ∧ m < at_ .rup + 2 ^ (sh + 1) else m ≤ at_ .rup ∧ at_ .rup < m + 2 ^ (sh + 1)) ∧
    (if neg then m ≤ at_ .rdn ∧ at_ .rdn < m + 2 ^ (sh + 1) else at_ .rdn ≤ m ∧ m < at_ .rdn + 2 ^ (sh + 1)) ∧
    (∀ b : W32, let part := m % 2 ^ (sh + 1)
      (Exact.onGrid ⟨neg, m, 0, false⟩ (.rs b) (sh + 1)).1 =
        m / 2 ^ (sh + 1) + if part ≠ 0 ∧ 2 ^ 32 ≤ part * 2 ^ 32 / 2 ^ (sh + 1) + b.toNat then 1 else 0) ∧
    ∀ r, ((Exact.onGrid ⟨neg, m, 0, false⟩ r (sh + 1)).2 = true ↔ m % 2 ^ (sh + 1) ≠ 0) ∧
      ((∀ b, r ≠ .rs b) → ((Exact.onGrid ⟨neg, m, 0, false⟩ r (sh + 1)).2 = true ↔ at_ r ≠ m))) ∧
  ∀ (x : Exact) (t : Fmt) (r : Rounding) (sat : Bool), t.isFloat = true → x.m ≠ 0 → x.sticky = false →
    let free : Int := (bitLen x.m : Int) + x.e - (t.man + 1)
    let q := if free < t.qmin then t.qmin else free
    let g := x.onGrid r q
    let o := x.round t r sat
    let largest := (readFloat t t.maxCode).magnitude
    let normal := (2 : Rat) ^ (1 - (t.bias : Int))
    let tiny := decide (((x.onGrid r free).1 : Rat) * (2 : Rat) ^ free < normal)
    ((g.1 : Rat) * (2 : Rat) ^ q ≤ largest →
      (readFloat t o.1).isFinite = true ∧ (readFloat t o.1).neg = x.neg ∧ (readFloat t o.1).magnitude = (g.1 : Rat) * (2 : Rat) ^ q ∧
      o.1 < 2 ^ t.width ∧ o.2 = (if g.2 then 1 else 0) ||| (if g.2 && tiny then 2 else 0)) ∧
    (largest < (g.1 : Rat) * (2 : Rat) ^ q → o.2 = 5 ∧
      let infinite := t ∈ [.f64, .f32, .f16, .bf16, .e5m2] ∧ sat = false ∧ (match r with
        | .rne | .rs _ => True
        | .rz => False
        | .rup => x.neg = false
        | .rdn => x.neg = true)
      (infinite → o.1 = withSign t x.neg t.infCode) ∧ (¬infinite → o.1 = withSign t x.neg t.maxCode))

/-- A representable value is its own result in every format and mode, with no flag (R296, Table 11.10 "exact"); so `fscale`
by 0 gives a finite operand back. -/
def Obligations.RepresentableValuesAreExact : Prop :=
  (∀ (t : Fmt) (r : Rounding) (sat : Bool) (n : Nat) (neg : Bool) (m : Nat) (e : Int), t.isFloat = true → n < 2 ^ t.width →
    readFloat t n = .fin neg m e → Exact.round ⟨neg, m, e, false⟩ t r sat = (n, 0)) ∧
  ∀ (s : State) (f : Frame) (g : G) (t : FType), AtSlot s f → f.Open g →
    Runs (.fscale g t) s fun f' => ∃ v fl, f.Computed g [.a, .b] v fl f' ∧ ∀ l,
      (f.fval .a l t.fmt).isFinite = true → lo32 (f.val .b l) = 0 →
      v l = BitVec.ofNat 64 (f.code .a l t.fmt) ∧ fl l = 0

/-- The special functions at zeros, infinities and NaNs (R307, Table 11.13), the sign of zero included, and `expsub` at infinities
and NaNs (R308, Table 11.14). -/
def Obligations.SpecialOperands : Prop :=
  ∀ (s : State) (f : Frame) (g : G), AtSlot s f → f.Open g →
    let row := fun (i : Instr) (code value : BitVec 32) (flags : FlagSet) =>
      Runs i s fun f' => ∃ v fl, f.Computed g [.a] v fl f' ∧
        ∀ l, lo32 (f.val .a l) = code → v l = value.setWidth 64 ∧ fl l = flags
    let nan := fun (i : Instr) => row i 0x7fc00001 0x7fc00000 0 ∧ row i 0xff800001 0x7fc00000 16
    (row (.fexp2 g) 0 0x3f800000 0 ∧ row (.fexp2 g) 0x80000000 0x3f800000 0 ∧ row (.fexp2 g) 0x7f800000 0x7f800000 0 ∧
      row (.fexp2 g) 0xff800000 0 0 ∧ nan (.fexp2 g)) ∧
    (row (.flog2 g) 0 0xff800000 8 ∧ row (.flog2 g) 0x80000000 0xff800000 8 ∧ row (.flog2 g) 0x7f800000 0x7f800000 0 ∧
      row (.flog2 g) 0xff800000 0x7fc00000 16 ∧ row (.flog2 g) 0x3f800000 0 0 ∧ row (.flog2 g) 0xbf800000 0x7fc00000 16 ∧
      nan (.flog2 g)) ∧
    (row (.fsin g) 0 0 0 ∧ row (.fsin g) 0x80000000 0x80000000 0 ∧ row (.fsin g) 0x7f800000 0x7fc00000 16 ∧
      row (.fsin g) 0xff800000 0x7fc00000 16 ∧ nan (.fsin g)) ∧
    (row (.fcos g) 0 0x3f800000 0 ∧ row (.fcos g) 0x80000000 0x3f800000 0 ∧ row (.fcos g) 0x7f800000 0x7fc00000 16 ∧
      row (.fcos g) 0xff800000 0x7fc00000 16 ∧ nan (.fcos g)) ∧
    (row (.ftanh g) 0 0 0 ∧ row (.ftanh g) 0x80000000 0x80000000 0 ∧ row (.ftanh g) 0x7f800000 0x3f800000 0 ∧
      row (.ftanh g) 0xff800000 0xbf800000 0 ∧ nan (.ftanh g)) ∧
    (row (.frcp g) 0 0x7f800000 8 ∧ row (.frcp g) 0x80000000 0xff800000 8 ∧ row (.frcp g) 0x7f800000 0 0 ∧
      row (.frcp g) 0xff800000 0x80000000 0 ∧ nan (.frcp g)) ∧
    (row (.frsq g) 0 0x7f800000 8 ∧ row (.frsq g) 0x80000000 0xff800000 8 ∧ row (.frsq g) 0x7f800000 0 0 ∧
      row (.frsq g) 0xff800000 0x7fc00000 16 ∧ row (.frsq g) 0xbf800000 0x7fc00000 16 ∧ nan (.frsq g)) ∧
    Gives (.expsub g) s f g [.a, .b] fun l y =>
      let a := f.fval .a l .f32
      let b := f.fval .b l .f32
      (a.isNan = true ∨ b.isNan = true → y = (0x7fc00000, if a.signals || b.signals then 16 else 0)) ∧
      (a = .inf false → b = .inf false → y = (0x3f800000, 0)) ∧ (a = .inf true → b = .inf true → y = (0, 0)) ∧
      (a = .inf false → b.isFinite = true ∨ b = .inf true → y = (0x7f800000, 0)) ∧
      (a = .inf true → b.isFinite = true ∨ b = .inf false → y = (0, 0)) ∧
      (a.isFinite = true → (b = .inf false → y = (0, 0)) ∧ (b = .inf true → y = (0x7f800000, 0)))

/-- `shfl` moves operand a of the lane it names, computed without wrapping, bit for bit, and operand c where that lane does
not contribute (R381). -/
def Obligations.ShuffleMoves : Prop :=
  ∀ (s : State) (f : Frame) (g : G) (wide : Bool), AtSlot s f → f.Open g →
    let size := fun (x : W64) => if wide then x else zext (lo32 x)
    let moves := fun (mode : ShflMode) (source : Nat → Nat → Option Nat) =>
      Runs (.shfl g wide mode) s (f.Sent g fun l => if f.performs g.pred [.b, .c] l then
        some (size (match source l (lo32 (f.val .b l)).toNat with
          | some k => if k < 32 ∧ f.performs g.pred [.a] k then f.val .a k else f.val .c l
          | none => f.val .c l))
        else none)
    moves .idx (fun _ n => some n) ∧ moves .up (fun l n => if n ≤ l then some (l - n) else none) ∧
    moves .down (fun l n => some (l + n)) ∧ moves .xor (fun l n => some (l ^^^ n))

/-- `vote`, `match`, `elect` and `actmask` give every participant what the participants' operands say together (R380, R382,
R386). -/
def Obligations.VotesAndMatches : Prop :=
  ∀ (s : State) (f : Frame) (g : G) (wide : Bool), AtSlot s f → f.Open g →
    let size := fun (x : W64) => if wide then x else zext (lo32 x)
    let on := (f.performing g.pred [.a]).filter fun l => (f.val .a l).getLsbD 0
    let each := fun (need : List Opnd) (v : Nat → W64) => f.Sent g fun l => if f.performs g.pred need l then some (v l) else none
    Runs (.vote g .every) s (each [.a] fun _ => if on.length = (f.performing g.pred [.a]).length then 1 else 0) ∧
    Runs (.vote g .some) s (each [.a] fun _ => if on = [] then 0 else 1) ∧
    Runs (.vote g .same) s (each [.a] fun _ => if on = [] ∨ on.length = (f.performing g.pred [.a]).length then 1 else 0) ∧
    Runs (.vote g .mask) s (each [.a] fun _ => zext (maskOf on)) ∧
    Runs (.vote g .count) s (each [.a] fun _ => BitVec.ofNat 64 on.length) ∧
    Runs (.matchLanes g wide) s (each [.a] fun l =>
      zext (maskOf ((f.performing g.pred [.a]).filter fun m => size (f.val .a m) = size (f.val .a l)))) ∧
    Runs (.elect g) s (each [] fun l => if ∀ m < l, f.passes g.pred m = false then 1 else 0) ∧
    Runs (.actmask g) s (each [] fun _ => zext f.active)

/-- `redux` gives every participant the combination of all, and `scan` gives each the combination up to itself and that up
to the participant below it, from the identity (R383, R385): the integer operations, which raise no flag. -/
def Obligations.ReductionsAndScans : Prop :=
  ∀ (s : State) (f : Frame) (g : G) (t : IType) (op : ReduxOp), AtSlot s f → f.Open g → op ≠ .fadd →
    let ps := f.performing g.pred [.a]
    let two := fun (a b : W64) => match op with
      | .add => t.on2 (fun x y => x + y) a b
      | .min => t.keep (if t.below b a then b else a)
      | .max => t.keep (if t.below a b then b else a)
      | .and => t.on2 (fun x y => x &&& y) a b
      | .or => t.on2 (fun x y => x ||| y) a b
      | _ => t.on2 (fun x y => x ^^^ y) a b
    let start := match op with
      | .and => t.keep (BitVec.allOnes 64)
      | .min => t.keep (match t with | .s32 => 0x7fffffff | .s64 => 0x7fffffffffffffff | _ => BitVec.allOnes 64)
      | .max => t.keep (match t with | .s32 => 0x80000000 | .s64 => 0x8000000000000000 | _ => 0)
      | _ => (0 : W64)
    let fold := fun (ls : List Nat) => ls.foldl (fun acc l => two acc (f.val .a l)) start
    Runs (.redux g op t) s (f.Sent g fun l => if f.performs g.pred [.a] l then some (fold ps) else none) ∧
    Runs (.scan g op t) s (f.SentPair g
      (fun l => if f.performs g.pred [.a] l then some (fold (ps.filter fun m => m ≤ l)) else none)
      (fun l => if f.performs g.pred [.a] l then some (fold (ps.filter fun m => m < l)) else none))

/-- `redux.fadd` and `scan.fadd` complete, add in ascending lane order with one rounding at each step, and raise in each
participant the flags of the steps in its value (R384, R385). -/
def Obligations.FloatReductionsInOrder : Prop :=
  ∀ (s : State) (f : Frame) (g : G) (t : IType) (p : Nat) (rest : List Nat), AtSlot s f → f.Open g →
    f.performing g.pred [.a] = p :: rest →
    let first : W64 × FlagSet := (zext (f.val32 .a p), 0)
    let add := fun (acc : W64 × FlagSet) l =>
      ((add32 acc.1 (zext (f.val32 .a l))).1, acc.2 ||| (add32 acc.1 (zext (f.val32 .a l))).2)
    let upTo := fun (l : Nat) => (rest.filter fun m => m ≤ l).foldl add first
    Runs (.redux g .fadd t) s (f.Computed g [.a] (fun _ => (rest.foldl add first).1) (fun _ => (rest.foldl add first).2)) ∧
    Runs (.scan g .fadd t) s fun f' =>
      f'.flags = f.flags ++ ((p :: rest).map fun l => (l, (upTo l).2)).filter (fun x => x.2 != 0) ∧
      ({ f with flags := f'.flags } : Frame).SentPair g
        (fun l => if f.performs g.pred [.a] l then some (upTo l).1 else none)
        (fun l => if f.performs g.pred [.a] l then
          some (if l = p then 0x80000000 else ((rest.filter fun m => m < l).foldl add first).1) else none) f'

/-- A load whose checks pass completes, sends each performing lane the bytes that its kind of load shows (R389, R390, R224,
R322), and changes no memory: here where no store is being sent and no cache or stash holds a line. A load without acquire
shows the die's L2 as it stood at some moment, none before the lane's latest acquire (R224) nor before what the lane has
obtained of the byte (R229); an acquire shows the present, at the home from `.pkg` on, and its lanes' later reads show
nothing older (R224). A load of an isolated block goes into its read signature (R155, R156). The model's choice (log 21): the moments themselves, and that what an acquire at `.pkg` or wider has
obtained at its home, the die's next access of the line obtains too. -/
def Obligations.LoadsComplete : Prop :=
  ∀ (s : State) (f : Frame) (places : Nat → List Place), AtSlot s f → s.Settled → f.stores = [] → (s.warp? f.warp).isSome →
    let r := s.reader f.warp
    let inOrder := fun (moment : Nat → Place → Nat) => ∀ l p,
      moment l p ≤ s.moments ∧ min (sget 0 r.readsFrom l) s.moments ≤ moment l p ∧
      ∀ x a, p = .hbm x a → min (max (sget 0 r.floors (floorKey x l)) (sget 0 r.floors (floorKey x 32))) s.moments ≤ moment l p
    let reads := fun (moment : Nat → Place → Nat) (l : Nat) =>
      (places l).map fun p => s.showsAt false f.warp.core (moment l p) p
    let loaded := fun (pred : Pred) (width : Width) (t0 : Target) (bytes : Nat → List Byte) (f' : Frame) =>
      f.Loaded pred width t0 bytes f' ∧ f.Noted s (f.performing pred [.a]) places f'
    (∀ m : M, LoadReady s f m.pred m.width m.off m.t0 places →
      (∃ l1 readers moment, inOrder moment ∧
        RunsTo (.ld m) s { s with l1 := l1, readers := readers } (loaded m.pred m.width m.t0 (reads moment))) ∧
      ∃ readers moment, inOrder moment ∧
        RunsTo (.ldb m) s { s with readers := readers } (loaded m.pred m.width m.t0 (reads moment))) ∧
    ∀ m : MS, LoadReady s f m.pred m.width 0 m.t0 places →
      let atHome := decide (Scope.rank .pkg ≤ m.scope.rank)
      ∃ l1 late clocks past moments readers, let t : State := { s with
            l1 := l1, unarrived := late, clocks := clocks, past := past, moments := moments, readers := readers }
        RunsTo (.ldacq m) s t
          (loaded m.pred m.width m.t0 fun l => (places l).map (s.shows atHome f.warp.core)) ∧
        (atHome → ∀ l ∈ f.performing m.pred [.a], ∀ phys attr, .hbm phys attr ∈ places l → attr.memside = false →
          ∀ u ∈ late, u.die = coreDie f.warp.core → u.phys = phys → u.due = true) ∧
        s.moments ≤ moments ∧
        (swf 0 r.readsFrom = true → ∀ l ∈ f.performing m.pred [.a], sget 0 (t.reader f.warp).readsFrom l = moments)

/-- A store whose checks pass completes by entering the store buffer of its block, lane by lane, and stores nothing yet
(R148, R389, R392), and its lines enter the block's write signature (R155); `strel` is marked as a release at its scope. `pref` never faults and only fills the first-level cache,
with what the die's L2 shows (R391). -/
def Obligations.StoresAreBuffered : Prop :=
  ∀ (s : State) (f : Frame) (places : Nat → List Place), AtSlot s f →
    let buffered := fun (pred : Pred) (width : Width) (off : BitVec 8) (release : Option Scope) (mc : Bool) (f' : Frame) =>
      (∀ l ∈ f.storing pred width, ∀ x a, .hbm x a ∈ places l → Signed f'.writeSig x) ∧
      f.FiredAs { f.claiming (f.storing pred width) with
        writeSig := f'.writeSig
        stores := f.stores ++ (f.storing pred width).map fun l =>
          ⟨f.lsidOf f.slot, l, f.ea off width.bytes l, places l, f.stored width l, release, mc⟩ } f'
    (∀ m : M, StoreReady s f m.pred m.width m.off places →
      Runs (.st m) s (buffered m.pred m.width m.off none false) ∧
      Runs (.stMc m) s (buffered m.pred m.width m.off none true)) ∧
    (∀ m : MS, StoreReady s f m.pred m.width 0 places → s.NothingLost f →
      Runs (.strel m) s (buffered m.pred m.width 0 (some (s.scopeOf f m.scope)) false)) ∧
    ∀ (pred : Pred) (lsid : BitVec 4) (intoL1 : Bool) (off : BitVec 8), f.Unclaimed (f.performing pred [.a]) → s.Settled →
      ∃ l1, RunsTo (.pref pred lsid intoL1 off) s { s with l1 := l1 } (f.FiredAs (f.claiming (f.performing pred [.a]))) ∧
        (intoL1 = false ∨ (s.frameWarp f).pier.isSome → l1 = []) ∧
        ∀ x ∈ l1, x.core = f.warp.core ∧ x.ctx = (s.frameWarp f).ctx ∧ x.bytes = s.l2Line (coreDie f.warp.core) x.line s.moments

/-- A fence completes in every state, once the packets and lost writes that it reports are out of the way, and leaves its
release half in the store buffer (R226, R398). The model's choice (log 21): from `.pkg` on, its acquire half makes what has
been performed arrive on the issuing die, and `.sc` on every die. `fence.rep` checks the pages of its range and leaves the
rest to the commit, and takes *window crossing* where its range crosses a window boundary (R399). `inval` drops the
first-level lines of its own core and context that were reached at an address of its range, or all of them from 2^20 bytes
on, and no line with a store still being sent (R400). -/
def Obligations.FencesAndInvalidation : Prop :=
  ∀ (s : State) (f : Frame) (pred : Pred) (lsid : BitVec 4), AtSlot s f →
    (∀ (kind : FenceKind) (scope : Scope), s.NothingLost f → f.Unclaimed (f.performing pred []) →
      let lanes := f.performing pred []
      let sc := s.scopeOf f scope
      let mark : BufStore := ⟨f.lsidOf f.slot, 0, 0, [], [], some sc, decide (kind = .sc)⟩
      ∃ t, RunsTo (.fence pred lsid kind scope) s t (f.FiredAs { f.claiming lanes with
          stores := if kind = .acq ∨ lanes = [] then f.stores else f.stores ++ [mark] }) ∧
        (kind = .rel ∨ lanes = [] → t = s) ∧
        (s.Settled → lanes ≠ [] → ∃ late clocks past moments readers acks probes,
          t = { s with
            unarrived := late, clocks := clocks, past := past, moments := moments, readers := readers, acks := acks
            probes := probes } ∧
          (kind ≠ .sc → acks = s.acks ∧ probes = s.probes) ∧
          (kind ≠ .rel → Scope.rank .pkg ≤ sc.rank → ∀ u ∈ late, u.die ≠ coreDie f.warp.core) ∧
          (kind = .sc → Scope.rank .pkg ≤ sc.rank → ∀ u ∈ late, 4 ≤ u.die))) ∧
    (f.performing pred [.a, .b] = [] → Runs (.fenceRep pred lsid) s (f.FiredAs f)) ∧
    (∀ l rest, f.performing pred [.a, .b] = l :: rest → f.Unclaimed (l :: rest) →
      let a := f.val .a l
      let b := f.val .b l
      let last := a.toNat + b.toNat - 1
      ((b = 0 ∨ (b.toNat ≤ 2 ^ 30 ∧ crossesWindow a.toNat last = false ∧ windowOf a.toNat = .global ∧ windowOf last = .global ∧
        canonical a.toNat = true ∧ canonical last = true ∧
        ∀ page, a.toNat / 4096 ≤ page → page ≤ last / 4096 →
          ∃ p, s.translate (s.who f).ctx (coreDie f.warp.core) .read page = .ok p)) →
      Runs (.fenceRep pred lsid) s (f.FiredAs ((f.claiming (l :: rest)).leaving (.fenceRep (f.lsidOf f.slot) a b)))) ∧
      let info := { f.faultAt f.slot .windowCrossing 0 a with lanes := maskOf (l :: rest) }
      (b ≠ 0 → crossesWindow a.toNat (a + b - 1).toNat = true → (f.claiming (l :: rest)).Stuck info →
        Takes (.fenceRep pred lsid) s (f.claiming (l :: rest)) info)) ∧
    ∀ off : BitVec 8, f.Unclaimed (f.performing pred [.a, .b]) →
      let mine := fun (x : L1Line) => x.core = f.warp.core ∧ x.ctx = (s.frameWarp f).ctx
      ∃ l1, RunsTo (.inval pred lsid off) s { s with l1 := l1 } (f.FiredAs (f.claiming (f.performing pred [.a, .b]))) ∧
        (∀ x ∈ l1, x ∈ s.l1) ∧
        (∀ x ∈ s.l1, x ∉ l1 → mine x ∧ s.lineSending x.core x.ctx x.line = false) ∧
        ∀ l ∈ f.performing pred [.a, .b],
          (2 ^ 20 ≤ (f.val .b l).toNat → ∀ x ∈ l1, mine x → s.lineSending x.core x.ctx x.line = true) ∧
          ((f.val .b l).toNat ≠ 0 → ∀ x ∈ l1, mine x → ∀ v ∈ x.vas, let a := (f.ea off 64 l).toNat
            v < a + (f.val .b l).toNat → a < v + 64 → s.lineSending x.core x.ctx x.line = true)

/-- An atomic whose checks pass completes. With a target it is performed as it fires and binds its block, and without one
it is left to the commit (R153, R393, R394, R397). One lane's atomic on an element without a shadow, outside the register
windows and outside any race with a near-memory call (R268), returns the old value, little-endian, and stores the new one of Table 15.5; `cas` stores c where the old value is b
(R249, R395). Of what memory holds, nothing else changes. -/
def Obligations.AtomicsComplete : Prop :=
  ∀ (s : State) (f : Frame) (places : Nat → List Place), AtSlot s f →
    (∀ pred lsid wide scope (order : RedOrder) op,
      let lanes := f.performing pred [.a, .b]
      let order' := match order with | .none => Order.none | .rel => .rel
      AtomicReady s f lanes op wide false order' places →
      Runs (.red pred lsid wide scope order op) s (f.AtomicLeft lanes op wide false order' (s.scopeOf f scope) places)) ∧
    (∀ a : A, let lanes := f.performing a.pred [.a, .b];
      AtomicReady s f lanes a.op a.wide false a.order places →
      (a.t0 = .none → Runs (.atom a) s (f.AtomicLeft lanes a.op a.wide false a.order (s.scopeOf f a.scope) places)) ∧
      (a.t0 ≠ .none → f.Unfed a.t0 → ∃ t v, RunsTo (.atom a) s t (f.AtomicBound lanes a.t0 v) ∧
        ∀ l, lanes = [l] → s.Settled → s.Canonical → s.Unraced f.warp.core (places l) →
          (places l).length = atomBytes a.op a.wide → ((places l).map Place.key).Nodup →
          (∀ q ∈ places l, ∀ slot o, q ≠ .regWin slot o) →
          let old := BitVec.ofNat 64 (leNat ((places l).map (s.placeByte f.warp.core)))
          v l = old ∧
          (∀ i (h : i < (places l).length), t.placeByte f.warp.core (places l)[i] =
            (combined a.op a.wide old (f.val .b l)).extractLsb' (8 * i) 8) ∧
          ∀ p : Place, p.key ∉ (places l).map Place.key → t.placeByte f.warp.core p = s.placeByte f.warp.core p)) ∧
    ∀ pred lsid wide scope order t0, let lanes := f.performing pred [.a, .b, .c];
      AtomicReady s f lanes .add wide true order places →
      (t0 = .none → Runs (.cas pred lsid wide scope order t0) s
        (f.AtomicLeft lanes .add wide true order (s.scopeOf f scope) places)) ∧
      (t0 ≠ .none → f.Unfed t0 → ∃ t v, RunsTo (.cas pred lsid wide scope order t0) s t (f.AtomicBound lanes t0 v) ∧
        ∀ l, lanes = [l] → s.Settled → s.Canonical → s.Unraced f.warp.core (places l) →
          (places l).length = (if wide then 8 else 4) → ((places l).map Place.key).Nodup →
          (∀ q ∈ places l, ∀ slot o, q ≠ .regWin slot o) →
          let old := BitVec.ofNat 64 (leNat ((places l).map (s.placeByte f.warp.core)))
          let hit := old = (if wide then IType.z64 else .z32).keep (f.val .b l)
          v l = old ∧
          (∀ i (h : i < (places l).length), t.placeByte f.warp.core (places l)[i] =
            if hit then (f.val .c l).extractLsb' (8 * i) 8 else s.placeByte f.warp.core (places l)[i]) ∧
          ∀ p : Place, p.key ∉ (places l).map Place.key → t.placeByte f.warp.core p = s.placeByte f.warp.core p)

/-- Rejoin masks, phasers, waits, sleeps, remote writes, LFSR writes, `cpseal`, `tokpass`, `halt.dbg` and `nmret` leave
their action to the commit with the operands that they fire with, and do nothing else (R220, R343, R355, R406, R413 to
R420, R430, R434, R437, R459). -/
def Obligations.SynchronizationLeftToCommit : Prop :=
  ∀ (s : State) (f : Frame) (p : Pred), AtSlot s f →
    let leaves := fun (i : Instr) (d : Deferred) => Runs i s (f.Deferred d)
    let all := f.performing p []
    (∀ j, leaves (.rjenrol p j) (.rjenrol j.toNat (maskOf all)) ∧ leaves (.rjstrike p j) (.rjstrike j.toNat (maskOf all))) ∧
    leaves (.cpseal p) (.cpseal (maskOf all)) ∧
    (all ≠ [] → leaves (.tokpass p) .tokpass ∧ leaves (.haltDbg p) (.haltDbg f.slot (maskOf all)) ∧ leaves (.nmret p) .nmret) ∧
    (∀ l rest, f.performing p [.a] = l :: rest →
      leaves (.yield p) (.yield (f.val32 .a l).toNat) ∧
      leaves (.sleep p) (.sleep (if (f.val32 .a l).toNat < 2 ^ 24 then (f.val32 .a l).toNat else 2 ^ 24 - 1)) ∧
      leaves (.syswr p) (.syswr (f.val32 .a l)) ∧
      (∀ k, leaves (.rwwait p k) (.rwwait k.toNat (f.val32 .a l))) ∧
      ∀ phys attr places, windowOf (f.val .a l).toNat = .global →
        s.access (s.who f) .read (f.val .a l) 4 = .ok (.hbm phys attr :: places) →
        (∀ q ∈ places, ∃ x y, q = .hbm x y) →
        leaves (.plwait p) (.plwait (f.val .a l) (.hbm phys attr :: places) (maskOf (l :: rest)))) ∧
    (∀ l rest, f.performing p [.a, .b] = l :: rest → f.val32 .b l &&& 0xfc00fcc0 = 0 →
      leaves (.rwrite p) (.rwrite (f.val32 .b l) ((l :: rest).map fun l => (l, f.val32 .a l)))) ∧
    ∀ id : Nat → Nat,
      let known := fun (ls : List Nat) => ∀ l ∈ ls, (s.frameWarp f).phaserId? (f.val .a l) = some (id l)
      let two := f.performing p [.a, .b]
      let three := f.performing p [.a, .b, .c]
      (known two →
        leaves (.barReg p) (.barReg (two.map fun l => (l, id l, f.val32 .b l))) ∧
        leaves (.barDrop p) (.barDrop (two.map fun l => (l, id l, f.val32 .b l))) ∧
        ((∀ l ∈ two, (f.val .b l).toNat % 2 ^ 48 < 2 ^ 47) →
          leaves (.barExpect p) (.barExpect (two.map fun l => (l, id l, zext ((f.val .b l).extractLsb' 0 48))))) ∧
        ∀ scope rel so, (rel = true → s.NothingLost f) →
          leaves (.barArrive p scope rel false so) (.arrive so rel scope (two.map fun l => (l, id l, f.val32 .b l, 1 <<< 63)))) ∧
      (known three → (∀ l ∈ three, (f.val .c l).toNat % 2 ^ 48 < 2 ^ 47) → ∀ scope rel so, (rel = true → s.NothingLost f) →
        leaves (.barArrive p scope rel true so)
          (.arrive so rel scope (three.map fun l => (l, id l, f.val32 .b l, zext ((f.val .c l).extractLsb' 0 48)))))

/-- Stash, copy, append, join, call and packet instructions whose checks pass leave their work to the commit (R401 to R403,
R408, R409, R425, R428, R429, R433); `stmap` reserves its entry as it fires, and `cpyg` sends each lane whether its index is
in bounds. The model's choice: the stash instructions send some one value to their target in their performing lanes (log 6),
and `cpyg` reads its descriptor as one load of its lowest lane as it fires (log 27). -/
def Obligations.StashCopiesAndCallsLeftToCommit : Prop :=
  ∀ (s : State) (f : Frame) (p : Pred), AtSlot s f →
    let leaves := fun (i : Instr) (d : Deferred) => Runs i s (f.Deferred d)
    let w := s.frameWarp f
    let shows := fun (ls : List Nat) (x : W64) (l : Nat) => if l ∈ ls then some x else none
    (∀ t0 l rest, f.Unfed t0 →
      (f.performing p [.a, .b, .c] = l :: rest → s.stashOk w (f.val .a l) (f.val .b l) (f.val .c l) = true →
        ∃ x, RunsTo (.stmap p t0) s
          { s with stashMaps := s.stashMaps ++
              [⟨w.id.core, w.ctx, (f.val .a l).toNat, (f.val .b l).toNat, (w.stash.map Prod.fst).getD 0, (f.val .c l).toNat,
                some (f.warp, f.strand)⟩] }
          ((f.leaving (.stmap (f.val .a l) (f.val .b l) (f.val .c l))).Sent ⟨p, .none, t0⟩ (shows (l :: rest) x))) ∧
      (f.performing p [.a] = l :: rest →
        (∃ m ∈ s.stashMaps, m.core = w.id.core ∧ m.ctx = w.ctx ∧ m.base = (f.val .a l).toNat ∧ m.owner = none) →
        ∃ x, Runs (.stunmap p t0) s ((f.leaving (.stunmap (f.val .a l))).Sent ⟨p, .none, t0⟩ (shows (l :: rest) x))) ∧
      (f.performing p [.a, .b] = l :: rest →
        ∃ x, Runs (.stflush p t0) s
          ((f.leaving (.stflush (f.val .a l) (f.val .b l))).Sent ⟨p, .none, t0⟩ (shows (l :: rest) x)))) ∧
    (let lanes := f.performing p [.a, .b, .c];
      ((∀ l ∈ lanes, s.checkCopy f (f.val .a l) (f.val .b l) (f.val .c l) = .ok ()) →
        leaves (.cpy p) (.cpy (lanes.map fun l => (l, f.val .a l, f.val .b l, f.val .c l)))) ∧
      ((∀ l ∈ lanes, s.checkRred f (f.val .a l) (f.val .b l) (f.val .c l) = .ok ()) →
        leaves (.rred p) (.rred (lanes.map fun l => (l, f.val .a l, f.val .b l, f.val .c l)))) ∧
      (∀ win, s.callOf f = some win → win.readable = true → win.writable = true →
        (∀ l ∈ lanes, (f.val .a l).toNat % 1024 = 0 ∧ (f.val .b l).toNat % 1024 = 0 ∧ (f.val .c l).toNat % 64 = 0 ∧
          (f.val .a l).toNat + 1024 ≤ win.len ∧ (f.val .b l).toNat + 1024 ≤ win.len ∧ (f.val .c l).toNat + 64 ≤ win.len) →
        s.poisoned = [] →
        leaves (.gradq p) (.gradq (lanes.map fun l => (l, f.val .a l, f.val .b l, f.val .c l)))) ∧
      (∀ (src : MxSrc) (h : Nat → W32),
        (∀ l ∈ lanes, s.checkKv f (decide (src = .bf16)) (f.val .a l) (f.val .b l) = .ok (h l)) →
        leaves (.kvapp p src) (.kvapp (decide (src = .bf16)) (lanes.map fun l => (l, f.val .a l, f.val .b l, f.val32 .c l, h l)))) ∧
      ∀ l rest group id places, lanes = l :: rest →
        f.val .b l &&& 0xffffffffffc0c0f0 = 0 →
        (s.window? w.ctx ((f.val .b l).extractLsb' 0 4).toNat ((f.val .b l).extractLsb' 8 6).toNat).isSome →
        w.phaserId? (zext ((f.val .b l).extractLsb' 16 6)) = some id →
        (f.val .c l).toNat % 16 = 0 → (f.val .a l).toNat % 64 = 0 →
        s.access (s.who f) .write (f.val .a l) 64 = .ok places →
        leaves (.nmcall p group) (.nmcall (f.val .a l) (f.val .b l) (f.val .c l) (f.group group.toNat) false)) ∧
    (∀ (counted : Bool) (places : Nat → List Place), let lanes := f.performing p (if counted then [.a, .b] else [.a]);
      (∀ l ∈ lanes, (f.val .a l).toNat % 128 = 0 ∧
        s.atomicPlaces (s.who f) .add true false (f.val .a l) = .ok (places l)) →
      leaves (.join p counted) (.join (lanes.map fun l => (l, f.val .a l, places l, if counted then f.val .b l else 1)))) ∧
    ∀ (g : G) l rest places, f.Open g → s.Settled → f.performing g.pred [.a, .b] = l :: rest →
      (f.val .b l).toNat % 64 = 0 → s.access (s.who f) .read (f.val .b l) 64 = .ok places →
      (∀ q ∈ places, s.placePoisoned q = false) →
      let d := BitVec.ofNat 512 (leNat (places.map (s.shows false f.warp.core)))
      s.checkGather f d = .ok () →
      ∃ l1 readers sig start, (f.shape.iso = false → sig = f.readSig ∧ start = f.startCommit) ∧
        RunsTo (.cpyg g) s { s with l1 := l1, readers := readers }
        ((({ f with readSig := sig, startCommit := start } : Frame).leaving (.cpyg d ((l :: rest).map fun m => (m, f.val32 .a m)))).Sent g fun m =>
          if m ∈ l :: rest then some (if (f.val32 .a m).toNat < (d.extractLsb' 64 32).toNat then 1 else 0) else none)

/-- Matrix instructions whose checks pass leave a command, with the descriptor's words as they stand, to the commit (R438,
R439, R442, R450 to R452, R454, R456). A tile register can be named on an even core, below the number of those the warp's
unit was given (R438). -/
def Obligations.MatrixCommandsLeftToCommit : Prop :=
  (∀ (w : Warp) (t : Nat), (tilesFor w t false).isSome ↔ w.id.core % 2 = 0 ∧ t < w.tiles.length) ∧
  ∀ (s : State) (f : Frame) (p : Pred), AtSlot s f →
    let leaves := fun (i : Instr) (t : Nat) (o : MatrixOp) => Runs i s (f.Deferred (.matrix t o))
    let w := s.frameWarp f
    (∀ l rest tile (group : BitVec 2) acc f64, f.performing p [] = l :: rest →
      (checkMma false tile (f.group group.toNat) w = none → leaves (.mma p tile acc group) tile.toNat (.mma false acc (f.group group.toNat))) ∧
      (checkMma true tile (f.group group.toNat) w = none → leaves (.mmas p tile acc group) tile.toNat (.mma true acc (f.group group.toNat))) ∧
      (w.id.core % 2 = 0 → tile.toNat < w.tiles.length → leaves (.mzero p tile) tile.toNat .zero) ∧
      (checkEpilogue s tile f64 w (f.group group.toNat) = none →
        leaves (.mdrain p tile true f64 group) tile.toNat (.epilogue f64 (f.group group.toNat))) ∧
      (checkPrune w (f.group group.toNat) = none → leaves (.mprune p group) 0 (.prune (f.group group.toNat)))) ∧
    (∀ l rest tile group f64, f.performing p [.a] = l :: rest → checkDrain tile f64 w (f.val32 .a l) = none →
      leaves (.mdrain p tile false f64 group) tile.toNat (.drain f64 (f.val32 .a l) (maskOf (l :: rest)))) ∧
    ∀ l rest tile s32 places, f.performing p [.a, .b] = l :: rest → w.id.core % 2 = 0 → tile.toNat < w.tiles.length →
      f.val32 .a l &&& 0xffe0f8c0 = 0 → ((f.val32 .a l).extractLsb' 0 5).toNat ≤ 23 → (f.val .b l).toNat % 8 = 0 →
      s.access (s.who f) .atomic (f.val .b l) 8 = .ok places →
      (∀ q ∈ places, ∃ x y, q = .hbm x y ∧ y.memside = false) →
      leaves (.mpeer p tile s32) tile.toNat (.peer s32 (f.val32 .a l) (f.val .b l))

/-- The waits complete once what they wait for is over: `bar.wait` when each lane's phase has ended, with the phase at which
it found that in the lane as its result and an acquire at its scope; `cpwait` when no copy of the thread's batch is left;
`mwait` and `mwait.all` when the warp has no command, epilogue or held fault (R247, R405, R416, R440, R458). The model's
choice (log 21): that an acquire at `.pkg` and wider leaves the core's die no write that is still to arrive there. -/
def Obligations.WaitsEnd : Prop :=
  ∀ (s : State) (f : Frame), AtSlot s f →
    (∀ (g : G) scope (par : Bool) (id : Nat → Nat) (ph : Nat → Phaser), f.Open g →
      (∀ l ∈ f.performing g.pred [.a, .b],
        (s.frameWarp f).phaserId? (f.val .a l) = some (id l) ∧ s.phaser? (id l) = some (ph l) ∧
        let ahead := ((ph l).phase - (f.val .b l).extractLsb' 0 16).toNat
        if par then (ph l).phase.getLsbD 0 ≠ (f.val .b l).getLsbD 0 else 1 ≤ ahead ∧ ahead ≤ 2 ^ 15) →
      (∀ x ∈ f.returned, x.1 = f.slot → x.2.1 ∈ f.performing g.pred [.a, .b]) →
      let before := fun (l : Nat) => f.returned.find? fun x => x.1 = f.slot && x.2.1 = l
      let now := ∃ l ∈ f.performing g.pred [.a, .b], before l = none
      ∃ t returned, RunsTo (.barWait g scope par) s t
          (({ f with returned := returned } : Frame).Sent g fun l => if f.performs g.pred [.a, .b] l then
            some (zext (match before l with | some x => x.2.2 | none => (ph l).phase)) else none) ∧
        (¬now → t = s) ∧
        (s.Settled → ∃ late clocks past moments readers,
          t = { s with unarrived := late, clocks := clocks, past := past, moments := moments, readers := readers } ∧
          (now → Scope.rank .pkg ≤ scope.rank → ∀ u ∈ late, u.die ≠ coreDie f.warp.core))) ∧
    ∀ p : Pred,
      ((∀ l ∈ f.performing p [.a], ∀ c ∈ s.copies, c.who.serial = s.serialOf f.warp → c.coveredBy l (f.val32 .a l) = false) →
        ∃ readers, RunsTo (.cpwait p) s { s with readers := readers } f.Passed) ∧
      (let serial := (s.frameWarp f).serial;
        (∀ c ∈ s.matrix, c.who.serial ≠ serial) → (∀ e ∈ s.epilogues, e.who.serial ≠ serial) →
        (s.frameWarp f).heldFault = none →
        (∀ t, ∃ readers, RunsTo (.mwait p t) s { s with readers := readers } f.Passed) ∧
        ∃ readers, RunsTo (.mwaitAll p) s { s with readers := readers } f.Passed)

/-- `sysrd` gives what Table 16.4 holds to the lanes whose predicate passes (R434); `eret` in a handler makes its lanes
leave for the trap return (R435), and outside one takes *illegal*; `bkpt` takes *breakpoint* (R436). -/
def Obligations.SystemInstructions : Prop :=
  ∀ (s : State) (f : Frame) (w : Warp) (c : Context) (p : Pred), AtSlot s f → s.warp? f.warp = some w →
    s.context? w.ctx = some c →
    (∀ g : G, f.Open g →
      let gives := fun (r : SysReg) (v : W64) => Runs (.sysrd g r) s (f.Sent g fun l => if f.passes g.pred l then some v else none)
      gives .ctxclk (BitVec.ofNat 64 ((s.ticks - c.created) % 2 ^ 64 / 100 % 2 ^ 32)) ∧
      gives .reftime (BitVec.ofNat 64 (s.ticks - c.created)) ∧ gives .ctxnum (BitVec.ofNat 64 w.ctx) ∧
      gives .errcount (zext c.errors) ∧ gives .calends c.boundary ∧ gives .lfsr (zext w.lfsr) ∧
      gives .determ (if c.det then 1 else 0) ∧ gives .swaprdy (if c.swapReady then 1 else 0)) ∧
    let lanes := f.performing p []
    let info := fun (k : Cause) => { f.faultAt f.slot k 0 0 with lanes := maskOf lanes }
    (∀ st, w.strand? f.strand = some st →
      (st.inHandler = true → successorOk st.trapRet = true →
        Runs (.eret p) s (f.Left (lanes.map fun l => (l, f.slot, .eret)))) ∧
      (st.inHandler = false → lanes ≠ [] → f.Stuck (info .illegal) → Takes (.eret p) s f (info .illegal))) ∧
    (lanes ≠ [] → f.Stuck (info .breakpoint) → Takes (.bkpt p) s f (info .breakpoint))

/-- `deq` delivers the head record of the one eligible queue, with its class, as status 0, and binds its block; where none
is eligible it answers 1 when its timeout is 0, and parks the warp otherwise (R105, R108, R112, R153, R421). The model's
choice (log 54), where R104 lets a queue that has just become eligible be passed over: the only eligible queue is delivered
whether or not its dispatcher's summary shows it, with the class of that summary where it does. -/
def Obligations.DequeueDelivers : Prop :=
  ∀ (s : State) (f : Frame) (w : Warp) (g : G) (group : BitVec 2) (l : Nat) (rest : List Nat), AtSlot s f → f.Open g →
    f.performing g.pred [.a, .b] = l :: rest → MayAsk s f w (f.val .a l) →
    let n := ((f.val .a l).extractLsb' 32 16).toNat
    let first := if n = 0 then w.launchFirst else ((f.val .a l).extractLsb' 0 32).toNat
    let count := if n = 0 then w.launchCount else n
    let answered := fun (status : W64) (record : Option W512) (queue : Nat) (f' : Frame) =>
      (∃ r, f'.bound = some r ∧ r.block = f.pc ∧ r.record = record) ∧
      ({ f with bound := f'.bound, deferred := f.deferred ++ [(f.slot, .deqDone group.toNat record queue)] } : Frame).Sent g
        (fun k => if f.performs g.pred [.a, .b] k then some status else none) f'
    (∀ q, Deliverable s w first count q →
      let r := recSetClass (s.recordAt q q.head) (((s.reported? q).map Prod.fst).getD (s.effClass q))
      ∃ t, RunsTo (.deq g group) s t (answered 0 (some r) q.num) ∧ t.queue? q.num = some { q with
        head := q.head + 1, waitStart := s.ticks
        exclHolder := if (s.recordAt q q.head).getLsbD 348 then some w.id else q.exclHolder }) ∧
    ((∀ q ∈ s.queues, s.eligibleQueue w first count q = false) →
      (f.val32 .b l = 0 → ∃ t, RunsTo (.deq g group) s t (answered 1 none 0) ∧ t.queues = s.queues) ∧
      (f.val32 .b l ≠ 0 → ∃ t, exec (.deq g group) s = .next t ∧ t.queues = s.queues ∧
        (t.warp? f.warp).map (fun x => x.status) = some (.parkedDeq ⟨f.strand, first, count, f.val32 .b l, s.ticks⟩)))

/-- `enq` stores the record, as its uniform group stood before the block, at the tail of an enabled queue with room and answers 0, and else counts the refusal and answers
1 (R75, R77, R424): here where no warp is parked and no store is being sent. -/
def Obligations.EnqueueStores : Prop :=
  ∀ (s : State) (f : Frame) (w : Warp) (g : G) (group : BitVec 2) (l : Nat) (rest : List Nat) (q : WorkQueue),
    AtSlot s f → f.Open g → s.Canonical → s.Settled → s.NoneParked → s.warp? f.warp = some w → s.kept? f = none →
    f.performing g.pred [.a] = l :: rest → s.queue? (f.val32 .a l).toNat = some q → q.ctx = w.ctx →
    (q.enable = true → q.count < 2 ^ q.log2n - 1 →
      ∃ t, RunsTo (.enq g group) s t (f.StatusSent g [.a] 0) ∧ t.recordAt q q.tail = f.group group.toNat ∧
        t.queue? q.num = some { q with tail := q.tail + 1, waitStart := if q.count = 0 then s.ticks else q.waitStart }) ∧
    (q.enable = false ∨ 2 ^ q.log2n - 1 ≤ q.count →
      ∃ t, RunsTo (.enq g group) s t (f.StatusSent g [.a] 1) ∧ t.hbm = s.hbm ∧
        t.queue? q.num = some { q with overflow := Nat.min (q.overflow + 1) 0xffff })

/-- A post of a running sibling counts for its hash: the one that reaches the quorum decides, answers 1 and cancels every
other running sibling; any other post answers 0 and leaves the other siblings as they are (R128, R129, R426). `sbquery` reads a live group's hash, method, votes and
running siblings, and answers 2^31 for any other handle (R427). -/
def Obligations.SiblingPosts : Prop :=
  ∀ (s : State) (f : Frame) (w : Warp) (g : G), AtSlot s f → f.Open g → s.warp? f.warp = some w →
    (∀ l rest h i x gr, s.kept? f = none → f.performing g.pred [.a] = l :: rest → w.held = some h →
      let handle := recGroup h.record
      handle ≠ 0 → s.group? w.ctx handle = some gr → recSib h.record = i → gr.siblings[i]? = some x → x.state = .running →
      let votes := ((gr.hashes.find? fun e => e.1 = f.val .a l).map fun e => e.2.1).getD 0 + 1
      let wins := gr.decided = none ∧ votes = gr.quorum
      let others := fun (gr' : Group) (becomes : SibState → SibState) => ∀ k y, k ≠ i → gr.siblings[k]? = some y →
        (gr'.siblings[k]?).map (fun z => (z.state, z.posted, z.after, z.tokens)) =
          some (becomes y.state, y.posted, y.after, y.tokens)
      (∃ t gr', RunsTo (.sbpost g) s t (f.StatusSent g [.a] (if wins then 1 else 0)) ∧ t.group? w.ctx handle = some gr' ∧
        (gr'.siblings[i]?).map (fun y => (y.state, y.posted)) = some (.finished, true) ∧
        (wins → gr'.decided.map (fun d => (d.method, d.hash, d.votes)) = some (1, f.val .a l, votes)) ∧
        others gr' fun x => if wins ∧ x = .running then .cancelled else x) ∧
      ∃ t gr', RunsTo (.sbpostFail g) s t (f.StatusSent g [.a] 0) ∧ t.group? w.ctx handle = some gr' ∧
        (gr'.siblings[i]?).map (fun y => (y.state, y.posted)) = some (.failed, true) ∧ others gr' id) ∧
    Runs (.sbquery g) s (f.SentPair g
      (f.lane1 g.pred fun a => match s.group? w.ctx (a.extractLsb' 0 16).toNat with
        | some x => (x.decided.map fun d => d.hash).getD 0
        | none => 0)
      (f.lane1 g.pred fun a => match s.group? w.ctx (a.extractLsb' 0 16).toNat with
        | some x => BitVec.ofNat 64 ((x.decided.map fun d => d.method).getD 0 + (x.decided.map fun d => d.votes).getD 0 * 256 +
            (x.siblings.filter fun y => y.state = .running).length * 65536)
        | none => 0x80000000))

/-- `nbmode` asks for compute mode at once, except where a switch back is pending, and for normal mode as a pending switch,
and sends the mode and the pending masks (R276, R278, R432). `nbop` sends every performing lane what the operator makes of its
range in the fixed tree, which for `isum` is the sum modulo 2^32, leaves units in the middle of a row step and nothing else
(R277), and the dot product leaves each row's value to the commit (R271 to R275, R431). The model's choice (log 34): an
`nbop` reads its whole range in its one step. -/
def Obligations.NearBankInstructions : Prop :=
  ∀ (s : State) (f : Frame) (w : Warp) (p : PierRef) (g : G) (l : Nat) (rest : List Nat), AtSlot s f → f.Open g →
    s.warp? f.warp = some w → w.pier = some p →
    let same := fun (need : List Opnd) (v : W64) (k : Nat) => if f.performs g.pred need k then some v else none
    let n := s.nearBank p.stack
    let m := f.val .a l
    (f.performing g.pred [.a] = l :: rest →
      (∃ t, RunsTo (.nbmode g true) s t
          (f.SentPair g (same [.a] (n.cmode ||| (m &&& ~~~n.pending))) (same [.a] n.pending)) ∧
        ∃ x : NearBank, t = s.setNearBank p.stack x ∧ x.cmode = n.cmode ||| (m &&& ~~~n.pending) ∧ x.pending = n.pending ∧
          x.recompute = n.recompute ||| (m &&& n.pending) ∧ x.stalls = n.stalls ∧ x.rows = n.rows ∧ x.held = n.held) ∧
      ∃ t, RunsTo (.nbmode g false) s t
          (f.SentPair g (same [.a] n.cmode) (same [.a] (n.pending ||| (m &&& n.cmode)))) ∧
        ∃ x : NearBank, t = s.setNearBank p.stack x ∧ x.cmode = n.cmode ∧ x.pending = n.pending ||| (m &&& n.cmode) ∧
          x.recompute = n.recompute &&& ~~~m ∧ x.switches = n.switches ∧ x.stalls = n.stalls ∧ x.rows = n.rows ∧
          x.held = n.held) ∧
    ∀ win, s.writes = [] → s.poisoned = [] → s.callWindow? p = some win → win.readable = true →
      let o := m.toNat
      let size := (f.val .b l).toNat
      o % 128 = 0 → size % 128 = 0 → 128 ≤ size → o + size ≤ win.len →
      let elem := fun (w i : Nat) => leNat ((List.range w).map fun k => s.homeByte (win.phys + o + w * i + k))
      (∀ op, op ≠ .dot → f.performing g.pred [.a, .b] = l :: rest →
        ∃ (v : Nat) (rows : List Nat),
          RunsTo (.nbop g op) s (s.setNearBank win.stack { s.nearBank win.stack with rows := rows })
            (f.Sent g (same [.a, .b] (BitVec.ofNat 64 v))) ∧
          (op = .isum → v = ((List.range (size / 4)).map (elem 4)).sum % 2 ^ 32) ∧
          let n := if op = .ses then 8 else 4
          some v = bankTree (bankOp op) fun u => folded (bankOp op)
            (((List.range (size / n)).filter fun i => bankGroup (o + n * i) = u).map fun i => some (elem n i))) ∧
      ∀ base len, f.performing g.pred [.a, .b, .c] = l :: rest → w.scratch = some (base, len) →
        let x := ((f.val .c l).extractLsb' 0 32).toNat
        let d := ((f.val .c l).extractLsb' 32 16).toNat
        let rows := size / (4 * d)
        (f.val .c l).extractLsb' 48 16 = 0 → d % 32 = 0 → 32 ≤ d → d ≤ 2048 → size % (4 * d) = 0 → rows ≤ 256 →
        x + 4 * d + 4 * rows ≤ len →
        let vec := fun (j : Nat) =>
          leNat ((List.range 4).map fun k => sget 0 s.store (w.id.core * Config.storeSpan + (base + x + 4 * j + k)))
        let leaf := fun (r u : Nat) => match (List.range d).filter fun j => bankGroup (o + 4 * (d * r + j)) = u with
          | [] => none
          | j :: js => some (js.foldl (fun acc j => fmaCode (vec j) (elem 4 (d * r + j)) acc) (mulCode (vec j) (elem 4 (d * r + j))))
        ∃ (results : List W32) (units : List Nat), results.length = rows ∧
          (∀ r v, results[r]? = some v → (bankTree (bankOp .fsum) (leaf r)).map (BitVec.ofNat 32) = some v) ∧
          RunsTo (.nbop g .dot) s (s.setNearBank win.stack { s.nearBank win.stack with rows := units })
            ((f.leaving (.nbDot (base + x + 4 * d) results)).Sent g (same [.a, .b, .c] (BitVec.ofNat 64 rows)))

/-- A phaser's rules (R245, R246, R413): an arrival for the current phase is counted with its bytes, one too many faults, a
signal-only arrival for the next phase is kept, `bar.reg` adds a member, `bar.drop` takes one away, and a phase ends exactly
when no member is yet to arrive and no byte is pending. -/
def Obligations.PhaserRules : Prop :=
  ∀ (p : Phaser) (so : Bool) (q : BitVec 16) (bytes : Option (BitVec 48)),
    (p.yet = 0 → p.arrive so p.phase bytes = none) ∧
    (p.yet ≠ 0 → p.arrive so p.phase bytes = some
      ({ p with yet := p.yet - 1, pending := p.pending + bytes.getD 0 } : Phaser).complete) ∧
    (so = true → bytes = none → p.early < 255 → p.early < p.members →
      p.arrive so (p.phase + 1) bytes = some { p with early := p.early + 1 }) ∧
    (q ≠ p.phase → so = false → p.arrive so q bytes = none) ∧
    (p.members < 65535 → p.register p.phase = some { p with members := p.members + 1, yet := p.yet + 1 }) ∧
    (p.members < 65535 → p.register (p.phase + 1) = some { p with members := p.members + 1 }) ∧
    (p.early < p.members → p.yet ≠ 0 →
      p.drop p.phase = some ({ p with members := p.members - 1, yet := p.yet - 1 } : Phaser).complete) ∧
    (p.yet ≠ 0 ∨ p.pending ≠ 0 ∨ p.members = 0 → p.complete = p) ∧
    (p.yet = 0 → p.pending = 0 → p.members ≠ 0 →
      p.complete = { p with phase := p.phase + 1, yet := p.members - p.early, early := 0 })

/-- Exact accumulation (R312, R313): below half its range a shadow takes the exact sum of finite addends in units of 2^−160,
so any order of the same addends leaves the same shadow; a NaN or opposite infinities leave NaN for good. -/
def Obligations.ExactAccumulation : Prop :=
  (∀ (f : Fmt) (x : Int) (n : Nat), (f = .f32 ∨ f = .bf16) → n < 2 ^ f.width → (readFloat f n).isFinite = true →
    x.natAbs < 2 ^ 510 → shadowAdd x (readFloat f n) = x + (readFloat f n).scaled (-160)) ∧
  (∀ (f : Fmt) (x : Int) (ns ms : List Nat), (f = .f32 ∨ f = .bf16) → ns.Perm ms → ns.length < 2 ^ 64 →
    (∀ n ∈ ns, n < 2 ^ f.width ∧ (readFloat f n).isFinite = true) → x.natAbs < 2 ^ 509 →
    ns.foldl (fun y n => shadowAdd y (readFloat f n)) x = ms.foldl (fun y n => shadowAdd y (readFloat f n)) x) ∧
  ∀ (v : Val), shadowAdd shadowNan v = shadowNan ∧ shadowAdd shadowInf (.inf true) = shadowNan ∧
    shadowAdd shadowNegInf (.inf false) = shadowNan

/-- A token delivered to a target stands in every lane where it is not null, and leaves the lane as it was elsewhere; two
values that are not null in one lane make the block faulty with cause *malformed* at the consuming slot (R146, R169). -/
def Obligations.TwoProducers : Prop :=
  ∀ (f : Frame) (producer : Nat) (t : Target) (v : Token), t ≠ .none →
    let f' := f.deliver producer t v
    (∀ l, l < 32 → f'.holds t l = (match tokenAt v l with | some x => some x | none => f.holds t l)) ∧
    (∀ u, u ≠ t → f'.collected u = f.collected u) ∧
    (f'.faults = f.faults ↔ ∀ l, l < 32 → f.holds t l = none ∨ tokenAt v l = none) ∧
    ∀ o k, t = .op o k → ∀ l, l < 32 → f.holds t l ≠ none → tokenAt v l ≠ none →
      ⟨.malformed, k.toNat, 1 <<< l, 0, f.lsidOf k.toNat, 0, false, none⟩ ∈ f'.faults

/-- A write word at commit (R326, R342): a vector register takes the low half of its token in each active lane that is not
null, a uniform register that of the lowest such lane, a predicate bit 0; a pair takes both halves, or all 64 predicates of
the lane. A rejoin mask takes the value of the lowest lane without its ended lanes: parked lanes that lose their bit go on
alone, and all go on where all have come (R159). The rest keeps its value, and the tables their form. -/
def Obligations.RegisterWritesAtCommit : Prop :=
  ∀ (w : Warp) (f : Frame) (n : BitVec 8) (i : Nat), swf 0 w.v = true → swf 0 w.s = true → swf 0 w.p = true →
    swf 0 w.jE = true →
    let on := fun (l : Nat) => if f.active.getLsbD l then tokenAt (f.written i) l else none
    let v := w.applyWrite f ((.v, n, false), i)
    let u := w.applyWrite f ((.s, n, false), i)
    let p := w.applyWrite f ((.p, n, false), i)
    (swf 0 v.v = true ∧ ({ v with v := w.v } : Warp) = w ∧ ∀ k l, l < 32 →
      v.vreg k l = if k = n.toNat then (match on l with | some x => lo32 x | none => w.vreg k l) else w.vreg k l) ∧
    (swf 0 u.s = true ∧ ({ u with s := w.s } : Warp) = w ∧ ∀ k,
      u.sreg k = if k = n.toNat then
        (match allLanes.findSome? on with | some x => lo32 x | none => w.sreg k) else w.sreg k) ∧
    (n.toNat < 64 → swf 0 p.p = true ∧ ({ p with p := w.p } : Warp) = w ∧ ∀ k l, l < 32 → k < 64 →
      (p.preds l).getLsbD k = if k = n.toNat then
        (match on l with | some x => x.getLsbD 0 | none => (w.preds l).getLsbD k) else (w.preds l).getLsbD k) ∧
    (let v := w.applyWrite f ((.v, n, true), i);
      swf 0 v.v = true ∧ ({ v with v := w.v } : Warp) = w ∧ ∀ k l, l < 32 → v.vreg k l = match on l with
        | some x => if k = n.toNat then lo32 x else if k = n.toNat + 1 then hi32 x else w.vreg k l
        | none => w.vreg k l) ∧
    (let u := w.applyWrite f ((.s, n, true), i);
      swf 0 u.s = true ∧ ({ u with s := w.s } : Warp) = w ∧ ∀ k, u.sreg k = match allLanes.findSome? on with
        | some x => if k = n.toNat then lo32 x else if k = n.toNat + 1 then hi32 x else w.sreg k
        | none => w.sreg k) ∧
    (let p := w.applyWrite f ((.p, n, true), i);
      swf 0 p.p = true ∧ ({ p with p := w.p } : Warp) = w ∧ ∀ l, l < 32 → p.preds l = (on l).getD (w.preds l)) ∧
    (64 ≤ n.toNat → allLanes.findSome? on = none → p = w) ∧
    ∀ x, 64 ≤ n.toNat → allLanes.findSome? on = some x →
      let j := n.toNat - 64
      let e := lo32 x &&& w.living
      let all := w.arrived j &&& e ≠ 0 ∧ w.arrived j &&& e = e
      p.enrol j = (if all then 0 else e) ∧ (∀ k, k ≠ j → p.enrol k = w.enrol k) ∧ swf 0 p.jE = true ∧
      ({ p with jE := w.jE, strands := w.strands, nextStrand := w.nextStrand } : Warp) = w ∧
      ∀ st ∈ w.strands, (st.place ≠ .parked j → st.mask ≠ 0 → st ∈ p.strands) ∧
        (st.place = .parked j → ∀ l ∈ lanesOf st.mask,
          (e.getLsbD l = false → ∃ y ∈ p.strands, y.place = .waiting ∧ y.mask = maskOf [l] ∧ y.key = st.key) ∧
          (e.getLsbD l = true → ∃ y ∈ p.strands, y.place = (if all then .waiting else .parked j) ∧
            y.mask.getLsbD l = true ∧ y.key = st.key ∧ (¬all → y.id = st.id)))

/-- A step for a block runs the instruction that its next word decodes to, after the block has come to the head of those in
flight, and lets time pass; a step for an event runs the event; with nothing to do, only time passes (R146, R152; log 1, log
2). A step that would write first to a line whose undo region is full waits in place of it (R68). -/
def Obligations.StepRunsDecoded : Prop :=
  ∀ s : State,
    let after := fun (o : Host.Outcome State Fault Refusal) => match o with
      | .next t => if s.overfull t = [] then .next (s.pass t) else .next (s.pass (s.firstWritesWait (s.overfull t)))
      | .fault r => .fault r
      | .refused r => .refused r
    (∀ warp strand f word i, s.turn? = some (.block warp strand) → (s.front warp strand).frames.head? = some f →
      f.words[f.at_]? = some word → decode word = .ok i → step s = after (exec i (s.front warp strand))) ∧
    (∀ warp strand f, s.turn? = some (.block warp strand) → (s.front warp strand).frames.head? = some f →
      f.words.length ≤ f.at_ → step s = after (exec .blockCommit (s.front warp strand))) ∧
    (∀ i, s.turn? = some (.event i) → step s = after (exec i s)) ∧
    (∀ i port, s.turn? = some (.serve port) → (s.mailbox port).cmd = some i → step s = after (exec i (s.serveMailbox port))) ∧
    (∀ i rest, s.turn? = some .input → s.inputs = i :: rest → step s = after (exec i { s with inputs := rest })) ∧
    (s.turn? = none → step s = .next (s.pass s)) ∧
    (∀ t, (∀ p ∈ s.phasers, p.due = false) → s.pass t = t.advance) ∧
    ∀ warp strand, (s.front warp strand).frames.Perm s.frames ∧
      ({ s.front warp strand with frames := s.frames } : State) = s

/-- The register reads of a block are one instant (R341): while the head block reads its registers the next step is its
own, and no time passes. -/
def Obligations.ReadsAreOneInstant : Prop :=
  ∀ (s t : State) (f : Frame) (w : Warp) (word : W32) (r : RWord) (x : WWord), s.frames.head? = some f →
    s.warp? f.warp = some w → w.status = .running → f.waiting = false → 0 < f.at_ → f.at_ + 1 < f.base →
    f.words[f.at_]? = some word →
    decode word ∈ [.ok (.rdV r), .ok (.rdS r), .ok (.rdP r), .ok (.rdX r), .ok (.wrV x), .ok (.wrS x), .ok (.wrP x)] →
    step s = .next t →
    t.ticks = s.ticks ∧ t.cycles = s.cycles ∧ t.pierCycles = s.pierCycles ∧ t.warps = s.warps ∧
    t.frames.tail = s.frames.tail ∧ ∃ f', t.frames.head? = some f' ∧ f'.at_ = f.at_ + 1

/-- Decoding gives back every well-formed instruction word that the encoder writes, with every operand at every value that
the encoding admits (R315 to R331). -/
def Obligations.DecodeEncode : Prop :=
  ∀ i : Instr, i.isWord = true → i.wf = true → decode (encode i) = .ok i

/-- Words that the spec writes out in its examples (Tables 12.12, 13.5 and 15.4, R347, R348), one per format at least, and
what they stand for. -/
def Obligations.DecodeWords : Prop :=
  decode 0x02421082 = .ok (.blk 4 2 1 0 true 1 false) ∧
  decode 0x04084000 = .ok (.rdV ⟨4, false, .op .c 0, .op .a 0⟩) ∧
  decode 0x0c080000 = .ok (.wrV ⟨4, false⟩) ∧
  decode 0x500c8002 = .ok (.ffma ⟨.always, .write 0, .op .a 2⟩ .f32) ∧
  decode 0x16000022 = .ok (.movi .always 0 (.op .b 2)) ∧
  decode 0x52086463 = .ok (.fsetp ⟨.always, .op .p 4, .op .p 3⟩ .lt .f32) ∧
  decode 0x18800010 = .ok (.br .onTrue 16) ∧
  decode 0x19000003 = .ok (.br .onFalse 3) ∧
  decode 0x1a000100 = .ok (.call .always 0x100) ∧
  decode 0x1e30ffff = .ok (.ret .always) ∧
  decode 0x90020002 = .ok (.ld ⟨.always, 0, .b32, 0, .op .a 2⟩) ∧
  decode 0x920a01ff = .ok (.st ⟨.always, 1, .b32, 1, .none⟩) ∧
  decode 0x12000010 = .ok (.ext 0x10)

/-- Predicate mode 11 is illegal in every word that has a predicate (R320), and a major opcode that Table 12.8 does not
assign is illegal (R330). -/
def Obligations.IllegalWordsRefused : Prop :=
  ∀ (w : W32) (i : Instr), let major := (w >>> 25).toNat
    (0x0b ≤ major → w.extractLsb' 23 2 = 3 → decode w ≠ .ok i) ∧
    (major = 0 ∨ (0x15 ≤ major ∧ major ≤ 0x27) ∨ (0x2f ≤ major ∧ major ≤ 0x3f) ∨ (0x45 ≤ major ∧ major ≤ 0x47) ∨
      (0x54 ≤ major ∧ major ≤ 0x56) ∨ (0x5d ≤ major ∧ major ≤ 0x5f) ∨ major = 0x77 ∨ 0x7d ≤ major →
      decode w ≠ .ok i)

/-- No step spoils the form in which memory is held: addresses rise, and no byte is listed that an unlisted one reads as. -/
def Obligations.MemoryStaysCanonical : Prop :=
  ∀ s t : State, s.Canonical → step s = .next t → t.Canonical

/-- What reset leaves (R22, R51, R55, R58, R65, R68; Tables 2.6, 3.5): the cold start before its first step, the limits,
intervals and registers at the values of their tables, no context, no warp and no queue, and memory in its form. The empty almanac is the model's choice (log 9), and so is empty
memory (log 8). -/
def Obligations.ResetState : Prop :=
  let s := State.reset
  s.startup.ready = false ∧ s.startup.step = 0 ∧ s.startup.locked = false ∧ s.power.hostLimit = 4200 ∧
  s.calends.interval = 200 ∧ s.calends.fraction = 20 ∧
  s.pod.timeout = 5000 ∧ s.pod.self = 0x3ff ∧ s.pod.enable = false ∧ s.pod.entries = [] ∧
  (∀ port, s.mailbox port = ⟨false, none, false, false, false, 0, 0, []⟩) ∧
  s.contexts = [] ∧ s.queues = [] ∧ s.warps = [] ∧ s.frames = [] ∧ s.windows = [] ∧ s.apertures = [] ∧ s.almanac = [] ∧
  s.Canonical

/-- Taking an exception and returning from one (R168 to R170, R172 to R175, R179). A faulting block is discarded. A strand
with a handler of kind 1 goes on at it, with its trap return and its in-handler flag, and the 64 bytes of its record (Table
7.1) stand in the warp area and in no first-level copy of its core; a trap of kind 2 takes the warp off-core under the next sequence number; while another strand is in a handler the strand is held; inside a handler the
context faults. `eret` takes the strand back to its trap return, and releases those that are held, in the order in which they
were held. -/
def Obligations.ExceptionsTaken : Prop :=
  (∀ (s : State) (f : Frame) (i : FaultInfo), ∀ x ∈ (s.takeFault f i).frames,
    x ∈ s.frames ∧ ¬(x.warp = f.warp ∧ x.strand = f.strand)) ∧
  (∀ (s : State) (w : Warp) (st : Strand) (e : Exception) (c : Context), s.warp? w.id = some w → w.strand? st.id = some st →
    s.context? w.ctx = some c →
    let t := s.takeException w st e
    let v := s.vector w.ctx e.vector
    let free := w.status = .running ∧ ∀ x ∈ w.strands, x.inHandler = false
    (free → v.2.2 = 1 → e.cause ∉ [.nested, .saveFault, .undoOverflow, .uncorrectable] →
      ∃ w', t.warp? w.id = some w' ∧
        w'.strand? st.id = some { st with pc := v.1, trapRet := e.trapRet, inHandler := true, held := none } ∧
        (∀ k, k ≠ st.id → w'.strand? k = w.strand? k) ∧
        ({ w' with strands := w.strands, lastWatch := w.lastWatch } : Warp) = w) ∧
    (free → v.2.2 = 1 → e.cause ∉ [.nested, .saveFault, .undoOverflow, .uncorrectable] →
      let off := warpArea w.id.core w.id.slot + 0xb20
      (∀ places, s.savePlaces c off 64 = .ok places → (places.map Place.key).Nodup → s.Canonical → s.stashLines = [] →
        s.Unraced 0 places →
        ∃ bytes, t.holdsAt 0 places bytes ∧ bytes.length = 64 ∧
          field bytes 0x00 8 = e.block.toNat ∧ field bytes 0x08 8 = e.info.address.toNat ∧
          field bytes 0x10 4 = e.info.lanes.toNat ∧ field bytes 0x14 4 = st.mask.toNat ∧
          field bytes 0x18 1 = e.cause.code ∧ field bytes 0x19 1 = e.info.slot % 2 ^ 8 ∧
          field bytes 0x1a 1 = e.info.lsid % 2 ^ 8 ∧ field bytes 0x1b 1 = (if e.info.epilogue then 1 else 0) ∧
          field bytes 0x1c 2 = w.id.core % 2 ^ 16 ∧ field bytes 0x1e 1 = w.id.slot % 2 ^ 8 ∧ field bytes 0x1f 1 = 0 ∧
          field bytes 0x20 8 = e.info.detail.toNat ∧ field bytes 0x28 8 = s.refTime w.ctx % 2 ^ 64 ∧
          field bytes 0x30 16 = 0) ∧
      ∀ places, t.savePlaces c off 64 = .ok places →
        ∀ x ∈ t.l1, x.core = w.id.core → x.ctx = w.ctx → x.line ∉ linesAt places) ∧
    (free → v.2.2 = 2 → e.isTrap = true → c.slotHeld (s.headerRing w.ctx) = false →
      (t.warp? w.id).map (fun x => x.status) = some (.offCore c.nextSeq st.mask e.vector v.2.1) ∧
      ∃ c', t.context? w.ctx = some c' ∧ c'.nextSeq = c.nextSeq + 1 ∧ c'.requests = c.requests ++ [(c.nextSeq, w.id)] ∧
        c'.rings = c.rings ++ [(c.nextSeq, s.headerRing w.ctx)]) ∧
    (st.inHandler = false → (w.status ≠ .running ∨ ∃ x ∈ w.strands, x.id ≠ st.id ∧ x.inHandler = true) →
      let h : HeldKind := if e.isTrap then .trapping w.nextHold e.vector e.info.slot e.block else .faulting w.nextHold
      (∃ w', t.warp? w.id = some w' ∧ w'.strand? st.id = some { st with held := some h } ∧
        (∀ k, k ≠ st.id → w'.strand? k = w.strand? k) ∧
        ({ w' with strands := w.strands, lastWatch := w.lastWatch } : Warp) = w) ∧
      ((∀ q m k n, w.status ≠ .offCore q m k n) →
        t = s.onWarp w.id fun x => x.onStrand st.id fun y => { y with held := some h })) ∧
    (st.inHandler = true → c.state = .resident ∨ c.state = .spilling → c.faulting = false → c.recovering = false →
      (∀ x ∈ t.frames, x.warp ≠ w.id) ∧
      ∃ c', t.context? w.ctx = some c' ∧ c'.state = .spilling ∧ c'.faulting = true)) ∧
  (∀ (w : Warp) (f : Frame) (st : Strand) (now : Nat), w.strand? f.strand = some st → (∀ x ∈ w.strands, x.id < w.nextStrand) →
    st.place = .active → st.mask ≠ 0 → f.deferred = [] → (∀ x ∈ f.exits, x.2.2 = .eret) →
    (∀ l ∈ lanesOf st.mask, ∃ k, (l, k, .eret) ∈ f.exits) →
    ∃ st', (w.divide f now).strand? st.id = some st' ∧ st'.pc = st.trapRet ∧ st'.mask = st.mask ∧ st'.inHandler = false) ∧
  ∀ (s : State) (w : Warp), s.warp? w.id = some w → (∀ st ∈ w.strands, st.held = none ∨ ∃ n, st.held = some (.faulting n)) →
    ∃ held : List Strand, held.Perm (w.strands.filter fun st => st.held.isSome) ∧
      held.Pairwise (fun a b => (a.held.map HeldKind.order).getD 0 ≤ (b.held.map HeldKind.order).getD 0) ∧
      (s.releaseHeld w.id).warp? w.id = some { w with
        strands := (w.strands.filter fun st => st.held.isNone) ++ held.map fun st => { st with held := none } }

/-- A strand's turn to fetch puts its next block in flight, and changes nothing else; restarted eight times it asks for the
serial token (R145, R152, R154, R158). A commit does the block's register writes, ORs its flags into the predicates, steps
the LFSR after an `.rs`, and sends its strand to the successor (R142, R143, R298, R301, R342, R343); its stores reach memory
as they are performed, and its die's arbiter keeps their signature (R151, R156). An action left to the commit takes effect
with it: phasers, sleeps, holds, copies, stash, matrix commands and calls; where its queue is full the block runs again (R154,
R404, R439). `rjwait` parks the enrolled lanes, or lets them go where all have come, and the others go on (R159). A conflicting
isolated block runs again, and another commits (R157). -/
def Obligations.BlocksFetchedAndCommitted : Prop :=
  (∀ (s : State) (w : Warp) (st : Strand) (ws : List W32) (b : DecodedBlock), Fetchable s w st ws b →
    exec (.blockFetch w.id st.id) s = .next (s.Fetched w st ws b) ∧
    exec (.blockRetry w.id st.id) s = .next (s.Fetched w st ws b)) ∧
  (∀ (s : State) (w : Warp) (st : Strand), s.warp? w.id = some w → w.strand? st.id = some st → st.place = .active →
    coreDie w.id.core < 4 → 8 ≤ st.restarts →
    let a := s.arbiter (coreDie w.id.core)
    a.holder ≠ some (w.id, st.id) → (w.id, st.id) ∉ a.serial → Ends (.blockFetch w.id st.id) s fun t =>
      (t.arbiter (coreDie w.id.core)).serial = a.serial ++ [(w.id, st.id)] ∧ t.warps = s.warps ∧ t.frames = s.frames) ∧
  ∀ (s : State) (f : Frame) (w : Warp) (st : Strand) (pc : W64),
    let die := coreDie f.warp.core
    let commits := fun (p : State → Prop) => Ends .blockCommit s fun t => s.Committed t f w (st.gone f.pc pc) ∧ p t
    let again := exec .blockCommit s = .next (s.discard f).wakeWaiting
    (Complete s f w st (.go pc) → f.shape.iso = false → f.stores = [] → f.deferred = [] → commits fun t =>
      t.hbm = s.hbm ∧ t.contexts = s.contexts ∧ ∃ w', t.warp? f.warp = some w' ∧ (f.flags = [] → w'.p = (w.applyWrites f).p) ∧
        (swf 0 w.p = true → ∀ l, w'.preds l = (w.applyWrites f).preds l |||
          (zext ((f.flags.filter fun x => x.1 = l).foldl (fun m x => m ||| x.2) 0) <<< 59)) ∧
        w'.lfsr = if f.rounded ∧ s.deterministic w.ctx = false then
          (w.lfsr >>> 1) ^^^ (if w.lfsr.getLsbD 0 then 0x80200003 else 0) else w.lfsr) ∧
    (∀ x : BufStore, Complete s f w st (.go pc) → f.shape.iso = false → f.stores = [x] → f.deferred = [] → f.flags = [] →
      x.release = none → x.multicast = false → (s.arbiter die).holder = none → s.Settled → s.Canonical →
      s.Unraced f.warp.core x.places → x.places.length = x.bytes.length → (x.places.map Place.key).Nodup → x.places ≠ [] →
      let there := fun (t : State) => ∀ c ∈ x.places.zip x.bytes, t.placeByte f.warp.core c.1 = c.2
      (die < 4 → isPier f.warp.core = false → commits fun t => ∃ sig, (∀ b ∈ f.writeSig, b ∈ sig) ∧
        (t.arbiter die).number = (s.arbiter die).number + 1 ∧
        (t.arbiter die).history.getLast? = some ((s.arbiter die).number + 1, sig)) ∧
      ((∀ q ∈ x.places, ∃ k o, q = .store k o) → commits there) ∧
      ((∀ q ∈ x.places, ∃ a y, q = .hbm a y ∧ y.memside = false) → x.bytes.length ≤ 8 →
        x.address.toNat % x.bytes.length = 0 → commits fun t => t.hbm = s.hbm ∧ there (t.drain fun _ => true) ∧
          ∃ p : PendingWrite, t.writes = [p] ∧ p.warp = f.warp ∧ p.places = x.places ∧ p.bytes = x.bytes ∧ p.rmw = none)) ∧
    (∀ k d, Leaves s f w st pc k d →
      (∀ l id p, s.phaser? id = some p →
        let acts := fun (r : Option Phaser) => match r with
          | some p' => commits fun t => t.phaser? id = some p'
          | none => exec .blockCommit s =
              .next (s.takeFault f { f.faultAt k .barrier 0 0 with lanes := maskOf [l] }).wakeWaiting
        (∀ x, d = .barReg [(l, id, x)] → acts (p.register (x.extractLsb' 0 16))) ∧
        (∀ x, d = .barDrop [(l, id, x)] → acts (p.drop (x.extractLsb' 0 16))) ∧
        (∀ x, d = .barExpect [(l, id, x)] → acts (some (p.expect (x.extractLsb' 0 48)))) ∧
        ∀ so rel sc x b, d = .arrive so rel sc [(l, id, x, b)] → s.pod.out = [] → s.packets = [] →
          (rel = true → s.writes = []) → acts (p.arrive so (x.extractLsb' 0 16) (if b.getLsbD 63 then none else some (b.extractLsb' 0 48)))) ∧
      (∀ n, d = .sleep n → Ends .blockCommit s fun t =>
        s.Committed t f w { st.gone f.pc pc with place := .sleeping (s.ticks + n) }) ∧
      (∀ i n, d = .rwwait i n → Ends .blockCommit s fun t => s.Committed t f w
        { st.gone f.pc pc with hold := if (w.arrival i - n).toNat < 2 ^ 31 then [] else [(i, n)] }) ∧
      (∀ lanes, d = .cpy lanes →
        (256 < (s.runningCopies w.id.core).length + lanes.length → again) ∧
        ((s.runningCopies w.id.core).length + lanes.length ≤ 256 → commits fun t => ∃ cs, t.copies = s.copies ++ cs ∧
          cs.map (fun c => (c.who, c.lanes, c.unsealed, c.kind, c.moved, c.fault)) =
            lanes.map fun x => (w.issuer, maskOf [x.1], maskOf [x.1], .flat x.2.1 x.2.2.1 (ctlLen x.2.2.2), [], none))) ∧
      (∀ g lanes, d = .cpyg g lanes →
        (256 ≤ (s.runningCopies w.id.core).length → again) ∧
        ((s.runningCopies w.id.core).length < 256 → commits fun t => ∃ c, t.copies = s.copies ++ [c] ∧ c.who = w.issuer ∧
          c.kind = .gather g lanes ∧ c.fault = none)) ∧
      (∀ tile o, d = .matrix tile o →
        let mine := (s.matrix.filter fun c => c.leader = w.id.core).length
        (16 ≤ mine → again) ∧
        (mine < 16 → commits fun t => ∃ c, t.matrix = s.matrix ++ [c] ∧ c.leader = w.id.core ∧ c.who = w.issuer ∧
          c.op = o ∧ c.started = false)) ∧
      (∀ ret call entry msg refused, d = .nmcall ret call entry msg refused →
        let stack := (call.extractLsb' 0 4).toNat
        (64 ≤ s.waitingCalls stack → again) ∧
        (s.waitingCalls stack < 64 → s.writes = [] → commits fun t => ∃ c, t.calls = s.calls ++ [c] ∧ c.stack = stack ∧ c.ctx = w.ctx ∧
          c.core = w.id.core ∧ c.windowIdx = (call.extractLsb' 8 6).toNat ∧ c.entry = entry ∧ c.msg = msg ∧ c.ret = ret ∧
          c.queued = false ∧ c.started = false)) ∧
      (∀ a b o, d = .stmap a b o → commits fun t => t.stashMaps = s.stashMaps.map fun m =>
        if m.owner = some (f.warp, f.strand) ∧ m.base = a.toNat then { m with owner := none } else m) ∧
      (∀ a m, d = .stunmap a → s.stashMaps.filter (fun m => m.core = w.id.core ∧ m.ctx = w.ctx ∧ m.base = a.toNat) = [m] →
        m.owner = none → commits fun t => t.stashMaps = s.stashMaps.filter (fun x => x ≠ m) ∧
          ∀ l ∈ t.stashLines, l.core = w.id.core → l.ctx = w.ctx → ¬(m.base ≤ l.va ∧ l.va < m.base + m.len)) ∧
      (∀ a, d = .stflush a 0 → commits fun t =>
        ∀ l ∈ t.stashLines, l.core = w.id.core → l.ctx = w.ctx → l.dirty = []) ∧
      ∀ l a n ps, d = .join [(l, a, ps, n)] → s.Settled → s.Canonical → s.Unraced f.warp.core ps → PlainPlaces ps →
        s.access w.issuer .atomic a 128 = .ok ps → s.NoneParked →
        let count := BitVec.ofNat 64 (leNat ((ps.take 8).map (s.placeByte f.warp.core))) - n
        let holds := fun (t : State) => t.holdsAt f.warp.core (ps.take 8) (leBytes 8 count.toNat)
        0 < n.toInt →
        (0 < count.toInt → commits holds) ∧
        ∀ q, count = 0 → s.queue? (leNat (((ps.drop 8).take 4).map (s.placeByte f.warp.core))) = some q → q.ctx = w.ctx →
          q.enable = true →
          (2 ^ q.log2n - 1 ≤ q.count → again) ∧
          (q.count < 2 ^ q.log2n - 1 → commits fun t =>
            (t.queue? q.num).map (fun x => (x.head, x.tail)) = some (q.head, q.tail + 1))) ∧
    (∀ j, Complete s f w st (.rejoin j pc) → f.shape.iso = false → f.Quiet → j < 16 → swf 0 w.jE = true →
      let e := (w.applyWrites f).enrol j
      let parks := st.mask &&& e
      let goesOn := st.mask &&& ~~~e
      Ends .blockCommit s fun t => ∃ w', t.warp? f.warp = some w' ∧
        w'.enrol j = (if parks ≠ 0 ∧ parks = e then 0 else e) ∧
        (parks ≠ 0 → ∃ x ∈ w'.strands, x.mask = parks ∧ x.pc = pc ∧
          x.place = if parks = e then .active else .parked j) ∧
        (goesOn ≠ 0 → ∃ x ∈ w'.strands, x.id = st.id ∧ x.mask = goesOn ∧ x.pc = pc ∧ x.place = .active) ∧
        ∀ l, w'.living.getLsbD l = st.mask.getLsbD l) ∧
    (Complete s f w st (.go pc) → f.shape.iso = true → f.Quiet →
      (s.Conflicting f → Ends .blockCommit s fun t => t.hbm = s.hbm ∧
        (∀ x ∈ t.frames, ¬(x.warp = f.warp ∧ x.strand = f.strand)) ∧
        t.warp? f.warp = some { w with strands := [{ st with restarts := st.restarts + 1 }] }) ∧
      (¬s.Conflicting f → s.writes = [] → commits fun t => t.hbm = s.hbm))

/-- The events of running warps and of work delivery: the serial token passes to its oldest request (R158); a rotation takes
the longest active strand to the tail and makes the head of the waiting list active (R122); a back-off ends (R121, R418); a
watched line changes (R162); the oldest deposit is applied, lane by lane (R167); a sleep and a `deq` time out (R418, R421); a waiting join
decrement is tried again (R118); a retired sibling's pages go: a shared one loses a holder, and the last holder's, like a
private one, comes into the free list while there is room (R132, R133); a dispatcher reports (R104); a service trap that waited
is taken by its vector entry as that stands now (R172, R179); and a host enqueues (R75 to R79). -/
def Obligations.SchedulerEvents : Prop :=
  ∀ s : State,
    (∀ die r rest, die < 4 → (s.arbiter die).holder = none →
      ((s.arbiter die).serial.filter fun r => ((s.warp? r.1).bind fun w => w.strand? r.2).isSome) = r :: rest →
      Ends (.serialTokenGrant die) s fun t => (t.arbiter die).holder = some r ∧ (t.arbiter die).serial = rest) ∧
    (∀ w : Warp, s.warp? w.id = some w →
      (∀ a e : Strand, w.activeCount = 4 → (w.strands.find? fun x => x.place = .active && !s.asksToken w.id x.id) = some a →
        (w.strands.find? fun x => x.place = .waiting) = some e → (w.strands.map Strand.id).Nodup →
        (∀ f ∈ s.frames, f.warp ≠ w.id) → Ends (.strandRotation w.id) s fun t =>
          t.warp? w.id = some { w with strands := (w.strands.filter fun x => x.id ≠ a.id ∧ x.id ≠ e.id) ++
            [{ a with place := .waiting }, { e with place := .active }] }) ∧
      Ends (.backoffEnd w.id) s (fun t => t.warp? w.id = some { w with inBackoff := false, plBackoff := false }) ∧
      (w.watch.isSome = true → w.lastWatch = none → Ends (.watchChange w.id) s fun t =>
        (t.warp? w.id).map (fun x => x.backoff) = some 0) ∧
      (∀ d rest, (∀ f ∈ s.frames, f.warp ≠ w.id) → w.deposits = d :: rest → swf 0 w.arrive = true → swf 0 w.v = true →
        (d.lanes.map Prod.fst).Nodup → (∀ x ∈ d.lanes, x.1 < 32) →
        Ends (.depositApply w.id) s fun t => ∃ w', t.warp? w.id = some w' ∧ w'.deposits = rest ∧
          w'.arrival d.counter = w.arrival d.counter + 1 ∧
          (∀ k l, l < 32 → w'.vreg k l = match d.lanes.find? fun x => x.1 = l ∧ k = d.reg with
            | some x => x.2
            | none => w.vreg k l) ∧
          ({ w' with v := w.v, arrive := w.arrive, deposits := w.deposits, strands := w.strands } : Warp) = w) ∧
      (∀ st n, w.strand? st.id = some st → st.place = .sleeping n → n ≤ s.ticks → Ends (.sleepEnd w.id st.id) s fun t =>
        ((t.warp? w.id).bind fun x => x.strand? st.id).map (fun x => x.place) ∈ [some .waiting, some .active]) ∧
      (∀ r, w.status = .parkedDeq r → r.timeout ≠ 0xffffffff → r.since + 100 * r.timeout.toNat ≤ s.ticks →
        s.answersFor w.ctx = true → Ends (.deqTimeout w.id) s fun t => (t.warp? w.id).map (fun x => x.status) = some .running) ∧
      ∀ v m slot block st c, w.status = .serviceWait v m st.id slot block → w.strand? st.id = some st →
        s.context? w.ctx = some c → w.pier = none → (∀ x ∈ w.strands, x.inHandler = false) →
        ((s.vector w.ctx v).2.2 = 2 → c.slotHeld (s.headerRing w.ctx) = false → Ends (.serviceTrapRetry w.id) s fun t =>
          (t.warp? w.id).map (fun x => x.status) = some (.offCore c.nextSeq st.mask v (s.vector w.ctx v).2.1)) ∧
        ((s.vector w.ctx v).2.2 = 1 → Ends (.serviceTrapRetry w.id) s fun t =>
          (t.warp? w.id).map (fun x => (x.status, (x.strand? st.id).map fun y => (y.pc, y.trapRet, y.inHandler))) =
            some (.running, some ((s.vector w.ctx v).1, st.pc, true)))) ∧
    (∀ j q places, s.joinWaits.find? (fun x => x.die = j.die) = some j →
      s.devPlaces j.ctx j.die .atomic j.object.toNat 128 = .ok places → s.stashLines = [] →
      (∀ d ∈ s.discards, d.die ≠ j.die) → s.devNat j.ctx j.die j.object 8 = 1 →
      s.queue? (s.devNat j.ctx j.die (j.object + 8) 4) = some q → q.ctx = j.ctx → q.enable = true →
      q.count < 2 ^ q.log2n - 1 → s.NoneParked →
      Ends (.joinRetry j.die) s fun t => t.joinWaits = dropJoinWait j.die s.joinWaits ∧
        (t.queue? q.num).map (fun x => x.tail) = some (q.tail + 1)) ∧
    (∀ g k x y, s.groups.find? (fun z => z.handle = g.handle) = some g → g.siblings[k]? = some x → x.retired = true →
      x.released = false → y ∈ g.siblings → y.retired = false →
      Ends (.siblingPageRelease g.handle k) s fun t => ∃ g', t.group? g.ctx g.handle = some g' ∧
        (g'.siblings[k]?).map (fun z => z.released) = some true) ∧
    (∀ (g : Group) (page : W64) (e a : Nat), s.leafOf g.ctx (page.toNat / 4096) = some (e, a) →
      leNat (getBytes s.hbm a 8) = e → s.Canonical → s.stashLines = [] →
      let t := (s.releaseShared g page).1
      (entryShares e = 0 → t = s.countError g.ctx) ∧
      (2 ≤ entryShares e → (s.releaseShared g page).2 = g ∧ leNat (getBytes t.hbm a 8) = e - 2 ^ 52 ∧
        ∀ x, x ≠ a + 6 → x ≠ a + 7 → s.homeByte x = t.homeByte x) ∧
      (entryShares e = 1 → s.releaseShared g page = (s.setShares e a 0).appendFree g page)) ∧
    (∀ (g : Group) (page : W64) (entry count : List Place), let n := s.devNat g.ctx 0 g.freeList 8
      let slot := g.freeList + BitVec.ofNat 64 (0x40 + 8 * n)
      (s.devNat g.ctx 0 (g.freeList + 8) 8 ≤ n → s.appendFree g page = (s, { g with lost := g.lost + 1 })) ∧
      (n < s.devNat g.ctx 0 (g.freeList + 8) 8 → s.devPlaces g.ctx 0 .read slot.toNat 8 = .ok entry →
        (s.devWrite g.ctx 0 slot (leBytes 8 page.toNat)).devPlaces g.ctx 0 .read g.freeList.toNat 8 = .ok count →
        PlainPlaces (entry ++ count) → s.Canonical → s.stashLines = [] → s.Unraced 0 (entry ++ count) →
        let t := (s.appendFree g page).1
        t.holdsAt 0 entry (leBytes 8 page.toNat) ∧ t.holdsAt 0 count (leBytes 8 (n + 1)))) ∧
    (∀ die, swf [] s.summaries = true →
      Ends (.dispatcherSummaryReport die) s fun t => sget [] t.summaries die = s.summary die) ∧
    ∀ vf slot record q, s.startup.ready = true → s.queues.find? (fun q => q.aperture = some (vf, slot)) = some q →
      s.queue? q.num = some q → s.Canonical → s.Settled → s.NoneParked →
      (q.enable = true → q.count < 2 ^ q.log2n - 1 → Ends (.hostEnqueue vf slot true record) s fun t =>
        t.recordAt q q.tail = record ∧ (t.queue? q.num).map (fun x => x.tail) = some (q.tail + 1)) ∧
      (q.enable = false → Ends (.hostEnqueue vf slot true record) s fun t =>
        (t.queue? q.num).map (fun x => x.overflow) = some (Nat.min (q.overflow + 1) 0xffff)) ∧
      Ends (.hostEnqueue vf slot false record) s fun t =>
        (t.queue? q.num).map (fun x => x.malformed) = some (Nat.min (q.malformed + 1) 0xffff)

/-- The commands of a privileged queue for contexts, queues, launches, windows, apertures, translations and groups, each
performed where its checks pass, with *ok* and its result in the completion record (R33, R45, R74, R90, R94, R98, R99, R102,
R126); an opcode that no table lists answers *unknown* (R96). A new context, queue or group has a number that is free: which
one is left open, a choice of the model (log 35). -/
def Obligations.PrivilegedCommands : Prop :=
  ∀ (s : State) (vf : VF) (cmd : W512),
    let arg : Nat → Nat → Nat := cmdArg cmd
    (Commanded s vf cmd [(0x10, 4), (0x18, 24)] → arg 0x10 4 < 2 ^ 20 → s.contextRefusal vf cmd = none →
      ∃ (n : Nat) (t : State) (c : Context), n < 1024 ∧ (∀ c ∈ s.contexts, c.num ≠ n) ∧
        Performs (.createContext vf cmd) s t vf cmd n ∧
        t.contexts.map Context.num = s.contexts.map Context.num ++ [n] ∧ t.context? n = some c ∧ c.vf = vf ∧
        c.pasid = arg 0x10 4 ∧ c.root = arg 0x18 8 ∧ c.save = BitVec.ofNat 64 (arg 0x20 8) ∧ c.state = .resident ∧
        c.created = s.ticks ∧ c.errors = 0 ∧ c.secondPort = false ∧ c.boundary = 0 ∧ c.nextSeq = 1 ∧ c.requests = []) ∧
    (∀ c : Context, OwnContext s vf (arg 0x10 2) c →
      (Commanded s vf cmd [(0x10, 2)] →
        (∃ t : State, Performs (.destroyContext vf cmd) s t vf cmd 0 ∧ (∀ x ∈ t.contexts, x.num ≠ c.num) ∧
          (∀ q ∈ t.queues, q.ctx ≠ c.num) ∧ (∀ w ∈ t.warps, w.pier = none → w.ctx ≠ c.num) ∧
          (∀ g ∈ t.groups, g.ctx ≠ c.num) ∧ (∀ x ∈ t.windows, x.ctx ≠ c.num) ∧ ∀ x ∈ t.calls, x.ctx ≠ c.num) ∧
        Performs (.bindSecondPort vf cmd) s (s.onContext c.num fun c => { c with secondPort := true }) vf cmd 0) ∧
      (∀ pages : List Nat, Commanded s vf cmd [(0x10, 8), (0x18, 8)] → arg 0x12 1 ≤ 3 → arg 0x13 1 ≤ 3 → arg 0x14 1 ≠ 0 →
        4 ≤ arg 0x15 1 → arg 0x15 1 ≤ 20 → arg 0x18 8 % (64 * 2 ^ arg 0x15 1) = 0 →
        rangeCanonical (arg 0x18 8) (64 * 2 ^ arg 0x15 1) = true →
        (arg 0x16 2 = 0xffff ∨ arg 0x16 2 < 1024 ∧ ∀ q ∈ s.queues, q.aperture ≠ some (vf, arg 0x16 2)) →
        (∃ n < 65536, ∀ q ∈ s.queues, q.num ≠ n) →
        s.rangeMeets c.root (arg 0x18 8) (64 * 2 ^ arg 0x15 1) ⟨true, true⟩ = true →
        s.devicePages c.num (arg 0x12 1) (arg 0x18 8) (64 * 2 ^ arg 0x15 1) = some pages →
        ∃ n < 65536, (∀ q ∈ s.queues, q.num ≠ n) ∧ Performs (.createQueue vf cmd) s { s with queues := s.queues ++ [{
          num := n, ctx := c.num, base := BitVec.ofNat 64 (arg 0x18 8), pages := pages, log2n := arg 0x15 1
          cls := arg 0x13 1, weight := arg 0x14 1, home := arg 0x12 1
          aperture := if arg 0x16 2 = 0xffff then none else some (vf, arg 0x16 2), head := 0, tail := 0, enable := true
          overflow := 0, malformed := 0, discarded := 0, waitStart := s.ticks, exclHolder := none }] } vf cmd n) ∧
      (∀ (bs : List Byte) (u : State) (n : Nat), Commanded s vf cmd [(0x10, 2), (0x18, 16)] → arg 0x18 8 % 256 = 0 → c.state = .resident →
        c.recovering = false → s.devRead c.num 0 (BitVec.ofNat 64 (arg 0x18 8)) 256 = some bs → launchOk bs = true →
        arg 0x20 4 + arg 0x24 4 ≤ lvExtent (levelDesc bs 0) →
        s.launchUnits c.num bs (arg 0x20 4) (arg 0x24 4) = some (u, n) →
        Performs (.launch vf cmd) s u vf cmd n ∧ ∃ ws, u.warps = s.warps ++ ws ∧ ws.length = n ∧ ∀ w ∈ ws,
          w.ctx = c.num ∧ w.status = .running ∧ w.pier = none ∧ (w.strands.map fun st => (st.pc, st.mask, st.place)) =
            [(BitVec.ofNat 64 (field bs 0x10 8), BitVec.allOnes 32, .active)] ∧
          w.sreg 2 = BitVec.ofNat 32 (field bs 0x18 4) ∧ w.sreg 3 = BitVec.ofNat 32 (field bs 0x1c 4)) ∧
      (∀ phys : Nat, Commanded s vf cmd [(0x10, 5), (0x18, 16)] → arg 0x14 1 < 4 → arg 0x12 1 ≤ 15 → arg 0x13 1 ≤ 63 →
        arg 0x18 8 % 65536 = 0 → arg 0x20 8 % 65536 = 0 → 0 < arg 0x20 8 → arg 0x20 8 ≤ 2 ^ 34 →
        rangeCanonical (arg 0x18 8) (arg 0x20 8) = true →
        (∀ x ∈ s.windows, ¬(x.ctx = c.num ∧ x.stack = arg 0x12 1 ∧ x.idx = arg 0x13 1)) →
        s.anyReplicated c.root (arg 0x18 8) (arg 0x20 8) = false →
        s.rangeMeets c.root (arg 0x18 8) (arg 0x20 8) ⟨arg 0x14 1 / 2 = 1, true⟩ = true →
        (∀ i, i < arg 0x20 8 / 4096 → ∃ e a, s.walk 4 c.root ((arg 0x18 8 / 4096 + i) % 2 ^ 36) = .leaf e a (phys + 4096 * i)) →
        phys % 2 ^ 21 = 0 → stackOf phys = arg 0x12 1 → stackOf (phys + arg 0x20 8 - 1) = arg 0x12 1 →
        ∃ x : Window, Performs (.mapWindow vf cmd) s { s with windows := s.windows ++ [x] } vf cmd 0 ∧ x.ctx = c.num ∧
          x.stack = arg 0x12 1 ∧ x.idx = arg 0x13 1 ∧ x.va = arg 0x18 8 ∧ x.len = arg 0x20 8 ∧ x.phys = phys ∧
          x.readable = decide (arg 0x14 1 % 2 = 1) ∧ x.writable = decide (arg 0x14 1 / 2 = 1) ∧ x.closing = false) ∧
      (∀ x : Window, Commanded s vf cmd [(0x10, 4)] → s.window? c.num (arg 0x12 1) (arg 0x13 1) = some x →
        (∀ k ∈ s.calls, k.ctx = c.num → k.stack = x.stack → k.windowIdx = x.idx → k.started = false) →
        ∃ t : State, Performs (.unmapWindow vf cmd) s t vf cmd 0 ∧
          (∀ y, y ∈ t.windows ↔ y ∈ s.windows ∧ ¬(y.ctx = c.num ∧ y.stack = x.stack ∧ y.idx = x.idx)) ∧
          (∀ k ∈ t.calls, k.ctx = c.num → k.stack = x.stack → k.windowIdx = x.idx → k.refused = true) ∧
          ∀ f ∈ t.frames, (s.frameWarp f).ctx = c.num → ∀ (k : Nat) (ret call entry : W64) (msg : W512) (r : Bool),
            (k, .nmcall ret call entry msg r) ∈ f.deferred → (call.extractLsb' 0 4).toNat = arg 0x12 1 →
            (call.extractLsb' 8 6).toNat = arg 0x13 1 → r = true) ∧
      (Commanded s vf cmd [(0x10, 2), (0x18, 16)] → ∃ t : State, Performs (.invalidateTranslations vf cmd) s t vf cmd 0 ∧
        ∀ e ∈ t.ats, e.ctx = c.num →
          ¬(arg 0x18 8 ≤ 4096 * (e.page % 2 ^ 52) ∧ 4096 * e.page < arg 0x18 8 + arg 0x20 8)) ∧
      ∀ pages : List Nat, let n := arg 0x12 1
        let q := if arg 0x13 1 = 0 then n / 2 + 1 else arg 0x13 1
        let meets := fun (va len : Nat) (w : Bool) => len = 0 ∨ rangeCanonical va len = true ∧ s.rangeMeets c.root va len ⟨w, false⟩ = true
        Commanded s vf cmd [(0x10, 40)] → s.readWords c.num (arg 0x20 8) (arg 0x14 4) = some pages →
        1 ≤ n → n ≤ 64 → q ≤ n → arg 0x18 8 % 128 = 0 → arg 0x20 8 % 8 = 0 → arg 0x28 8 % 64 = 0 → arg 0x30 8 % 16 = 0 →
        meets (arg 0x18 8) (128 + 8 * n) true → meets (arg 0x20 8) (8 * arg 0x14 4) false → meets (arg 0x28 8) 64 true →
        meets (arg 0x28 8) (64 + 8 * s.devNat c.num 0 (BitVec.ofNat 64 (arg 0x28 8 + 8)) 8) true →
        meets (arg 0x30 8) (16 * n) false → (∀ p ∈ pages, s.shareOk c.num n pages p = true) →
        (∀ g ∈ s.groups, g.handle ≠ 0) → (∃ k < 1024, ∀ g ∈ s.groups, g.handle ≠ k + 1) →
        ∃ (k : Nat) (t : State) (g : Group), k < 1024 ∧ (∀ g ∈ s.groups, g.handle ≠ k + 1) ∧
          Performs (.createSiblingGroup vf cmd) s t vf cmd (k + 1) ∧ t.groups = s.groups ++ [g] ∧ g.handle = k + 1 ∧
          g.ctx = c.num ∧ g.quorum = q ∧ g.siblings.length = n ∧ g.decided = none ∧
          ∀ y ∈ g.siblings, y.state = .running ∧ y.posted = false ∧ y.retired = false) ∧
    (∀ c : Context, OwnContext s vf (arg 0x12 2) c → Commanded s vf cmd [(0x10, 5), (0x18, 16)] → arg 0x14 1 < 4 → arg 0x10 2 ≤ 255 →
      arg 0x20 8 ≠ 0 → rangeCanonical (arg 0x18 8) (arg 0x20 8) = true → (∀ a ∈ s.apertures, a.idx ≠ arg 0x10 2) →
      Performs (.bindPodAperture vf cmd) s { s with apertures := s.apertures ++ [{
        idx := arg 0x10 2, ctx := c.num, readable := decide (arg 0x14 1 % 2 = 1), writable := decide (arg 0x14 1 / 2 = 1)
        reduction := false, va := arg 0x18 8, len := arg 0x20 8 }] } vf cmd 0) ∧
    (∀ (c : Context) (e a x : Nat), OwnContext s vf (arg 0x12 2) c → Commanded s vf cmd [(0x10, 5), (0x18, 16)] → 4 ≤ arg 0x14 1 → arg 0x14 1 < 8 →
      arg 0x10 2 ≤ 255 → s.walk 4 c.root (arg 0x18 8 / 4096 % 2 ^ 36) = .leaf e a x → entryBit e 6 = true → entryBit e 10 = true →
      arg 0x18 8 % 256 = 0 → canonical (arg 0x18 8) = true → arg 0x20 8 = 0 → (∀ a ∈ s.apertures, a.idx ≠ arg 0x10 2) →
      ∃ y : PodAperture, Performs (.bindPodAperture vf cmd) s { s with apertures := s.apertures ++ [y] } vf cmd 0 ∧ y.idx = arg 0x10 2 ∧
        y.ctx = c.num ∧ y.reduction = true ∧ y.va = arg 0x18 8) ∧
    (∀ q : WorkQueue, s.ownQueue? vf (arg 0x10 4) = some q →
      (Commanded s vf cmd [(0x10, 4)] → ∃ t : State, Performs (.destroyQueue vf cmd) s t vf cmd q.count ∧
        ∀ x ∈ t.queues, x.num ≠ q.num) ∧
      (Commanded s vf cmd [(0x10, 6)] → arg 0x14 1 ≤ 3 → arg 0x15 1 ≠ 0 →
        Performs (.setClassAndWeight vf cmd) s (s.putQueue { q with
          cls := arg 0x14 1, weight := arg 0x15 1, waitStart := s.ticks }) vf cmd 0) ∧
      (Commanded s vf cmd [(0x10, 4), (0x18, 8)] → ∃ d : List Byte, d.length = 64 ∧
        leNat (d.take 8) = q.base.toNat ∧ leNat ((d.drop 16).take 4) = q.head.toNat ∧
        leNat ((d.drop 20).take 4) = q.tail.toNat ∧
        Performs (.queryQueue vf cmd) s { s with host := setBytes s.host (hostAddr vf.port (arg 0x18 8)) d } vf cmd 0)) ∧
    ((s.startup.ready = true ∧ arg 8 8 % 16 = 0 ∧ s.NoneBusy) → 0x10 < arg 0 1 →
      exec (.unknownPrivilegedCommand vf cmd) s = .next (s.complete vf cmd .unknown 0))

/-- Saving and restoring a context (R57, R180 to R186, R190, R191): a swap out and a stop leave it spilling with its warps
out of their slots or at rest; a completed spill leaves it saved and its storage free; a fill loads a save into the shadow
halves, a swap in and a start put its warps into their slots; a save that meets an absent page is incomplete until the engine
is restarted; a service call resumes its warp; a context recovers from a save under a new number that is free. Which number
(log 35), which save where two warm starts left two (log 42), and where storage must fit (log 58) are choices of the model. -/
def Obligations.SavedContexts : Prop :=
  ∀ (s : State) (vf : VF) (cmd : W512) (c : Context),
    let arg : Nat → Nat → Nat := cmdArg cmd
    (Commanded s vf cmd [(0x10, 3), (0x18, 8)] → OwnContext s vf (arg 0x10 2) c →
      (c.state = .resident → c.swapReady = true → c.recovering = false →
        s.swapRefused c.num (s.contextCores c.num) = false →
        ∃ t : State, Performs (.swapOut vf cmd) s t vf cmd 0 ∧
          (t.context? c.num).map (fun x => (x.state, x.saved.isSome)) = some (.spilling, true) ∧
          (∀ w ∈ t.warps, w.pier = none → w.ctx ≠ c.num) ∧
          ∀ f ∈ t.frames, ∀ w, s.warp? f.warp = some w → w.ctx = c.num → w.pier ≠ none) ∧
      (∀ v old : Saved, c.state = .saved → c.swapReady = true → c.saved = some old → s.readSaved c old = v →
        s.shadowTaken c.num (dedup ((v.warps.map fun w => w.id.core) ++ v.allocs.map fun a => a.core)) = false →
        s.roomFor c.num true v.warps v.allocs = true → (s.placeStorage c.num true v.warps v.allocs).isSome = true →
        ∃ (t : State) (v' : Saved), Performs (.fill vf cmd) s t vf cmd 0 ∧
          (t.context? c.num).map (fun x => (x.state, x.saved)) = some (.filled, some v') ∧
          ({ v' with warps := v.warps } : Saved) = v ∧
          v'.warps.map (fun w => { w with lastWatch := none }) = v.warps.map fun w => { w with lastWatch := none }) ∧
      (∀ v : Saved, c.state = .filled → c.saved = some v → (∀ w ∈ v.warps, Unheld w.strands) →
        let out := (s.sharing c.num (s.contextCores c.num)).filter fun x => x.state = .resident
        (∀ x ∈ out, x.swapReady = true) →
        (∀ w ∈ v.warps, ∀ x ∈ s.warps, x.id = w.id → x.pier = none ∧ ∃ o ∈ out, o.num = x.ctx) →
        s.swapRefused c.num (dedup (s.contextCores c.num ++ (out.map fun x => s.contextCores x.num).flatten)) = false →
        ∃ t : State, Performs (.swapIn vf cmd) s t vf cmd 0 ∧
          (t.context? c.num).map (fun x => (x.state, x.saved)) = some (.resident, none) ∧
          (∀ x ∈ out, (t.context? x.num).map (fun y => y.state) = some .spilling) ∧
          ∀ w ∈ v.warps, ∃ w' ∈ t.warps, w'.id = w.id ∧ w'.serial = w.serial ∧ w'.status = w.status.restored) ∧
      (c.state = .resident → c.recovering = false →
        let rest := ∀ f ∈ s.frames, ∀ w, s.warp? f.warp = some w → w.ctx = c.num → w.pier = none → f.waiting = true
        (rest → ∃ t : State, Performs (.stop vf cmd) s t vf cmd 0 ∧
          (t.context? c.num).map (fun x => x.state) = some .spilling) ∧
        ((∃ f ∈ s.frames, ∃ w, s.warp? f.warp = some w ∧ w.ctx = c.num ∧ w.pier = none ∧
            ∀ x ∈ s.frames, x.warp = f.warp → x.strand = f.strand → x.waiting = false) → arg 0 1 = 0x0e → Ends (.stop vf cmd) s fun t => (t.privQueue vf).busy = some cmd ∧
          (t.context? c.num).map (fun x => x.state) = some .spilling)) ∧
      (∀ v old : Saved, c.state = .saved ∨ c.state = .faulted → c.saved = some old → s.readSaved c old = v →
        s.roomFor c.num c.swapReady v.warps v.allocs = true → s.slotsFree v = true →
        (s.placeStorage c.num c.swapReady v.warps v.allocs).isSome = true →
        (∀ x ∈ s.sharing c.num (dedup ((v.warps.map fun w => w.id.core) ++ v.allocs.map fun a => a.core)), x.state ≠ .saveIncomplete) → (∀ w ∈ v.warps, Unheld w.strands) →
        ∃ t : State, Performs (.start vf cmd) s t vf cmd 0 ∧
          (t.context? c.num).map (fun x => (x.state, x.saved, x.faulting)) = some (.resident, none, false) ∧
          ∀ w ∈ v.warps, ∃ w' ∈ t.warps, w'.id = w.id ∧ w'.serial = w.serial ∧ w'.status = w.status.restored) ∧
      ∀ (r : W64 × WarpId) (w : Warp) (seq : W64) (m : Mask) (v n : Nat), c.state ≠ .saveIncomplete →
        c.requests.find? (fun x => x.1 = BitVec.ofNat 64 (arg 0x18 8)) = some r →
        s.warps.find? (fun x => x.id = r.2 && x.ctx = c.num && x.pier.isNone) = some w → s.warp? r.2 = some w →
        w.status = .offCore seq m v n → Unheld (s.readWarp c.num w).strands →
        ∃ t : State, Performs (.resumeServiceCall vf cmd) s t vf cmd 0 ∧
          (t.warp? r.2).map (fun x => x.status) = some .running ∧
          (t.context? c.num).map (fun x => x.requests) =
            some (c.requests.filter fun x => x.1 ≠ BitVec.ofNat 64 (arg 0x18 8))) ∧
    (Commanded s vf cmd [(0x10, 2)] → OwnContext s vf (arg 0x10 2) c → c.state = .saveIncomplete →
      ∃ t : State, Performs (.restartSaveEngine vf cmd) s t vf cmd 0 ∧
        (t.context? c.num).map (fun x => (x.state, x.saveFaults, x.resumeAt)) = some (.spilling, [], c.saveFaults ++
          c.resumeAt.filter fun x => c.saveFaults.all fun y => y.1 ≠ x.1)) ∧
    (∀ old : Context, let former := arg 0x30 2
      let b := BitVec.ofNat 64 (arg 0x38 8)
      let u := fun (n : Nat) => { s with contexts := s.contexts ++ [{ freshContext vf cmd n s.ticks with
        capture := s.captureSave (arg 0x18 8) (arg 0x20 8) }] }
      Commanded s vf cmd [(0x10, 4), (0x18, 24), (0x30, 2), (0x38, 8)] → arg 0x10 4 < 2 ^ 20 →
      s.contextRefusal vf cmd = none → s.snapshot? true former b = some old →
      (∀ n < 1024, (∀ x ∈ s.contexts, x.num ≠ n) → (u n).undoPoisoned true former b.toNat = false ∧
        (u n).headerDiffers ((u n).replaySegments true former b) n former b = false) →
      ∃ (n : Nat) (t : State), n < 1024 ∧ (∀ x ∈ s.contexts, x.num ≠ n) ∧ Performs (.recoverContext vf cmd) s t vf cmd n ∧
        (t.context? n).map (fun x => (x.state, x.boundary, x.errors, x.vf)) = some (.saved, b, old.errors, vf) ∧
        (t.snapshot? false n b).isSome = true) ∧
    (s.context? c.num = some c → s.NoneBusy → c.state = .spilling → c.recovering = false → s.spillReady c.num = true →
      (s.saveOk c (s.contextCores c.num) = true → c.boundaryDue = false → Ends (.spillComplete c.num) s fun t =>
        (t.context? c.num).map (fun x => (x.state, x.saved.isSome)) =
          some (if c.faulting then .faulted else .saved, true) ∧
        (∀ w ∈ t.warps, w.pier = none → w.ctx ≠ c.num) ∧ (∀ a ∈ t.allocs, a.ctx ≠ c.num) ∧
        ∀ p ∈ t.phasers, p.ctx ≠ c.num) ∧
      ∀ (core : Nat) (a : W64) (progress : W32), (s.contextCores c.num).contains core = true → c.engineOver core = false →
        (a - c.save).toNat = sectionAt core + progress.toNat → s.savePageOk c ((a - c.save).toNat / 4096 * 4096) = false →
        Ends (.saveFault c.num core a progress) s fun t =>
          (t.context? c.num).map (fun x => (x.state, x.saveFaults)) =
            some (.saveIncomplete, c.saveFaults ++ [(core, progress)]))

/-- The mailbox, starts and resets, power and clocks (R19, R22, R24 to R28, R37, R55 to R68; Tables 1.4, 3.5): every command
answers with its code and result, a start and its steps, a failed step that locks the module at the third, the limiter's
steps, and a trip. Where the arguments and the limits of a command's data stand is the model's choice (logs 4, 40), and so
is what a trip loses and what a start keeps (log 41). -/
def Obligations.Management : Prop :=
  ∀ s : State,
    (∀ (port : Bool) (n : BitVec 24),
      let word := fun (k : Nat) => leNat (getBytes (s.mailbox port).data k 4)
      let u := s.startup
      ((s.power.auxiliary = true → (s.mailbox port).serving = false → ∀ op, ∀ i ∈ [Instr.readSensors port n, .setPowerLimit port n,
          .attest port n, .readAlmanac port n, .writeUpdateChunk port n, .commitUpdate port n, .setCalends port n,
          .warmStart port n, .coldStart port n, .unknownMailboxCommand port op n], Posts i s port)) ∧
      (Mailed s port n false →
        (∃ bs, Answers (.readSensors port n) s s port 0 (bs ++ leBytes 4 s.power.hostLimit ++
          leBytes 4 (if s.power.flowLow then Nat.min s.power.hostLimit 3000 else s.power.hostLimit))) ∧
        (if 2000 ≤ word 0 ∧ word 0 ≤ 4200 ∧ word 0 % 50 = 0 then
          Answers (.setPowerLimit port n) s { s with power := { s.power with hostLimit := word 0 } } port 0 []
        else Answers (.setPowerLimit port n) s s port 1 []) ∧
        (u.ready = true → ∃ r, leNat (r.take 4) = 0x41545352 ∧ Answers (.attest port n) s s port 0 r) ∧
        (u.ready = false → Answers (.attest port n) s s port 6 []) ∧
        (word 4 ≤ 128 → Answers (.readAlmanac port n) s s port 0
          ((s.almanac.filter fun e => (e.seq - BitVec.ofNat 32 (word 0)).toNat < word 4).map AlmanacEntry.bytes).flatten) ∧
        (if 10 ≤ word 0 ∧ word 0 ≤ 10000 ∧ 10 ≤ word 4 ∧ word 4 ≤ 100 then
          Answers (.setCalends port n) s
            { s with calends := { s.calends with interval := word 0, nextFraction := word 4 } } port 0 []
        else Answers (.setCalends port n) s s port 1 []) ∧
        (s.power.tripped = false → Ends (.warmStart port n) s fun t => t.Restarted ∧ t.hbm = s.hbm) ∧
        ∀ op, Answers (.unknownMailboxCommand port op n) s s port 2 []) ∧
      (Mailed s port n true →
        (4 ≤ n.toNat → n.toNat ≤ 4036 →
          let bs := getBytes (s.mailbox port).data 4 (n.toNat - 4)
          let p := if u.pendingSlot = some (!u.runs) then none else u.pendingSlot
          Answers (.writeUpdateChunk port n) s { s with startup :=
            if u.runs then { u with slotA := setBytes u.slotA (word 0) bs, pendingSlot := p }
            else { u with slotB := setBytes u.slotB (word 0) bs, pendingSlot := p } } port 0 []) ∧
        (let k := u.slotCheck (!u.runs);
          Answers (.commitUpdate port n) s
            (if k = 0 then { s with startup := { u with pendingSlot := some (!u.runs) } } else s) port
            (if k = 0 then 0 else if k = 3 then 3 else 4) []) ∧
        Ends (.coldStart port n) s fun t => t.Restarted ∧ t.hbm = [] ∧ t.startup.locked = false)) ∧
    (s.power.on = false → s.power.tripped = false →
      Ends .powerGood s fun t => t.Restarted ∧ t.hbm = [] ∧ t.power.on = true ∧ t.startup.fails = 0) ∧
    Ends .powerRemoval s (fun t => t.power.on = false ∧ t.hbm = [] ∧ t.contexts = [] ∧ t.warps = [] ∧ t.startup.ready = false) ∧
    (s.power.on = true → s.power.tripped = false →
      (∀ port, (s.startup.locked = false → Ends (.pfReset port) s fun t => t.Restarted ∧ t.hbm = s.hbm) ∧
        (s.startup.locked = true → Ends (.pfReset port) s fun t => t.Restarted ∧ t.hbm = [] ∧ t.startup.locked = false)) ∧
      (s.startup.ready = false → s.startup.locked = false → s.startup.step < 10 →
        (s.startup.step ≠ 3 → Ends (.startStep true) s fun t => t.startup.step = s.startup.step + 1 ∧
          t.startup.ready = decide (s.startup.step = 9)) ∧
        (s.startup.fails < 2 → Ends (.startStep false) s fun t => t.Restarted ∧ t.hbm = s.hbm ∧
          t.startup.fails = s.startup.fails + 1 ∧ t.startup.locked = false) ∧
        (2 ≤ s.startup.fails → Ends (.startStep false) s fun t => t.startup.locked = true ∧
          t.startup.lockedSince = true)) ∧
      ∀ x : Sensors, s.power.controlAt + 10000 ≤ s.ticks →
        (∀ d, d < 4 → 1150 ≤ x.die d → Ends (.controlInterval x) s fun t =>
          t.power.tripped = true ∧ t.power.on = false ∧ t.hbm = [] ∧
          (t.almanac.getLast?).map (fun e => e.event) = some 5) ∧
        ((∀ d, d < 4 → x.die d < 1150) → (∀ k, k < 16 → x.stack k < 1100) → 4000 ≤ x.flow →
          s.power.dieClock.length = 4 → s.power.refresh.length = 16 → s.power.gated.length = 16 →
          Ends (.controlInterval x) s fun t => t.power.latest = x ∧ t.power.controlAt = s.ticks ∧ t.power.on = true ∧
            (∀ d, d < 4 → 950 ≤ x.die d →
              t.power.clock d = if 1050 ≤ x.die d then 800
                else if s.power.clock d ≤ 800 then s.power.clock d else s.power.clock d - 25) ∧
            ∀ k, k < 16 → t.power.refresh[k]? = some (decide (850 ≤ x.stack k)) ∧
              t.power.gated[k]? = some (decide (1000 ≤ x.stack k)))) ∧
    (∀ vf, s.NoneBusy → swf ⟨0, [], none⟩ s.priv = true → Ends (.functionLevelReset vf) s fun t =>
      (∀ c ∈ t.contexts, c.vf ≠ vf) ∧ t.privQueue vf = ⟨0, [], none⟩) ∧
    ∀ (n : Nat) (e : ThrottleEvent), s.power.auxiliary = true →
      s.power.events.find? (fun x => x.unit = n && decide (x.first + 1000000 ≤ s.ticks)) = some e →
      Ends (.throttleEventTimeout n) s fun t => t.power.events = s.power.events.filter (fun x => x.unit ≠ n) ∧
        (t.almanac.getLast?).map (fun a => (a.event, a.source)) = some (3, BitVec.ofNat 16 (if n < 4 then n else n - 4))

/-- The links (R33 to R36, R43 to R54, R65, R72 to R73, R103, R279, R281, R285, R288): registers of the module written from
outside, the epoch of a peer that a fenced clear raises, inbound requests and packets and what the module answers, completions,
timeouts and failed ports, and what a host takes back or answers. Choices of the model: an invalidation in one step (log 38),
the contents of entries (logs 40, 41), lost writes as a mask of lanes (log 31), and a refused `PIN` page remembered until it has
been met (log 53). -/
def Obligations.LinksAndPod : Prop :=
  ∀ s : State,
    (∀ value : W32, s.answers = true → let v := value.toNat % 2 ^ 20
      exec (.podControlWrite value) s = .next { s with pod := { s.pod with
        timeout := if v < 100 then 100 else if 1000000 < v then 1000000 else v
        self := value.extractLsb' 20 10, enable := value.getLsbD 30 } }) ∧
    (∀ (m : Nat) (e : PodEntry), m < 1024 → s.podEntry m = e →
      (s.answers = true → e.fenced = true → e.epoch ≠ 0xffff → Ends (.fencedClear m) s fun t =>
        t.podEntry m = { e with fenced := false, epoch := e.epoch + 1 } ∧
        (t.almanac.getLast?).map (fun a => a.event) = some 7) ∧
      Ends (.outboundCompletionTimeout m) s (fun t => (t.podEntry m).fenced = true ∧
        ∀ r ∈ t.pod.out, r.module_ = m → r.dead = true) ∧
      ∀ value : W64, s.answers = true → swf ⟨false, false, 0, 0, 0⟩ s.pod.entries = true →
        Ends (.registerWrite (.podEntry m) value) s fun t =>
          let up := value.getLsbD 1 && e.fenced && decide (e.epoch ≠ 0xffff)
          (t.podEntry m).valid = value.getLsbD 0 ∧ (t.podEntry m).fenced = (e.fenced && !up) ∧
          (t.podEntry m).epoch = e.epoch + (if up then 1 else 0) ∧
          ∀ i, i < 16 → (t.podEntry m).dropped.testBit i = (e.dropped.testBit i && !value.getLsbD (8 + i)) ∧
            (t.podEntry m).timeouts.testBit i = (e.timeouts.testBit i && !value.getLsbD (24 + i))) ∧
    (∀ (vf : VF) (value : W64), s.answers = true → swf ⟨0, [], none⟩ s.priv = true → Ends (.registerWrite (.vfBar0 vf 0x40) value) s fun t =>
      ∀ i, i < 16 → (t.privQueue vf).dropped.testBit i = ((s.privQueue vf).dropped.testBit i && !value.getLsbD (8 + i))) ∧
    (∀ (port : Bool) (k size : Nat) (value : W64), s.power.auxiliary = true → 0x1000 ≤ k → k + size ≤ 0x2000 →
      Ends (.registerWrite (.mailbox port k size) value) s fun t =>
        (t.mailbox port).data = setBytes (s.mailbox port).data (k - 0x1000) (leBytes size value.toNat)) ∧
    (∀ (port : Bool) (a : Nat) (value : W64), Ends (.registerWrite (.hostMemory port a) value) s fun t =>
      t.host = setBytes s.host (hostAddr port a) (leBytes 8 value.toNat) ∧ t.hbm = s.hbm) ∧
    (∀ (r : UaRequest) (a : PodAperture) (ps : List Place), s.answers = true → s.startup.ready = true → s.pod.enable = true →
      (s.podEntry r.source.module_).fenced = false → s.podAperture? r.aperture = some a → a.reduction = false →
      r.supported = true → s.inboundPlaces a r = some ps → s.Settled → s.Canonical → s.poisoned = [] → s.Unraced 0 ps →
      (r.kind = .read → Ends (.ualinkInboundRequest r) s fun t =>
        t.pod.reply = some ⟨r.source, .ok, ps.map (s.shows true 0)⟩ ∧ t.hbm = s.hbm) ∧
      (∀ bs, r.kind = .write bs → bs.length = ps.length → PlainPlaces ps → Ends (.ualinkInboundRequest r) s fun t =>
        t.pod.reply = some ⟨r.source, .ok, []⟩ ∧ t.holdsAt 0 ps ((ps.zip bs).map fun c => c.2.getD (s.placeByte 0 c.1)))) ∧
    (∀ (r : UaRequest) (a : PodAperture), s.answers = true → s.startup.ready = true → s.pod.enable = true →
      (s.podEntry r.source.module_).fenced = false → s.podAperture? r.aperture = some a → a.reduction = false →
      (r.supported = false → Ends (.ualinkInboundRequest r) s fun t => t.pod.reply = some ⟨r.source, .unsupported, []⟩) ∧
      (r.supported = true → s.inboundPlaces a r = none → Ends (.ualinkInboundRequest r) s fun t =>
        t.pod.reply = some ⟨r.source, .unmapped, []⟩ ∧
        (t.podEntry r.source.module_).dropped = Nat.min ((s.podEntry r.source.module_).dropped + 1) 0xffff)) ∧
    (∀ (q : PodSource) (n : Nat) (p : W512), let m := q.module_
      s.answers = true → s.startup.ready = true → s.pod.enable = true → (s.podEntry m).fenced = false →
      (s.podAperture? n = none → Ends (.reductionPacket q n p) s fun t =>
        t.pod.reply = some ⟨q, .unmapped, []⟩ ∧ (t.podEntry m).dropped = Nat.min ((s.podEntry m).dropped + 1) 0xffff) ∧
      (∀ a ps, s.podAperture? n = some a → a.reduction = false → a.writable = true → 64 ≤ a.len →
        s.outerPlaces a.ctx .write a.va 64 = some ps → ps.length = 64 → PlainPlaces ps → s.Settled → s.Canonical →
        s.Unraced 0 ps → Ends (.reductionPacket q n p) s fun t =>
          t.pod.reply = some ⟨q, .ok, []⟩ ∧ t.holdsAt 0 ps (leBytes 64 p.toNat)) ∧
      ∀ a, s.podAperture? n = some a → a.reduction = true →
        (packetMalformed p = true → Ends (.reductionPacket q n p) s fun t => t.pod.reply = some ⟨q, .unsupported, []⟩) ∧
        (PacketReady s a.ctx (BitVec.ofNat 64 a.va) p → ∃ w, s.packetWindows a.ctx p = some w ∧
          Ends (.reductionPacket q n p) s fun t =>
            t.packets = s.packets ++ [⟨a.ctx, BitVec.ofNat 64 a.va, p, w.1, w.2, 0, false, q, none⟩])) ∧
    (∀ (k : Nat) (r : PacketRun), s.packets[k]? = some r → s.poisoned = [] →
      (r.next < packetCount r.packet → (s.stepPacket k).packets = s.packets.set k { r with next := r.next + 1 }) ∧
      (packetCount r.packet ≤ r.next → r.sender = none → (s.stepPacket k).packets = s.packets.eraseIdx k ∧
        (s.stepPacket k).pod.reply = some ⟨r.source, if r.poison then .poison else .ok, []⟩)) ∧
    (∀ r : UaRequestOut, s.pod.out.find? (fun x => x.tag = r.tag) = some r → r.dead = false →
      let m := r.module_
      ((s.podEntry m).fenced = false → r.epoch = (s.podEntry m).epoch → s.pod.enable = true →
        Ends (.ualinkInboundCompletion r.tag r.epoch) s (fun t =>
          t.pod.out = s.pod.out.filter (fun x => x.tag ≠ r.tag) ∧ t.warps = s.warps) ∧
        ∀ (w : Warp) (st : PacketStatus), s.serialWarp r.who.serial = some w → st ∉ [.ok, .late] →
          Ends (.packetCompletion r.tag r.epoch st) s fun t =>
            t.pod.out = s.pod.out.filter (fun x => x.tag ≠ r.tag) ∧
            t.serialWarp r.who.serial = some (w.loseRemote m r.lane)) ∧
      (s.pod.out.find? (fun x => x.tag = r.tag && !x.dead) = some r → r.issued + r.timeout ≤ s.ticks →
        Ends (.completionTimeout r.tag) s fun t => (t.podEntry m).fenced = true ∧
          (t.podEntry m).timeouts = Nat.min ((s.podEntry m).timeouts + 1) 0xffff ∧
          ∀ x ∈ t.pod.out, x.module_ = m → x.dead = true)) ∧
    (∀ port, port < 16 → port ∉ s.pod.portsDown → Ends (.portFailure port) s fun t =>
      t.pod.portsDown = s.pod.portsDown ++ [port] ∧ (∀ x ∈ t.pod.out, x.port = port → x.dead = true) ∧
      (t.almanac.getLast?).map (fun a => a.event) = some 9) ∧
    (∀ (port : Bool) (f : Frame) (slot : Nat) (lanes : Mask) (a : W64),
      s.frames.find? (fun x => x.warp = f.warp && x.strand = f.strand && x.performed.any fun p => p.2.2 = slot) = some f →
      Ends (.hostTimeout (.load port f.warp f.strand slot lanes a)) s fun t =>
        (∀ x ∈ t.frames, ¬(x.warp = f.warp ∧ x.strand = f.strand)) ∧
        (t.almanac.getLast?).map (fun e => (e.event, e.source)) = some (8, if port then 1 else 0)) ∧
    (∀ (port : Bool) (core : Nat) (c : Copy) (w : Warp), s.runningCopies core = [c] → s.owner? c.who = some w →
      w.living &&& c.lanes ≠ 0 → Ends (.hostTimeout (.copy port core)) s fun t =>
        (∃ i : FaultInfo, i.cause = .hostTimeout ∧ t.copies = replaceCopy c (some { c with fault := some i }) s.copies) ∧
        (t.almanac.getLast?).map (fun e => (e.event, e.source)) = some (8, if port then 1 else 0)) ∧
    (∀ (w : Warp) (lane : Nat) (p : PendingWrite), s.warp? w.id = some w → s.pendingHost w.id = some p →
      Ends (.hostTimeout (.write w.id lane)) s fun t => t.writes = s.writes.filter (fun q => q.seq ≠ p.seq) ∧
        t.warp? w.id = some { w with lostHost := w.lostHost ||| p.lanes ||| maskOf [lane] } ∧
        (t.almanac.getLast?).map (fun e => e.event) = some 8) ∧
    (∀ (port : Bool) (pasid : Nat) (a n : W64), Ends (.atsInvalidation port pasid a n) s fun t =>
      ∀ c ∈ s.contexts, c.pasid = pasid → c.vf.port = port ∨ c.secondPort = true → ∀ e ∈ t.ats, e.ctx = c.num →
        ¬(a.toNat ≤ 4096 * (e.page % 2 ^ 52) ∧ 4096 * e.page < a.toNat + n.toNat)) ∧
    (∀ (ctx page : Nat) (by_ : AtsAsker), (s.context? ctx).isSome = true → by_.die < 4 →
      (∀ e, Ends (.atsTranslationCompletion ctx page by_ (some e)) s fun t => ⟨by_.die, ctx, page, by_.port, some e⟩ ∈ t.ats) ∧
      (∀ e a, s.leafOf ctx page = some (e, a) → entryBit e 10 = true →
        Ends (.atsTranslationCompletion ctx page by_ none) s fun t => ⟨by_.die, ctx, page, by_.port, none⟩ ∈ t.ats) ∧
      ((∀ e a, s.leafOf ctx page = some (e, a) → entryBit e 10 = false) →
        (s.pageRequests.filter fun r => !r.answered).length < 4096 → Ends (.atsTranslationCompletion ctx page by_ none) s fun t =>
        ∃ r ∈ t.pageRequests, r.ctx = ctx ∧ r.page = page ∧ r.answered = false)) ∧
    ∀ r : PageRequest, s.pageRequests.find? (fun x => x.ctx = r.ctx && x.page = r.page && !x.answered) = some r →
      (s.pagePresent r.ctx r.page = true → Ends (.pageResponse r.ctx r.page .success) s fun t =>
        (∀ x ∈ t.pageRequests, ¬(x.ctx = r.ctx ∧ x.page = r.page)) ∧
        ∀ id ∈ r.parked, ∀ w p st i, s.warp? id = some w → w.status = .parkedPage p st i →
          (t.warp? id).map (fun x => x.status) = some .running) ∧
      ∀ code, code ≠ .success → Ends (.pageResponse r.ctx r.page code) s fun t =>
        ∀ x ∈ t.pageRequests, ¬(x.ctx = r.ctx ∧ x.page = r.page)

/-- What the memory system does on its own, memory errors and calends (R39, R42, R66 to R70, R177, R212 to R215, R230 to
R234): refusals and grants at an L2 slice, stash probes and acknowledgements, a write performed and arriving, errors that
poison a line or stop a context, and boundaries. Which of several writes comes is the model's choice (logs 2, 21), and so are
the entries of errors (log 41), the contexts of an early boundary and of a Span error, and what is undone (log 42). -/
def Obligations.MemoryEvents : Prop :=
  ∀ s : State,
    (∀ die slice r : Nat, let x := s.l2Slice die slice
      (r ∈ x.granted → Ends (.l2Retry die slice r) s fun t => (t.l2Slice die slice).granted = x.granted.filter fun y => y ≠ r) ∧
      (r ∉ x.granted → r ∉ x.queue → sget 0 x.refusals r + 1 < 4 → Ends (.l2Retry die slice r) s fun t =>
        sget 0 (t.l2Slice die slice).refusals r = sget 0 x.refusals r + 1) ∧
      (r ∉ x.granted → r ∉ x.queue → 3 ≤ sget 0 x.refusals r → Ends (.l2Retry die slice r) s fun t =>
        (t.l2Slice die slice).queue = x.queue ++ [r]) ∧
      ∀ rest, x.queue = r :: rest → Ends (.reservationGrant die slice) s fun t =>
        (t.l2Slice die slice).queue = rest ∧ (t.l2Slice die slice).granted = x.granted ++ [r]) ∧
    (∀ core ctx line : Nat,
      (∀ x, s.Canonical → s.stashLines.filter (fun y => y.line = lineOf line && (y.core = core && y.ctx = ctx)) = [x] →
        x.dirty.Nodup → x.dirty ≠ [] → ∀ drop, Ends (.stashProbe core ctx line drop) s fun t =>
          (∀ i ∈ x.dirty, t.homeByte (x.line + i) = (x.bytes[i]?).getD 0) ∧
          ∀ y ∈ t.stashLines, y.core = core → y.ctx = ctx → y.line = lineOf line → drop = false ∧ y.dirty = []) ∧
      (swf 0 s.acks = true → Ends (.stashAcknowledgement core) s fun t => sget 0 t.acks core = sget 0 s.acks core - 1)) ∧
    (∀ die, (∃ u ∈ s.unarrived, u.die = die) → Ends (.spanWriteArrival die) s fun t =>
      ∃ u ∈ s.unarrived, u.die = die ∧ ∀ v ∈ t.unarrived, ¬(v.die = die ∧ v.seq = u.seq)) ∧
    ((∃ p ∈ s.writes, s.eligible p = true) → Ends .writePerformed s fun t =>
      ∃ p ∈ s.writes, s.eligible p = true ∧
        (∀ q ∈ t.writes, q.seq ≠ p.seq ∧ ∃ o ∈ s.writes, q = { o with reach := q.reach }) ∧
        (s.Canonical → s.stashLines = [] → p.rmw = none → p.bytes.length = p.places.length → PlainPlaces p.places → s.Unraced p.core p.places → t.holdsAt p.core p.places p.bytes)) ∧
    (∀ dieA dieB : Nat, Ends (.spanError dieA dieB) s fun t =>
      ∀ c ∈ s.contexts, s.tableOn [dieA, dieB] 4 c.root = true → (t.context? c.num).map (fun x => x.recovering) = some true) ∧
    (∀ phys hbm, Ends (.uncorrectableError (.line phys hbm)) s fun t => lineOf phys ∈ t.poisoned ∧
      (t.almanac.getLast?).map (fun e => e.event) = some 10) ∧
    (∀ (core o : Nat) (c : Context), s.context? c.num = some c →
      (s.storeOwner core o = some c.num → Ends (.uncorrectableError (.unifiedStore core o)) s fun t =>
        (t.context? c.num).map (fun x => x.recovering) = some true) ∧
      (s.tileOwner core o = some c.num → Ends (.uncorrectableError (.accumulator core o)) s fun t =>
        (t.context? c.num).map (fun x => x.recovering) = some true)) ∧
    (∀ phys core o, ∀ x ∈ [(ErrorSite.unifiedStore core o, 0), (.accumulator core o, 1), (.line phys false, 2), (.line phys true, 3)],
      Ends (.correctedError x.1) s fun t => sget 0 t.corrected x.2 = sget 0 s.corrected x.2 + 1) ∧
    (∀ c : Context, s.context? c.num = some c →
      (c.state = .resident → c.recovering = false → c.boundaryDue = false →
        (c.boundaryAt + 100000 * s.calends.interval ≤ s.ticks → Ends (.calendsBoundary c.num) s fun t =>
          (t.context? c.num).map (fun x => (x.boundaryDue, x.state)) = some (true, .spilling)) ∧
        ∀ stack, (∃ u ∈ s.undoLines stack, u.ctx = c.num ∧ u.former = false) →
          3 * s.undoBytes ≤ 4 * (64 * (s.undoLines stack).length) → Ends (.earlyBoundary stack) s fun t =>
            (t.context? c.num).map (fun x => x.boundaryDue) = some true) ∧
      (c.recovering = false → (∃ x ∈ s.calends.waits, x.1 = c.num ∧ s.undoFull x.2.1 = true ∧ x.2.2 + 100000000 < s.ticks) →
        Ends (.undoOverflow c.num) s fun t => (t.context? c.num).map (fun x => x.recovering) = some true) ∧
      ∀ (boundaries : List (Nat × Option Nat)) (own : W64), s.calends.complete.find? (fun x => x.1 = c.num) = some (c.num, own) → s.NoneBusy →
        let b := ((boundaries.filter fun x => s.takesPart x.1 && boundaries.all fun y => y.1 != x.1 || y.2.isSome).filterMap
          fun x => x.2).foldl Nat.min own.toNat
        (∀ m roll, s.takesPart m = true → (m, none) ∈ boundaries → Ends (.boundaryExchange c.num boundaries roll) s fun t =>
          (t.podEntry m).fenced = true) ∧
        Ends (.boundaryExchange c.num boundaries false) s (fun t => (∀ u ∈ t.calends.lines, u.ctx = c.num → u.former = false →
          b ≤ u.boundary.toNat) ∧ t.hbm = s.hbm) ∧
        (s.snapshot? false c.num (BitVec.ofNat 64 b) = none → Ends (.boundaryExchange c.num boundaries true) s fun t =>
          (t.context? c.num).map (fun x => (x.recovering, x.lost)) = some (true, true)) ∧
        ∀ old, s.snapshot? false c.num (BitVec.ofNat 64 b) = some old → old.num = c.num → old.saved = none →
          s.poisoned = [] →
          Ends (.boundaryExchange c.num boundaries true) s fun t =>
            (t.context? c.num).map (fun x => (x.boundary, x.recovering, x.state)) =
              some (BitVec.ofNat 64 b, false, old.state))

/-- The copy, matrix and near-memory engines (R123, R124, R192, R240, R264 to R269, R276 to R278, R404, R405, R439, R440, R445,
R450 to R456): a command starts, is expected and completes with its results in place; epilogues store or fault; a peer's tile
is added at its turn or times out; a copy completes or stops; a call is queued, starts, is ended in time and returns. Choices
of the model: a command in two steps (log 30), an `mpeer`'s tile found through a warp (log 30), which copy runs and what of it
in one step (logs 2, 27), how a call's ends combine (log 47), and a held access served with the end of its row step (log 56). -/
def Obligations.Engines : Prop :=
  ∀ s : State,
    (∀ c : MatrixCmd, s.headCommand c.leader = some c →
      let went := fun (u : State) (p : Option Nat) =>
        ({ u with matrix := setHead { c with started := true, predicted := p, since := u.ticks } u.matrix } : State)
      let left := fun (u t : State) => t.matrix = dropHead c.leader u.matrix
      (c.started = false →
        (∀ acc d, c.op = .mma false acc d →
          exec (.matrixCommandStart c.leader) s = .next (went s (some (s.cyclesOf (coreDie c.leader) + predictCycles d 1 1)))) ∧
        (∀ acc d u h, c.op = .mma true acc d → s.fetchRange c.who (groupAddr d 12).toNat 8 = (u, .ok h) →
          headerOk h (mmaK d) = true → sparseStride d h = true →
          exec (.matrixCommandStart c.leader) s =
            .next (went u (some (s.cyclesOf (coreDie c.leader) + predictCycles d (hdrN h) (hdrM h))))) ∧
        ((match c.op with | .mma .. => False | .epilogue .. => ∀ e ∈ s.epilogues, e.leader ≠ c.leader | _ => True) →
          exec (.matrixCommandStart c.leader) s = .next (went s none))) ∧
      (c.started = true →
        (∀ p, c.predicted = some p → p ≤ s.cyclesOf (coreDie c.leader) + 40 → exec (.tileExpected c.leader) s =
          .next { s with matrix := setHead { c with expected := true } s.matrix }) ∧
        (c.op = .zero → Ends (.matrixCommandComplete c.leader) s fun t => left s t ∧
          ∀ i j, i < 128 → j < 128 → t.tileWord c.leader c.tile i j = 0) ∧
        (∀ sparse acc d u x, c.op = .mma sparse acc d → s.fetchMma c.who sparse d = (u, .ok x) →
          Ends (.matrixCommandComplete c.leader) s fun t => left u t ∧
            (x.fa ≠ .f64 → ∀ i j, i < 128 → j < 128 → t.tileWord c.leader c.tile i j =
              x.element i j (if acc then u.tileWord c.leader c.tile i j else 0) % 2 ^ 32) ∧
            (x.fa = .f64 → c.tile ≠ c.partner → c.tile < 8 → c.partner < 8 → ∀ i j, i < 128 → j < 128 → t.tileLong c.leader c.tile c.partner i j =
              x.element i j (if acc then u.tileLong c.leader c.tile c.partner i j else 0) % 2 ^ 64)) ∧
        (∀ ctl lanes w, c.op = .drain false ctl lanes → s.serialWarp c.who.serial = some w → swf 0 w.v = true →
          Ends (.matrixCommandComplete c.leader) s fun t => left s t ∧ ∃ w', t.serialWarp c.who.serial = some w' ∧
            ∀ l ∈ lanesOf lanes, ∀ m, m < 32 → w'.vreg ((ctl.extractLsb' 16 8).toNat + m) l = BitVec.ofNat 32
              (s.tileWord c.leader c.tile ((ctl.extractLsb' 0 7).toNat + l) ((ctl.extractLsb' 8 7).toNat + m))) ∧
        (∀ ctl lanes w, c.op = .drain true ctl lanes → s.serialWarp c.who.serial = some w →
          Ends (.matrixCommandComplete c.leader) s fun t => left s t ∧
            (t.serialWarp c.who.serial).map (fun x => ({ x with v := w.v, lastWatch := w.lastWatch } : Warp)) = some w) ∧
        (∀ ctl lanes w, c.op = .drain true ctl lanes → s.serialWarp c.who.serial = some w → swf 0 w.v = true →
          Ends (.matrixCommandComplete c.leader) s fun t => ∃ w', t.serialWarp c.who.serial = some w' ∧
            ∀ l ∈ lanesOf lanes, ∀ m, m < 16 →
              let e := BitVec.ofNat 64 (s.tileLong c.leader c.tile c.partner ((ctl.extractLsb' 0 7).toNat + l)
                ((ctl.extractLsb' 8 7).toNat + m))
              let r := (ctl.extractLsb' 16 8).toNat + 2 * m
              w'.vreg r l = lo32 e ∧ w'.vreg (r + 1) l = hi32 e) ∧
        (∀ f64 d, c.op = .epilogue f64 d → Ends (.matrixCommandComplete c.leader) s fun t => left s t ∧
          ∃ a b : Epilogue, t.epilogues = s.epilogues ++ [a, b] ∧ (a.core, b.core) = (c.leader, c.leader + 1) ∧
            ∀ e ∈ [a, b], e.leader = c.leader ∧ e.desc = d ∧ e.stored = 0 ∧ e.fault = none ∧
              e.data = s.tileBytes e.core c.tile) ∧
        (∀ d u, c.op = .prune d → s.runPrune c d = (u, .ok ()) →
          Ends (.matrixCommandComplete c.leader) s fun t => left u t ∧ t.hbm = u.hbm) ∧
        ∀ s32 dst seq ps, c.op = .peer s32 dst seq → s.access c.who .atomic seq 8 = .ok ps → ps.length = 8 →
          let p := (dst.extractLsb' 16 5).toNat
          let far := peerLeader c.leader dst.toNat
          (∀ k, s.peerTile c.who.ctx far (dst.extractLsb' 8 3).toNat = some k → s.Settled → s.Canonical → PlainPlaces ps →
            s.Unraced 0 ps → leNat (ps.map (s.placeByte c.leader)) = p →
            (far = c.leader ∨ (s.headCommand far).all (fun x => !x.started) = true) →
            Ends (.mpeerAdd c.leader) s fun t => left s t ∧ t.holdsAt c.leader ps (leBytes 8 (p + 1)) ∧
              ∀ i j, i < 128 → j < 128 → let x := s.tileWord far k i j
                let y := s.tileWord c.leader c.tile i j
                t.tileWord far k i j =
                  (if s32 then x + y else (add32 (BitVec.ofNat 64 x) (BitVec.ofNat 64 y)).1.toNat) % 2 ^ 32) ∧
          (∀ w, s.serialWarp c.who.serial = some w → w.heldFault = none → leNat (ps.map (s.placeByte c.leader)) ≠ p →
            c.since + 100000 ≤ s.ticks → Ends (.mpeerTimeout c.leader) s fun t => left s t ∧
              ((t.serialWarp c.who.serial).bind fun x => x.heldFault.map fun h => h.info.cause) = some .remote))) ∧
    (∀ (leader : Nat) (a b a' b' : Epilogue) (u v : State),
      s.epilogues.filter (fun e => e.leader = leader && e.fault.isNone) = [a, b] → s.runEpilogue a = (u, a', .ok ()) →
      (u.putEpilogue a none).runEpilogue b = (v, b', .ok ()) →
      Ends (.epilogueComplete leader) s fun t => t.hbm = v.hbm ∧ ∀ e ∈ t.epilogues, e ∈ v.epilogues ∧ e ≠ b) ∧
    (∀ (e e' : Epilogue) (u : State) (cause : Cause) (a : W64),
      s.epilogues.find? (fun x => x.core = e.core && x.fault.isNone) = some e → s.runEpilogue e = (u, e', .bad cause a) →
      (u.owner? e.who).isSome = true → Ends (.epilogueStoreFault e.core) s fun t => t.hbm = u.hbm ∧ ∃ x ∈ t.epilogues,
        x.core = e.core ∧ x.stored = e'.stored ∧ x.fault.map (fun i => (i.cause, i.address)) = some (cause, a)) ∧
    (∀ (core : Nat) (c : Copy) (u : State), s.runningCopies core = [c] →
      (s.runCopy c = (u, .done) → Ends (.copyComplete core) s fun t => t.copies = replaceCopy c none u.copies ∧
        t.hbm = u.hbm ∧ ∀ id p, c.phaser = some id → u.phaser? id = some p → t.phaser? id =
          some ({ p with pending := p.pending - BitVec.ofNat 48 c.bytes } : Phaser).complete) ∧
      (∀ cause a w, s.runCopy c = (u, .fault cause a) → u.owner? c.who = some w → w.living &&& c.lanes ≠ 0 →
        Ends (.copyFault core) s fun t => ∃ i : FaultInfo, i.cause = cause ∧ i.address = a ∧
          t.copies = replaceCopy c (some { c with fault := some i }) u.copies) ∧
      ∀ dst src ps qs, c.kind = .flat dst src 16 → c.moved = [] → s.access c.who .read src 16 = .ok ps → s.access c.who .write dst 16 = .ok qs →
        s.Settled → s.Canonical → s.poisoned = [] → PlainPlaces qs → qs.length = 16 → ps.length = 16 →
        s.Unraced core (ps ++ qs) → (∀ p ∈ ps, ∀ q ∈ qs, p.key ≠ q.key) → (∀ u ∈ s.unarrived, u.die ≠ coreDie core) →
        Ends (.copyComplete core) s fun t => t.holdsAt core qs (ps.map (s.shows false c.who.warp.core))) ∧
    (∀ (c : Call), s.call? c.stack c.id = some c →
      (s.calls.find? (fun x => x.stack = c.stack && !x.queued) = some c → Ends (.nmCallQueued c.stack) s fun t =>
        (t.call? c.stack c.id).map (fun x => x.queued) = some true) ∧
      (s.calls.find? (fun x => x.stack = c.stack && x.queued && !x.started) = some c →
        (s.callRefused c = true → Ends (.nmCallStart c.stack) s fun t =>
          (t.call? c.stack c.id).map (fun x => (x.started, x.refused)) = some (true, true)) ∧
        (s.callRefused c = false → s.callFits c = true → Ends (.nmCallStart c.stack) s fun t =>
          (t.call? c.stack c.id).map (fun x => (x.started, x.since)) = some (true, s.ticks) ∧
          ∃ ws, t.warps = s.warps ++ ws ∧ ws.length = c.warps ∧ ∀ (k : Nat) (h : k < ws.length),
            ws[k].id = ⟨pierCore c.stack (k % 16), k / 16⟩ ∧ ws[k].pier = some ⟨c.stack, c.id, k⟩ ∧
            (ws[k].strands.map fun st => st.pc) = [c.entry] ∧
            ∀ i, i < 16 → ws[k].sreg i = c.msg.extractLsb' (32 * i) 32)) ∧
      (c.started = true → s.callWarps c ≠ [] → c.since + 100000000 ≤ s.ticks → Ends (.nmCallTimeout c.stack c.id) s fun t =>
        t.callWarps c = [] ∧ (t.call? c.stack c.id).map (fun x => x.timedOut) = some true) ∧
      (c.started = true → s.callWarps c = [] → s.NoneBusy → Ends (.nmCallReturn c.stack c.id) s fun t =>
        t.call? c.stack c.id = none ∧
        (∀ p, s.phaser? c.phaser = some p →
          t.phaser? c.phaser = some ({ p with pending := p.pending - 64 } : Phaser).complete) ∧
        ∀ ps, s.devPlaces c.ctx (coreDie c.core) .read c.ret.toNat 64 = .ok ps → s.Settled → s.Canonical →
          PlainPlaces ps → s.Unraced 0 ps → (ps.head?).map (t.placeByte c.core) = some
            (if c.refused then 2 else if c.timedOut then 3 else if c.fault.isSome then 1 else 0))) ∧
    ∀ (stack : Nat), let n := s.nearBank stack
      swf NearBank.reset s.nearBanks = true →
      Ends (.rowStepEnd stack) s (fun t => t.nearBank stack = { n with rows := [], held := [] }) ∧
      ∀ p, p < 64 → Ends (.modeSwitchComplete stack p) s fun t =>
        (t.nearBank stack).pending = n.pending &&& ~~~((1 : W64) <<< p) ∧
        (t.nearBank stack).cmode.getLsbD p = (if n.pending.getLsbD p then n.recompute.getLsbD p else n.cmode.getLsbD p) ∧
        ∀ i, i ≠ p → (t.nearBank stack).cmode.getLsbD i = n.cmode.getLsbD i
end

