-- ==== Sys2Proof/Laws/Frame.lean ====
section
/-!
SUPPORT. What the shared forms of Machine/Frame.lean and Machine/Operands.lean do to the block in flight: one lemma for
each, which later proofs cite in place of unfolding it (spec/06_execution_model.md R146, R147).
-/
set_option Elab.async false
namespace Sys2Proof.Machine

theorem tokenAt_tokenOf (F : Nat → Option W64) (l : Nat) : tokenAt (tokenOf F) l = if l < 32 then F l else none := by
  unfold tokenAt tokenOf allLanes
  by_cases h : l < 32
  · simp [h]
  · simp [h]

theorem tokenAt_null (l : Nat) : tokenAt nullToken l = none := by
  have h : ∀ n, ((List.replicate n (none : Option W64))[l]?).getD none = none := by
    intro n
    by_cases hl : l < n
    · rw [List.getElem?_replicate_of_lt hl]; rfl
    · rw [List.getElem?_eq_none (by simpa using Nat.le_of_not_lt hl)]; rfl
  exact h 32

theorem passes_lt (f : Frame) (p : Pred) (l : Nat) (h : f.passes p l = true) : l < 32 := by
  unfold Frame.passes at h
  by_contra hl
  have : f.active.getLsbD l = false := BitVec.getLsbD_of_ge _ _ (by omega)
  simp [this] at h

theorem collected_deliver_other (f : Frame) (p : Nat) (t t' : Target) (v : Token) (h : t' ≠ t) :
    (f.deliver p t v).collected t' = f.collected t' := by
  unfold Frame.deliver
  split
  · rfl
  · simp only [Frame.collected, List.find?_append]
    have hf : ∀ l : List Collected, (l.filter fun x => decide (x.target ≠ t)).find? (fun c => decide (c.target = t')) =
        l.find? fun c => decide (c.target = t') := by
      intro l
      rw [List.find?_filter]
      congr 1
      funext x
      by_cases hx : x.target = t'
      · simp [hx, h]
      · simp [hx]
    rw [hf]
    cases f.tokens.find? fun c => decide (c.target = t') with
    | some c => simp
    | none => simp [Ne.symm h]

theorem collected_eq_getD (f : Frame) (t : Target) :
    f.collected t = ((f.tokens.find? fun c => c.target = t).getD ⟨t, nullToken, List.replicate 32 0⟩).tok := by
  unfold Frame.collected
  cases f.tokens.find? fun c => decide (c.target = t) <;> rfl

theorem collected_deliver_same (f : Frame) (p : Nat) (t : Target) (v : Token) (ht : t ≠ .none) :
    (f.deliver p t v).collected t = tokenOf fun l => match tokenAt v l with
      | some x => some x
      | none => tokenAt (f.collected t) l := by
  rw [collected_eq_getD f t]
  unfold Frame.deliver
  rw [if_neg ht]
  have hf : (f.tokens.filter fun x => decide (x.target ≠ t)).find? (fun c => decide (c.target = t)) = none := by
    rw [List.find?_eq_none]
    intro x hx
    simpa using (List.mem_filter.mp hx).2
  simp only [Frame.collected, List.find?_append, hf, Option.none_or, List.find?_cons, decide_true] <;> rfl

theorem holds_deliver_same (f : Frame) (p : Nat) (t : Target) (v : Token) (ht : t ≠ .none) (hu : f.Unfed t) (l : Nat) :
    (f.deliver p t v).holds t l = if l < 32 then tokenAt v l else none := by
  unfold Frame.holds
  rw [collected_deliver_same f p t v ht, tokenAt_tokenOf, hu l]
  split
  · cases tokenAt v l <;> rfl
  · rfl

theorem no_clash (old v : Token) (ls : List Nat) (h : ∀ l, tokenAt old l = none) :
    (ls.filter fun l => (tokenAt old l).isSome && (tokenAt v l).isSome) = [] := by
  rw [List.filter_eq_nil_iff]
  intro l _
  rw [h l]
  simp

theorem faults_deliver (f : Frame) (p : Nat) (t : Target) (v : Token) (hu : f.Unfed t) :
    (f.deliver p t v).faults = f.faults := by
  unfold Frame.deliver
  split
  · rfl
  · have h := no_clash ((f.tokens.find? fun c => decide (c.target = t)).getD ⟨t, nullToken, List.replicate 32 0⟩).tok v
      allLanes (by intro l; rw [← collected_eq_getD]; exact hu l)
    simp only [h, List.map_nil, List.append_nil]

theorem deliver_kept (f : Frame) (p : Nat) (t : Target) (v : Token) :
    { f.deliver p t v with tokens := f.tokens, faults := f.faults } = f := by
  unfold Frame.deliver
  split <;> rfl

theorem deliver_eq (f : Frame) (p : Nat) (t : Target) (v : Token) (hu : f.Unfed t) :
    f.deliver p t v = { f with tokens := (f.deliver p t v).tokens } := by
  have h1 := deliver_kept f p t v
  have h2 := faults_deliver f p t v hu
  conv_lhs => rw [show f.deliver p t v = { { f.deliver p t v with tokens := f.tokens, faults := f.faults } with
    tokens := (f.deliver p t v).tokens, faults := (f.deliver p t v).faults } from rfl, h1, h2]

/-- With no fault recorded, a slot's turn ends by choosing the next word. -/
theorem settle_clean (s : State) (f : Frame) (rest : List Frame) (h : s.frames = f :: rest) (hc : f.faults = []) :
    s.settle = s.setFrame f.step := by
  have hd : f.due? = none := by
    unfold Frame.due? Frame.worst?
    rw [hc]
    split <;> rfl
  unfold State.settle
  simp [h, hd]

/-- Choosing the next word changes nothing else. -/
theorem step_kept (f : Frame) : f.step = { f with at_ := f.step.at_ } := by
  unfold Frame.step
  split
  · rfl
  · split <;> rfl

theorem setFrame_setFrame (s : State) (f f' : Frame) : (s.setFrame f).setFrame f' = s.setFrame f' := rfl

theorem noteFirst_kept (s : State) (f : Frame) : s.noteFirst f = { f with firstCommit := (s.noteFirst f).firstCommit } := by
  unfold State.noteFirst
  cases hf : f.firstCommit with
  | none => rfl
  | some n => rw [show f = { f with firstCommit := some n } from by rw [← hf]]

/-- Firing the running slot of a block without faults. -/
theorem fired_clean (s : State) (f : Frame) (hc : f.faults = []) :
    ∃ n c, s.fired f = s.setFrame { f with fired := f.fired ++ [f.slot], at_ := n, firstCommit := c } := by
  unfold State.fired
  have hk := noteFirst_kept s f
  have hc' : (s.noteFirst f).fire.faults = [] := by rw [hk]; exact hc
  rw [settle_clean _ _ s.frames.tail rfl hc', step_kept, setFrame_setFrame]
  refine ⟨(s.noteFirst f).fire.step.at_, (s.noteFirst f).firstCommit, ?_⟩
  congr 1
  generalize (s.noteFirst f).fire.step.at_ = n
  rw [hk]
  rfl

theorem frames_of_head {s : State} {f : Frame} (h : s.frames.head? = some f) : ∃ rest, s.frames = f :: rest := by
  cases hs : s.frames with
  | nil => simp [hs] at h
  | cons x xs => simp [hs] at h; exact ⟨xs, by rw [h]⟩

theorem inBlock_at {s : State} {f : Frame} (h : s.frames.head? = some f) (k : Frame → State) : inBlock s k = .next (k f) := by
  obtain ⟨rest, hr⟩ := frames_of_head h
  simp [inBlock, hr]

/-- Sending two tokens and firing changes nothing of the machine but the block, and of the block only what
`Frame.SentPair` names. -/
theorem sends_fired (s : State) (f : Frame) (g : G) (v0 v1 : Token) (hc : f.faults = []) (ho : f.Open g) :
    ∃ f', f.SentPair g (fun l => if l < 32 then tokenAt v0 l else none) (fun l => if l < 32 then tokenAt v1 l else none) f' ∧
      s.fired ((f.send g.t0 v0).send g.t1 v1) = s.setFrame f' := by
  have h1 := deliver_eq f (f.slot + 1) g.t0 v0 ho.t0
  by_cases h01 : g.t0 = g.t1
  · have hn := ho.apart h01
    have hn1 : g.t1 = .none := by rw [← h01]; exact hn
    have e : (f.send g.t0 v0).send g.t1 v1 = f := by simp [Frame.send, Frame.deliver, hn, hn1]
    obtain ⟨n, c, hf⟩ := fired_clean s f hc
    refine ⟨{ f with fired := f.fired ++ [f.slot], at_ := n, firstCommit := c },
      ⟨fun h => absurd hn h, fun h => absurd hn1 h, fun _ _ _ => rfl, rfl, rfl⟩, ?_⟩
    exact (congrArg s.fired e).trans hf
  · have hu1 : (f.send g.t0 v0).Unfed g.t1 := by
      intro l
      unfold Frame.send
      rw [collected_deliver_other f _ g.t0 g.t1 v0 (Ne.symm h01)]
      exact ho.t1 l
    have h2 := deliver_eq (f.send g.t0 v0) ((f.send g.t0 v0).slot + 1) g.t1 v1 hu1
    set f2 := (f.send g.t0 v0).send g.t1 v1 with hf2
    have e2 : f2 = { f with tokens := f2.tokens } := by
      have e : f2 = { f.send g.t0 v0 with tokens := f2.tokens } := h2
      rw [show f.send g.t0 v0 = { f with tokens := (f.send g.t0 v0).tokens } from h1] at e
      exact e
    have hc2 : f2.faults = [] := by rw [e2]; exact hc
    obtain ⟨n, c, hf⟩ := fired_clean s f2 hc2
    refine ⟨_, ⟨?_, ?_, ?_, ?_, ?_⟩, hf⟩
    · intro hne l
      show f2.holds g.t0 l = _
      rw [← holds_deliver_same f (f.slot + 1) g.t0 v0 hne ho.t0 l]
      unfold Frame.holds
      rw [hf2, show (f.send g.t0 v0).send g.t1 v1 = (f.send g.t0 v0).deliver ((f.send g.t0 v0).slot + 1) g.t1 v1 from rfl,
        collected_deliver_other _ _ g.t1 g.t0 v1 h01]
      rfl
    · intro hne l
      show f2.holds g.t1 l = _
      rw [← holds_deliver_same _ ((f.send g.t0 v0).slot + 1) g.t1 v1 hne hu1 l]
      rfl
    · intro t h0 h1'
      show f2.collected t = f.collected t
      rw [hf2, show (f.send g.t0 v0).send g.t1 v1 = (f.send g.t0 v0).deliver ((f.send g.t0 v0).slot + 1) g.t1 v1 from rfl,
        collected_deliver_other _ _ g.t1 t v1 h1', show f.send g.t0 v0 = f.deliver (f.slot + 1) g.t0 v0 from rfl,
        collected_deliver_other _ _ g.t0 t v0 h0]
    · show f2.fired ++ [f2.slot] = f.fired ++ [f.slot]
      rw [e2]; rfl
    · rw [e2]

/-- What a token made from a lane function that is null outside the 32 lanes holds. -/
theorem token_lanes (F : Nat → Option W64) (h : ∀ l, 32 ≤ l → F l = none) :
    (fun l => if l < 32 then tokenAt (tokenOf F) l else none) = F := by
  funext l
  by_cases hl : l < 32
  · simp [hl, tokenAt_tokenOf]
  · simp [hl, h l (by omega)]

/-- A pair of values sent in the lanes whose predicate passes (R147). -/
theorem sendPair_sent (s : State) (f : Frame) (g : G) (r : Nat → Option W64 × Option W64) (hc : f.faults = [])
    (ho : f.Open g) : ∃ f', f.SentPair g (fun l => if f.passes g.pred l then (r l).1 else none)
      (fun l => if f.passes g.pred l then (r l).2 else none) f' ∧ s.sendPair f g r = s.setFrame f' := by
  have hp : ∀ l, 32 ≤ l → ¬ f.passes g.pred l = true := fun l hl hp => by have := passes_lt f g.pred l hp; omega
  obtain ⟨f', h1, h2⟩ := sends_fired s f g (tokenOf fun l => (if f.passes g.pred l then r l else (none, none)).1)
    (tokenOf fun l => (if f.passes g.pred l then r l else (none, none)).2) hc ho
  rw [token_lanes _ (by intro l hl; simp [hp l hl]), token_lanes _ (by intro l hl; simp [hp l hl])] at h1
  refine ⟨f', ?_, h2⟩
  convert h1 using 2
  · split <;> rfl
  · split <;> rfl

/-- The performing lanes as a list and as a test. -/
theorem mem_performing (f : Frame) (p : Pred) (need : List Opnd) (l : Nat) :
    l ∈ f.performing p need ↔ f.performs p need l = true := by
  unfold Frame.performing
  rw [List.mem_filter]
  constructor
  · exact fun h => h.2
  · intro h
    refine ⟨?_, h⟩
    have : f.passes p l = true := by
      unfold Frame.performs at h
      simp only [Bool.and_eq_true] at h
      exact h.1
    exact List.mem_range.mpr (passes_lt f p l this)

theorem performs_lt (f : Frame) (p : Pred) (need : List Opnd) (l : Nat) (h : f.performs p need l = true) : l < 32 := by
  have := (mem_performing f p need l).mpr h
  exact List.mem_range.mp (List.mem_filter.mp this).1

/-- Looking a lane up among the values computed for a list of lanes. -/
theorem find_lane {α : Type} (ls : List Nat) (r : Nat → α) (l : Nat) :
    ((ls.map fun k => (k, r k)).find? fun x => decide (x.1 = l)) = if l ∈ ls then some (l, r l) else none := by
  induction ls with
  | nil => simp
  | cons a as ih =>
    simp only [List.map_cons, List.find?_cons]
    by_cases h : a = l
    · subst h; simp
    · simp only [h, decide_false, ih, List.mem_cons]
      simp [Ne.symm h]

theorem raise_slot (f : Frame) (fl : List (Nat × FlagSet)) : (f.raise fl).slot = f.slot := rfl

/-- A floating-point word (R368). -/
theorem floatOp_computed {s : State} {f : Frame} (h : AtSlot s f) (g : G) (ho : f.Open g) (need : List Opnd)
    (r : Frame → Nat → W64 × FlagSet) :
    ∃ f', f.Computed g need (fun l => (r f l).1) (fun l => (r f l).2) f' ∧ floatOp g need s r = .next (s.setFrame f') := by
  set out := (f.performing g.pred need).map fun l => (l, r f l) with hout
  have htok : ∀ l, ((out.find? fun x => decide (x.1 = l)).map fun x => x.2.1) =
      if f.performs g.pred need l then some (r f l).1 else none := by
    intro l
    rw [hout, find_lane]
    by_cases hm : f.performs g.pred need l = true
    · simp [hm, (mem_performing f g.pred need l).mpr hm]
    · have : l ∉ f.performing g.pred need := fun h => hm ((mem_performing f g.pred need l).mp h)
      simp [hm, this]
  obtain ⟨f', h1, h2⟩ := sends_fired s (f.raise (out.map fun x => (x.1, x.2.2))) g
    (tokenOf fun l => (out.find? fun x => decide (x.1 = l)).map fun x => x.2.1)
    (tokenOf fun l => (out.find? fun x => decide (x.1 = l)).map fun x => x.2.1) h.clean ⟨ho.t0, ho.t1, ho.apart⟩
  rw [token_lanes _ (by
    intro l hl
    rw [htok]
    have : ¬ f.performs g.pred need l = true := fun hp => by have := performs_lt f g.pred need l hp; omega
    simp [this])] at h1
  have hfl : f'.flags = f.flags ++ (out.map fun x => (x.1, x.2.2)).filter fun x => x.2 != 0 :=
    congrArg Frame.flags h1.kept
  refine ⟨f', ⟨?_, ?_⟩, ?_⟩
  · rw [hfl, hout, List.map_map]; rfl
  · rw [hfl]
    simp only [htok] at h1
    exact h1
  · unfold floatOp
    rw [inBlock_at h.head, ← h2]

/-- A word that sends one value to both targets (R147). -/
theorem valueOp_sent {s : State} {f : Frame} (h : AtSlot s f) (g : G) (ho : f.Open g) (r : Frame → Nat → Option W64) :
    ∃ f', f.Sent g (fun l => if f.passes g.pred l then r f l else none) f' ∧ valueOp g s r = .next (s.setFrame f') := by
  obtain ⟨f', h1, h2⟩ := sendPair_sent s f g (fun l => (r f l, r f l)) h.clean ho
  exact ⟨f', h1, by rw [valueOp, inBlock_at h.head, h2]⟩

theorem unop_sent {s : State} {f : Frame} (h : AtSlot s f) (g : G) (ho : f.Open g) (r : W64 → W64) :
    ∃ f', f.Sent g (f.lane1 g.pred r) f' ∧ unop g s r = .next (s.setFrame f') :=
  valueOp_sent h g ho fun f l => (f.arg .a l).map r

theorem binop_sent {s : State} {f : Frame} (h : AtSlot s f) (g : G) (ho : f.Open g) (r : W64 → W64 → W64) :
    ∃ f', f.Sent g (f.lane2 g.pred r) f' ∧ binop g s r = .next (s.setFrame f') := by
  obtain ⟨f', h1, h2⟩ := valueOp_sent h g ho fun f l => match f.arg .a l, f.arg .b l with
    | some a, some b => some (r a b)
    | _, _ => none
  refine ⟨f', ?_, h2⟩
  convert h1 using 2 with l
  unfold Frame.lane2
  split
  · cases f.arg .a l <;> cases f.arg .b l <;> rfl
  · rfl

theorem triop_sent {s : State} {f : Frame} (h : AtSlot s f) (g : G) (ho : f.Open g) (r : W64 → W64 → W64 → W64) :
    ∃ f', f.Sent g (f.lane3 g.pred r) f' ∧ triop g s r = .next (s.setFrame f') := by
  obtain ⟨f', h1, h2⟩ := valueOp_sent h g ho fun f l => match f.arg .a l, f.arg .b l, f.arg .c l with
    | some a, some b, some c => some (r a b c)
    | _, _, _ => none
  refine ⟨f', ?_, h2⟩
  convert h1 using 2 with l
  unfold Frame.lane3
  split
  · cases f.arg .a l <;> cases f.arg .b l <;> cases f.arg .c l <;> rfl
  · rfl

/-- A word that only leaves an action to the commit (R220). -/
theorem defer_left (s : State) (f : Frame) (hc : f.faults = []) (d : Deferred) :
    ∃ f', f.Deferred d f' ∧ s.defer f d = s.setFrame f' := by
  obtain ⟨n, c, hf⟩ := fired_clean s { f with deferred := f.deferred ++ [(f.slot, d)] } hc
  exact ⟨{ f with deferred := f.deferred ++ [(f.slot, d)], fired := f.fired ++ [f.slot], at_ := n, firstCommit := c },
    ⟨rfl, rfl, rfl⟩, hf⟩

theorem deferOp_left {s : State} {f : Frame} (h : AtSlot s f) (d : Frame → Deferred) :
    ∃ f', f.Deferred (d f) f' ∧ deferOp s d = .next (s.setFrame f') := by
  obtain ⟨f', h1, h2⟩ := defer_left s f h.clean (d f)
  exact ⟨f', h1, by rw [deferOp, inBlock_at h.head, h2]⟩

/-- An exit whose successors may all be taken (R349). -/
theorem exitTo_left (s : State) (f : Frame) (hc : f.faults = []) (lanes : List Nat) (pc : Nat → W64) (k : Nat → ExitKind)
    (hok : ∀ l ∈ lanes, successorOk (pc l) = true) :
    ∃ f', f.Left (lanes.map fun l => (l, f.slot, k l)) f' ∧ s.exitTo f lanes pc k = s.setFrame f' := by
  have hb : (lanes.filter fun l => !successorOk (pc l)) = [] := by
    rw [List.filter_eq_nil_iff]; intro l hl; simp [hok l hl]
  obtain ⟨n, c, hf⟩ := fired_clean s (f.exit lanes k) hc
  refine ⟨{ f.exit lanes k with fired := f.fired ++ [f.slot], at_ := n, firstCommit := c }, ⟨rfl, rfl, rfl⟩, ?_⟩
  unfold State.exitTo
  simp only [hb, if_true]
  exact hf

/-- A register word's turn ends by choosing the next word. -/
theorem settle_moved (s : State) (f : Frame) (h : s.frames.head? = some f) (hc : f.faults = []) :
    ∃ n, s.settle = s.setFrame { f with at_ := n } := by
  obtain ⟨rest, hr⟩ := frames_of_head h
  exact ⟨f.step.at_, by rw [settle_clean s f rest hr hc, ← step_kept]⟩

/-- A read word sends its value to both targets (R341). -/
theorem readWord_out {s : State} {f : Frame} (h : AtRegisterWord s f) (r : RWord) (ho : f.OpenRead r)
    (v : Frame → Nat → W64) : ∃ f', f.ReadOut r (v f) f' ∧ readWord r s v = .next (s.setFrame f') := by
  set tok : Token := tokenOf fun l => if f.active.getLsbD l then some (v f l) else none with htok
  have hv : ∀ l, (if l < 32 then tokenAt tok l else none) = if f.active.getLsbD l then some (v f l) else none := by
    intro l
    by_cases hl : l < 32
    · simp only [hl, if_true, htok, tokenAt_tokenOf]
    · have : f.active.getLsbD l = false := BitVec.getLsbD_of_ge _ _ (by omega)
      simp [hl, this]
  have h1 := deliver_eq f 0 r.t0 tok ho.t0
  have hr : readWord r s v = .next ((s.setFrame ((f.deliver 0 r.t0 tok).deliver 0 r.t1 tok)).settle) := by
    rw [readWord, inBlock_at h.head]
  by_cases h01 : r.t0 = r.t1
  · have hn := ho.apart h01
    have hn1 : r.t1 = .none := by rw [← h01]; exact hn
    have e : (f.deliver 0 r.t0 tok).deliver 0 r.t1 tok = f := by simp [Frame.deliver, hn, hn1]
    rw [e] at hr
    obtain ⟨n, hf⟩ := settle_moved (s.setFrame f) f rfl h.clean
    refine ⟨{ f with at_ := n }, ⟨fun h => absurd hn h, fun h => absurd hn1 h, fun _ _ _ => rfl, rfl⟩, ?_⟩
    rw [hr, hf]; rfl
  · have hu1 : (f.deliver 0 r.t0 tok).Unfed r.t1 := by
      intro l
      rw [collected_deliver_other f _ r.t0 r.t1 tok (Ne.symm h01)]
      exact ho.t1 l
    have h2 := deliver_eq (f.deliver 0 r.t0 tok) 0 r.t1 tok hu1
    set f2 := (f.deliver 0 r.t0 tok).deliver 0 r.t1 tok with hf2
    have e2 : f2 = { f with tokens := f2.tokens } := by
      have e : f2 = { f.deliver 0 r.t0 tok with tokens := f2.tokens } := h2
      rw [h1] at e
      exact e
    have hc2 : f2.faults = [] := by rw [e2]; exact h.clean
    obtain ⟨n, hf⟩ := settle_moved (s.setFrame f2) f2 rfl hc2
    refine ⟨{ f2 with at_ := n }, ⟨?_, ?_, ?_, ?_⟩, by rw [hr, hf]; rfl⟩
    · intro hne l
      show f2.holds r.t0 l = _
      rw [← hv l, ← holds_deliver_same f 0 r.t0 tok hne ho.t0 l]
      unfold Frame.holds
      rw [hf2, collected_deliver_other _ _ r.t1 r.t0 tok h01]
    · intro hne l
      show f2.holds r.t1 l = _
      rw [← hv l, ← holds_deliver_same _ 0 r.t1 tok hne hu1 l]
    · intro t h0 h1'
      show f2.collected t = f.collected t
      rw [hf2, collected_deliver_other _ _ r.t1 t tok h1', collected_deliver_other _ _ r.t0 t tok h0]
    · rw [e2]

/-- A word whose meaning changes the block to `g` and fires (R146). -/
theorem fired_as (s : State) (f g : Frame) (hc : g.faults = []) (hs : g.slot = f.slot) (hf : g.fired = f.fired) :
    ∃ f', f.FiredAs g f' ∧ s.fired g = s.setFrame f' := by
  obtain ⟨n, c, h⟩ := fired_clean s g hc
  exact ⟨{ g with fired := g.fired ++ [g.slot], at_ := n, firstCommit := c }, ⟨by rw [hs, hf], rfl⟩, h⟩

end Sys2Proof.Machine
end

