-- ==== Sys2Proof/Laws/Actions.lean ====
section
/-!
SUPPORT. Small lemmas about instructions that check their lanes and leave an action to the commit.
-/
set_option Elab.async false
namespace Sys2Proof.Machine

theorem defers (s : State) (f : Frame) (ha : AtSlot s f) (k : Frame → State) (d : Deferred) (h : k f = s.defer f d) :
    ∃ f', f.Deferred d f' ∧ inBlock s k = .next (s.setFrame f') := by
  obtain ⟨f', h1, h2⟩ := defer_left s f ha.clean d
  exact ⟨f', h1, (inBlock_at ha.head _).trans (congrArg _ (h.trans h2))⟩

theorem performing_lt {f : Frame} {p : Pred} {need : List Opnd} {l} (h : l ∈ f.performing p need) : l < 32 := by
  simp [Frame.performing, allLanes] at h; exact h.1

theorem foldl_collect {α β γ : Type} (g : α × List β → γ → α × List β) (h : γ → β) (ls : List γ) (x : α × List β)
    (hg : ∀ l ∈ ls, ∀ acc, g (x.1, acc) l = (x.1, acc ++ [h l])) : ls.foldl g x = (x.1, x.2 ++ ls.map h) := by
  obtain ⟨a, acc⟩ := x
  induction ls generalizing acc with
  | nil => simp
  | cons b t ih =>
    rw [List.foldl_cons, hg b (by simp)]
    have := ih (acc ++ [h b]) (fun l hl acc => hg l (by simp [hl]) acc)
    rw [this]
    simp

theorem phaserLanes_ok (w : Warp) (f : Frame) (lanes : List Nat) (id : Nat → Nat) (h : ∀ l ∈ lanes, w.phaserId? (f.val .a l) = some (id l)) :
    phaserLanes w f lanes = (f, lanes.map fun l => (l, id l)) := by
  unfold phaserLanes
  rw [foldl_collect _ (fun l => (l, id l)) lanes (f, [])]
  · rfl
  · intro l hl acc
    dsimp only
    rw [h l hl]

theorem reportLost_none (s : State) (f : Frame) (sc : Scope) (lanes : List Nat) (h : s.NothingLost f) : s.reportLost f sc lanes = f := by
  unfold State.reportLost Warp.lostBy
  simp only [h.host, h.remote]
  induction lanes with
  | nil => rfl
  | cons a t ih => simp
theorem unsent_none (s : State) (f : Frame) (sc : Scope) (lanes : List Nat) (h : s.NothingLost f) : s.unsent f sc lanes = false := by
  simp [State.unsent, State.owesPackets, h.out, h.packets]

theorem byteLimit_ok (f : Frame) (o : Opnd) (lanes : List Nat) (h : ∀ l ∈ lanes, (f.val o l).toNat % 2 ^ 48 < 2 ^ 47) : f.byteLimit o lanes = f := by
  unfold Frame.byteLimit
  induction lanes with
  | nil => rfl
  | cons a t ih =>
    rw [List.foldl_cons, if_neg (by have := h a (by simp); omega)]
    exact ih fun l hl => h l (by simp [hl])
theorem noFault (f : Frame) (h : f.faults = []) : f.hasFault = false := by simp [Frame.hasFault, h]

theorem phaserOp_ok (s : State) (f : Frame) (ha : AtSlot s f) (p : Pred) (need : List Opnd) (limit : Option Opnd) (release : Option Scope) (d : Frame → List (Nat × Nat) → Deferred)
   (id : Nat → Nat) (hk : ∀ l ∈ f.performing p need, (s.frameWarp f).phaserId? (f.val .a l) = some (id l))
   (hl : ∀ o, limit = some o → ∀ l ∈ f.performing p need, (f.val o l).toNat % 2 ^ 48 < 2 ^ 47) (hr : release ≠ none → s.NothingLost f) :
   ∃ f', f.Deferred (d f ((f.performing p need).map fun l => (l, id l))) f' ∧ phaserOp p need limit s release d = .next (s.setFrame f') := by
  unfold phaserOp
  refine defers s f ha _ _ ?_
  have h3 : ∀ o, limit = some o → f.byteLimit o (List.map (fun x => x.1) (List.map (fun l => (l, id l)) (f.performing p need))) = f := by
    intro o ho
    refine byteLimit_ok f o _ ?_
    intro l hl'
    simp at hl'
    exact hl o ho l hl'
  cases release with
  | none =>
    cases limit with
    | none =>
      dsimp only
      rw [phaserLanes_ok _ _ _ id hk]
      dsimp only
      rw [noFault f ha.clean]; rfl
    | some o =>
      dsimp only
      rw [phaserLanes_ok _ _ _ id hk]
      dsimp only
      rw [h3 o rfl, noFault f ha.clean]; rfl
  | some sc =>
    have hr := hr (by simp)
    cases limit with
    | none =>
      dsimp only
      rw [reportLost_none s f sc _ hr, unsent_none s f sc _ hr, phaserLanes_ok _ _ _ id hk]
      dsimp only
      rw [noFault f ha.clean]; rfl
    | some o =>
      dsimp only
      rw [reportLost_none s f sc _ hr, unsent_none s f sc _ hr, phaserLanes_ok _ _ _ id hk]
      dsimp only
      rw [h3 o rfl, noFault f ha.clean]; rfl

end Sys2Proof.Machine
end

