-- ==== Sys2Proof/Laws/Encoding.lean ====
section
/-!
SUPPORT. The fields of an encoded word are what was put into them: one lemma for each format of spec/12_isa_formats.md
(R319 to R322), and each enumeration's code reads back as the enumeration.
-/
namespace Sys2Proof

/-- A field above the last part of a word lies in the parts before it. -/
theorem field_up {m n lo k : Nat} {x : BitVec m} {y : BitVec n} {r : BitVec k} (e : x.extractLsb' (lo - n) k = r)
    (h : n ≤ lo := by decide) : (x ++ y).extractLsb' lo k = r :=
  (BitVec.extractLsb'_append_eq_of_le h).trans e

/-- A field inside the last part of a word is that part's. -/
theorem field_down {m n lo k : Nat} {x : BitVec m} {y : BitVec n} {r : BitVec k} (e : y.extractLsb' lo k = r)
    (h : lo + k ≤ n := by decide) : (x ++ y).extractLsb' lo k = r :=
  (BitVec.extractLsb'_append_eq_of_add_le h).trans e

/-- A field that is a whole part. -/
theorem field_all {k : Nat} (x : BitVec k) : x.extractLsb' 0 k = x := by simp

theorem decTarget_enc (t : Target) : decTarget (encTarget t) = .ok t := by
  rcases t with _ | ⟨o, i⟩ | n
  · rfl
  · cases o <;> revert i <;> decide
  · revert n; decide

theorem decPred_enc (p : Pred) : decPred (encPred p) = .ok p := by cases p <;> rfl
theorem decWidth_enc (x : Width) : decWidth (encWidth x) = .ok x := by cases x <;> rfl
theorem decScope_enc (x : Scope) : decScope (encScope x) = .ok x := by cases x <;> rfl
theorem decOrder_enc (x : Order) : decOrder (encOrder x) = .ok x := by cases x <;> rfl
theorem decAOp_enc (x : AOp) : decAOp (encAOp x) = .ok x := by cases x <;> rfl
theorem decFenceKind_enc (x : FenceKind) : decFenceKind (encFenceKind x) = .ok x := by cases x <;> rfl
theorem bit1_ofBool1 (b : Bool) : bit1 (ofBool1 b) = b := by cases b <;> rfl

/-! Format G (R319). -/

theorem encG_t0 (a x : BitVec 7) (g : G) : fld (encG a x g) 0 8 = encTarget g.t0 :=
  field_down (field_all _)

theorem encG_t1 (a x : BitVec 7) (g : G) : fld (encG a x g) 8 8 = encTarget g.t1 :=
  field_up (field_down (field_all _))

theorem encG_pred (a x : BitVec 7) (g : G) : fld (encG a x g) 23 2 = encPred g.pred :=
  field_up (field_up (field_up (field_down (field_all _))))

theorem encG_xop (a x : BitVec 7) (g : G) (lo k : Nat) (h : lo + k ≤ 7) :
    fld (encG a x g) (16 + lo) k = x.extractLsb' lo k := by
  refine field_up (field_up ?_ (by omega)) (by omega)
  rw [show 16 + lo - 8 - 8 = lo by omega]
  exact field_down rfl h

theorem encG_major (a x : BitVec 7) (g : G) (lo k : Nat) : fld (encG a x g) (25 + lo) k = a.extractLsb' lo k := by
  refine field_up (field_up (field_up (field_up ?_ (by omega)) (by omega)) (by omega)) (by omega)
  rw [show 25 + lo - 8 - 8 - 7 - 2 = lo by omega]

theorem decG_enc (a x : BitVec 7) (g : G) : decG (encG a x g) = .ok g := by
  simp only [decG, encG_t0, encG_t1, encG_pred, decPred_enc, decTarget_enc]

theorem encG_29 (a x : BitVec 7) (g : G) : fld (encG a x g) 29 3 = a.extractLsb' 4 3 := encG_major a x g 4 3
theorem encG_28 (a x : BitVec 7) (g : G) : fld (encG a x g) 28 4 = a.extractLsb' 3 4 := encG_major a x g 3 4
theorem encG_25_4 (a x : BitVec 7) (g : G) : fld (encG a x g) 25 4 = a.extractLsb' 0 4 := encG_major a x g 0 4
theorem encG_25_3 (a x : BitVec 7) (g : G) : fld (encG a x g) 25 3 = a.extractLsb' 0 3 := encG_major a x g 0 3
theorem encG_16_1 (a x : BitVec 7) (g : G) : fld (encG a x g) 16 1 = x.extractLsb' 0 1 := encG_xop a x g 0 1 (by decide)
theorem encG_16_2 (a x : BitVec 7) (g : G) : fld (encG a x g) 16 2 = x.extractLsb' 0 2 := encG_xop a x g 0 2 (by decide)
theorem encG_16_3 (a x : BitVec 7) (g : G) : fld (encG a x g) 16 3 = x.extractLsb' 0 3 := encG_xop a x g 0 3 (by decide)
theorem encG_16_4 (a x : BitVec 7) (g : G) : fld (encG a x g) 16 4 = x.extractLsb' 0 4 := encG_xop a x g 0 4 (by decide)
theorem encG_16_7 (a x : BitVec 7) (g : G) : fld (encG a x g) 16 7 = x.extractLsb' 0 7 := encG_xop a x g 0 7 (by decide)
theorem encG_17_1 (a x : BitVec 7) (g : G) : fld (encG a x g) 17 1 = x.extractLsb' 1 1 := encG_xop a x g 1 1 (by decide)
theorem encG_17_3 (a x : BitVec 7) (g : G) : fld (encG a x g) 17 3 = x.extractLsb' 1 3 := encG_xop a x g 1 3 (by decide)
theorem encG_17_6 (a x : BitVec 7) (g : G) : fld (encG a x g) 17 6 = x.extractLsb' 1 6 := encG_xop a x g 1 6 (by decide)
theorem encG_18_1 (a x : BitVec 7) (g : G) : fld (encG a x g) 18 1 = x.extractLsb' 2 1 := encG_xop a x g 2 1 (by decide)
theorem encG_18_5 (a x : BitVec 7) (g : G) : fld (encG a x g) 18 5 = x.extractLsb' 2 5 := encG_xop a x g 2 5 (by decide)
theorem encG_19_1 (a x : BitVec 7) (g : G) : fld (encG a x g) 19 1 = x.extractLsb' 3 1 := encG_xop a x g 3 1 (by decide)
theorem encG_19_4 (a x : BitVec 7) (g : G) : fld (encG a x g) 19 4 = x.extractLsb' 3 4 := encG_xop a x g 3 4 (by decide)
theorem encG_20_3 (a x : BitVec 7) (g : G) : fld (encG a x g) 20 3 = x.extractLsb' 4 3 := encG_xop a x g 4 3 (by decide)

/-! Formats R and W (R318). -/

theorem encR_29 (a : BitVec 7) (r : RWord) : fld (encR a r) 29 3 = a.extractLsb' 4 3 :=
  field_up (field_up (field_up (field_up rfl)))

theorem encR_25 (a : BitVec 7) (r : RWord) : fld (encR a r) 25 4 = a.extractLsb' 0 4 :=
  field_up (field_up (field_up (field_up rfl)))

theorem decR_enc (a : BitVec 7) (r : RWord) : decR (encR a r) = .ok r := by
  have h0 : fld (encR a r) 0 8 = encTarget r.t0 := field_down (field_all _)
  have h1 : fld (encR a r) 8 8 = encTarget r.t1 := field_up (field_down (field_all _))
  have h2 : fld (encR a r) 16 1 = ofBool1 r.pair :=
    field_up (field_up (field_down (field_all _)))
  have h3 : fld (encR a r) 17 8 = r.reg :=
    field_up (field_up (field_up (field_down (field_all _))))
  simp only [decR, h0, h1, h2, h3, decTarget_enc, bit1_ofBool1, lift2]

theorem encW_29 (a : BitVec 7) (r : WWord) : fld (encW a r) 29 3 = a.extractLsb' 4 3 :=
  field_up (field_up (field_up rfl))

theorem encW_25 (a : BitVec 7) (r : WWord) : fld (encW a r) 25 4 = a.extractLsb' 0 4 :=
  field_up (field_up (field_up rfl))

theorem decW_enc (a : BitVec 7) (r : WWord) : decW (encW a r) = .ok r := by
  have h0 : fld (encW a r) 0 16 = 0 := field_down (field_all _)
  have h2 : fld (encW a r) 16 1 = ofBool1 r.pair := field_up (field_down (field_all _))
  have h3 : fld (encW a r) 17 8 = r.reg :=
    field_up (field_up (field_down (field_all _)))
  simp only [decW, h0, h2, h3, bit1_ofBool1, guardE]
  rfl

/-! Format M (R322). -/

theorem encM_28 (a : BitVec 7) (m : M) : fld (encM a m) 28 4 = a.extractLsb' 3 4 :=
  field_up (field_up (field_up (field_up (field_up rfl))))

theorem encM_29 (a : BitVec 7) (m : M) : fld (encM a m) 29 3 = a.extractLsb' 4 3 :=
  field_up (field_up (field_up (field_up (field_up rfl))))

theorem encM_25 (a : BitVec 7) (m : M) : fld (encM a m) 25 3 = a.extractLsb' 0 3 :=
  field_up (field_up (field_up (field_up (field_up rfl))))

theorem decM_enc (a : BitVec 7) (m : M) : decM (encM a m) = .ok m := by
  have h0 : fld (encM a m) 0 8 = encTarget m.t0 := field_down (field_all _)
  have h1 : fld (encM a m) 8 8 = m.off := field_up (field_down (field_all _))
  have h2 : fld (encM a m) 16 3 = encWidth m.width :=
    field_up (field_up (field_down (field_all _)))
  have h3 : fld (encM a m) 19 4 = m.lsid :=
    field_up (field_up (field_up (field_down (field_all _))))
  have h4 : fld (encM a m) 23 2 = encPred m.pred :=
    field_up (field_up (field_up (field_up (field_down (field_all _)))))
  simp only [decM, h0, h1, h2, h3, h4, decTarget_enc, decPred_enc, decWidth_enc, lift3]

theorem encMS_28 (a : BitVec 7) (m : MS) : fld (encMS a m) 28 4 = a.extractLsb' 3 4 :=
  field_up (field_up (field_up (field_up (field_up (field_up rfl)))))

theorem encMS_29 (a : BitVec 7) (m : MS) : fld (encMS a m) 29 3 = a.extractLsb' 4 3 :=
  field_up (field_up (field_up (field_up (field_up (field_up rfl)))))

theorem encMS_25 (a : BitVec 7) (m : MS) : fld (encMS a m) 25 3 = a.extractLsb' 0 3 :=
  field_up (field_up (field_up (field_up (field_up (field_up rfl)))))

theorem decMS_enc (a : BitVec 7) (m : MS) : decMS (encMS a m) = .ok m := by
  have h0 : fld (encMS a m) 0 8 = encTarget m.t0 := field_down (field_all _)
  have h1 : fld (encMS a m) 8 3 = encScope m.scope := field_up (field_down (field_all _))
  have h5 : fld (encMS a m) 11 5 = 0 :=
    field_up (field_up (field_down (field_all _)))
  have h2 : fld (encMS a m) 16 3 = encWidth m.width :=
    field_up (field_up (field_up (field_down (field_all _))))
  have h3 : fld (encMS a m) 19 4 = m.lsid :=
    field_up (field_up (field_up (field_up (field_down (field_all _)))))
  have h4 : fld (encMS a m) 23 2 = encPred m.pred :=
    field_up (field_up (field_up (field_up (field_up (field_down (field_all _))))))
  simp only [decMS, h0, h1, h2, h3, h4, h5, decTarget_enc, decPred_enc, decWidth_enc, decScope_enc, lift3, guardE]
  rfl

/-! Format A (R322). -/

theorem encA_28 (a : BitVec 7) (m : A) : fld (encA a m) 28 4 = a.extractLsb' 3 4 :=
  field_up (field_up (field_up (field_up (field_up (field_up (field_up rfl))))))

theorem encA_29 (a : BitVec 7) (m : A) : fld (encA a m) 29 3 = a.extractLsb' 4 3 :=
  field_up (field_up (field_up (field_up (field_up (field_up (field_up rfl))))))

theorem encA_25 (a : BitVec 7) (m : A) : fld (encA a m) 25 3 = a.extractLsb' 0 3 :=
  field_up (field_up (field_up (field_up (field_up (field_up (field_up rfl))))))

theorem decA_enc (a : BitVec 7) (m : A) : decA (encA a m) = .ok m := by
  have h0 : fld (encA a m) 0 8 = encTarget m.t0 := field_down (field_all _)
  have h1 : fld (encA a m) 8 5 = encAOp m.op := field_up (field_down (field_all _))
  have h2 : fld (encA a m) 13 2 = encOrder m.order :=
    field_up (field_up (field_down (field_all _)))
  have h3 : fld (encA a m) 15 3 = encScope m.scope :=
    field_up (field_up (field_up (field_down (field_all _))))
  have h4 : fld (encA a m) 18 1 = ofBool1 m.wide :=
    field_up (field_up (field_up (field_up (field_down (field_all _)))))
  have h5 : fld (encA a m) 19 4 = m.lsid :=
    field_up (field_up (field_up (field_up (field_up (field_down (field_all _))))))
  have h6 : fld (encA a m) 23 2 = encPred m.pred :=
    field_up (field_up (field_up (field_up (field_up (field_up (field_down (field_all _)))))))
  simp only [decA, h0, h1, h2, h3, h4, h5, h6, decTarget_enc, decPred_enc, decAOp_enc, decScope_enc, decOrder_enc,
    bit1_ofBool1, lift3]

end Sys2Proof
end

