-- ==== Sys2Proof/Laws/Fetch.lean ====
section
/-!
SUPPORT. What reads do while no store is being sent and no cache or stash holds a line: a byte comes from where its kind of
read shows it, the machine stays as it was, and the tile fetch unit gets every range whose bytes are in reach
(spec/08_memory_hierarchy.md R204 to R210; spec/17_isa_matrix.md R446).
-/
set_option Elab.async false
namespace Sys2Proof.Machine

/-- Where the device caches nothing, a translation is a walk of the tables (R102). -/
theorem State.lookup_cold {s : State} (h : s.tlb = []) (c : Context) (page : Nat) : s.lookup c page = s.walk 4 c.root page := by
  simp [State.lookup, h]

theorem drainOver_none (s : State) (hw : s.writes = []) (core : Nat) (ps : List Place) (p : PendingWrite → Bool) :
    s.drainOver core ps p = s := by
  unfold State.drainOver State.drain
  rw [hw]
  rfl

theorem probeRead_none (s : State) (h : s.stashLines = []) (die line : Nat) : s.probeRead die line = s := by
  unfold State.probeRead State.stashClean
  rw [h]
  rfl

theorem reachBank_none (s : State) (h : s.nearBanks = []) (sure : Bool) (phys : Nat) : s.reachBank sure phys = s := by
  have e : sset NearBank.reset ([] : Sparse NearBank) (phys / Config.stackBytes % 16) (NearBank.reset.serve phys) = [] := by
    have : NearBank.reset.serve phys = NearBank.reset := by
      simp [NearBank.serve, NearBank.complete, NearBank.reset, satAdd32, countBits]
    rw [this]
    rfl
  unfold State.reachBank State.nearBank
  rw [h]
  simp only [sget, e, ite_self]
  cases s
  simp only at h
  rw [h]

theorem arriveOn_none (s : State) (die : Nat) (p : Unarrived → Bool) (h : ∀ u ∈ s.unarrived, u.die = die → p u = false) :
    s.arriveOn die p = s := by
  unfold State.arriveOn
  exact if_pos (List.all_eq_true.mpr fun u hu => by simp [h u (List.mem_filter.mp hu).1 (by simpa using (List.mem_filter.mp hu).2)])

/-- An access to a line at the L2 changes nothing in a settled machine. -/
theorem l2Access_none (s : State) (hs : s.Settled) (core line : Nat) (p : PendingWrite → Bool) : s.l2Access core line p = s := by
  have hp : ∀ ds : List Nat, (foldState s ds fun s d => s.probeRead d line) = s := by
    intro ds
    induction ds with
    | nil => rfl
    | cons d ds ih =>
      show foldState (s.probeRead d line) ds _ = s
      rw [probeRead_none s hs.stashLines]
      exact ih
  unfold State.l2Access
  dsimp only
  rw [drainOver_none s hs.writes, reachBank_none s hs.banks, hp]
  refine arriveOn_none s _ _ fun u hu _ => ?_
  obtain ⟨h1, h2⟩ := hs.arrived u hu
  simp [h1, Nat.not_le.mpr h2]

theorem stashed_none (s : State) (h : s.stashMaps = []) (core ctx a : Nat) (p : Place) : s.stashed core ctx a p = false := by
  unfold State.stashed State.stashMap?
  rw [h]
  cases p <;> simp

/-- A byte that is read at the L2 of the die. -/
theorem loadByte_l2 (s : State) (hs : s.Settled) (who : Issuer) (fresh : Bool) (a phys : Nat) (attr : PageAttr)
    (hm : attr.memside = false) (hp : s.isPoisoned phys = false) : s.loadByte who .l2 fresh a (.hbm phys attr) =
      (s, some (s.shows false who.warp.core (.hbm phys attr))) := by
  unfold State.loadByte State.l1Line?
  dsimp only
  rw [l2Access_none s hs, stashed_none s hs.stashMaps, hs.l1, hm]
  simp [hp, State.shows, State.showsAt, hm]

/-- Can the tile fetch unit read a piece of a line: ordinary bytes of HBM in reach that are not poisoned? -/
def State.pieceOk (s : State) (who : Issuer) (a n : Nat) : Bool :=
  !inRegisters (BitVec.ofNat 64 a) && windowOf a == .global && !s.hostPage who.ctx a &&
  match s.access who .read (BitVec.ofNat 64 a) n with
  | .ok ps => ps.all fun p => match p with
    | .hbm phys attr => !attr.memside && !s.isPoisoned phys
    | _ => false
  | _ => false

/-- The bytes that the tile fetch unit gets of a piece. -/
def State.pieceBytes (s : State) (who : Issuer) (a n : Nat) : List Byte :=
  match s.access who .read (BitVec.ofNat 64 a) n with
  | .ok ps => ps.map (s.shows false who.warp.core)
  | _ => []

theorem fetch_fold (s : State) (hs : s.Settled) (who : Issuer) (a : Nat) (ps : List (Place × Nat)) (bs : List Byte)
    (h : ∀ p ∈ ps, ∃ phys attr, p.1 = .hbm phys attr ∧ attr.memside = false ∧ s.isPoisoned phys = false) :
    ps.foldl (fun (acc : State × Option (List Byte)) p =>
        let at_ : LoadAt := if acc.1.stashed who.warp.core who.ctx (a + p.2) p.1 then .l1 else .l2
        let b := acc.1.loadByte who at_ false (a + p.2) p.1
        (b.1, match acc.2, b.2 with
          | some bs, some v => some (bs ++ [v])
          | _, _ => none)) (s, some bs) = (s, some (bs ++ ps.map fun p => s.shows false who.warp.core p.1)) := by
  induction ps generalizing bs with
  | nil => rw [List.foldl_nil, List.map_nil, List.append_nil]
  | cons p ps ih =>
    obtain ⟨phys, attr, e, hm, hp⟩ := h p (.head _)
    rw [List.foldl_cons]
    dsimp only
    rw [stashed_none s hs.stashMaps, e, if_neg (by decide), loadByte_l2 s hs _ _ _ _ _ hm hp]
    refine (ih _ fun q hq => h q (.tail _ hq)).trans ?_
    rw [List.map_cons, e, List.append_assoc, List.singleton_append]

/-- A piece that can be read gives its bytes, and nothing changes. -/
theorem fetchPiece_ok (s : State) (hs : s.Settled) (who : Issuer) (a n : Nat) (h : s.pieceOk who a n = true) :
    s.fetchPiece who a n = (s, .ok (s.pieceBytes who a n)) := by
  simp only [State.pieceOk, Bool.and_eq_true, Bool.not_eq_true', beq_iff_eq] at h
  obtain ⟨⟨⟨h1, h2⟩, h3⟩, h4⟩ := h
  unfold State.fetchPiece State.pieceBytes
  simp only [h1, h2, h3, Bool.and_false]
  cases ha : s.access who .read (BitVec.ofNat 64 a) n with
  | bad c x => simp [ha] at h4
  | absent p => simp [ha] at h4
  | wait => simp [ha] at h4
  | ok ps =>
    rw [ha] at h4
    have hq : ∀ p ∈ ps.zipIdx, ∃ phys attr, p.1 = .hbm phys attr ∧ attr.memside = false ∧ s.isPoisoned phys = false := by
      intro p hp
      have hm := List.fst_mem_of_mem_zipIdx hp
      have := List.all_eq_true.mp h4 p.1 hm
      cases hx : p.1 with
      | hbm phys attr =>
        rw [hx] at this
        exact ⟨phys, attr, rfl, by simpa using this⟩
      | store k o => simp [hx] at this
      | regWin k o => simp [hx] at this
      | host k o => simp [hx] at this
    have hc := fetch_fold s hs who a ps.zipIdx [] hq
    have hz : (ps.zipIdx.map fun p => s.shows false who.warp.core p.1) = ps.map (s.shows false who.warp.core) := by
      rw [show (fun p : Place × Nat => s.shows false who.warp.core p.1) = s.shows false who.warp.core ∘ Prod.fst from rfl,
        ← List.map_map, List.zipIdx_map_fst]
    rw [hz, List.nil_append] at hc
    simp only [if_true]
    rw [if_neg (by decide), if_neg (by decide)]
    have e : ∀ r : State × Option (List Byte), r = (s, some (ps.map (s.shows false who.warp.core))) →
        (match r.2 with
          | some bs => (r.1, (.ok bs : Res (List Byte)))
          | none => (s, .bad .poison (BitVec.ofNat 64 a))) = (s, .ok (ps.map (s.shows false who.warp.core))) := by
      rintro r rfl; rfl
    exact e _ hc

/-- Can the tile fetch unit read a range? -/
def State.rangeOk (s : State) (who : Issuer) (a n : Nat) : Bool := (linePieces a n).all fun p => s.pieceOk who p.1 p.2

/-- What the tile fetch unit gets of a range, as one little-endian number. -/
def State.rangeValue (s : State) (who : Issuer) (a n : Nat) : Nat :=
  leNat ((linePieces a n).map fun p => s.pieceBytes who p.1 p.2).flatten

/-- A range that can be read gives its value, and nothing changes. -/
theorem fetchRange_ok (s : State) (hs : s.Settled) (who : Issuer) (a n : Nat) (h : s.rangeOk who a n = true) :
    s.fetchRange who a n = (s, .ok (s.rangeValue who a n)) := by
  unfold State.rangeOk at h
  have k : ∀ (l : List (Nat × Nat)) (bs : List Byte), l.all (fun p => s.pieceOk who p.1 p.2) = true →
      l.foldl (fun (acc : State × Res (List Byte)) p =>
        match acc.2 with
        | .ok bs =>
          match acc.1.fetchPiece who p.1 p.2 with
          | (t, .ok more) => (t, .ok (bs ++ more))
          | (t, bad) => (t, bad)
        | bad => (acc.1, bad)) (s, .ok bs) = (s, .ok (bs ++ (l.map fun p => s.pieceBytes who p.1 p.2).flatten)) := by
    intro l
    induction l with
    | nil => intro bs _; rw [List.foldl_nil, List.map_nil, List.flatten_nil, List.append_nil]
    | cons p l ih =>
      intro bs hl
      rw [List.all_cons, Bool.and_eq_true] at hl
      rw [List.foldl_cons]
      dsimp only
      rw [fetchPiece_ok s hs who p.1 p.2 hl.1, List.map_cons, List.flatten_cons, ← List.append_assoc]
      exact ih _ hl.2
  have hc := k _ [] h
  unfold State.fetchRange
  dsimp only
  have e : ∀ (r : State × Res (List Byte)) (cs : List Byte), r = (s, .ok cs) →
      (r.1, r.2.bind fun bs => .ok (leNat bs)) = (s, .ok (leNat cs)) := by
    rintro r cs rfl; rfl
  exact e _ _ hc

/-- Ranges that can be read give their values, and nothing changes. -/
theorem fetchRanges_ok (s : State) (hs : s.Settled) (who : Issuer) (rs : List (Nat × Nat))
    (h : rs.all (fun p => s.rangeOk who (p.1 % 2 ^ 64) p.2) = true) :
    s.fetchRanges who rs = (s, .ok (rs.map fun p => s.rangeValue who (p.1 % 2 ^ 64) p.2)) := by
  unfold State.fetchRanges
  have k : ∀ (l : List (Nat × Nat)) (xs : List Nat), l.all (fun p => s.rangeOk who (p.1 % 2 ^ 64) p.2) = true →
      l.foldl (fun (acc : State × Res (List Nat)) p =>
        match acc.2 with
        | .ok xs =>
          match acc.1.fetchRange who (p.1 % 2 ^ 64) p.2 with
          | (t, .ok x) => (t, .ok (xs ++ [x]))
          | (t, .bad c a) => (t, .bad c a)
          | (t, .absent q) => (t, .absent q)
          | (t, .wait) => (t, .wait)
        | bad => (acc.1, bad)) (s, .ok xs) = (s, .ok (xs ++ l.map fun p => s.rangeValue who (p.1 % 2 ^ 64) p.2)) := by
    intro l
    induction l with
    | nil => intro xs _; rw [List.foldl_nil, List.map_nil, List.append_nil]
    | cons p l ih =>
      intro xs hl
      rw [List.all_cons, Bool.and_eq_true] at hl
      rw [List.foldl_cons]
      dsimp only
      rw [fetchRange_ok s hs who _ _ hl.1]
      refine (ih _ hl.2).trans ?_
      rw [List.map_cons, List.append_assoc, List.singleton_append]
  exact k rs [] h

/-- A dense command whose ranges are in reach gets its operands, and changes nothing. -/
theorem fetchMma_dense (s : State) (hs : s.Settled) (who : Issuer) (d : W512) (fa fb : Fmt) (ha : mmaA d = some fa)
    (hb : mmaB d = some fb)
    (h : (aRanges d fa (mmaK d) ++ aScaleRanges d fa ++ bRanges d fb ++ bScaleRanges d fb).all
      (fun p => s.rangeOk who (p.1 % 2 ^ 64) p.2) = true) :
    let values := fun (rs : List (Nat × Nat)) => rs.map fun p => s.rangeValue who (p.1 % 2 ^ 64) p.2
    s.fetchMma who false d = (s, .ok ⟨d, fa, fb, Pattern.dense, values (aRanges d fa (mmaK d)), values (aScaleRanges d fa),
      values (bRanges d fb), values (bScaleRanges d fb)⟩) := by
  simp only [List.all_append, Bool.and_eq_true] at h
  obtain ⟨⟨⟨h1, h2⟩, h3⟩, h4⟩ := h
  have e1 := fetchRanges_ok s hs who _ h1
  have e2 := fetchRanges_ok s hs who _ h2
  have e3 := fetchRanges_ok s hs who _ h3
  have e4 := fetchRanges_ok s hs who _ h4
  have hk : mmaK d * Pattern.dense.n / Pattern.dense.m = mmaK d := by simp [Pattern.dense]
  intro values
  unfold State.fetchMma
  rw [ha, hb]
  have ep : s.fetchPattern who false d = (s, .ok Pattern.dense) := rfl
  simp only [ep, andThen, hk, e1, e2, e3, e4, values]

end Sys2Proof.Machine
end

