-- ==== Sys2Proof/Laws/Integer.lean ====
section
/-!
SUPPORT. The integer operations of Machine/Integer.lean in the word arithmetic that claims are stated in.
-/
set_option Elab.async false
namespace Sys2Proof.Laws.Integer
open Sys2Proof.Machine

theorem wrap_eq (t : IType) (x : Int) : t.wrap x = match t with
  | .s32 | .z32 => zext (BitVec.ofInt 32 x)
  | .s64 | .z64 => BitVec.ofInt 64 x := by
  cases t <;> simp only [IType.wrap, IType.width, zext] <;> apply BitVec.eq_of_toNat_eq <;> simp [BitVec.toNat_ofInt] <;> omega

theorem int_eq (t : IType) (x : W64) : t.int x = match t with
  | .s32 => (lo32 x).toInt
  | .z32 => (lo32 x).toNat
  | .s64 => x.toInt
  | .z64 => x.toNat := by
  have : (lo32 x).toNat = x.toNat % 2^32 := by simp [lo32]
  have h64 : x.toNat < 2^64 := x.isLt
  cases t <;> simp only [IType.int, IType.nat, IType.width, IType.signed, BitVec.toInt_eq_toNat_cond, this] <;> (try split) <;> (try split) <;> simp_all <;> omega

theorem add_eq (t : IType) (a b : W64) : t.wrap (t.int a + t.int b) = t.on2 (· + ·) a b := by
  rw [wrap_eq, int_eq, int_eq]
  cases t <;> simp [IType.on2, BitVec.ofInt_add]

theorem sub_eq (t : IType) (a b : W64) : t.wrap (t.int a - t.int b) = t.on2 (· - ·) a b := by
  rw [wrap_eq, int_eq, int_eq]
  cases t <;> simp [IType.on2, Int.sub_eq_add_neg, BitVec.ofInt_add, BitVec.ofInt_neg, BitVec.sub_eq_add_neg]

theorem mul_eq (t : IType) (a b : W64) : t.wrap (t.int a * t.int b) = t.on2 (· * ·) a b := by
  rw [wrap_eq, int_eq, int_eq]
  cases t <;> simp [IType.on2, BitVec.ofInt_mul]

theorem mad_eq (t : IType) (a b c : W64) : t.wrap (t.int a * t.int b + t.int c) = t.on3 (fun x y z => x * y + z) a b c := by
  rw [wrap_eq, int_eq, int_eq, int_eq]
  cases t <;> simp [IType.on3, BitVec.ofInt_mul, BitVec.ofInt_add]

theorem neg_eq (t : IType) (a : W64) : t.wrap (-t.int a) = t.on1 (- ·) a := by
  rw [wrap_eq, int_eq]
  cases t <;> simp [IType.on1, BitVec.ofInt_neg]

theorem keep_eq (t : IType) (a : W64) : t.wrap (t.int a) = t.keep a := by
  rw [wrap_eq, int_eq]
  cases t <;> simp [IType.keep, IType.on1]

theorem below_eq (t : IType) (a b : W64) : t.below a b = decide (t.int a < t.int b) := by
  rw [int_eq, int_eq]
  cases t <;> simp [IType.below, BitVec.slt, BitVec.ult]

theorem lesser_eq (t : IType) (a b : W64) : lesser t a b = t.keep (if t.below b a then b else a) := by
  unfold lesser
  rw [below_eq]
  by_cases h : t.int a ≤ t.int b
  · rw [if_pos h, if_neg (by simpa using h), keep_eq]
  · rw [if_neg h, if_pos (by simpa using h), keep_eq]

theorem greater_eq (t : IType) (a b : W64) : greater t a b = t.keep (if t.below a b then b else a) := by
  unfold greater
  rw [below_eq]
  by_cases h : t.int b ≤ t.int a
  · rw [if_pos h, if_neg (by simpa using h), keep_eq]
  · rw [if_neg h, if_pos (by simpa using h), keep_eq]

theorem abs_eq (t : SType) (a : W64) : t.toI.wrap (if t.toI.int a < 0 then -t.toI.int a else t.toI.int a) = t.toI.on1 (fun x => if x.msb then -x else x) a := by
  rw [wrap_eq, int_eq]
  cases t
  · simp only [SType.toI, IType.on1, BitVec.msb_eq_toInt]
    by_cases h : (lo32 a).toInt < 0 <;> simp [h, BitVec.ofInt_neg]
  · simp only [SType.toI, IType.on1, BitVec.msb_eq_toInt]
    by_cases h : a.toInt < 0 <;> simp [h, BitVec.ofInt_neg]

theorem upper_half32 (p : Int) : (BitVec.ofInt 64 p).extractLsb' 32 32 = BitVec.ofInt 32 (p / 2 ^ 32) := by
  apply BitVec.eq_of_toNat_eq
  simp only [BitVec.extractLsb'_toNat, BitVec.toNat_ofInt, Nat.shiftRight_eq_div_pow]
  omega

theorem upper_half64 (p : Int) : (BitVec.ofInt 128 p).extractLsb' 64 64 = BitVec.ofInt 64 (p / 2 ^ 64) := by
  apply BitVec.eq_of_toNat_eq
  simp only [BitVec.extractLsb'_toNat, BitVec.toNat_ofInt, Nat.shiftRight_eq_div_pow]
  omega

theorem setWidth_ofInt {w : Nat} (v : Nat) (x : BitVec w) : x.setWidth v = BitVec.ofInt v (x.toNat : Int) := by
  apply BitVec.eq_of_toNat_eq
  simp

theorem mulHigh_eq (t : IType) (a b : W64) : mulHigh t a b = t.upper a b := by
  unfold mulHigh
  rw [wrap_eq, int_eq, int_eq]
  cases t <;> simp only [IType.upper, IType.width]
  · rw [show (lo32 a).signExtend 64 = BitVec.ofInt 64 (lo32 a).toInt from rfl,
      show (lo32 b).signExtend 64 = BitVec.ofInt 64 (lo32 b).toInt from rfl, ← BitVec.ofInt_mul, upper_half32]
  · rw [setWidth_ofInt, setWidth_ofInt, ← BitVec.ofInt_mul, upper_half32]
  · rw [show a.signExtend 128 = BitVec.ofInt 128 a.toInt from rfl,
      show b.signExtend 128 = BitVec.ofInt 128 b.toInt from rfl, ← BitVec.ofInt_mul, upper_half64]
  · rw [setWidth_ofInt, setWidth_ofInt, ← BitVec.ofInt_mul, upper_half64]

theorem ofInt_tdiv {w : Nat} (x y : BitVec w) : BitVec.ofInt w (x.toInt.tdiv y.toInt) = x.sdiv y := by
  apply BitVec.eq_of_toInt_eq
  rw [BitVec.toInt_ofInt, BitVec.toInt_sdiv]

theorem ofInt_tmod {w : Nat} (x y : BitVec w) : BitVec.ofInt w (x.toInt.tmod y.toInt) = x.srem y := by
  rw [← BitVec.toInt_srem, BitVec.ofInt_toInt]

theorem ofNat_tdiv {w : Nat} (x y : BitVec w) : BitVec.ofInt w ((x.toNat : Int).tdiv y.toNat) = x / y := by
  rw [← Int.ofNat_tdiv, BitVec.ofInt_natCast]
  apply BitVec.eq_of_toNat_eq
  rw [BitVec.toNat_ofNat, BitVec.toNat_udiv, Nat.mod_eq_of_lt (Nat.lt_of_le_of_lt (Nat.div_le_self _ _) x.isLt)]

theorem ofNat_tmod {w : Nat} (x y : BitVec w) : BitVec.ofInt w ((x.toNat : Int).tmod y.toNat) = x % y := by
  rw [← Int.ofNat_tmod, BitVec.ofInt_natCast]
  apply BitVec.eq_of_toNat_eq
  rw [BitVec.toNat_ofNat, BitVec.toNat_umod, Nat.mod_eq_of_lt (Nat.lt_of_le_of_lt (Nat.mod_le _ _) x.isLt)]

theorem nat_zero (t : IType) (b : W64) : t.nat b = 0 ↔ t.keep b = 0 := by
  cases t <;> simp [IType.nat, IType.keep, IType.on1, IType.width, zext, lo32, ← BitVec.toNat_inj] <;> omega

theorem divide_eq (t : IType) (a b : W64) : divide t a b = if t.keep b = 0 then t.keep (-1) else (t.divided a b).1 := by
  unfold divide
  simp only [nat_zero]
  split
  · rw [wrap_eq]
    cases t <;> decide
  · rw [wrap_eq, int_eq, int_eq]
    cases t <;> simp only [IType.divided, ofInt_tdiv, ofNat_tdiv]

theorem remainder_eq (t : IType) (a b : W64) : remainder t a b = if t.keep b = 0 then t.keep a else (t.divided a b).2 := by
  unfold remainder
  simp only [nat_zero]
  split
  · rw [keep_eq]
  · rw [wrap_eq, int_eq, int_eq]
    cases t <;> simp only [IType.divided, ofInt_tmod, ofNat_tmod]

theorem low_eq (t : ZType) (x : W64) : t.low x = t.toI.keep x := by
  have := x.isLt
  cases t <;> simp [ZType.low, ZType.toI, IType.keep, IType.on1, IType.nat, IType.width, zext, lo32, ← BitVec.toNat_inj] <;> omega

theorem and_eq (t : ZType) (a b : W64) : t.low a &&& t.low b = t.toI.on2 (· &&& ·) a b := by
  rw [low_eq, low_eq]
  cases t <;> simp [ZType.toI, IType.keep, IType.on1, IType.on2, zext]

theorem or_eq (t : ZType) (a b : W64) : t.low a ||| t.low b = t.toI.on2 (· ||| ·) a b := by
  rw [low_eq, low_eq]
  cases t <;> simp [ZType.toI, IType.keep, IType.on1, IType.on2, zext]

theorem xor_eq (t : ZType) (a b : W64) : t.low a ^^^ t.low b = t.toI.on2 (· ^^^ ·) a b := by
  rw [low_eq, low_eq]
  cases t <;> simp [ZType.toI, IType.keep, IType.on1, IType.on2, zext]

theorem andn_eq (t : ZType) (a b : W64) : t.low a &&& ~~~t.low b = t.toI.on2 (fun x y => x &&& ~~~y) a b := by
  rw [low_eq, low_eq]
  cases t
  · simp only [ZType.toI, IType.keep, IType.on1, IType.on2, zext]
    ext i hi
    simp
    grind
  · rfl

theorem not_eq (t : ZType) (a : W64) : t.low (~~~a) = t.toI.on1 (~~~ ·) a := by
  rw [low_eq]
  cases t
  · simp only [ZType.toI, IType.keep, IType.on1, zext, lo32]
    congr 1
    ext i hi
    simp
    grind
  · rfl

theorem shl_eq (t : ZType) (a b : W64) : (if t.toI.width ≤ (lo32 b).toNat then 0 else t.low (t.low a <<< (lo32 b).toNat)) =
    t.toI.on1 (· <<< (lo32 b).toNat) a := by
  generalize (lo32 b).toNat = n
  rw [low_eq, low_eq]
  cases t <;> simp only [ZType.toI, IType.keep, IType.on1, IType.width, zext, lo32]
  · by_cases h : 32 ≤ n
    · simp [h]
    · simp only [h, if_false]
      ext i hi
      simp
      grind
  · by_cases h : 64 ≤ n
    · simp [h]
    · simp [h]

theorem shr_eq (t : ZType) (a b : W64) : (if t.toI.width ≤ (lo32 b).toNat then 0 else t.low a >>> (lo32 b).toNat) =
    t.toI.on1 (· >>> (lo32 b).toNat) a := by
  generalize (lo32 b).toNat = n
  rw [low_eq]
  cases t <;> simp only [ZType.toI, IType.keep, IType.on1, IType.width, zext, lo32]
  · by_cases h : 32 ≤ n
    · simp only [h, if_true]
      ext i hi
      simp
      omega
    · simp only [h, if_false]
      ext i hi
      simp
  · by_cases h : 64 ≤ n
    · simp only [h, if_true]
      exact (BitVec.ushiftRight_eq_zero h).symm
    · simp [h]

theorem rotl_eq (t : ZType) (a b : W64) : (match t with
      | .z32 => zext ((lo32 a).rotateLeft ((lo32 b).toNat % 32))
      | .z64 => a.rotateLeft ((lo32 b).toNat % 64)) = t.toI.on1 (fun x => x.rotateLeft (lo32 b).toNat) a := by
  cases t <;> simp [ZType.toI, IType.on1, BitVec.rotateLeft]

theorem ediv_neg_one {x k : Int} (hk : 0 < k) (h1 : -k ≤ x) (h2 : x < 0) : x / k = -1 := by
  apply Int.le_antisymm
  · have := Int.ediv_lt_of_lt_mul (a := x) (b := 0) hk (by simpa using h2)
    omega
  · exact Int.le_ediv_of_mul_le hk (by linarith)

theorem sar_eq (t : ZType) (a b : W64) : t.toI.wrap ((match t with | .z32 => IType.s32 | .z64 => IType.s64 : IType).int a /
    (2 ^ Nat.min (lo32 b).toNat t.toI.width : Int)) = t.toI.on1 (fun x => x.sshiftRight (lo32 b).toNat) a := by
  generalize (lo32 b).toNat = n
  have key : ∀ (w : Nat) (x : BitVec w), BitVec.ofInt w (x.toInt / 2 ^ Nat.min n w) = x.sshiftRight n := by
    intro w x
    unfold BitVec.sshiftRight
    by_cases h : n ≤ w
    · rw [show Nat.min n w = n from Nat.min_eq_left h]
      rw [Int.shiftRight_eq_div_pow]
      norm_cast
    · have hw : w ≤ n := by omega
      rw [show Nat.min n w = w from Nat.min_eq_right hw]
      congr 1
      rw [Int.shiftRight_eq_div_pow]
      have h1 := BitVec.le_two_mul_toInt (x := x)
      have h2 := BitVec.two_mul_toInt_lt (x := x)
      have h3 : (2 : Int) ^ w ≤ 2 ^ n := pow_le_pow_right₀ (by norm_num) hw
      have h4 : (0 : Int) < 2 ^ w := by positivity
      push_cast
      by_cases hx : x.toInt < 0
      · rw [ediv_neg_one h4 (by omega) hx, ediv_neg_one (by omega) (by omega) hx]
      · rw [Int.ediv_eq_zero_of_lt (by omega) (by omega), Int.ediv_eq_zero_of_lt (by omega) (by omega)]
  rw [wrap_eq, int_eq]
  cases t
  · simp only [ZType.toI, IType.on1, IType.width, key]
  · simp only [ZType.toI, IType.on1, IType.width, key]

theorem nat_eq (t : IType) (a : W64) : t.nat a = match t with
    | .s32 | .z32 => (lo32 a).toNat
    | .s64 | .z64 => a.toNat := by
  have : (lo32 a).toNat = a.toNat % 2^32 := by simp [lo32]
  have h64 : a.toNat < 2^64 := a.isLt
  cases t <;> simp only [IType.nat, IType.width, this] <;> omega

theorem leadingZeros_eq {w : Nat} (hw : 0 < w) (x : BitVec w) : leadingZeros w x.toNat = x.clz.toNat := by
  unfold leadingZeros bitLen
  have h1 := BitVec.toNat_lt_two_pow_sub_clz (x := x)
  by_cases h : x = 0#w
  · have := (BitVec.clz_eq_iff_eq_zero (x := x)).mpr h
    rw [this, h]
    simp [Nat.mod_eq_of_lt (Nat.lt_two_pow_self (n := w))]
  · have h2 := BitVec.two_pow_sub_clz_le_toNat_of_ne_zero hw h
    have hz : x.toNat ≠ 0 := by intro e; exact h (BitVec.eq_of_toNat_eq (by simpa using e))
    have h3 : x.clz.toNat < w := by
      by_contra hc
      rw [show w - x.clz.toNat = 0 by omega] at h1
      omega
    have h4 := (Nat.log2_eq_iff (k := w - 1 - x.clz.toNat) hz).mpr ⟨h2, by rwa [show w - 1 - x.clz.toNat + 1 = w - x.clz.toNat by omega]⟩
    rw [if_neg hz, h4]
    omega

theorem clz_eq (t : ZType) (a : W64) : BitVec.ofNat 64 (leadingZeros t.toI.width (t.toI.nat a)) = t.toI.on1 BitVec.clz a := by
  rw [nat_eq]
  cases t <;> simp only [ZType.toI, IType.on1, IType.width] <;> rw [leadingZeros_eq (by decide)] <;>
    apply BitVec.eq_of_toNat_eq <;> simp [zext] 

theorem trailingZeros_eq {w : Nat} (x : BitVec w) : trailingZeros w x.toNat = x.ctz.toNat := by
  have hb : ∀ i, decide (x.toNat / 2 ^ i % 2 = 1) = x.getLsbD i := by
    intro i
    rw [BitVec.getLsbD, Nat.testBit_eq_decide_div_mod_eq]
  unfold trailingZeros
  simp only [hb]
  have h0 : x.ctz.toNat ≤ w := by
    rw [BitVec.ctz]
    have := BitVec.clz_le (x := x.reverse)
    rw [BitVec.le_def] at this
    simpa [Nat.mod_eq_of_lt (Nat.lt_two_pow_self (n := w))] using this
  by_cases h : x = 0#w
  · have hn : (List.range w).find? (fun i => x.getLsbD i) = none := by
      rw [List.find?_eq_none]; intro i _; simp [h]
    rw [hn]
    have : x.ctz = w := by
      rw [BitVec.ctz, BitVec.clz_eq_iff_eq_zero]
      rw [h]; simp
    rw [this]; simp [Nat.mod_eq_of_lt (Nat.lt_two_pow_self (n := w))]
  · have h1 := BitVec.getLsbD_true_ctz_of_ne_zero h
    have h2 : x.ctz.toNat < w := by
      by_contra hc
      rw [BitVec.getLsbD_of_ge _ _ (by omega)] at h1
      cases h1
    have : (List.range w).find? (fun i => x.getLsbD i) = some x.ctz.toNat := by
      rw [List.find?_range_eq_some]
      refine ⟨h1, by simpa using h2, ?_⟩
      intro j hj
      simp [BitVec.getLsbD_false_of_lt_ctz hj]
    rw [this]; rfl

theorem ctz_eq (t : ZType) (a : W64) : BitVec.ofNat 64 (trailingZeros t.toI.width (t.toI.nat a)) = t.toI.on1 BitVec.ctz a := by
  rw [nat_eq]
  cases t <;> simp only [ZType.toI, IType.on1, IType.width] <;> rw [trailingZeros_eq] <;>
    apply BitVec.eq_of_toNat_eq <;> simp [zext] 

theorem popCount_eq {w : Nat} (x : BitVec w) : popCount w x.toNat = x.cpop.toNat := by
  have hb : ∀ i, decide (x.toNat / 2 ^ i % 2 = 1) = x.getLsbD i := by
    intro i
    rw [BitVec.getLsbD, Nat.testBit_eq_decide_div_mod_eq]
  unfold popCount
  simp only [hb]
  rw [BitVec.toNat_cpop]
  have : ∀ n acc, x.cpopNatRec n acc = acc + ((List.range n).filter fun i => x.getLsbD i).length := by
    intro n
    induction n with
    | zero => intro acc; simp
    | succ n ih =>
      intro acc
      rw [BitVec.cpopNatRec_succ, ih, List.range_succ, List.filter_append]
      by_cases hx : x.getLsbD n = true
      · simp [hx]; omega
      · simp only [Bool.not_eq_true] at hx; simp [hx]
  rw [this]; simp

theorem popc_eq (t : ZType) (a : W64) : BitVec.ofNat 64 (popCount t.toI.width (t.toI.nat a)) = t.toI.on1 BitVec.cpop a := by
  rw [nat_eq]
  cases t <;> simp only [ZType.toI, IType.on1, IType.width] <;> rw [popCount_eq] <;>
    apply BitVec.eq_of_toNat_eq <;> simp [zext] 

theorem brev_eq (t : ZType) (a : W64) : (match t with
      | .z32 => zext (lo32 a).reverse
      | .z64 => a.reverse) = t.toI.on1 BitVec.reverse a := by cases t <;> rfl

theorem bit_nat (t : IType) (a : W64) (i : Nat) : (t.nat a).testBit i = (decide (i < t.width) && a.getLsbD i) := by
  unfold IType.nat
  rw [Nat.testBit_mod_two_pow, BitVec.getLsbD]

theorem extract_bit (t : IType) (a b : W64) (i : Nat) (hi : i < 64) :
    (extractField t a b).getLsbD i =
      let p := Nat.min (b.toNat % 256) t.width
      let l := Nat.min (b.toNat / 256 % 256) (t.width - p)
      if i < l then a.getLsbD (p + i) else decide (i < t.width) && t.signed && decide (0 < l) && a.getLsbD (p + l - 1) := by
  have hp : (fieldOf t.width b).1 ≤ t.width := Nat.min_le_right _ _
  have hl : (fieldOf t.width b).2 ≤ t.width - (fieldOf t.width b).1 := Nat.min_le_right _ _
  show _ = (if i < (fieldOf t.width b).2 then a.getLsbD ((fieldOf t.width b).1 + i) else
    decide (i < t.width) && t.signed && decide (0 < (fieldOf t.width b).2) && a.getLsbD ((fieldOf t.width b).1 + (fieldOf t.width b).2 - 1))
  unfold extractField
  dsimp only
  generalize (fieldOf t.width b).1 = p at *
  generalize (fieldOf t.width b).2 = l at *
  have hw : t.width ≤ 64 := by cases t <;> decide
  have hx : t.nat a / 2 ^ p % 2 ^ l < 2 ^ l := Nat.mod_lt _ (by positivity)
  have hbit : ∀ j, (t.nat a / 2 ^ p % 2 ^ l).testBit j = (decide (j < l) && a.getLsbD (p + j)) := by
    intro j
    rw [Nat.testBit_mod_two_pow, Nat.testBit_div_two_pow, bit_nat, Nat.add_comm]
    by_cases h : j < l
    · simp [h, show p + j < t.width by omega]
    · simp [h]
  have htop : 0 < l → (t.nat a / 2 ^ p % 2 ^ l / 2 ^ (l - 1) = 1 ↔ a.getLsbD (p + l - 1) = true) := by
    intro h0
    have h1 := hbit (l - 1)
    rw [Nat.testBit_eq_decide_div_mod_eq] at h1
    have h2 : t.nat a / 2 ^ p % 2 ^ l / 2 ^ (l - 1) < 2 := by
      rw [Nat.div_lt_iff_lt_mul (by positivity), ← pow_succ', show l - 1 + 1 = l by omega]; exact hx
    rw [show p + (l - 1) = p + l - 1 by omega] at h1
    simp only [show l - 1 < l by omega, decide_true, Bool.true_and] at h1
    rw [← h1]
    generalize t.nat a / 2 ^ p % 2 ^ l / 2 ^ (l - 1) = y at *
    simp only [decide_eq_true_eq]
    omega
  generalize t.nat a / 2 ^ p % 2 ^ l = x at *
  have hlw : (2 : Nat) ^ l ≤ 2 ^ t.width := Nat.pow_le_pow_right (by norm_num) (by omega)
  have hw64 : (2 : Nat) ^ t.width ≤ 2 ^ 64 := Nat.pow_le_pow_right (by norm_num) hw
  split
  · rename_i hc
    obtain ⟨hs, h0, h1⟩ := hc
    have ht := (htop h0).mp h1
    have e : t.wrap ((x : Int) - 2 ^ l) = BitVec.ofNat 64 (2 ^ l * (2 ^ (t.width - l) - 1) + x) := by
      unfold IType.wrap
      congr 1
      have hm : 2 ^ l * (2 ^ (t.width - l) - 1) = 2 ^ t.width - 2 ^ l := by
        rw [Nat.mul_sub, ← pow_add, show l + (t.width - l) = t.width by omega, Nat.mul_one]
      rw [hm]
      have : ((x : Int) - 2 ^ l) % 2 ^ t.width = ((2 ^ t.width - 2 ^ l + x : Nat) : Int) := by
        have h5 : ((x : Int) - 2 ^ l) = ((2 ^ t.width - 2 ^ l + x : Nat) : Int) - 2 ^ t.width := by
          push_cast [Nat.cast_sub hlw]; ring
        rw [h5]
        rw [Int.sub_emod_right]
        exact Int.emod_eq_of_lt (by positivity) (by norm_cast; omega)
      rw [this]; rfl
    rw [e, BitVec.getLsbD_ofNat, Nat.testBit_two_pow_mul_add _ hx, hbit]
    simp only [hi, decide_true, Bool.true_and, hs, h0, ht, Bool.and_true]
    by_cases h : i < l
    · simp [h]
    · simp only [h, if_false, Nat.testBit_two_pow_sub_one]
      by_cases h6 : i < t.width
      · simp [h6]; omega
      · simp [h6]; omega
  · rename_i hc
    have e : t.wrap (x : Int) = BitVec.ofNat 64 x := by
      unfold IType.wrap
      congr 1
      have : ((x : Int) % 2 ^ t.width) = x := Int.emod_eq_of_lt (by positivity) (by norm_cast; omega)
      rw [this]; simp
    rw [e, BitVec.getLsbD_ofNat, hbit]
    simp only [hi, decide_true, Bool.true_and]
    by_cases h : i < l
    · simp [h]
    · simp only [h, if_false, decide_false, Bool.false_and]
      by_cases h0 : 0 < l
      · have := htop h0
        by_cases hs : t.signed = true
        · have : a.getLsbD (p + l - 1) = false := by
            by_contra h7
            exact hc ⟨hs, h0, this.mpr (by simpa using h7)⟩
          simp [this]
        · simp [hs]
      · simp [h0]

theorem insert_bit (t : ZType) (a b c : W64) (i : Nat) (hi : i < 64) :
    (insertField t a b c).getLsbD i =
      let p := Nat.min (c.toNat % 256) t.toI.width
      let l := Nat.min (c.toNat / 256 % 256) (t.toI.width - p)
      if p ≤ i ∧ i < p + l then b.getLsbD (i - p) else decide (i < t.toI.width) && a.getLsbD i := by
  have hp : (fieldOf t.toI.width c).1 ≤ t.toI.width := Nat.min_le_right _ _
  have hl : (fieldOf t.toI.width c).2 ≤ t.toI.width - (fieldOf t.toI.width c).1 := Nat.min_le_right _ _
  show _ = (if (fieldOf t.toI.width c).1 ≤ i ∧ i < (fieldOf t.toI.width c).1 + (fieldOf t.toI.width c).2 then
    b.getLsbD (i - (fieldOf t.toI.width c).1) else decide (i < t.toI.width) && a.getLsbD i)
  unfold insertField
  dsimp only
  generalize (fieldOf t.toI.width c).1 = p at *
  generalize (fieldOf t.toI.width c).2 = l at *
  have hb : b.toNat % 2 ^ l < 2 ^ l := Nat.mod_lt _ (by positivity)
  have hlo : t.toI.nat a % 2 ^ p < 2 ^ p := Nat.mod_lt _ (by positivity)
  have e : t.toI.nat a - t.toI.nat a / 2 ^ p % 2 ^ l * 2 ^ p + b.toNat % 2 ^ l * 2 ^ p =
      2 ^ p * (2 ^ l * (t.toI.nat a / 2 ^ p / 2 ^ l) + b.toNat % 2 ^ l) + t.toI.nat a % 2 ^ p := by
    have h1 := Nat.div_add_mod (t.toI.nat a) (2 ^ p)
    have h2 := Nat.div_add_mod (t.toI.nat a / 2 ^ p) (2 ^ l)
    generalize t.toI.nat a = x at *
    generalize x / 2 ^ p = y at *
    generalize y / 2 ^ l = z at *
    generalize y % 2 ^ l = u at *
    generalize x % 2 ^ p = v at *
    generalize b.toNat % 2 ^ l = q at *
    have h3 : x = 2 ^ p * (2 ^ l * z) + u * 2 ^ p + v := by rw [← h1, ← h2]; ring
    have h4 : x - u * 2 ^ p = 2 ^ p * (2 ^ l * z) + v := by omega
    rw [h4]; ring
  rw [e, BitVec.getLsbD_ofNat, Nat.testBit_two_pow_mul_add _ hlo, Nat.testBit_two_pow_mul_add _ hb]
  simp only [hi, decide_true, Bool.true_and, Nat.testBit_mod_two_pow, Nat.testBit_div_two_pow, bit_nat]
  by_cases h1 : i < p
  · simp [h1, show ¬ p ≤ i by omega]
  · by_cases h2 : i - p < l
    · simp only [h1, if_false, h2, if_true, decide_true, Bool.true_and]
      rw [if_pos ⟨by omega, by omega⟩]
      rfl
    · simp only [h1, if_false, h2]
      rw [if_neg (by omega), show i - p - l + l + p = i by omega]

theorem lea_eq (t : IType) (k : Nat) (a b : W64) : leaAddr t k a b =
    a + (match t with
      | .s32 => (lo32 b).signExtend 64
      | .z32 => (lo32 b).setWidth 64
      | .s64 | .z64 => b : W64) <<< k := by
  cases t <;> rfl

theorem cond_eq (c : Cond) (t : IType) (a b : W64) : c.holds (t.int a) (t.int b) = match c with
    | .eq => decide (t.keep a = t.keep b)
    | .ne => decide (t.keep a ≠ t.keep b)
    | .lt => t.below a b
    | .le => !t.below b a
    | .gt => t.below b a
    | .ge => !t.below a b := by
  have he : t.int a = t.int b ↔ t.keep a = t.keep b := by
    rw [int_eq, int_eq]
    cases t <;> simp [IType.keep, IType.on1, BitVec.toInt_inj, BitVec.toNat_inj, zext] <;>
      exact ⟨fun h => by rw [h], fun h => by simpa using congrArg (BitVec.setWidth 32) h⟩
  cases c <;> simp only [Cond.holds, below_eq]
  · simp [he]
  · simp [he]
  · by_cases h : t.int b < t.int a <;> simp [h] <;> omega
  · by_cases h : t.int a < t.int b <;> simp [h] <;> omega
end Sys2Proof.Laws.Integer
end

