-- ==== Sys2Proof/Laws/Memory.lean ====
section
/-!
SUPPORT. The laws of memory: a read after a write, a write that leaves every other byte alone, and the canonical form, which
every memory operation keeps (spec/08_memory_hierarchy.md R200 to R218; spec/09_memory_model.md R229 to R238).
-/
set_option Elab.async false
namespace Sys2Proof.Machine

section Sparse
variable {α : Type} [DecidableEq α] (d : α)

theorem swfFrom_weaken {m : Sparse α} {k j : Nat} (h : swfFrom d (some k) m = true) (hj : j ≤ k) : swfFrom d (some j) m = true := by
  cases m with
  | nil => rfl
  | cons x m =>
    simp only [swfFrom, Bool.and_eq_true, decide_eq_true_eq] at h ⊢
    exact ⟨⟨by omega, h.1.2⟩, h.2⟩

theorem swfFrom_none {m : Sparse α} {k : Nat} (h : swfFrom d (some k) m = true) : swfFrom d none m = true := by
  cases m with
  | nil => rfl
  | cons x m => simp_all [swfFrom]

theorem sset_keeps_from (m : Sparse α) (k : Nat) (v : α) (lo : Option Nat) (hlo : ∀ j, lo = some j → j < k)
    (h : swfFrom d lo m = true) : swfFrom d lo (sset d m k v) = true := by
  induction m generalizing lo with
  | nil =>
    by_cases hv : v = d
    · simp [sset, hv, swfFrom]
    · cases lo with
      | none => simp [sset, hv, swfFrom]
      | some j => simp [sset, hv, swfFrom, hlo j rfl]
  | cons x m ih =>
    obtain ⟨j, w⟩ := x
    simp only [swfFrom, Bool.and_eq_true] at h
    obtain ⟨⟨h1, h2⟩, h3⟩ := h
    simp only [sset]
    split
    · rename_i hk
      split
      · simp [swfFrom, h1, h2, h3]
      · rename_i hv
        cases lo with
        | none => simp [swfFrom, hv, hk, h3]; simpa using h2
        | some i => simp [swfFrom, hv, hk, hlo i rfl, h3]; simpa using h2
    · split
      · rename_i hk hkj
        split
        · subst hkj
          cases lo with
          | none => exact swfFrom_none d h3
          | some i => exact swfFrom_weaken d h3 (Nat.le_of_lt (hlo i rfl))
        · rename_i hv
          subst hkj
          simp [swfFrom, hv, h3]
          simpa using h1
      · rename_i hk hkj
        have := ih (some j) (fun i hi => by cases hi; omega) h3
        simp only [swfFrom, Bool.and_eq_true]
        exact ⟨⟨h1, h2⟩, this⟩

/-- A write keeps the canonical form. -/
theorem sset_keeps (m : Sparse α) (k : Nat) (v : α) (h : swf d m = true) : swf d (sset d m k v) = true :=
  sset_keeps_from d m k v none (by simp) h

theorem sget_below (m : Sparse α) (lo k : Nat) (h : swfFrom d (some lo) m = true) (hk : k ≤ lo) : sget d m k = d := by
  induction m generalizing lo with
  | nil => rfl
  | cons x m ih =>
    obtain ⟨j, w⟩ := x
    simp only [swfFrom, Bool.and_eq_true, decide_eq_true_eq] at h
    have : k ≠ j := by omega
    simp only [sget, this, if_false]
    exact ih j h.2 (by omega)

theorem sget_sset_from (m : Sparse α) (k k' : Nat) (v : α) (lo : Option Nat) (h : swfFrom d lo m = true) :
    sget d (sset d m k v) k' = if k' = k then v else sget d m k' := by
  induction m generalizing lo with
  | nil =>
    by_cases hv : v = d <;> by_cases hk : k' = k <;> simp [sset, sget, hv, hk]
  | cons x m ih =>
    obtain ⟨j, w⟩ := x
    have h3 : swfFrom d (some j) m = true := by simp only [swfFrom, Bool.and_eq_true] at h; exact h.2
    simp only [sset]
    split
    · rename_i hk
      split
      · rename_i hv
        by_cases hk' : k' = k
        · have e1 : k ≠ j := by omega
          simp [hk', hv, sget, e1, sget_below d m j k h3 (by omega)]
        · simp [hk']
      · by_cases hk' : k' = k <;> simp [sget, hk']
    · split
      · rename_i hk hkj
        subst hkj
        split
        · rename_i hv
          by_cases hk' : k' = k
          · subst hk'; simp [hv, sget_below d m k' k' h3 (Nat.le_refl _)]
          · simp [sget, hk']
        · by_cases hk' : k' = k <;> simp [sget, hk']
      · rename_i hk hkj
        have := ih (some j) h3
        by_cases hj : k' = j
        · have : k' ≠ k := by omega
          simp [sget, hj]; intro e; omega
        · simp only [sget, hj, if_false, this]

/-- A read after a write: the written key shows the value, and every other key what it showed. -/
theorem sget_sset (m : Sparse α) (k k' : Nat) (v : α) (h : swf d m = true) :
    sget d (sset d m k v) k' = if k' = k then v else sget d m k' := sget_sset_from d m k k' v none h

theorem swfFrom_filter (m : Sparse α) (p : Nat × α → Bool) (lo : Option Nat) (h : swfFrom d lo m = true) :
    swfFrom d lo (m.filter p) = true := by
  induction m generalizing lo with
  | nil => rfl
  | cons x m ih =>
    obtain ⟨j, w⟩ := x
    simp only [swfFrom, Bool.and_eq_true] at h
    by_cases hp : p (j, w) = true
    · simp only [List.filter_cons, hp, if_true, swfFrom, Bool.and_eq_true]
      exact ⟨h.1, ih _ h.2⟩
    · simp only [List.filter_cons, hp]
      have := ih _ h.2
      cases lo with
      | none => exact swfFrom_none d this
      | some i =>
        have h1 := h.1.1
        simp only [decide_eq_true_eq] at h1
        exact swfFrom_weaken d this (by omega)

/-- Dropping entries keeps the canonical form. -/
theorem filter_keeps (m : Sparse α) (p : Nat × α → Bool) (h : swf d m = true) : swf d (m.filter p) = true :=
  swfFrom_filter d m p none h

/-- Folding writes keeps the canonical form. -/
theorem sset_fold_keeps {β : Type} (l : List β) (k : β → Nat) (v : β → α) (m : Sparse α) (h : swf d m = true) :
    swf d (l.foldl (fun m x => sset d m (k x) (v x)) m) = true := by
  induction l generalizing m with
  | nil => exact h
  | cons x l ih => exact ih _ (sset_keeps d m _ _ h)

/-- A byte outside folded writes keeps its value. -/
theorem sget_sset_fold_other {β : Type} (l : List β) (k : β → Nat) (v : β → α) (m : Sparse α) (h : swf d m = true) (j : Nat)
    (hj : ∀ x ∈ l, k x ≠ j) : sget d (l.foldl (fun m x => sset d m (k x) (v x)) m) j = sget d m j := by
  induction l generalizing m with
  | nil => rfl
  | cons x l ih =>
    rw [List.foldl_cons, ih _ (sset_keeps d m _ _ h) fun y hy => hj y (List.mem_cons_of_mem _ hy), sget_sset d m _ _ _ h,
      if_neg (fun e => hj x (List.mem_cons_self ..) e.symm)]

/-- A byte that one of folded writes to distinct keys covers has the value written. -/
theorem sget_sset_fold_same {β : Type} (l : List β) (k : β → Nat) (v : β → α) (m : Sparse α) (h : swf d m = true)
    (hd : (l.map k).Nodup) (x : β) (hx : x ∈ l) : sget d (l.foldl (fun m x => sset d m (k x) (v x)) m) (k x) = v x := by
  induction l generalizing m with
  | nil => cases hx
  | cons y l ih =>
    rw [List.map_cons, List.nodup_cons] at hd
    rw [List.foldl_cons]
    rcases List.mem_cons.mp hx with rfl | hx
    · rw [sget_sset_fold_other d l k v _ (sset_keeps d m _ _ h), sget_sset d m _ _ _ h, if_pos rfl]
      intro z hz e
      exact hd.1 (e ▸ List.mem_map_of_mem hz)
    · exact ih _ (sset_keeps d m _ _ h) hd.2 hx

end Sparse

/-- A run of bytes keeps the canonical form. -/
theorem setBytes_keeps (m : Sparse Byte) (k : Nat) (bs : List Byte) (h : swf 0 m = true) : swf 0 (setBytes m k bs) = true := by
  induction bs generalizing m k with
  | nil => exact h
  | cons b bs ih => exact ih _ _ (sset_keeps 0 m k b h)

/-- A byte after a run of bytes has been written. -/
theorem sget_setBytes (m : Sparse Byte) (k : Nat) (bs : List Byte) (h : swf 0 m = true) (j : Nat) :
    sget 0 (setBytes m k bs) j = if k ≤ j ∧ j < k + bs.length then (bs[j - k]?).getD 0 else sget 0 m j := by
  induction bs generalizing m k with
  | nil => simp [setBytes]
  | cons b bs ih =>
    rw [setBytes, ih _ _ (sset_keeps 0 m k b h), sget_sset 0 m k j b h]
    by_cases hj : j = k
    · subst hj; simp
    · by_cases hin : k + 1 ≤ j ∧ j < k + 1 + bs.length
      · have h2 : k ≤ j ∧ j < k + (b :: bs).length := ⟨by omega, by simp only [List.length_cons]; omega⟩
        rw [if_pos hin, if_pos h2]
        have e : j - k = (j - (k + 1)) + 1 := by omega
        rw [e, List.getElem?_cons_succ]
      · have h2 : ¬(k ≤ j ∧ j < k + (b :: bs).length) := by simp only [List.length_cons]; omega
        rw [if_neg hin, if_neg h2, if_neg hj]

/-- Reading a run back gives the run. -/
theorem getBytes_setBytes (m : Sparse Byte) (k : Nat) (bs : List Byte) (h : swf 0 m = true) :
    getBytes (setBytes m k bs) k bs.length = bs := by
  apply List.ext_getElem (by simp [getBytes])
  intro i h1 h2
  simp only [getBytes, List.getElem_map, List.getElem_range, sget_setBytes m k bs h]
  have e : k ≤ k + i ∧ k + i < k + bs.length := by omega
  rw [if_pos e]
  simp [h2]


/-- What an operation of the memory system may change, and that it keeps the canonical form. -/
structure MemStep (s t : State) : Prop where
  kept : { t with
    calends := s.calends, clocks := s.clocks, stamps := s.stamps, warps := s.warps, contexts := s.contexts
    unarrived := s.unarrived, past := s.past, moments := s.moments, readers := s.readers, nextWrite := s.nextWrite
    poisoned := s.poisoned, rewritten := s.rewritten, hbm := s.hbm
    host := s.host, store := s.store, stashLines := s.stashLines, l1 := s.l1, writes := s.writes, acks := s.acks
    probes := s.probes, nearBanks := s.nearBanks } = s
  canonical : s.Canonical → t.Canonical

theorem MemStep.refl (s : State) : MemStep s s := ⟨rfl, id⟩

theorem MemStep.trans {s t u : State} (h : MemStep s t) (g : MemStep t u) : MemStep s u := by
  refine ⟨?_, fun c => g.canonical (h.canonical c)⟩
  have h1 := h.kept
  rw [← g.kept] at h1
  exact h1

/-- A step of the memory system leaves every race with a near-memory call as it was (R268). -/
theorem MemStep.racedCall {s t : State} (h : MemStep s t) (core phys : Nat) : t.racedCall? core phys = s.racedCall? core phys := by
  have hc : t.calls = s.calls := by have := congrArg State.calls h.kept; exact this
  have hw : t.windows = s.windows := by have := congrArg State.windows h.kept; exact this
  unfold State.racedCall?
  rw [hc, hw]

theorem MemStep.fold {β : Type} {s t : State} (l : List β) (F : State → β → State) (h : MemStep s t)
    (g : ∀ u x, MemStep u (F u x)) : MemStep s (foldState t l F) := by
  induction l generalizing t with
  | nil => exact h
  | cons x l ih => exact ih (h.trans (g t x))

theorem foldState_mem {β : Type} (s : State) (l : List β) (F : State → β → State) (g : ∀ u x, MemStep u (F u x)) :
    MemStep s (foldState s l F) := (MemStep.refl s).fold l F g

theorem ite_mem {s t u : State} (c : Prop) [Decidable c] (h : MemStep s t) (g : MemStep s u) : MemStep s (if c then t else u) := by
  split <;> assumption

/-- A step that changes no stored byte keeps the canonical form. -/
theorem canonical_of_eq {s t : State} (h1 : t.hbm = s.hbm) (h2 : t.host = s.host) (h3 : t.store = s.store)
    (h4 : t.tiles = s.tiles) (h : s.Canonical) : t.Canonical :=
  ⟨h1 ▸ h.hbm, h2 ▸ h.host, h3 ▸ h.store, h4 ▸ h.tiles⟩

theorem setClock_mem (s : State) (d : Nat) (c : List Nat) : MemStep s (s.setClock d c) :=
  ⟨rfl, canonical_of_eq rfl rfl rfl rfl⟩

theorem onReader_mem (s : State) (id : WarpId) (f : Reader → Reader) : MemStep s (s.onReader id f) :=
  ⟨rfl, canonical_of_eq rfl rfl rfl rfl⟩

theorem raiseFloors_mem (s : State) (p : Reader → Bool) (phys : List Nat) : MemStep s (s.raiseFloors p phys) :=
  ⟨rfl, canonical_of_eq rfl rfl rfl rfl⟩

theorem newMoment_mem (s : State) (dies phys : List Nat) : MemStep s (s.newMoment dies phys) :=
  ⟨rfl, canonical_of_eq rfl rfl rfl rfl⟩

/-- What a warp learns (R233). -/
theorem learn_mem (s : State) (id : WarpId) (ids : List Nat) : MemStep s (s.learn id ids) := by
  unfold State.learn
  extract_lets matter
  exact ite_mem _ (MemStep.refl s) (onReader_mem ..)

theorem onWarp_mem (s : State) (id : WarpId) (f : Warp → Warp) : MemStep s (s.onWarp id f) :=
  ⟨rfl, canonical_of_eq rfl rfl rfl rfl⟩

theorem tickClock_mem (s : State) (d : Nat) : MemStep s (s.tickClock d) := setClock_mem ..

theorem reachBank_mem (s : State) (sure : Bool) (phys : Nat) : MemStep s (s.reachBank sure phys) :=
  ⟨rfl, canonical_of_eq rfl rfl rfl rfl⟩

theorem refreshStash_mem (s : State) (die : Nat) (phys : List Nat) : MemStep s (s.refreshStash die phys) :=
  ⟨rfl, canonical_of_eq rfl rfl rfl rfl⟩

theorem logUndo_mem (s : State) (ctx line : Nat) : MemStep s (s.logUndo ctx line) := by
  unfold State.logUndo
  split
  · exact MemStep.refl s
  · exact ite_mem _ (MemStep.refl s) ⟨rfl, canonical_of_eq rfl rfl rfl rfl⟩

/-- Writes that arrive on a die (R232). -/
theorem arriveOn_mem (s : State) (die : Nat) (p : Unarrived → Bool) : MemStep s (s.arriveOn die p) := by
  unfold State.arriveOn
  extract_lets here seqs gone s1 s2 s3 s4
  refine ite_mem _ (MemStep.refl s) ?_
  have h2 : MemStep s s2 := (newMoment_mem ..).trans (foldState_mem _ _ _ fun _ _ => setClock_mem ..)
  have h3 : MemStep s2 s3 := ⟨rfl, canonical_of_eq rfl rfl rfl rfl⟩
  exact ((h2.trans h3).trans (raiseFloors_mem ..)).trans (refreshStash_mem ..)

theorem arriveAll_mem (s : State) (p : Nat → Bool) : MemStep s (s.arriveAll p) := foldState_mem _ _ _ fun _ _ => arriveOn_mem ..

theorem obtain_mem (s : State) (die phys : Nat) : MemStep s (s.obtain die phys) := by
  unfold State.obtain
  split
  · exact MemStep.refl s
  · exact ⟨rfl, canonical_of_eq rfl rfl rfl rfl⟩

/-- A write that is yet to arrive on the other dies (R232, R233). -/
theorem spread_mem (s : State) (h die : Nat) (stamp : List Nat) (tag : WriteTag) (cells : List (Nat × Byte)) :
    MemStep s (s.spread h die stamp tag cells) := by
  unfold State.spread
  extract_lets first s1 goesOn id late
  exact (foldState_mem _ _ _ fun _ _ => arriveOn_mem ..).trans ⟨rfl, canonical_of_eq rfl rfl rfl rfl⟩

/-- Poison that goes (R66). -/
theorem heal_mem (s : State) (group : Option Nat) (cells : List (Nat × Byte)) : MemStep s (s.heal group cells) := by
  unfold State.heal
  refine foldState_mem _ _ _ fun u l => ?_
  dsimp only
  refine ite_mem _ ⟨rfl, canonical_of_eq rfl rfl rfl rfl⟩ ?_
  cases group with
  | none => exact MemStep.refl u
  | some g => exact ⟨rfl, canonical_of_eq rfl rfl rfl rfl⟩

theorem breakWatches_mem (s : State) (lines : List Nat) : MemStep s (s.breakWatches lines) :=
  ⟨rfl, canonical_of_eq rfl rfl rfl rfl⟩

/-- Bytes of HBM stored at their home keep the canonical form. -/
theorem putHbm_mem (s : State) (n : Nat) (cells : List (Nat × Byte)) :
    MemStep s { s with nextWrite := n, hbm := cells.foldl (fun m c => sset 0 m c.1 c.2) s.hbm } :=
  ⟨rfl, fun c => ⟨sset_fold_keeps 0 _ (fun x : Nat × Byte => x.1) (fun x => x.2) _ c.hbm, c.host, c.store, c.tiles⟩⟩

/-- Bytes of HBM written at their home (R229, R232, R234). -/
theorem writeHome_mem (s : State) (h die : Nat) (ctx : Option Nat) (memside repl : Bool) (stamp : List Nat) (tag : WriteTag)
    (cells : List (Nat × Byte)) : MemStep s (s.writeHome h die ctx memside repl stamp tag cells) := by
  unfold State.writeHome
  extract_lets lines s1 s2 s3 s4 s5 s6
  refine ite_mem _ (MemStep.refl s) ?_
  have h1 : MemStep s s1 := by
    show MemStep s (match ctx with | none => s | some c => foldState s lines fun s l => s.logUndo c l)
    split
    · exact MemStep.refl s
    · exact foldState_mem _ _ _ fun u x => logUndo_mem ..
  have h2 : MemStep s1 s2 := ite_mem _ (MemStep.refl _) (setClock_mem ..)
  have h3 : MemStep s2 s3 := ite_mem _ ⟨rfl, canonical_of_eq rfl rfl rfl rfl⟩ (MemStep.refl _)
  have h4 : MemStep s3 s4 := ite_mem _ (newMoment_mem ..) ((spread_mem ..).trans (newMoment_mem ..))
  have h5 : MemStep s4 s5 := (breakWatches_mem ..).trans (heal_mem ..)
  have h6 : MemStep s5 s6 := putHbm_mem ..
  have k : MemStep s s6 := ((((h1.trans h2).trans h3).trans h4).trans h5).trans h6
  clear_value s6
  exact ite_mem _ k (k.fold _ _ fun _ _ => refreshStash_mem ..)

theorem stampFor_mem (s : State) (die : Nat) (repl : Bool) (phys : List Nat) (tag : WriteTag) :
    MemStep s (s.stampFor die repl phys tag).1 := by
  unfold State.stampFor
  split
  · exact MemStep.refl s
  · split
    · exact tickClock_mem ..
    · exact MemStep.refl s

/-- A write of HBM at the home of each of its bytes (R229). -/
theorem storeHome_mem (s : State) (die : Nat) (ctx : Option Nat) (memside repl : Bool) (cells : List (Nat × Byte))
    (tag : WriteTag) : MemStep s (s.storeHome die ctx memside repl cells tag) := by
  unfold State.storeHome
  extract_lets r s1
  have h1 : MemStep s s1 := (stampFor_mem ..).trans (foldState_mem _ _ _ fun _ _ => reachBank_mem ..)
  exact h1.fold _ _ fun _ _ => writeHome_mem ..

theorem writes_mem (s : State) (w : List PendingWrite) : MemStep s { s with writes := w } :=
  ⟨rfl, canonical_of_eq rfl rfl rfl rfl⟩

theorem stashLines_mem (s : State) (l : List StashLine) : MemStep s { s with stashLines := l } :=
  ⟨rfl, canonical_of_eq rfl rfl rfl rfl⟩

theorem l1_mem (s : State) (l : List L1Line) : MemStep s { s with l1 := l } := ⟨rfl, canonical_of_eq rfl rfl rfl rfl⟩

theorem stashWriteBack_mem (s : State) (l : StashLine) : MemStep s (s.stashWriteBack l) :=
  (storeHome_mem ..).trans (raiseFloors_mem ..)

theorem evictStash_mem (s : State) (line : Nat) (p : StashLine → Bool) : MemStep s (s.evictStash line p) := by
  unfold State.evictStash
  exact (foldState_mem _ _ _ fun _ _ => stashWriteBack_mem ..).trans (stashLines_mem ..)

theorem stashClean_mem (s : State) (p : StashLine → Bool) : MemStep s (s.stashClean p) := by
  unfold State.stashClean
  extract_lets hit s1
  exact ite_mem _ (MemStep.refl s) ((foldState_mem _ _ _ fun _ _ => stashWriteBack_mem ..).trans (stashLines_mem ..))

theorem performHbm_mem (s : State) (die : Nat) (ctx : Option Nat) (memside repl : Bool) (cells : List (Nat × Byte))
    (tag : WriteTag) : MemStep s (s.performHbm die ctx memside repl cells tag) := by
  unfold State.performHbm
  exact (ite_mem _ (MemStep.refl s) (foldState_mem _ _ _ fun _ _ => evictStash_mem ..)).trans (storeHome_mem ..)

theorem put_mem (u : State) (c : Place × Byte) : MemStep u (match c.1 with
    | .store k o => { u with store := sset 0 u.store (k * Config.storeSpan + o) c.2 }
    | .host .. => { u with host := sset 0 u.host c.1.key.2 c.2 }
    | .regWin .. => u
    | .hbm .. => u) := by
  obtain ⟨p, b⟩ := c
  cases p with
  | store => exact ⟨rfl, fun h => ⟨h.hbm, h.host, sset_keeps 0 _ _ _ h.store, h.tiles⟩⟩
  | regWin => exact MemStep.refl u
  | host => exact ⟨rfl, fun h => ⟨h.hbm, sset_keeps 0 _ _ _ h.host, h.store, h.tiles⟩⟩
  | hbm => exact MemStep.refl u

theorem putRegions_mem (s : State) (core : Nat) (cells : List (Place × Byte)) : MemStep s (s.putRegions core cells) :=
  foldState_mem _ _ _ fun _ _ => onWarp_mem ..

/-- Bytes performed at their places (R229). -/
theorem performBytes_mem (s : State) (core ctx : Nat) (multicast : Bool) (cells : List (Place × Byte)) (tag : WriteTag) :
    MemStep s (s.performBytes core ctx multicast cells tag) := by
  unfold State.performBytes
  extract_lets Z s1 s2 pick die put
  have h2 : MemStep s s2 := (foldState_mem _ _ _ put_mem).trans (putRegions_mem ..)
  have hp : ∀ u ms rp, MemStep u (put u ms rp) := by
    intro u ms rp
    show MemStep u (let bs := pick ms rp; if bs = [] then u else _)
    extract_lets bs r
    refine ite_mem _ (MemStep.refl u) ?_
    exact ite_mem _ ((stampFor_mem ..).trans (foldState_mem _ _ _ fun _ _ => performHbm_mem ..)) (performHbm_mem ..)
  exact (((h2.trans (hp ..)).trans (hp ..)).trans (hp ..)).trans (hp ..)

theorem settleAcks_mem (s : State) (core : Nat) : MemStep s (s.settleAcks core) := ⟨rfl, canonical_of_eq rfl rfl rfl rfl⟩

theorem expose_mem (s : State) (id : WarpId) (rank n : Nat) : MemStep s (s.expose id rank n) := writes_mem ..

theorem dropL1_mem (s : State) (core ctx line : Nat) : MemStep s (s.dropL1 core ctx line) := l1_mem ..

theorem readHome_mem (s : State) (die : Nat) (p : Place) : MemStep s (s.readHome die p) := by
  cases p with
  | hbm phys attr => exact ite_mem _ (MemStep.refl s) (obtain_mem ..)
  | store => exact MemStep.refl s
  | regWin => exact MemStep.refl s
  | host => exact MemStep.refl s

theorem reachLine_mem (s : State) (p : Place) : MemStep s (s.reachLine p) := by
  cases p with
  | hbm phys attr => exact reachBank_mem ..
  | store => exact MemStep.refl s
  | regWin => exact MemStep.refl s
  | host => exact MemStep.refl s

/-- An atomic at its place (R249, R395). -/
theorem rmw_mem (s : State) (id : WarpId) (ctx : Nat) (r : Rmw) (places : List Place) (tag : WriteTag) :
    MemStep s (s.rmw id ctx r places tag).1 := by
  unfold State.rmw
  extract_lets core n s1 s2 elem shadow read put done old b f x y
  have h1 : MemStep s s1 := foldState_mem _ _ _ fun _ _ => (evictStash_mem ..).trans (dropL1_mem ..)
  have h2 : MemStep s s2 := h1.fold _ _ fun _ _ => ((readHome_mem ..).trans (learn_mem ..)).trans (reachLine_mem ..)
  have hp : ∀ u ps bs, MemStep u (put u ps bs) := fun u ps bs => performBytes_mem ..
  have hd : ∀ u, MemStep u (done u) := fun u => raiseFloors_mem ..
  split
  · split
    · split
      · exact (h2.trans (hp ..)).trans (hd _)
      · exact h2.trans (hd _)
    · exact (h2.trans (hp ..)).trans (hd _)
  · exact ((h2.trans (hp ..)).trans (hp ..)).trans (hd _)

/-- What a performed write of a warp leaves its readers (R229, R233). -/
theorem madeWrite_mem (s : State) (id : WarpId) (ctx n : Nat) (places : List Place) : MemStep s (s.madeWrite id ctx n places) :=
  ⟨rfl, canonical_of_eq rfl rfl rfl rfl⟩

/-- A pending write performed (R230). -/
theorem perform_mem (s : State) (p : PendingWrite) : MemStep s (s.perform p) := by
  unfold State.perform
  extract_lets s1 s2 s3 tag s4
  have h3 : MemStep s s3 := ((writes_mem s _).trans (foldState_mem _ _ _ fun _ _ => expose_mem ..)).trans
    (ite_mem _ (settleAcks_mem ..) (MemStep.refl _))
  have h4 : MemStep s3 s4 := by
    show MemStep s3 (match p.rmw with
      | some r => (s3.rmw p.warp p.ctx r p.places tag).1
      | none => s3.performBytes p.core p.ctx p.multicast (p.places.zip p.bytes) tag)
    split
    · exact rmw_mem ..
    · exact performBytes_mem ..
  exact (h3.trans h4).trans (madeWrite_mem ..)

/-- Pending writes performed, each with those before it (R225, R229, R233). -/
theorem drain_mem (s : State) (p : PendingWrite → Bool) : MemStep s (s.drain p) := foldState_mem _ _ _ fun _ _ => perform_mem ..

theorem drainOver_mem (s : State) (core : Nat) (places : List Place) (p : PendingWrite → Bool) :
    MemStep s (s.drainOver core places p) := drain_mem ..

theorem drainWarp_mem (s : State) (id : WarpId) : MemStep s (s.drainWarp id) := drain_mem ..

/-- What precedes a release (R225). -/
theorem releaseUpTo_mem (s : State) (id : WarpId) (rank n : Nat) : MemStep s (s.releaseUpTo id rank n) := by
  unfold State.releaseUpTo
  extract_lets s1
  have h : MemStep s s1 := ite_mem _ (MemStep.refl s) (settleAcks_mem ..)
  exact h.trans (ite_mem _ (expose_mem ..) (drain_mem ..))

theorem releaseFor_mem (s : State) (id : WarpId) (needs : Sparse Nat) : MemStep s (s.releaseFor id needs) := by
  unfold State.releaseFor
  extract_lets s1
  exact (foldState_mem _ _ _ fun _ _ => releaseUpTo_mem ..).trans (drain_mem ..)

/-- What comes before an access at the L2 (R214, R229). -/
theorem l2Access_mem (s : State) (core line : Nat) (p : PendingWrite → Bool) : MemStep s (s.l2Access core line p) := by
  unfold State.l2Access
  extract_lets die s1 n s2
  have h1 : MemStep s s1 := (drainOver_mem ..).trans (reachBank_mem ..)
  have h2 : MemStep s s2 := h1.fold _ _ fun _ _ => stashClean_mem ..
  exact h2.trans (arriveOn_mem ..)

theorem l1Room_mem (s : State) (core ctx line : Nat) : MemStep s (s.l1Room core ctx line) := by
  unfold State.l1Room
  extract_lets mine excess k gone
  exact ite_mem _ (MemStep.refl s) (l1_mem ..)

theorem fillL1_mem (s : State) (core ctx line : Nat) (vas : List Nat) (moment : Option Nat) :
    MemStep s (s.fillL1 core ctx line vas moment) := by
  unfold State.fillL1
  extract_lets die s1 m bytes old l s2
  have h : MemStep s s2 := (l2Access_mem ..).trans (l1Room_mem ..)
  exact h.trans (l1_mem ..)

theorem invalidateL1_mem (s : State) (core ctx : Nat) : MemStep s (s.invalidateL1 core ctx) := by
  unfold State.invalidateL1
  exact (l1_mem s _).fold _ _ fun _ _ => fillL1_mem ..

theorem acquireL1_mem (s : State) (core ctx : Nat) (sc : Scope) : MemStep s (s.acquireL1 core ctx sc) := by
  unfold State.acquireL1
  exact ite_mem _ (invalidateL1_mem ..) (MemStep.refl _)

/-- What an acquire tells its warp (R224, R227, R233). -/
theorem acquired_mem (s : State) (id : WarpId) (m : Mask) (sc : Scope) : MemStep s (s.acquired id m sc) := by
  unfold State.acquired
  extract_lets ids
  exact (onReader_mem ..).trans (learn_mem ..)

theorem acquire_mem (s : State) (id : WarpId) (ctx : Nat) (m : Mask) (sc : Scope) : MemStep s (s.acquire id ctx m sc) := by
  unfold State.acquire
  extract_lets s1
  exact ((ite_mem _ (arriveAll_mem ..) (MemStep.refl _) : MemStep s s1).trans (acquireL1_mem ..)).trans (acquired_mem ..)

theorem directoryRoom_mem (s : State) (die line : Nat) : MemStep s (s.directoryRoom die line) := by
  unfold State.directoryRoom
  extract_lets regions
  refine ite_mem _ (MemStep.refl s) ?_
  split
  · exact foldState_mem _ _ _ fun _ _ => evictStash_mem ..
  · exact MemStep.refl s

theorem touchStash_mem (s : State) (core ctx a phys : Nat) : MemStep s (s.touchStash core ctx a phys) := by
  unfold State.touchStash
  extract_lets line die s1 s2 l
  have h1 : MemStep s s1 := (drainOver_mem ..).trans (dropL1_mem ..)
  have h2 : MemStep s1 s2 := (l2Access_mem ..).trans (directoryRoom_mem ..)
  exact h1.trans (ite_mem _ (arriveOn_mem ..) (h2.trans (stashLines_mem s2 _)))

theorem reachL1_mem (s : State) (core ctx line va : Nat) : MemStep s (s.reachL1 core ctx line va) := l1_mem ..

/-- A byte read for a load (Table 15.2). -/
theorem loadByte_mem (s : State) (who : Issuer) (at_ : LoadAt) (fresh : Bool) (a : Nat) (p : Place) (moment : Option Nat) :
    MemStep s (s.loadByte who at_ fresh a p moment).1 := by
  unfold State.loadByte
  extract_lets core die
  cases p with
  | store k o => exact MemStep.refl s
  | regWin slot o => exact MemStep.refl s
  | host port x => exact drainOver_mem ..
  | hbm phys attr =>
    dsimp only
    split
    · exact ((drainOver_mem ..).trans (reachBank_mem ..)).trans (dropL1_mem ..)
    · split
      · have h := touchStash_mem s core who.ctx a phys
        split <;> exact h
      · cases at_ with
        | l1 =>
          dsimp only
          have h : ∀ (u : State) (c : Prop) [Decidable c] (va : Nat) (vas : List Nat), MemStep s u → MemStep s
              (if c then u.reachL1 core who.ctx (lineOf phys) va else u.fillL1 core who.ctx (lineOf phys) vas moment) :=
            fun u c _ va vas g => ite_mem c (g.trans (reachL1_mem ..)) (g.trans (fillL1_mem ..))
          split <;> exact h _ _ _ _ (drainOver_mem ..)
        | l2 => exact (l2Access_mem ..).trans (ite_mem _ (fillL1_mem ..) (MemStep.refl _))
        | home => exact (l2Access_mem ..).trans (obtain_mem ..)

theorem foldl_pair_mem {β γ : Type} (l : List β) (F : State × γ → β → State × γ) (h : ∀ x y, MemStep x.1 (F x y).1)
    (x : State × γ) : MemStep x.1 (l.foldl F x).1 := by
  induction l generalizing x with
  | nil => exact MemStep.refl _
  | cons y l ih => exact (h x y).trans (ih _)

theorem loadBytes_mem (s : State) (who : Issuer) (at_ : LoadAt) (fresh : Bool) (a : Nat) (places : List Place) :
    MemStep s (s.loadBytes who at_ fresh a places).1 :=
  foldl_pair_mem (γ := Option (List Byte)) _ _ (fun _ _ => loadByte_mem ..) (s, some [])

theorem updateL1_mem (s : State) (core ctx group : Nat) (cells : List (Place × Byte)) :
    MemStep s (s.updateL1 core ctx group cells) := l1_mem ..

theorem storeStash_mem (s : State) (id : WarpId) (ctx a phys group : Nat) (rel : Bool) (cells : List (Nat × Byte)) :
    MemStep s (s.storeStash id ctx a phys group rel cells) := by
  unfold State.storeStash
  extract_lets core s1 line probed s2 store
  have h : MemStep s s2 := (touchStash_mem ..).trans (evictStash_mem ..)
  exact h.trans ⟨rfl, canonical_of_eq rfl rfl rfl rfl⟩

theorem addWrite_mem (s : State) (e : Entry) (places : List Place) (bytes : List Byte) (multicast : Bool) (r : Option Rmw) :
    MemStep s (s.addWrite e places bytes multicast r) := ⟨rfl, canonical_of_eq rfl rfl rfl rfl⟩

theorem addHostWrite_mem (s : State) (e : Entry) (cells : List (Place × Byte)) : MemStep s (s.addHostWrite e cells) := by
  unfold State.addHostWrite
  refine foldState_mem _ _ _ fun u l => ?_
  dsimp only
  split
  · exact addWrite_mem ..
  · exact ite_mem _ (writes_mem ..) (ite_mem _ ⟨rfl, canonical_of_eq rfl rfl rfl rfl⟩ (addWrite_mem ..))

theorem addHbmWrites_mem (s : State) (e : Entry) (st : BufStore) (cells : List (Place × Byte)) :
    MemStep s (s.addHbmWrites e st cells) := by
  unfold State.addHbmWrites
  extract_lets core s1 s2
  refine ite_mem _ (MemStep.refl s) ?_
  have h2 : MemStep s s2 := (updateL1_mem ..).trans (foldState_mem _ _ _ fun _ _ => dropL1_mem ..)
  exact h2.fold _ _ fun _ _ => addWrite_mem ..

/-- A store of a committed block (R151). -/
theorem enterStore_mem (s : State) (e : Entry) (st : BufStore) : MemStep s (s.enterStore e st) := by
  unfold State.enterStore
  extract_lets id ctx cells tagged onCore inStash s1 s2 s3 s4 rest
  have h1 : MemStep s s1 := ite_mem _ (MemStep.refl s) (releaseFor_mem ..)
  have h2 : MemStep s1 s2 := performBytes_mem ..
  have h3 : MemStep s2 s3 := foldState_mem _ _ _ fun _ _ => storeStash_mem ..
  have h4 : MemStep s3 s4 := addHostWrite_mem ..
  exact (((h1.trans h2).trans h3).trans h4).trans (addHbmWrites_mem ..)

/-- An atomic after what its releases ask for (R225, R397). -/
theorem rmwAfter_mem (s : State) (who : Issuer) (r : Rmw) (places : List Place) (needs : Sparse Nat) :
    MemStep s (s.rmwAfter who r places needs).1 := by
  unfold State.rmwAfter
  extract_lets o s1
  split
  · exact rmw_mem ..
  · exact (releaseFor_mem ..).trans (rmw_mem ..)

/-- A write that an instruction makes at once (R225, R226, R229). -/
theorem ownWrite_mem (s : State) (id : WarpId) (ctx : Nat) (needs : Sparse Nat) (rmw : Bool) (cells : List (Place × Byte)) :
    MemStep s (s.ownWrite id ctx needs rmw cells) := by
  unfold State.ownWrite
  extract_lets s1 s2
  have h2 : MemStep s s2 := (releaseFor_mem ..).trans (performBytes_mem ..)
  exact h2.trans (raiseFloors_mem ..)

/-- An atomic of a committed block (R394). -/
theorem enterRmw_mem (s : State) (e : Entry) (r : Rmw) (places : List Place) : MemStep s (s.enterRmw e r places) := by
  unfold State.enterRmw
  exact ite_mem _ (rmwAfter_mem ..) ((foldState_mem _ _ _ fun _ _ => dropL1_mem ..).trans (addWrite_mem ..))

theorem writeNow_mem (s : State) (who : Issuer) (places : List Place) (bytes : List Byte) (tag : WriteTag) :
    MemStep s (s.writeNow who places bytes tag) := by
  unfold State.writeNow
  exact ((drainOver_mem ..).trans (performBytes_mem ..)).fold _ _ fun _ _ => dropL1_mem ..

theorem writeHost_mem (s : State) (port : Bool) (a : Nat) (bytes : List Byte) : MemStep s (s.writeHost port a bytes) :=
  ⟨rfl, fun h => ⟨h.hbm, setBytes_keeps _ _ _ h.host, h.store, h.tiles⟩⟩

/-- The device's own writes (R472). -/
theorem devWrite_mem (s : State) (ctx die : Nat) (va : W64) (bytes : List Byte) (tag : WriteTag) :
    MemStep s (s.devWrite ctx die va bytes tag) := by
  unfold State.devWrite
  split
  · exact performBytes_mem ..
  · exact MemStep.refl s

theorem logUndoHost_mem (s : State) (c : Context) (die : Nat) (port : Bool) (line : Nat) :
    MemStep s (s.logUndoHost c die port line) := by
  unfold State.logUndoHost
  extract_lets kept old u
  exact ite_mem _ (MemStep.refl s) ⟨rfl, canonical_of_eq rfl rfl rfl rfl⟩

/-- Device fields of the save area (R187). -/
theorem writeSave_mem (s : State) (ctx off : Nat) (bytes : List Byte) : MemStep s (s.writeSave ctx off bytes) := by
  unfold State.writeSave
  split
  · exact MemStep.refl s
  · split
    · exact (foldState_mem _ _ _ fun _ _ => logUndoHost_mem ..).trans (performBytes_mem ..)
    · exact MemStep.refl s

/-- An atomic that returns its old value (R249, R395). -/
theorem atomicAt_mem (s : State) (who : Issuer) (r : Rmw) (places : List Place) (needs : Sparse Nat) :
    MemStep s (s.atomicAt who r places needs).1 := by
  unfold State.atomicAt
  exact (drainOver_mem ..).trans (rmwAfter_mem ..)

/-- The canonical form, entry by entry. -/
theorem swf_iff {α : Type} [DecidableEq α] (d : α) (m : Sparse α) :
    swf d m = true ↔ m.Pairwise (fun a b => a.1 < b.1) ∧ ∀ x ∈ m, x.2 ≠ d := by
  have key : ∀ (m : Sparse α) (lo : Option Nat), swfFrom d lo m = true ↔
      (∀ j, lo = some j → ∀ x ∈ m, j < x.1) ∧ m.Pairwise (fun a b => a.1 < b.1) ∧ ∀ x ∈ m, x.2 ≠ d := by
    intro m
    induction m with
    | nil => intro lo; simp [swfFrom]
    | cons x m ih =>
      intro lo
      obtain ⟨j, w⟩ := x
      simp only [swfFrom, Bool.and_eq_true, ih, List.pairwise_cons, List.mem_cons]
      constructor
      · rintro ⟨⟨h1, h2⟩, h3, h4, h5⟩
        have h2 : w ≠ d := by simpa using h2
        refine ⟨?_, ⟨fun y hy => h3 j rfl y hy, h4⟩, ?_⟩
        · rintro k rfl y (rfl | hy)
          · simpa using h1
          · have := h3 j rfl y hy
            have : k < j := by simpa using h1
            omega
        · rintro y (rfl | hy)
          · exact h2
          · exact h5 y hy
      · rintro ⟨h1, ⟨h2, h3⟩, h4⟩
        refine ⟨⟨?_, ?_⟩, ?_, h3, fun y hy => h4 y (Or.inr hy)⟩
        · cases lo with
          | none => rfl
          | some k => simpa using h1 k rfl (j, w) (Or.inl rfl)
        · simpa using h4 (j, w) (Or.inl rfl)
        · rintro k hk y hy
          cases hk
          exact h2 y hy
  simpa [swf] using key m none

/-- A run written into a sparse memory keeps the canonical form. -/
theorem writeRun_keeps (m : Sparse Byte) (lo : Nat) (bs : List Byte) (h : swf 0 m = true) : swf 0 (writeRun m lo bs) = true := by
  have mid : ∀ (bs : List Byte) (n : Nat),
      let l := (bs.zipIdx n).filterMap fun b => if b.1 = 0 then none else some (lo + b.2, b.1)
      l.Pairwise (fun a b => a.1 < b.1) ∧ ∀ x ∈ l, x.2 ≠ 0 ∧ lo + n ≤ x.1 ∧ x.1 < lo + n + bs.length := by
    intro bs
    induction bs with
    | nil => intro n; simp
    | cons b bs ih =>
      intro n
      obtain ⟨h1, h2⟩ := ih (n + 1)
      have h2' : ∀ x ∈ (bs.zipIdx (n + 1)).filterMap fun b => if b.1 = 0 then none else some (lo + b.2, b.1),
          x.2 ≠ 0 ∧ lo + n ≤ x.1 ∧ x.1 < lo + n + (b :: bs).length := fun x hx => by
        have := h2 x hx
        simp only [List.length_cons]
        exact ⟨this.1, by omega, by omega⟩
      by_cases hb : b = 0
      · simp only [List.zipIdx_cons, List.filterMap_cons, hb, if_true]
        exact ⟨h1, by simpa [hb] using h2'⟩
      · simp only [List.zipIdx_cons, List.filterMap_cons, hb, if_false, List.pairwise_cons, List.mem_cons]
        refine ⟨⟨fun x hx => ?_, h1⟩, ?_⟩
        · have := h2 x hx
          show lo + n < x.1
          omega
        · rintro x (rfl | hx)
          · exact ⟨hb, by simp, by simp⟩
          · exact h2' x hx
  obtain ⟨h1, h2⟩ := (swf_iff 0 m).mp h
  obtain ⟨m1, m2⟩ := mid bs 0
  rw [swf_iff, writeRun]
  refine ⟨?_, ?_⟩
  · rw [List.pairwise_append, List.pairwise_append]
    refine ⟨⟨h1.filter _, m1, ?_⟩, h1.filter _, ?_⟩
    · intro a ha b hb
      have := (m2 b hb).2.1
      have := (List.mem_filter.mp ha).2
      simp only [decide_eq_true_eq] at this
      omega
    · intro a ha b hb
      have hb := (List.mem_filter.mp hb).2
      simp only [decide_eq_true_eq] at hb
      rcases List.mem_append.mp ha with ha | ha
      · have := (List.mem_filter.mp ha).2
        simp only [decide_eq_true_eq] at this
        omega
      · have := (m2 a ha).2.2
        omega
  · intro x hx
    rcases List.mem_append.mp hx with hx | hx
    · rcases List.mem_append.mp hx with hx | hx
      · exact h2 x (List.mem_filter.mp hx).1
      · exact (m2 x hx).1
    · exact h2 x (List.mem_filter.mp hx).1

/-- A tile register written keeps the canonical form (R438). -/
theorem setTile_canonical (s : State) (core tile : Nat) (bs : List Byte) (h : s.Canonical) : (s.setTile core tile bs).Canonical :=
  ⟨h.hbm, h.host, h.store, writeRun_keeps _ _ _ h.tiles⟩

/-- Freeing what a context holds keeps the canonical form (R98). -/
theorem freeChip_canonical (s : State) (ctx : Nat) (v : Saved) (h : s.Canonical) : (s.freeChip ctx v).Canonical := by
  have g := ((MemStep.refl s).fold (s.stashLines.filter fun l => l.ctx = ctx) (fun s l => s.stashWriteBack l)
    fun _ _ => stashWriteBack_mem ..).canonical h
  unfold State.freeChip
  exact ⟨g.hbm, g.host, filter_keeps 0 _ _ g.store, filter_keeps 0 _ _ g.tiles⟩

/-- The memory right after reset is in canonical form. -/
theorem reset_canonical : State.reset.Canonical := ⟨rfl, rfl, rfl, rfl⟩

theorem empty_stash (s : State) (hs : s.stashLines = []) : ({ s with stashLines := [] } : State) = s := by
  cases s
  dsimp only at hs
  subst hs
  rfl

/-- With no stash line, nothing is evicted. -/
theorem evict_fold_empty (ls : List Nat) (s : State) (p : Nat → StashLine → Bool) (hs : s.stashLines = []) :
    (foldState s ls fun s l => s.evictStash l (p l)) = s := by
  induction ls with
  | nil => rfl
  | cons x ls ih =>
    have e : s.evictStash x (p x) = s := by
      unfold State.evictStash
      simp only [hs, List.filter_nil, foldState, List.foldl_nil]
      exact empty_stash s hs
    show foldState (s.evictStash x (p x)) ls _ = s
    rw [e]
    exact ih

/-- A step that leaves HBM and empty stashes as they are. -/
structure Calm (s t : State) : Prop where
  hbm : t.hbm = s.hbm
  stash : s.stashLines = [] → t.stashLines = []

theorem Calm.refl (s : State) : Calm s s := ⟨rfl, id⟩

theorem Calm.trans {s t u : State} (h : Calm s t) (g : Calm t u) : Calm s u := ⟨g.hbm.trans h.hbm, fun e => g.stash (h.stash e)⟩

theorem foldState_calm {β : Type} (s : State) (l : List β) (F : State → β → State) (g : ∀ u x, Calm u (F u x)) :
    Calm s (foldState s l F) := by
  induction l generalizing s with
  | nil => exact Calm.refl s
  | cons x l ih => exact (g s x).trans (ih _)

theorem ite_calm {s t u : State} (c : Prop) [Decidable c] (h : Calm s t) (g : Calm s u) : Calm s (if c then t else u) := by
  split <;> assumption

theorem refreshStash_calm (s : State) (die : Nat) (phys : List Nat) : Calm s (s.refreshStash die phys) :=
  ⟨rfl, fun h => by simp [State.refreshStash, h, update]⟩

theorem arriveOn_calm (s : State) (die : Nat) (p : Unarrived → Bool) : Calm s (s.arriveOn die p) := by
  unfold State.arriveOn
  extract_lets here seqs gone s1 s2 s3 s4
  refine ite_calm _ (Calm.refl s) ?_
  have h1 : Calm s s1 := ⟨rfl, id⟩
  have h2 : Calm s1 s2 := foldState_calm _ _ _ fun _ _ => ⟨rfl, id⟩
  have h4 : Calm s2 s4 := ⟨rfl, id⟩
  exact ((h1.trans h2).trans h4).trans (refreshStash_calm ..)

theorem spread_calm (s : State) (h die : Nat) (stamp : List Nat) (tag : WriteTag) (cells : List (Nat × Byte)) :
    Calm s (s.spread h die stamp tag cells) := by
  unfold State.spread
  extract_lets first s1 goesOn id late
  exact (foldState_calm _ _ _ fun _ _ => arriveOn_calm ..).trans ⟨rfl, fun h => h⟩

theorem logUndo_calm (s : State) (ctx line : Nat) : Calm s (s.logUndo ctx line) := by
  unfold State.logUndo
  split
  · exact Calm.refl s
  · exact ite_calm _ (Calm.refl s) ⟨rfl, id⟩

theorem heal_calm (s : State) (group : Option Nat) (cells : List (Nat × Byte)) : Calm s (s.heal group cells) := by
  unfold State.heal
  refine foldState_calm _ _ _ fun u l => ?_
  dsimp only
  refine ite_calm _ ⟨rfl, id⟩ ?_
  cases group with
  | none => exact Calm.refl u
  | some g => exact ⟨rfl, id⟩

/-- Bytes of HBM after a write at their home. -/
theorem writeHome_hbm (s : State) (h die : Nat) (ctx : Option Nat) (memside repl : Bool) (stamp : List Nat) (tag : WriteTag)
    (cells : List (Nat × Byte)) :
    (s.writeHome h die ctx memside repl stamp tag cells).hbm = cells.foldl (fun m c => sset 0 m c.1 c.2) s.hbm ∧
      (s.stashLines = [] → (s.writeHome h die ctx memside repl stamp tag cells).stashLines = []) := by
  unfold State.writeHome
  extract_lets lines s1 s2 s3 s4 s5 s6
  split
  · rename_i hc
    exact ⟨by rw [hc]; rfl, id⟩
  have h1 : Calm s s1 := by
    show Calm s (match ctx with | none => s | some c => foldState s lines fun s l => s.logUndo c l)
    split
    · exact Calm.refl s
    · exact foldState_calm _ _ _ fun u x => logUndo_calm ..
  have h2 : Calm s1 s2 := ite_calm _ (Calm.refl _) ⟨rfl, id⟩
  have h3 : Calm s2 s3 := ite_calm _ ⟨rfl, id⟩ (Calm.refl _)
  have hm : ∀ u ds ps, Calm u (State.newMoment u ds ps) := fun _ _ _ => ⟨rfl, id⟩
  have h4 : Calm s3 s4 := ite_calm _ (hm ..) ((spread_calm ..).trans (hm ..))
  have hb : Calm s4 (s4.breakWatches lines) := ⟨rfl, id⟩
  have h5 : Calm s4 s5 := hb.trans (heal_calm ..)
  have k := (((h1.trans h2).trans h3).trans h4).trans h5
  have e6 : s6.hbm = cells.foldl (fun m c => sset 0 m c.1 c.2) s.hbm := by
    show cells.foldl (fun m c => sset 0 m c.1 c.2) s5.hbm = _
    rw [k.hbm]
  have g6 : s.stashLines = [] → s6.stashLines = [] := k.stash
  clear_value s6
  split
  · exact ⟨e6, g6⟩
  · have g := foldState_calm s6 (dedup [h, die]) (fun s d => s.refreshStash d (cells.map Prod.fst)) fun _ _ => refreshStash_calm ..
    exact ⟨g.hbm.trans e6, fun e => g.stash (g6 e)⟩

/-- The bytes among some cells whose home is one of some dies, in the dies' order. -/
def homed (cells : List (Nat × Byte)) : List (Nat × Byte) :=
  ((List.range 4).map fun h => cells.filter fun c => homeDie c.1 = h).flatten

theorem mem_homed {cells : List (Nat × Byte)} {c : Nat × Byte} : c ∈ homed cells ↔ c ∈ cells := by
  simp only [homed, List.mem_flatten, List.mem_map, List.mem_range]
  constructor
  · rintro ⟨l, ⟨h, -, rfl⟩, hc⟩
    exact (List.mem_filter.mp hc).1
  · intro hc
    exact ⟨_, ⟨homeDie c.1, Nat.mod_lt _ (by decide), rfl⟩, List.mem_filter.mpr ⟨hc, by simp⟩⟩

theorem homed_nodup {cells : List (Nat × Byte)} (h : (cells.map fun c => c.1).Nodup) : ((homed cells).map fun c => c.1).Nodup := by
  have hd : cells.Nodup := List.Nodup.of_map _ h
  have hinj := List.inj_on_of_nodup_map h
  have hh : (homed cells).Nodup := by
    refine List.nodup_flatten.mpr ⟨?_, ?_⟩
    · rintro l hl
      obtain ⟨k, -, rfl⟩ := List.mem_map.mp hl
      exact hd.filter _
    · refine List.pairwise_map.mpr (List.Pairwise.imp_of_mem ?_ (List.nodup_range (n := 4)))
      intro a b _ _ hab x hx hy
      have hx := (List.mem_filter.mp hx).2
      have hy := (List.mem_filter.mp hy).2
      exact hab ((of_decide_eq_true hx).symm.trans (of_decide_eq_true hy))
  exact hh.map_on fun x hx y hy e => hinj (mem_homed.mp hx) (mem_homed.mp hy) e

theorem writeHome_fold (ls : List Nat) (s : State) (die : Nat) (ctx : Option Nat) (memside repl : Bool) (stamp : List Nat)
    (tag : WriteTag) (cells : Nat → List (Nat × Byte)) (hs : s.stashLines = []) :
    (foldState s ls fun s h => s.writeHome h die ctx memside repl stamp tag (cells h)).stashLines = [] ∧
      (foldState s ls fun s h => s.writeHome h die ctx memside repl stamp tag (cells h)).hbm =
        (ls.map cells).flatten.foldl (fun m c => sset 0 m c.1 c.2) s.hbm := by
  induction ls generalizing s with
  | nil => exact ⟨hs, rfl⟩
  | cons h ls ih =>
    obtain ⟨e, g⟩ := writeHome_hbm s h die ctx memside repl stamp tag (cells h)
    obtain ⟨a, b⟩ := ih _ (g hs)
    refine ⟨a, b.trans ?_⟩
    rw [e, List.map_cons, List.flatten_cons, List.foldl_append]

/-- Performing bytes of HBM where no stash holds a line. -/
theorem performHbm_empty (s : State) (die : Nat) (ctx : Option Nat) (memside repl : Bool) (cells : List (Nat × Byte))
    (tag : WriteTag) (hs : s.stashLines = []) : (s.performHbm die ctx memside repl cells tag).stashLines = [] ∧
      (s.performHbm die ctx memside repl cells tag).hbm = (homed cells).foldl (fun m c => sset 0 m c.1 c.2) s.hbm := by
  have e : s.performHbm die ctx memside repl cells tag = s.storeHome die ctx memside repl cells tag := by
    unfold State.performHbm
    rw [evict_fold_empty _ s (fun l x => decide (coreDie x.core = die) || decide (coreDie x.core = homeDie l)) hs, ite_self]
  rw [e]
  unfold State.storeHome
  extract_lets r s1
  have hr : Calm s r.1 := by
    show Calm s (s.stampFor die repl (cells.map Prod.fst) tag).1
    unfold State.stampFor
    split
    · exact Calm.refl s
    · split
      · exact ⟨rfl, id⟩
      · exact Calm.refl s
  have h1 : Calm s s1 := hr.trans (foldState_calm _ _ _ fun _ _ => ⟨rfl, id⟩)
  have h := writeHome_fold (List.range 4) s1 die ctx memside repl r.2 tag (fun h => cells.filter fun c => homeDie c.1 = h) (h1.stash hs)
  rw [h1.hbm] at h
  exact h

/-- The cells of HBM among a list, by the attributes of their places. -/
def hbmCells (Z : List (Place × Byte)) (ms rp : Bool) : List (Nat × Byte) := Z.filterMap fun c => match c.1 with
  | .hbm p a => if a.memside = ms ∧ a.repl = rp then some (p, c.2) else none
  | _ => none

theorem hbmCells_mem {Z : List (Place × Byte)} {ms rp : Bool} {x : Nat × Byte} (h : x ∈ hbmCells Z ms rp) :
    ∃ a, (Place.hbm x.1 a, x.2) ∈ Z ∧ a.memside = ms ∧ a.repl = rp := by
  obtain ⟨⟨p, b⟩, hZ, hc⟩ := List.mem_filterMap.mp h
  cases p with
  | hbm q a =>
    dsimp only at hc
    split at hc
    · rename_i g
      cases hc
      exact ⟨a, hZ, g⟩
    · cases hc
  | store => cases hc
  | regWin => cases hc
  | host => cases hc

theorem mem_hbmCells {Z : List (Place × Byte)} {x : Nat} {a : PageAttr} {b : Byte} (h : (Place.hbm x a, b) ∈ Z) :
    (x, b) ∈ hbmCells Z a.memside a.repl := List.mem_filterMap.mpr ⟨_, h, by simp⟩

theorem hbmCells_nodup {Z : List (Place × Byte)} (h : (Z.map fun c => c.1.key).Nodup) (ms rp : Bool) :
    ((hbmCells Z ms rp).map fun x => x.1).Nodup := by
  refine List.pairwise_map.mpr (List.Pairwise.filterMap _ ?_ (List.pairwise_map.mp h))
  rintro ⟨p, v⟩ ⟨p', v'⟩ hne b hb b' hb' he
  have key : ∀ (p : Place) (v : Byte) (b : Nat × Byte), (match p with
      | .hbm p a => if a.memside = ms ∧ a.repl = rp then some (p, v) else none
      | _ => none) = some b → p.key = (0, b.1) := by
    intro p v b h
    cases p with
    | hbm q a =>
      dsimp only at h
      split at h
      · cases h; rfl
      · cases h
    | store => cases h
    | regWin => cases h
    | host => cases h
  exact hne ((key p v b hb).trans (by rw [he]; exact (key p' v' b' hb').symm))

theorem put_fold (l : List (Place × Byte)) (u : State) (h : ∀ c ∈ l, ∃ x y, c.1 = .hbm x y) :
    (foldState u l fun s c => match c.1 with
      | .store k o => { s with store := sset 0 s.store (k * Config.storeSpan + o) c.2 }
      | .host .. => { s with host := sset 0 s.host c.1.key.2 c.2 }
      | .regWin .. => s
      | .hbm .. => s) = u := by
  induction l with
  | nil => rfl
  | cons c l ih =>
    obtain ⟨x, y, e⟩ := h c (List.mem_cons_self ..)
    obtain ⟨p, b⟩ := c
    cases e
    exact ih fun c hc => h c (List.mem_cons_of_mem _ hc)

theorem putRegions_none (core : Nat) (l : List (Place × Byte)) (u : State) (h : ∀ c ∈ l, ∃ x y, c.1 = .hbm x y) :
    u.putRegions core l = u := by
  have e : (l.filterMap fun c => match c.1 with | .regWin slot o => some (slot, o, c.2) | _ => none) = [] := by
    refine List.filterMap_eq_nil_iff.mpr fun c hc => ?_
    obtain ⟨x, y, e⟩ := h c hc
    rw [e]
  unfold State.putRegions
  extract_lets mine
  rw [show mine = [] from e]
  rfl

/-- Where no access races a near-memory call, every byte of a write lasts (R268). -/
theorem lasting_all (s : State) (core : Nat) (Z : List (Place × Byte)) (hu : s.Unraced core (Z.map Prod.fst)) :
    s.lasting core Z = Z := by
  refine List.filter_eq_self.mpr fun c hc => ?_
  cases e : c.1 with
  | hbm p a =>
    have h := hu p (List.mem_filterMap.mpr ⟨c.1, List.mem_map_of_mem hc, by rw [e]⟩)
    simp [h]
  | store => rfl
  | regWin => rfl
  | host => rfl

/-- The bytes of HBM after bytes of HBM without replicas are performed. -/
theorem performBytes_hbm (s : State) (core ctx : Nat) (multicast : Bool) (Z : List (Place × Byte)) (tag : WriteTag)
    (hu : s.Unraced core (Z.map Prod.fst)) (hs : s.stashLines = []) (hz : ∀ c ∈ Z, ∃ x y, c.1 = .hbm x y ∧ y.repl = false) :
    (s.performBytes core ctx multicast Z tag).hbm = (homed (hbmCells Z true false)).foldl (fun m c => sset 0 m c.1 c.2)
      ((homed (hbmCells Z false false)).foldl (fun m c => sset 0 m c.1 c.2) s.hbm) := by
  have hrep : ∀ ms, hbmCells Z ms true = [] := by
    intro ms
    refine List.eq_nil_iff_forall_not_mem.mpr fun x hx => ?_
    obtain ⟨a, h1, -, h2⟩ := hbmCells_mem hx
    obtain ⟨x', y, e, hy⟩ := hz _ h1
    cases e
    simp [hy] at h2
  have hz' : ∀ c ∈ Z, ∃ x y, c.1 = .hbm x y := fun c hc => let ⟨x, y, e, _⟩ := hz c hc; ⟨x, y, e⟩
  unfold State.performBytes
  rw [lasting_all s core Z hu]
  extract_lets Z' s1 s2 pick die put
  have e2 : s2 = s := by
    show s1.putRegions core Z = s
    rw [show s1 = s from put_fold Z s hz']
    exact putRegions_none core Z s hz'
  have hput : ∀ u ms rp, u.stashLines = [] → (rp = true → pick ms rp = []) → (put u ms rp).stashLines = [] ∧
      (put u ms rp).hbm = (homed (pick ms rp)).foldl (fun m c => sset 0 m c.1 c.2) u.hbm := by
    intro u ms rp hu hr
    show (if pick ms rp = [] then u else if (rp && multicast) = true then _ else u.performHbm die (some ctx) ms rp (pick ms rp) tag).stashLines
      = [] ∧ (if pick ms rp = [] then u else if (rp && multicast) = true then _ else u.performHbm die (some ctx) ms rp (pick ms rp) tag).hbm = _
    by_cases hp : pick ms rp = []
    · rw [if_pos hp, hp]
      exact ⟨hu, rfl⟩
    · cases rp with
      | true => exact absurd (hr rfl) hp
      | false =>
        rw [if_neg hp, if_neg (by simp)]
        exact performHbm_empty u die (some ctx) ms false _ tag hu
  rw [e2]
  obtain ⟨a1, a2⟩ := hput s false false hs (by simp)
  obtain ⟨b1, b2⟩ := hput _ true false a1 (by simp)
  obtain ⟨c1, c2⟩ := hput _ true true b1 fun _ => hrep true
  obtain ⟨-, d2⟩ := hput _ false true c1 fun _ => hrep false
  rw [d2, c2, b2, a2, show pick false true = [] from hrep false, show pick true true = [] from hrep true]
  rfl

/-- Performing bytes where no stash holds a line writes each place of HBM once, and leaves every other byte at its home. -/
theorem performBytes_home (s : State) (core ctx : Nat) (multicast : Bool) (places : List Place) (bytes : List Byte)
    (tag : WriteTag) (hc : s.Canonical) (hs : s.stashLines = []) (hu : s.Unraced core places) (hp : PlainPlaces places) (hl : bytes.length = places.length) :
    (s.performBytes core ctx multicast (places.zip bytes) tag).holdsAt core places bytes ∧
    ∀ x, (∀ q ∈ places, q.key ≠ (0, x)) → (s.performBytes core ctx multicast (places.zip bytes) tag).homeByte x = s.homeByte x := by
  obtain ⟨hn, hplain⟩ := hp
  have hz : ∀ c ∈ places.zip bytes, ∃ x y, c.1 = .hbm x y ∧ y.repl = false := fun c h => hplain _ (List.of_mem_zip h).1
  have hfst : (places.zip bytes).map Prod.fst = places := List.map_fst_zip (by omega)
  have hbm := performBytes_hbm s core ctx multicast _ tag (by rwa [hfst]) hs hz
  have hrace := (performBytes_mem s core ctx multicast (places.zip bytes) tag).racedCall core
  generalize hZ : places.zip bytes = Z at hz hbm hrace ⊢
  have hkey : (Z.map fun c => c.1.key).Nodup := by
    have e : Z.map (fun c => c.1.key) = places.map Place.key := by
      have h := List.map_fst_zip (l₁ := places) (l₂ := bytes) (by omega)
      rw [hZ] at h
      rw [← h, List.map_map]
      rfl
    rw [e]
    exact hn
  have hinj := List.inj_on_of_nodup_map hkey
  have hnd := fun ms => homed_nodup (hbmCells_nodup hkey ms false)
  have w1 := sset_fold_keeps 0 (homed (hbmCells Z false false)) (fun x : Nat × Byte => x.1) (fun x => x.2) s.hbm hc.hbm
  constructor
  · refine List.ext_getElem (by simp [hl]) fun i h1 h2 => ?_
    have hi : i < places.length := by simpa using h1
    have hcZ : (places[i], bytes[i]) ∈ Z := by
      rw [← hZ]
      exact List.mem_iff_getElem.mpr ⟨i, by simp; omega, by simp⟩
    obtain ⟨x, y, e, hy⟩ := hz _ hcZ
    dsimp only at e
    rw [e] at hcZ
    have hp := mem_homed.mpr (mem_hbmCells hcZ)
    rw [List.getElem_map, e]
    have hr := hrace x
    rw [hu x (List.mem_filterMap.mpr ⟨_, List.getElem_mem hi, by rw [e]⟩)] at hr
    simp only [State.placeByte, State.racedByte, hr]
    show sget 0 (s.performBytes core ctx multicast Z tag).hbm x = bytes[i]
    rw [hbm]
    rw [hy] at hp
    cases hm : y.memside with
    | true =>
      rw [hm] at hp
      exact sget_sset_fold_same 0 _ (fun x : Nat × Byte => x.1) (fun x => x.2) _ w1 (hnd true) _ hp
    | false =>
      rw [hm] at hp
      rw [sget_sset_fold_other 0 _ (fun x : Nat × Byte => x.1) (fun x => x.2) _ w1]
      · exact sget_sset_fold_same 0 _ (fun x : Nat × Byte => x.1) (fun x => x.2) _ hc.hbm (hnd false) _ hp
      · intro z hzm heq
        obtain ⟨a, g1, g3, -⟩ := hbmCells_mem (mem_homed.mp hzm)
        have := hinj g1 hcZ (by simp [Place.key, heq])
        have this := congrArg Prod.fst this
        injection this with _ h6
        rw [h6, hm] at g3
        cases g3
  · intro x hx
    show sget 0 (s.performBytes core ctx multicast Z tag).hbm x = sget 0 s.hbm x
    have hno : ∀ ms, ∀ z ∈ homed (hbmCells Z ms false), z.1 ≠ x := by
      intro ms z hzm heq
      obtain ⟨a, g1, -, -⟩ := hbmCells_mem (mem_homed.mp hzm)
      rw [← hZ] at g1
      exact hx _ (List.of_mem_zip g1).1 (by rw [heq]; rfl)
    rw [hbm, sget_sset_fold_other 0 _ (fun x : Nat × Byte => x.1) (fun x => x.2) _ w1 x (hno true),
      sget_sset_fold_other 0 _ (fun x : Nat × Byte => x.1) (fun x => x.2) _ hc.hbm x (hno false)]

end Sys2Proof.Machine
end

