-- ==== Sys2Proof/Laws/PerInstr.lean ====
section
/-!
SUPPORT. Statements that are made for each instruction: the family `Coded` says that the decoder gives back every
well-formed instruction word that the encoder writes (spec/12_isa_formats.md R315 to R331).
-/
set_option Elab.async false
set_option linter.unusedSimpArgs false
set_option linter.unreachableTactic false
set_option linter.unusedTactic false
namespace Sys2Proof.Laws.Coded

/-- The decoder gives back a well-formed instruction word that the encoder writes; an event has no word. -/
def Statement (i : Instr) : Prop := i.isWord = true → i.wf = true → decode (encode i) = .ok i

/-- An event has no word. -/
theorem event_coded {i : Instr} (h : i.isWord = false) : Statement i := fun w => Bool.noConfusion (h.symm.trans w)

/-- The four values of a register-group or counter number. -/
theorem bv2_cases (x : BitVec 2) : x = 0 ∨ x = 1 ∨ x = 2 ∨ x = 3 := by revert x; decide

theorem blk (cnt : BitVec 5) (nrd : BitVec 4) (nwr : BitVec 4) (lsid : BitVec 4) (iso : Bool) (xcnt : BitVec 2) (ls : Bool) : Statement (.blk cnt nrd nwr lsid iso xcnt ls) := by
  intro _ hw
  have f29_3 : fld (encode (.blk cnt nrd nwr lsid iso xcnt ls)) 29 3 = 0#3 := field_up (field_up (field_up (field_up (field_up (field_up (field_up (field_up (by decide))))))))
  have f25_4 : fld (encode (.blk cnt nrd nwr lsid iso xcnt ls)) 25 4 = 1#4 := field_up (field_up (field_up (field_up (field_up (field_up (field_up (field_up (by decide))))))))
  have f3_4 : fld (encode (.blk cnt nrd nwr lsid iso xcnt ls)) 3 4 = 0#4 := field_up (field_up (field_down (field_all _)))
  have f20_5 : fld (encode (.blk cnt nrd nwr lsid iso xcnt ls)) 20 5 = cnt := field_up (field_up (field_up (field_up (field_up (field_up (field_up (field_down (field_all _))))))))
  have f16_4 : fld (encode (.blk cnt nrd nwr lsid iso xcnt ls)) 16 4 = nrd := field_up (field_up (field_up (field_up (field_up (field_up (field_down (field_all _)))))))
  have f12_4 : fld (encode (.blk cnt nrd nwr lsid iso xcnt ls)) 12 4 = nwr := field_up (field_up (field_up (field_up (field_up (field_down (field_all _))))))
  have f8_4 : fld (encode (.blk cnt nrd nwr lsid iso xcnt ls)) 8 4 = lsid := field_up (field_up (field_up (field_up (field_down (field_all _)))))
  have f7_1 : fld (encode (.blk cnt nrd nwr lsid iso xcnt ls)) 7 1 = ofBool1 iso := field_up (field_up (field_up (field_down (field_all _))))
  have f1_2 : fld (encode (.blk cnt nrd nwr lsid iso xcnt ls)) 1 2 = xcnt := field_up (field_down (field_all _))
  have f0_1 : fld (encode (.blk cnt nrd nwr lsid iso xcnt ls)) 0 1 = ofBool1 ls := field_down (field_all _)
  simp only [decode, decodeFields, decBlock, f29_3, f25_4, f3_4, f20_5, f16_4, f12_4, f8_4, f7_1, f1_2, f0_1, decPred_enc, decTarget_enc, decWidth_enc, decScope_enc, decOrder_enc, decAOp_enc, decFenceKind_enc, bit1_ofBool1, lift, lift2, lift3, guardE]
  first | rfl | exact if_pos hw | simpa using hw

theorem rdV (r : RWord) : Statement (.rdV r) := by
  intro _ hw
  simp only [encode, decode, decodeFields, decBlock, encR_29, encR_25, decR_enc, lift]
  exact if_pos hw

theorem rdS (r : RWord) : Statement (.rdS r) := by
  intro _ hw
  simp only [encode, decode, decodeFields, decBlock, encR_29, encR_25, decR_enc, lift]
  exact if_pos hw

theorem rdP (r : RWord) : Statement (.rdP r) := by
  intro _ hw
  simp only [encode, decode, decodeFields, decBlock, encR_29, encR_25, decR_enc, lift]
  exact if_pos hw

theorem rdX (r : RWord) : Statement (.rdX r) := by
  intro _ hw
  simp only [encode, decode, decodeFields, decBlock, encR_29, encR_25, decR_enc, lift]
  exact if_pos hw

theorem wrV (w : WWord) : Statement (.wrV w) := by
  intro _ hw
  simp only [encode, decode, decodeFields, decBlock, encW_29, encW_25, decW_enc, lift]
  exact if_pos hw

theorem wrS (w : WWord) : Statement (.wrS w) := by
  intro _ hw
  simp only [encode, decode, decodeFields, decBlock, encW_29, encW_25, decW_enc, lift]
  exact if_pos hw

theorem wrP (w : WWord) : Statement (.wrP w) := by
  intro _ hw
  simp only [encode, decode, decodeFields, decBlock, encW_29, encW_25, decW_enc, lift]
  exact if_pos hw

theorem ext (payload : BitVec 25) : Statement (.ext payload) := by
  intro _ hw
  have f29_3 : fld (encode (.ext payload)) 29 3 = 0#3 := field_up (by decide)
  have f25_4 : fld (encode (.ext payload)) 25 4 = 9#4 := field_up (by decide)
  have f0_25 : fld (encode (.ext payload)) 0 25 = payload := field_down (field_all _)
  simp only [decode, decodeFields, decBlock, f29_3, f25_4, f0_25, decPred_enc, decTarget_enc, decWidth_enc, decScope_enc, decOrder_enc, decAOp_enc, decFenceKind_enc, bit1_ofBool1, lift, lift2, lift3, guardE]
  first | rfl | exact if_pos hw | simpa using hw

theorem hintPrio (n : BitVec 2) : Statement (.hintPrio n) := by
  intro _ hw
  have f29_3 : fld (encode (.hintPrio n)) 29 3 = 0#3 := field_up (field_up (field_up (by decide)))
  have f25_4 : fld (encode (.hintPrio n)) 25 4 = 10#4 := field_up (field_up (field_up (by decide)))
  have f22_3 : fld (encode (.hintPrio n)) 22 3 = 0#3 := field_up (field_up (field_down (field_all _)))
  have f2_20 : fld (encode (.hintPrio n)) 2 20 = 0#20 := field_up (field_down (field_all _))
  have f0_2 : fld (encode (.hintPrio n)) 0 2 = n := field_down (field_all _)
  simp only [decode, decodeFields, decBlock, f29_3, f25_4, f22_3, f2_20, f0_2, decHint, decPred_enc, decTarget_enc, decWidth_enc, decScope_enc, decOrder_enc, decAOp_enc, decFenceKind_enc, bit1_ofBool1, lift, lift2, lift3, guardE]
  first | rfl | exact if_pos hw | simpa using hw

theorem hintYield (n : BitVec 12) : Statement (.hintYield n) := by
  intro _ hw
  have f29_3 : fld (encode (.hintYield n)) 29 3 = 0#3 := field_up (field_up (field_up (by decide)))
  have f25_4 : fld (encode (.hintYield n)) 25 4 = 10#4 := field_up (field_up (field_up (by decide)))
  have f22_3 : fld (encode (.hintYield n)) 22 3 = 1#3 := field_up (field_up (field_down (field_all _)))
  have f12_10 : fld (encode (.hintYield n)) 12 10 = 0#10 := field_up (field_down (field_all _))
  have f0_12 : fld (encode (.hintYield n)) 0 12 = n := field_down (field_all _)
  simp only [decode, decodeFields, decBlock, f29_3, f25_4, f22_3, f12_10, f0_12, decHint, decPred_enc, decTarget_enc, decWidth_enc, decScope_enc, decOrder_enc, decAOp_enc, decFenceKind_enc, bit1_ofBool1, lift, lift2, lift3, guardE]
  first | rfl | exact if_pos hw | simpa using hw

theorem hintLat (n : BitVec 16) : Statement (.hintLat n) := by
  intro _ hw
  have f29_3 : fld (encode (.hintLat n)) 29 3 = 0#3 := field_up (field_up (field_up (by decide)))
  have f25_4 : fld (encode (.hintLat n)) 25 4 = 10#4 := field_up (field_up (field_up (by decide)))
  have f22_3 : fld (encode (.hintLat n)) 22 3 = 2#3 := field_up (field_up (field_down (field_all _)))
  have f16_6 : fld (encode (.hintLat n)) 16 6 = 0#6 := field_up (field_down (field_all _))
  have f0_16 : fld (encode (.hintLat n)) 0 16 = n := field_down (field_all _)
  simp only [decode, decodeFields, decBlock, f29_3, f25_4, f22_3, f16_6, f0_16, decHint, decPred_enc, decTarget_enc, decWidth_enc, decScope_enc, decOrder_enc, decAOp_enc, decFenceKind_enc, bit1_ofBool1, lift, lift2, lift3, guardE]
  first | rfl | exact if_pos hw | simpa using hw

theorem movi (pred : Pred) (imm : BitVec 15) (t0 : Target) : Statement (.movi pred imm t0) := by
  intro _ hw
  have f29_3 : fld (encode (.movi pred imm t0)) 29 3 = 0#3 := field_up (field_up (field_up (by decide)))
  have f25_4 : fld (encode (.movi pred imm t0)) 25 4 = 11#4 := field_up (field_up (field_up (by decide)))
  have f23_2 : fld (encode (.movi pred imm t0)) 23 2 = encPred pred := field_up (field_up (field_down (field_all _)))
  have f8_15 : fld (encode (.movi pred imm t0)) 8 15 = imm := field_up (field_down (field_all _))
  have f0_8 : fld (encode (.movi pred imm t0)) 0 8 = encTarget t0 := field_down (field_all _)
  simp only [decode, decodeFields, decBlock, f29_3, f25_4, f23_2, f8_15, f0_8, decPred_enc, decTarget_enc, decWidth_enc, decScope_enc, decOrder_enc, decAOp_enc, decFenceKind_enc, bit1_ofBool1, lift, lift2, lift3, guardE]
  first | rfl | exact if_pos hw | simpa using hw

theorem br (pred : Pred) (off : BitVec 23) : Statement (.br pred off) := by
  intro _ hw
  have f29_3 : fld (encode (.br pred off)) 29 3 = 0#3 := field_up (field_up (by decide))
  have f25_4 : fld (encode (.br pred off)) 25 4 = 12#4 := field_up (field_up (by decide))
  have f23_2 : fld (encode (.br pred off)) 23 2 = encPred pred := field_up (field_down (field_all _))
  have f0_23 : fld (encode (.br pred off)) 0 23 = off := field_down (field_all _)
  simp only [decode, decodeFields, decBlock, f29_3, f25_4, f23_2, f0_23, decPred_enc, decTarget_enc, decWidth_enc, decScope_enc, decOrder_enc, decAOp_enc, decFenceKind_enc, bit1_ofBool1, lift, lift2, lift3, guardE]
  first | rfl | exact if_pos hw | simpa using hw

theorem call (pred : Pred) (off : BitVec 23) : Statement (.call pred off) := by
  intro _ hw
  have f29_3 : fld (encode (.call pred off)) 29 3 = 0#3 := field_up (field_up (by decide))
  have f25_4 : fld (encode (.call pred off)) 25 4 = 13#4 := field_up (field_up (by decide))
  have f23_2 : fld (encode (.call pred off)) 23 2 = encPred pred := field_up (field_down (field_all _))
  have f0_23 : fld (encode (.call pred off)) 0 23 = off := field_down (field_all _)
  simp only [decode, decodeFields, decBlock, f29_3, f25_4, f23_2, f0_23, decPred_enc, decTarget_enc, decWidth_enc, decScope_enc, decOrder_enc, decAOp_enc, decFenceKind_enc, bit1_ofBool1, lift, lift2, lift3, guardE]
  first | rfl | exact if_pos hw | simpa using hw

theorem rjwait (pred : Pred) (j : BitVec 4) (off : BitVec 19) : Statement (.rjwait pred j off) := by
  intro _ hw
  have f29_3 : fld (encode (.rjwait pred j off)) 29 3 = 0#3 := field_up (field_up (field_up (by decide)))
  have f25_4 : fld (encode (.rjwait pred j off)) 25 4 = 14#4 := field_up (field_up (field_up (by decide)))
  have f23_2 : fld (encode (.rjwait pred j off)) 23 2 = encPred pred := field_up (field_up (field_down (field_all _)))
  have f19_4 : fld (encode (.rjwait pred j off)) 19 4 = j := field_up (field_down (field_all _))
  have f0_19 : fld (encode (.rjwait pred j off)) 0 19 = off := field_down (field_all _)
  simp only [decode, decodeFields, decBlock, f29_3, f25_4, f23_2, f19_4, f0_19, decPred_enc, decTarget_enc, decWidth_enc, decScope_enc, decOrder_enc, decAOp_enc, decFenceKind_enc, bit1_ofBool1, lift, lift2, lift3, guardE]
  first | rfl | exact if_pos hw | simpa using hw

theorem fan (g : G) : Statement (.fan g) := by
  intro _ hw
  (simp only [encode, decode, decodeFields, decBlock, decMajor0f, encG_29, encG_28, encG_25_4, encG_25_3, encG_16_1, encG_16_2, encG_16_3, encG_16_4, encG_16_7, encG_17_1, encG_17_3, encG_17_6, encG_18_1, encG_18_5, encG_19_1, encG_19_4, encG_20_3, decG_enc, lift, lift2, lift3, guardE]; first | rfl | exact Bool.noConfusion (show false = true from hw))

theorem null (g : G) : Statement (.null g) := by
  intro _ hw
  (simp only [encode, decode, decodeFields, decBlock, decMajor0f, encG_29, encG_28, encG_25_4, encG_25_3, encG_16_1, encG_16_2, encG_16_3, encG_16_4, encG_16_7, encG_17_1, encG_17_3, encG_17_6, encG_18_1, encG_18_5, encG_19_1, encG_19_4, encG_20_3, decG_enc, lift, lift2, lift3, guardE]; first | rfl | exact Bool.noConfusion (show false = true from hw))

theorem brx (pred : Pred) : Statement (.brx pred) := by
  unfold Statement
  cases pred <;> decide

theorem ret (pred : Pred) : Statement (.ret pred) := by
  unfold Statement
  cases pred <;> decide

theorem exit (pred : Pred) : Statement (.exit pred) := by
  unfold Statement
  cases pred <;> decide

theorem trap (pred : Pred) (vector : BitVec 8) : Statement (.trap pred vector) := by
  intro _ hw
  have f29_3 : fld (encode (.trap pred vector)) 29 3 = 0#3 := field_up (field_up (field_up (field_up (by decide))))
  have f25_4 : fld (encode (.trap pred vector)) 25 4 = 15#4 := field_up (field_up (field_up (field_up (by decide))))
  have f23_2 : fld (encode (.trap pred vector)) 23 2 = encPred pred := field_up (field_up (field_up (field_down (field_all _))))
  have f16_4 : fld (encode (.trap pred vector)) 16 4 = 0#4 := field_up (field_up (field_down (by decide)))
  have f20_3 : fld (encode (.trap pred vector)) 20 3 = 5#3 := field_up (field_up (field_down (by decide)))
  have f0_8 : fld (encode (.trap pred vector)) 0 8 = 0xff#8 := field_down (field_all _)
  have f8_8 : fld (encode (.trap pred vector)) 8 8 = vector := field_up (field_down (field_all _))
  simp only [decode, decodeFields, decBlock, f29_3, f25_4, f23_2, f16_4, f20_3, f0_8, f8_8, decMajor0f, decPred_enc, decTarget_enc, decWidth_enc, decScope_enc, decOrder_enc, decAOp_enc, decFenceKind_enc, bit1_ofBool1, lift, lift2, lift3, guardE]
  first | rfl | exact if_pos hw | simpa using hw

theorem rjenrol (pred : Pred) (j : BitVec 4) : Statement (.rjenrol pred j) := by
  intro _ hw
  have f29_3 : fld (encode (.rjenrol pred j)) 29 3 = 0#3 := field_up (field_up (field_up (field_up (field_up (by decide)))))
  have f25_4 : fld (encode (.rjenrol pred j)) 25 4 = 15#4 := field_up (field_up (field_up (field_up (field_up (by decide)))))
  have f23_2 : fld (encode (.rjenrol pred j)) 23 2 = encPred pred := field_up (field_up (field_up (field_up (field_down (field_all _)))))
  have f16_4 : fld (encode (.rjenrol pred j)) 16 4 = 0#4 := field_up (field_up (field_up (field_down (by decide))))
  have f20_3 : fld (encode (.rjenrol pred j)) 20 3 = 6#3 := field_up (field_up (field_up (field_down (by decide))))
  have f0_8 : fld (encode (.rjenrol pred j)) 0 8 = 0xff#8 := field_down (field_all _)
  have f12_4 : fld (encode (.rjenrol pred j)) 12 4 = 0#4 := field_up (field_up (field_down (field_all _)))
  have f8_4 : fld (encode (.rjenrol pred j)) 8 4 = j := field_up (field_down (field_all _))
  simp only [decode, decodeFields, decBlock, f29_3, f25_4, f23_2, f16_4, f20_3, f0_8, f12_4, f8_4, decMajor0f, decRj, decPred_enc, decTarget_enc, decWidth_enc, decScope_enc, decOrder_enc, decAOp_enc, decFenceKind_enc, bit1_ofBool1, lift, lift2, lift3, guardE]
  first | rfl | exact if_pos hw | simpa using hw

theorem rjstrike (pred : Pred) (j : BitVec 4) : Statement (.rjstrike pred j) := by
  intro _ hw
  have f29_3 : fld (encode (.rjstrike pred j)) 29 3 = 0#3 := field_up (field_up (field_up (field_up (field_up (by decide)))))
  have f25_4 : fld (encode (.rjstrike pred j)) 25 4 = 15#4 := field_up (field_up (field_up (field_up (field_up (by decide)))))
  have f23_2 : fld (encode (.rjstrike pred j)) 23 2 = encPred pred := field_up (field_up (field_up (field_up (field_down (field_all _)))))
  have f16_4 : fld (encode (.rjstrike pred j)) 16 4 = 0#4 := field_up (field_up (field_up (field_down (by decide))))
  have f20_3 : fld (encode (.rjstrike pred j)) 20 3 = 7#3 := field_up (field_up (field_up (field_down (by decide))))
  have f0_8 : fld (encode (.rjstrike pred j)) 0 8 = 0xff#8 := field_down (field_all _)
  have f12_4 : fld (encode (.rjstrike pred j)) 12 4 = 0#4 := field_up (field_up (field_down (field_all _)))
  have f8_4 : fld (encode (.rjstrike pred j)) 8 4 = j := field_up (field_down (field_all _))
  simp only [decode, decodeFields, decBlock, f29_3, f25_4, f23_2, f16_4, f20_3, f0_8, f12_4, f8_4, decMajor0f, decRj, decPred_enc, decTarget_enc, decWidth_enc, decScope_enc, decOrder_enc, decAOp_enc, decFenceKind_enc, bit1_ofBool1, lift, lift2, lift3, guardE]
  first | rfl | exact if_pos hw | simpa using hw

theorem add (g : G) (t : IType) : Statement (.add g t) := by
  intro _ hw
  cases t <;> (simp only [encode, decode, decodeFields, decInteger, decMajor10, encG_29, encG_28, encG_25_4, encG_25_3, encG_16_1, encG_16_2, encG_16_3, encG_16_4, encG_16_7, encG_17_1, encG_17_3, encG_17_6, encG_18_1, encG_18_5, encG_19_1, encG_19_4, encG_20_3, decG_enc, lift, lift2, lift3, guardE]; first | rfl | exact Bool.noConfusion (show false = true from hw))

theorem sub (g : G) (t : IType) : Statement (.sub g t) := by
  intro _ hw
  cases t <;> (simp only [encode, decode, decodeFields, decInteger, decMajor10, encG_29, encG_28, encG_25_4, encG_25_3, encG_16_1, encG_16_2, encG_16_3, encG_16_4, encG_16_7, encG_17_1, encG_17_3, encG_17_6, encG_18_1, encG_18_5, encG_19_1, encG_19_4, encG_20_3, decG_enc, lift, lift2, lift3, guardE]; first | rfl | exact Bool.noConfusion (show false = true from hw))

theorem mul (g : G) (t : IType) : Statement (.mul g t) := by
  intro _ hw
  cases t <;> (simp only [encode, decode, decodeFields, decInteger, decMajor10, encG_29, encG_28, encG_25_4, encG_25_3, encG_16_1, encG_16_2, encG_16_3, encG_16_4, encG_16_7, encG_17_1, encG_17_3, encG_17_6, encG_18_1, encG_18_5, encG_19_1, encG_19_4, encG_20_3, decG_enc, lift, lift2, lift3, guardE]; first | rfl | exact Bool.noConfusion (show false = true from hw))

theorem mulhi (g : G) (t : IType) : Statement (.mulhi g t) := by
  intro _ hw
  cases t <;> (simp only [encode, decode, decodeFields, decInteger, decMajor10, encG_29, encG_28, encG_25_4, encG_25_3, encG_16_1, encG_16_2, encG_16_3, encG_16_4, encG_16_7, encG_17_1, encG_17_3, encG_17_6, encG_18_1, encG_18_5, encG_19_1, encG_19_4, encG_20_3, decG_enc, lift, lift2, lift3, guardE]; first | rfl | exact Bool.noConfusion (show false = true from hw))

theorem mad (g : G) (t : IType) : Statement (.mad g t) := by
  intro _ hw
  cases t <;> (simp only [encode, decode, decodeFields, decInteger, decMajor10, encG_29, encG_28, encG_25_4, encG_25_3, encG_16_1, encG_16_2, encG_16_3, encG_16_4, encG_16_7, encG_17_1, encG_17_3, encG_17_6, encG_18_1, encG_18_5, encG_19_1, encG_19_4, encG_20_3, decG_enc, lift, lift2, lift3, guardE]; first | rfl | exact Bool.noConfusion (show false = true from hw))

theorem div (g : G) (t : IType) : Statement (.div g t) := by
  intro _ hw
  cases t <;> (simp only [encode, decode, decodeFields, decInteger, decMajor10, encG_29, encG_28, encG_25_4, encG_25_3, encG_16_1, encG_16_2, encG_16_3, encG_16_4, encG_16_7, encG_17_1, encG_17_3, encG_17_6, encG_18_1, encG_18_5, encG_19_1, encG_19_4, encG_20_3, decG_enc, lift, lift2, lift3, guardE]; first | rfl | exact Bool.noConfusion (show false = true from hw))

theorem rem (g : G) (t : IType) : Statement (.rem g t) := by
  intro _ hw
  cases t <;> (simp only [encode, decode, decodeFields, decInteger, decMajor10, encG_29, encG_28, encG_25_4, encG_25_3, encG_16_1, encG_16_2, encG_16_3, encG_16_4, encG_16_7, encG_17_1, encG_17_3, encG_17_6, encG_18_1, encG_18_5, encG_19_1, encG_19_4, encG_20_3, decG_enc, lift, lift2, lift3, guardE]; first | rfl | exact Bool.noConfusion (show false = true from hw))

theorem neg (g : G) (t : IType) : Statement (.neg g t) := by
  intro _ hw
  cases t <;> (simp only [encode, decode, decodeFields, decInteger, decMajor10, encG_29, encG_28, encG_25_4, encG_25_3, encG_16_1, encG_16_2, encG_16_3, encG_16_4, encG_16_7, encG_17_1, encG_17_3, encG_17_6, encG_18_1, encG_18_5, encG_19_1, encG_19_4, encG_20_3, decG_enc, lift, lift2, lift3, guardE]; first | rfl | exact Bool.noConfusion (show false = true from hw))

theorem abs (g : G) (t : SType) : Statement (.abs g t) := by
  intro _ hw
  cases t <;> (simp only [encode, decode, decodeFields, decInteger, decMajor10, encG_29, encG_28, encG_25_4, encG_25_3, encG_16_1, encG_16_2, encG_16_3, encG_16_4, encG_16_7, encG_17_1, encG_17_3, encG_17_6, encG_18_1, encG_18_5, encG_19_1, encG_19_4, encG_20_3, decG_enc, lift, lift2, lift3, guardE]; first | rfl | exact Bool.noConfusion (show false = true from hw))

theorem min (g : G) (t : IType) : Statement (.min g t) := by
  intro _ hw
  cases t <;> (simp only [encode, decode, decodeFields, decInteger, decMajor10, encG_29, encG_28, encG_25_4, encG_25_3, encG_16_1, encG_16_2, encG_16_3, encG_16_4, encG_16_7, encG_17_1, encG_17_3, encG_17_6, encG_18_1, encG_18_5, encG_19_1, encG_19_4, encG_20_3, decG_enc, lift, lift2, lift3, guardE]; first | rfl | exact Bool.noConfusion (show false = true from hw))

theorem max (g : G) (t : IType) : Statement (.max g t) := by
  intro _ hw
  cases t <;> (simp only [encode, decode, decodeFields, decInteger, decMajor10, encG_29, encG_28, encG_25_4, encG_25_3, encG_16_1, encG_16_2, encG_16_3, encG_16_4, encG_16_7, encG_17_1, encG_17_3, encG_17_6, encG_18_1, encG_18_5, encG_19_1, encG_19_4, encG_20_3, decG_enc, lift, lift2, lift3, guardE]; first | rfl | exact Bool.noConfusion (show false = true from hw))

theorem lea (g : G) (t : IType) : Statement (.lea g t) := by
  intro _ hw
  cases t <;> (simp only [encode, decode, decodeFields, decInteger, decMajor10, encG_29, encG_28, encG_25_4, encG_25_3, encG_16_1, encG_16_2, encG_16_3, encG_16_4, encG_16_7, encG_17_1, encG_17_3, encG_17_6, encG_18_1, encG_18_5, encG_19_1, encG_19_4, encG_20_3, decG_enc, lift, lift2, lift3, guardE]; first | rfl | exact Bool.noConfusion (show false = true from hw))

theorem and (g : G) (t : ZType) : Statement (.and g t) := by
  intro _ hw
  cases t <;> (simp only [encode, decode, decodeFields, decInteger, decMajor11, encG_29, encG_28, encG_25_4, encG_25_3, encG_16_1, encG_16_2, encG_16_3, encG_16_4, encG_16_7, encG_17_1, encG_17_3, encG_17_6, encG_18_1, encG_18_5, encG_19_1, encG_19_4, encG_20_3, decG_enc, lift, lift2, lift3, guardE]; first | rfl | exact Bool.noConfusion (show false = true from hw))

theorem or (g : G) (t : ZType) : Statement (.or g t) := by
  intro _ hw
  cases t <;> (simp only [encode, decode, decodeFields, decInteger, decMajor11, encG_29, encG_28, encG_25_4, encG_25_3, encG_16_1, encG_16_2, encG_16_3, encG_16_4, encG_16_7, encG_17_1, encG_17_3, encG_17_6, encG_18_1, encG_18_5, encG_19_1, encG_19_4, encG_20_3, decG_enc, lift, lift2, lift3, guardE]; first | rfl | exact Bool.noConfusion (show false = true from hw))

theorem xor (g : G) (t : ZType) : Statement (.xor g t) := by
  intro _ hw
  cases t <;> (simp only [encode, decode, decodeFields, decInteger, decMajor11, encG_29, encG_28, encG_25_4, encG_25_3, encG_16_1, encG_16_2, encG_16_3, encG_16_4, encG_16_7, encG_17_1, encG_17_3, encG_17_6, encG_18_1, encG_18_5, encG_19_1, encG_19_4, encG_20_3, decG_enc, lift, lift2, lift3, guardE]; first | rfl | exact Bool.noConfusion (show false = true from hw))

theorem andn (g : G) (t : ZType) : Statement (.andn g t) := by
  intro _ hw
  cases t <;> (simp only [encode, decode, decodeFields, decInteger, decMajor11, encG_29, encG_28, encG_25_4, encG_25_3, encG_16_1, encG_16_2, encG_16_3, encG_16_4, encG_16_7, encG_17_1, encG_17_3, encG_17_6, encG_18_1, encG_18_5, encG_19_1, encG_19_4, encG_20_3, decG_enc, lift, lift2, lift3, guardE]; first | rfl | exact Bool.noConfusion (show false = true from hw))

theorem not (g : G) (t : ZType) : Statement (.not g t) := by
  intro _ hw
  cases t <;> (simp only [encode, decode, decodeFields, decInteger, decMajor11, encG_29, encG_28, encG_25_4, encG_25_3, encG_16_1, encG_16_2, encG_16_3, encG_16_4, encG_16_7, encG_17_1, encG_17_3, encG_17_6, encG_18_1, encG_18_5, encG_19_1, encG_19_4, encG_20_3, decG_enc, lift, lift2, lift3, guardE]; first | rfl | exact Bool.noConfusion (show false = true from hw))

theorem shl (g : G) (t : ZType) : Statement (.shl g t) := by
  intro _ hw
  cases t <;> (simp only [encode, decode, decodeFields, decInteger, decMajor11, encG_29, encG_28, encG_25_4, encG_25_3, encG_16_1, encG_16_2, encG_16_3, encG_16_4, encG_16_7, encG_17_1, encG_17_3, encG_17_6, encG_18_1, encG_18_5, encG_19_1, encG_19_4, encG_20_3, decG_enc, lift, lift2, lift3, guardE]; first | rfl | exact Bool.noConfusion (show false = true from hw))

theorem shr (g : G) (t : ZType) : Statement (.shr g t) := by
  intro _ hw
  cases t <;> (simp only [encode, decode, decodeFields, decInteger, decMajor11, encG_29, encG_28, encG_25_4, encG_25_3, encG_16_1, encG_16_2, encG_16_3, encG_16_4, encG_16_7, encG_17_1, encG_17_3, encG_17_6, encG_18_1, encG_18_5, encG_19_1, encG_19_4, encG_20_3, decG_enc, lift, lift2, lift3, guardE]; first | rfl | exact Bool.noConfusion (show false = true from hw))

theorem sar (g : G) (t : ZType) : Statement (.sar g t) := by
  intro _ hw
  cases t <;> (simp only [encode, decode, decodeFields, decInteger, decMajor11, encG_29, encG_28, encG_25_4, encG_25_3, encG_16_1, encG_16_2, encG_16_3, encG_16_4, encG_16_7, encG_17_1, encG_17_3, encG_17_6, encG_18_1, encG_18_5, encG_19_1, encG_19_4, encG_20_3, decG_enc, lift, lift2, lift3, guardE]; first | rfl | exact Bool.noConfusion (show false = true from hw))

theorem rotl (g : G) (t : ZType) : Statement (.rotl g t) := by
  intro _ hw
  cases t <;> (simp only [encode, decode, decodeFields, decInteger, decMajor11, encG_29, encG_28, encG_25_4, encG_25_3, encG_16_1, encG_16_2, encG_16_3, encG_16_4, encG_16_7, encG_17_1, encG_17_3, encG_17_6, encG_18_1, encG_18_5, encG_19_1, encG_19_4, encG_20_3, decG_enc, lift, lift2, lift3, guardE]; first | rfl | exact Bool.noConfusion (show false = true from hw))

theorem clz (g : G) (t : ZType) : Statement (.clz g t) := by
  intro _ hw
  cases t <;> (simp only [encode, decode, decodeFields, decInteger, decMajor11, encG_29, encG_28, encG_25_4, encG_25_3, encG_16_1, encG_16_2, encG_16_3, encG_16_4, encG_16_7, encG_17_1, encG_17_3, encG_17_6, encG_18_1, encG_18_5, encG_19_1, encG_19_4, encG_20_3, decG_enc, lift, lift2, lift3, guardE]; first | rfl | exact Bool.noConfusion (show false = true from hw))

theorem ctz (g : G) (t : ZType) : Statement (.ctz g t) := by
  intro _ hw
  cases t <;> (simp only [encode, decode, decodeFields, decInteger, decMajor11, encG_29, encG_28, encG_25_4, encG_25_3, encG_16_1, encG_16_2, encG_16_3, encG_16_4, encG_16_7, encG_17_1, encG_17_3, encG_17_6, encG_18_1, encG_18_5, encG_19_1, encG_19_4, encG_20_3, decG_enc, lift, lift2, lift3, guardE]; first | rfl | exact Bool.noConfusion (show false = true from hw))

theorem popc (g : G) (t : ZType) : Statement (.popc g t) := by
  intro _ hw
  cases t <;> (simp only [encode, decode, decodeFields, decInteger, decMajor11, encG_29, encG_28, encG_25_4, encG_25_3, encG_16_1, encG_16_2, encG_16_3, encG_16_4, encG_16_7, encG_17_1, encG_17_3, encG_17_6, encG_18_1, encG_18_5, encG_19_1, encG_19_4, encG_20_3, decG_enc, lift, lift2, lift3, guardE]; first | rfl | exact Bool.noConfusion (show false = true from hw))

theorem brev (g : G) (t : ZType) : Statement (.brev g t) := by
  intro _ hw
  cases t <;> (simp only [encode, decode, decodeFields, decInteger, decMajor11, encG_29, encG_28, encG_25_4, encG_25_3, encG_16_1, encG_16_2, encG_16_3, encG_16_4, encG_16_7, encG_17_1, encG_17_3, encG_17_6, encG_18_1, encG_18_5, encG_19_1, encG_19_4, encG_20_3, decG_enc, lift, lift2, lift3, guardE]; first | rfl | exact Bool.noConfusion (show false = true from hw))

theorem bfx (g : G) (t : IType) : Statement (.bfx g t) := by
  intro _ hw
  cases t <;> (simp only [encode, decode, decodeFields, decInteger, decMajor11, encG_29, encG_28, encG_25_4, encG_25_3, encG_16_1, encG_16_2, encG_16_3, encG_16_4, encG_16_7, encG_17_1, encG_17_3, encG_17_6, encG_18_1, encG_18_5, encG_19_1, encG_19_4, encG_20_3, decG_enc, lift, lift2, lift3, guardE]; first | rfl | exact Bool.noConfusion (show false = true from hw))

theorem bfi (g : G) (t : ZType) : Statement (.bfi g t) := by
  intro _ hw
  cases t <;> (simp only [encode, decode, decodeFields, decInteger, decMajor11, encG_29, encG_28, encG_25_4, encG_25_3, encG_16_1, encG_16_2, encG_16_3, encG_16_4, encG_16_7, encG_17_1, encG_17_3, encG_17_6, encG_18_1, encG_18_5, encG_19_1, encG_19_4, encG_20_3, decG_enc, lift, lift2, lift3, guardE]; first | rfl | exact Bool.noConfusion (show false = true from hw))

theorem sel (g : G) (t : ZType) : Statement (.sel g t) := by
  intro _ hw
  cases t <;> (simp only [encode, decode, decodeFields, decInteger, decMajor11, encG_29, encG_28, encG_25_4, encG_25_3, encG_16_1, encG_16_2, encG_16_3, encG_16_4, encG_16_7, encG_17_1, encG_17_3, encG_17_6, encG_18_1, encG_18_5, encG_19_1, encG_19_4, encG_20_3, decG_enc, lift, lift2, lift3, guardE]; first | rfl | exact Bool.noConfusion (show false = true from hw))

theorem setp (g : G) (c : Cond) (t : IType) : Statement (.setp g c t) := by
  intro _ hw
  cases c <;> cases t <;> (simp only [encode, decode, decodeFields, decInteger, encG_29, encG_28, encG_25_4, encG_25_3, encG_16_1, encG_16_2, encG_16_3, encG_16_4, encG_16_7, encG_17_1, encG_17_3, encG_17_6, encG_18_1, encG_18_5, encG_19_1, encG_19_4, encG_20_3, decG_enc, lift, lift2, lift3, guardE]; first | rfl | exact Bool.noConfusion (show false = true from hw))

theorem pand (g : G) : Statement (.pand g) := by
  intro _ hw
  (simp only [encode, decode, decodeFields, decInteger, decMajor13, encG_29, encG_28, encG_25_4, encG_25_3, encG_16_1, encG_16_2, encG_16_3, encG_16_4, encG_16_7, encG_17_1, encG_17_3, encG_17_6, encG_18_1, encG_18_5, encG_19_1, encG_19_4, encG_20_3, decG_enc, lift, lift2, lift3, guardE]; first | rfl | exact Bool.noConfusion (show false = true from hw))

theorem por (g : G) : Statement (.por g) := by
  intro _ hw
  (simp only [encode, decode, decodeFields, decInteger, decMajor13, encG_29, encG_28, encG_25_4, encG_25_3, encG_16_1, encG_16_2, encG_16_3, encG_16_4, encG_16_7, encG_17_1, encG_17_3, encG_17_6, encG_18_1, encG_18_5, encG_19_1, encG_19_4, encG_20_3, decG_enc, lift, lift2, lift3, guardE]; first | rfl | exact Bool.noConfusion (show false = true from hw))

theorem pxor (g : G) : Statement (.pxor g) := by
  intro _ hw
  (simp only [encode, decode, decodeFields, decInteger, decMajor13, encG_29, encG_28, encG_25_4, encG_25_3, encG_16_1, encG_16_2, encG_16_3, encG_16_4, encG_16_7, encG_17_1, encG_17_3, encG_17_6, encG_18_1, encG_18_5, encG_19_1, encG_19_4, encG_20_3, decG_enc, lift, lift2, lift3, guardE]; first | rfl | exact Bool.noConfusion (show false = true from hw))

theorem pnot (g : G) : Statement (.pnot g) := by
  intro _ hw
  (simp only [encode, decode, decodeFields, decInteger, decMajor13, encG_29, encG_28, encG_25_4, encG_25_3, encG_16_1, encG_16_2, encG_16_3, encG_16_4, encG_16_7, encG_17_1, encG_17_3, encG_17_6, encG_18_1, encG_18_5, encG_19_1, encG_19_4, encG_20_3, decG_enc, lift, lift2, lift3, guardE]; first | rfl | exact Bool.noConfusion (show false = true from hw))

theorem isect (g : G) : Statement (.isect g) := by
  intro _ hw
  (simp only [encode, decode, decodeFields, decInteger, decMajor14, encG_29, encG_28, encG_25_4, encG_25_3, encG_16_1, encG_16_2, encG_16_3, encG_16_4, encG_16_7, encG_17_1, encG_17_3, encG_17_6, encG_18_1, encG_18_5, encG_19_1, encG_19_4, encG_20_3, decG_enc, lift, lift2, lift3, guardE]; first | rfl | exact Bool.noConfusion (show false = true from hw))

theorem isectX (g : G) : Statement (.isectX g) := by
  intro _ hw
  (simp only [encode, decode, decodeFields, decInteger, decMajor14, encG_29, encG_28, encG_25_4, encG_25_3, encG_16_1, encG_16_2, encG_16_3, encG_16_4, encG_16_7, encG_17_1, encG_17_3, encG_17_6, encG_18_1, encG_18_5, encG_19_1, encG_19_4, encG_20_3, decG_enc, lift, lift2, lift3, guardE]; first | rfl | exact Bool.noConfusion (show false = true from hw))

theorem fadd (g : G) (t : FType) : Statement (.fadd g t) := by
  intro _ hw
  cases t <;> (simp only [encode, decode, decodeFields, decFloat, decMajor28, encG_29, encG_28, encG_25_4, encG_25_3, encG_16_1, encG_16_2, encG_16_3, encG_16_4, encG_16_7, encG_17_1, encG_17_3, encG_17_6, encG_18_1, encG_18_5, encG_19_1, encG_19_4, encG_20_3, decG_enc, lift, lift2, lift3, guardE]; first | rfl | exact Bool.noConfusion (show false = true from hw))

theorem fsub (g : G) (t : FType) : Statement (.fsub g t) := by
  intro _ hw
  cases t <;> (simp only [encode, decode, decodeFields, decFloat, decMajor28, encG_29, encG_28, encG_25_4, encG_25_3, encG_16_1, encG_16_2, encG_16_3, encG_16_4, encG_16_7, encG_17_1, encG_17_3, encG_17_6, encG_18_1, encG_18_5, encG_19_1, encG_19_4, encG_20_3, decG_enc, lift, lift2, lift3, guardE]; first | rfl | exact Bool.noConfusion (show false = true from hw))

theorem fmul (g : G) (t : FType) : Statement (.fmul g t) := by
  intro _ hw
  cases t <;> (simp only [encode, decode, decodeFields, decFloat, decMajor28, encG_29, encG_28, encG_25_4, encG_25_3, encG_16_1, encG_16_2, encG_16_3, encG_16_4, encG_16_7, encG_17_1, encG_17_3, encG_17_6, encG_18_1, encG_18_5, encG_19_1, encG_19_4, encG_20_3, decG_enc, lift, lift2, lift3, guardE]; first | rfl | exact Bool.noConfusion (show false = true from hw))

theorem ffma (g : G) (t : FType) : Statement (.ffma g t) := by
  intro _ hw
  cases t <;> (simp only [encode, decode, decodeFields, decFloat, decMajor28, encG_29, encG_28, encG_25_4, encG_25_3, encG_16_1, encG_16_2, encG_16_3, encG_16_4, encG_16_7, encG_17_1, encG_17_3, encG_17_6, encG_18_1, encG_18_5, encG_19_1, encG_19_4, encG_20_3, decG_enc, lift, lift2, lift3, guardE]; first | rfl | exact Bool.noConfusion (show false = true from hw))

theorem fmin (g : G) (t : FType) : Statement (.fmin g t) := by
  intro _ hw
  cases t <;> (simp only [encode, decode, decodeFields, decFloat, decMajor28, encG_29, encG_28, encG_25_4, encG_25_3, encG_16_1, encG_16_2, encG_16_3, encG_16_4, encG_16_7, encG_17_1, encG_17_3, encG_17_6, encG_18_1, encG_18_5, encG_19_1, encG_19_4, encG_20_3, decG_enc, lift, lift2, lift3, guardE]; first | rfl | exact Bool.noConfusion (show false = true from hw))

theorem fmax (g : G) (t : FType) : Statement (.fmax g t) := by
  intro _ hw
  cases t <;> (simp only [encode, decode, decodeFields, decFloat, decMajor28, encG_29, encG_28, encG_25_4, encG_25_3, encG_16_1, encG_16_2, encG_16_3, encG_16_4, encG_16_7, encG_17_1, encG_17_3, encG_17_6, encG_18_1, encG_18_5, encG_19_1, encG_19_4, encG_20_3, decG_enc, lift, lift2, lift3, guardE]; first | rfl | exact Bool.noConfusion (show false = true from hw))

theorem fdiv (g : G) (t : FType2) : Statement (.fdiv g t) := by
  intro _ hw
  cases t <;> (simp only [encode, decode, decodeFields, decFloat, decMajor28, encG_29, encG_28, encG_25_4, encG_25_3, encG_16_1, encG_16_2, encG_16_3, encG_16_4, encG_16_7, encG_17_1, encG_17_3, encG_17_6, encG_18_1, encG_18_5, encG_19_1, encG_19_4, encG_20_3, decG_enc, lift, lift2, lift3, guardE]; first | rfl | exact Bool.noConfusion (show false = true from hw))

theorem fsqrt (g : G) (t : FType2) : Statement (.fsqrt g t) := by
  intro _ hw
  cases t <;> (simp only [encode, decode, decodeFields, decFloat, decMajor28, encG_29, encG_28, encG_25_4, encG_25_3, encG_16_1, encG_16_2, encG_16_3, encG_16_4, encG_16_7, encG_17_1, encG_17_3, encG_17_6, encG_18_1, encG_18_5, encG_19_1, encG_19_4, encG_20_3, decG_enc, lift, lift2, lift3, guardE]; first | rfl | exact Bool.noConfusion (show false = true from hw))

theorem fscale (g : G) (t : FType) : Statement (.fscale g t) := by
  intro _ hw
  cases t <;> (simp only [encode, decode, decodeFields, decFloat, decMajor28, encG_29, encG_28, encG_25_4, encG_25_3, encG_16_1, encG_16_2, encG_16_3, encG_16_4, encG_16_7, encG_17_1, encG_17_3, encG_17_6, encG_18_1, encG_18_5, encG_19_1, encG_19_4, encG_20_3, decG_enc, lift, lift2, lift3, guardE]; first | rfl | exact Bool.noConfusion (show false = true from hw))

theorem fclass (g : G) (t : FType) : Statement (.fclass g t) := by
  intro _ hw
  cases t <;> (simp only [encode, decode, decodeFields, decFloat, decMajor28, encG_29, encG_28, encG_25_4, encG_25_3, encG_16_1, encG_16_2, encG_16_3, encG_16_4, encG_16_7, encG_17_1, encG_17_3, encG_17_6, encG_18_1, encG_18_5, encG_19_1, encG_19_4, encG_20_3, decG_enc, lift, lift2, lift3, guardE]; first | rfl | exact Bool.noConfusion (show false = true from hw))

theorem fsetp (g : G) (c : FCond) (t : FType) : Statement (.fsetp g c t) := by
  intro _ hw
  cases c <;> cases t <;> (simp only [encode, decode, decodeFields, decFloat, encG_29, encG_28, encG_25_4, encG_25_3, encG_16_1, encG_16_2, encG_16_3, encG_16_4, encG_16_7, encG_17_1, encG_17_3, encG_17_6, encG_18_1, encG_18_5, encG_19_1, encG_19_4, encG_20_3, decG_enc, lift, lift2, lift3, guardE]; first | rfl | exact Bool.noConfusion (show false = true from hw))

theorem frcp (g : G) : Statement (.frcp g) := by
  intro _ hw
  (simp only [encode, decode, decodeFields, decFloat, decMajor2a, encG_29, encG_28, encG_25_4, encG_25_3, encG_16_1, encG_16_2, encG_16_3, encG_16_4, encG_16_7, encG_17_1, encG_17_3, encG_17_6, encG_18_1, encG_18_5, encG_19_1, encG_19_4, encG_20_3, decG_enc, lift, lift2, lift3, guardE]; first | rfl | exact Bool.noConfusion (show false = true from hw))

theorem frsq (g : G) : Statement (.frsq g) := by
  intro _ hw
  (simp only [encode, decode, decodeFields, decFloat, decMajor2a, encG_29, encG_28, encG_25_4, encG_25_3, encG_16_1, encG_16_2, encG_16_3, encG_16_4, encG_16_7, encG_17_1, encG_17_3, encG_17_6, encG_18_1, encG_18_5, encG_19_1, encG_19_4, encG_20_3, decG_enc, lift, lift2, lift3, guardE]; first | rfl | exact Bool.noConfusion (show false = true from hw))

theorem fexp2 (g : G) : Statement (.fexp2 g) := by
  intro _ hw
  (simp only [encode, decode, decodeFields, decFloat, decMajor2a, encG_29, encG_28, encG_25_4, encG_25_3, encG_16_1, encG_16_2, encG_16_3, encG_16_4, encG_16_7, encG_17_1, encG_17_3, encG_17_6, encG_18_1, encG_18_5, encG_19_1, encG_19_4, encG_20_3, decG_enc, lift, lift2, lift3, guardE]; first | rfl | exact Bool.noConfusion (show false = true from hw))

theorem flog2 (g : G) : Statement (.flog2 g) := by
  intro _ hw
  (simp only [encode, decode, decodeFields, decFloat, decMajor2a, encG_29, encG_28, encG_25_4, encG_25_3, encG_16_1, encG_16_2, encG_16_3, encG_16_4, encG_16_7, encG_17_1, encG_17_3, encG_17_6, encG_18_1, encG_18_5, encG_19_1, encG_19_4, encG_20_3, decG_enc, lift, lift2, lift3, guardE]; first | rfl | exact Bool.noConfusion (show false = true from hw))

theorem fsin (g : G) : Statement (.fsin g) := by
  intro _ hw
  (simp only [encode, decode, decodeFields, decFloat, decMajor2a, encG_29, encG_28, encG_25_4, encG_25_3, encG_16_1, encG_16_2, encG_16_3, encG_16_4, encG_16_7, encG_17_1, encG_17_3, encG_17_6, encG_18_1, encG_18_5, encG_19_1, encG_19_4, encG_20_3, decG_enc, lift, lift2, lift3, guardE]; first | rfl | exact Bool.noConfusion (show false = true from hw))

theorem fcos (g : G) : Statement (.fcos g) := by
  intro _ hw
  (simp only [encode, decode, decodeFields, decFloat, decMajor2a, encG_29, encG_28, encG_25_4, encG_25_3, encG_16_1, encG_16_2, encG_16_3, encG_16_4, encG_16_7, encG_17_1, encG_17_3, encG_17_6, encG_18_1, encG_18_5, encG_19_1, encG_19_4, encG_20_3, decG_enc, lift, lift2, lift3, guardE]; first | rfl | exact Bool.noConfusion (show false = true from hw))

theorem ftanh (g : G) : Statement (.ftanh g) := by
  intro _ hw
  (simp only [encode, decode, decodeFields, decFloat, decMajor2a, encG_29, encG_28, encG_25_4, encG_25_3, encG_16_1, encG_16_2, encG_16_3, encG_16_4, encG_16_7, encG_17_1, encG_17_3, encG_17_6, encG_18_1, encG_18_5, encG_19_1, encG_19_4, encG_20_3, decG_enc, lift, lift2, lift3, guardE]; first | rfl | exact Bool.noConfusion (show false = true from hw))

theorem expsub (g : G) : Statement (.expsub g) := by
  intro _ hw
  (simp only [encode, decode, decodeFields, decFloat, decMajor2a, encG_29, encG_28, encG_25_4, encG_25_3, encG_16_1, encG_16_2, encG_16_3, encG_16_4, encG_16_7, encG_17_1, encG_17_3, encG_17_6, encG_18_1, encG_18_5, encG_19_1, encG_19_4, encG_20_3, decG_enc, lift, lift2, lift3, guardE]; first | rfl | exact Bool.noConfusion (show false = true from hw))

theorem fdot2 (g : G) (t : HType) : Statement (.fdot2 g t) := by
  intro _ hw
  cases t <;> (simp only [encode, decode, decodeFields, decFloat, encG_29, encG_28, encG_25_4, encG_25_3, encG_16_1, encG_16_2, encG_16_3, encG_16_4, encG_16_7, encG_17_1, encG_17_3, encG_17_6, encG_18_1, encG_18_5, encG_19_1, encG_19_4, encG_20_3, decG_enc, lift, lift2, lift3, guardE]; first | rfl | exact Bool.noConfusion (show false = true from hw))

theorem cvt (g : G) (dst : Fmt) (src : Fmt) : Statement (.cvt g dst src) := by
  intro _ hw
  have h1 : fld (encode (.cvt g dst src)) 19 4 = encFmt dst :=
    (encG_19_4 _ _ _).trans (field_up (field_all _))
  have h2 : fld (encode (.cvt g dst src)) 16 3 = (encFmt src).extractLsb' 0 3 :=
    (encG_16_3 _ _ _).trans (field_down (field_all _))
  have h3 : decFmt (0#1 ++ (encFmt src).extractLsb' 0 3) = .ok src := by
    cases src <;> first | rfl | exact Bool.noConfusion (show false = true from hw)
  have h4 : decFmt (encFmt dst) = .ok dst := by cases dst <;> rfl
  simp only [decode, decodeFields, decFloat, h1, h2, h3, h4]
  simp only [encode, encG_29, encG_28, encG_25_3, decG_enc, lift3]
  exact if_pos hw

theorem cvtSourceHigh (g : G) (dst : Fmt) (src : Fmt) : Statement (.cvtSourceHigh g dst src) := by
  intro _ hw
  have h1 : fld (encode (.cvtSourceHigh g dst src)) 19 4 = encFmt dst :=
    (encG_19_4 _ _ _).trans (field_up (field_all _))
  have h2 : fld (encode (.cvtSourceHigh g dst src)) 16 3 = (encFmt src).extractLsb' 0 3 :=
    (encG_16_3 _ _ _).trans (field_down (field_all _))
  have h3 : decFmt (1#1 ++ (encFmt src).extractLsb' 0 3) = .ok src := by
    cases src <;> first | rfl | exact Bool.noConfusion (show false = true from hw)
  have h4 : decFmt (encFmt dst) = .ok dst := by cases dst <;> rfl
  simp only [decode, decodeFields, decFloat, h1, h2, h3, h4]
  simp only [encode, encG_29, encG_28, encG_25_3, decG_enc, lift3]
  exact if_pos hw

theorem cvtmx (g : G) (src : MxSrc) (elem : MxElem) : Statement (.cvtmx g src elem) := by
  intro _ hw
  cases src <;> cases elem <;> (simp only [encode, decode, decodeFields, decFloat, encG_29, encG_28, encG_25_4, encG_25_3, encG_16_1, encG_16_2, encG_16_3, encG_16_4, encG_16_7, encG_17_1, encG_17_3, encG_17_6, encG_18_1, encG_18_5, encG_19_1, encG_19_4, encG_20_3, decG_enc, lift, lift2, lift3, guardE]; first | rfl | exact Bool.noConfusion (show false = true from hw))

theorem shfl (g : G) (wide : Bool) (mode : ShflMode) : Statement (.shfl g wide mode) := by
  intro _ hw
  cases wide <;> cases mode <;> (simp only [encode, decode, decodeFields, decLane, encG_29, encG_28, encG_25_4, encG_25_3, encG_16_1, encG_16_2, encG_16_3, encG_16_4, encG_16_7, encG_17_1, encG_17_3, encG_17_6, encG_18_1, encG_18_5, encG_19_1, encG_19_4, encG_20_3, decG_enc, lift, lift2, lift3, guardE]; first | rfl | exact Bool.noConfusion (show false = true from hw))

theorem vote (g : G) (op : VoteOp) : Statement (.vote g op) := by
  intro _ hw
  cases op <;> (simp only [encode, decode, decodeFields, decLane, encG_29, encG_28, encG_25_4, encG_25_3, encG_16_1, encG_16_2, encG_16_3, encG_16_4, encG_16_7, encG_17_1, encG_17_3, encG_17_6, encG_18_1, encG_18_5, encG_19_1, encG_19_4, encG_20_3, decG_enc, lift, lift2, lift3, guardE]; first | rfl | exact Bool.noConfusion (show false = true from hw))

theorem redux (g : G) (op : ReduxOp) (t : IType) : Statement (.redux g op t) := by
  intro _ hw
  cases op <;> cases t <;> (simp only [encode, decode, decodeFields, decLane, encG_29, encG_28, encG_25_4, encG_25_3, encG_16_1, encG_16_2, encG_16_3, encG_16_4, encG_16_7, encG_17_1, encG_17_3, encG_17_6, encG_18_1, encG_18_5, encG_19_1, encG_19_4, encG_20_3, decG_enc, lift, lift2, lift3, guardE]; first | rfl | exact Bool.noConfusion (show false = true from hw))

theorem scan (g : G) (op : ReduxOp) (t : IType) : Statement (.scan g op t) := by
  intro _ hw
  cases op <;> cases t <;> (simp only [encode, decode, decodeFields, decLane, encG_29, encG_28, encG_25_4, encG_25_3, encG_16_1, encG_16_2, encG_16_3, encG_16_4, encG_16_7, encG_17_1, encG_17_3, encG_17_6, encG_18_1, encG_18_5, encG_19_1, encG_19_4, encG_20_3, decG_enc, lift, lift2, lift3, guardE]; first | rfl | exact Bool.noConfusion (show false = true from hw))

theorem matchLanes (g : G) (wide : Bool) : Statement (.matchLanes g wide) := by
  intro _ hw
  cases wide <;> (simp only [encode, decode, decodeFields, decLane, decMajor44, encG_29, encG_28, encG_25_4, encG_25_3, encG_16_1, encG_16_2, encG_16_3, encG_16_4, encG_16_7, encG_17_1, encG_17_3, encG_17_6, encG_18_1, encG_18_5, encG_19_1, encG_19_4, encG_20_3, decG_enc, lift, lift2, lift3, guardE]; first | rfl | exact Bool.noConfusion (show false = true from hw))

theorem elect (g : G) : Statement (.elect g) := by
  intro _ hw
  (simp only [encode, decode, decodeFields, decLane, decMajor44, encG_29, encG_28, encG_25_4, encG_25_3, encG_16_1, encG_16_2, encG_16_3, encG_16_4, encG_16_7, encG_17_1, encG_17_3, encG_17_6, encG_18_1, encG_18_5, encG_19_1, encG_19_4, encG_20_3, decG_enc, lift, lift2, lift3, guardE]; first | rfl | exact Bool.noConfusion (show false = true from hw))

theorem actmask (g : G) : Statement (.actmask g) := by
  intro _ hw
  (simp only [encode, decode, decodeFields, decLane, decMajor44, encG_29, encG_28, encG_25_4, encG_25_3, encG_16_1, encG_16_2, encG_16_3, encG_16_4, encG_16_7, encG_17_1, encG_17_3, encG_17_6, encG_18_1, encG_18_5, encG_19_1, encG_19_4, encG_20_3, decG_enc, lift, lift2, lift3, guardE]; first | rfl | exact Bool.noConfusion (show false = true from hw))

theorem ld (m : M) : Statement (.ld m) := by
  intro _ hw
  simp only [encode, decode, decodeFields, decMem, encM_29, encM_28, encM_25, decM_enc, lift]
  exact if_pos hw

theorem st (m : M) : Statement (.st m) := by
  intro _ hw
  simp only [encode, decode, decodeFields, decMem, encM_29, encM_28, encM_25, decM_enc, lift]
  exact if_pos hw

theorem ldb (m : M) : Statement (.ldb m) := by
  intro _ hw
  simp only [encode, decode, decodeFields, decMem, encM_29, encM_28, encM_25, decM_enc, lift]
  exact if_pos hw

theorem ldacq (m : MS) : Statement (.ldacq m) := by
  intro _ hw
  simp only [encode, decode, decodeFields, decMem, encMS_29, encMS_28, encMS_25, decMS_enc, lift]
  exact if_pos hw

theorem strel (m : MS) : Statement (.strel m) := by
  intro _ hw
  simp only [encode, decode, decodeFields, decMem, encMS_29, encMS_28, encMS_25, decMS_enc, lift]
  exact if_pos hw

theorem stMc (m : M) : Statement (.stMc m) := by
  intro _ hw
  simp only [encode, decode, decodeFields, decMem, encM_29, encM_28, encM_25, decM_enc, lift]
  exact if_pos hw

theorem pref (pred : Pred) (lsid : BitVec 4) (l1 : Bool) (off : BitVec 8) : Statement (.pref pred lsid l1 off) := by
  intro _ hw
  have f29_3 : fld (encode (.pref pred lsid l1 off)) 29 3 = 4#3 := field_up (field_up (field_up (field_up (field_up (field_up (by decide))))))
  have f28_4 : fld (encode (.pref pred lsid l1 off)) 28 4 = 9#4 := field_up (field_up (field_up (field_up (field_up (field_up (by decide))))))
  have f25_3 : fld (encode (.pref pred lsid l1 off)) 25 3 = 6#3 := field_up (field_up (field_up (field_up (field_up (field_up (by decide))))))
  have f17_2 : fld (encode (.pref pred lsid l1 off)) 17 2 = 0#2 := field_up (field_up (field_up (field_down (field_all _))))
  have f0_8 : fld (encode (.pref pred lsid l1 off)) 0 8 = 0xff#8 := field_down (field_all _)
  have f19_4 : fld (encode (.pref pred lsid l1 off)) 19 4 = lsid := field_up (field_up (field_up (field_up (field_down (field_all _)))))
  have f16_1 : fld (encode (.pref pred lsid l1 off)) 16 1 = ofBool1 l1 := field_up (field_up (field_down (field_all _)))
  have f8_8 : fld (encode (.pref pred lsid l1 off)) 8 8 = off := field_up (field_down (field_all _))
  have f23_2 : fld (encode (.pref pred lsid l1 off)) 23 2 = encPred pred := field_up (field_up (field_up (field_up (field_up (field_down (field_all _))))))
  simp only [decode, decodeFields, decMem, f29_3, f28_4, f25_3, f17_2, f0_8, f19_4, f16_1, f8_8, f23_2, decPred_enc, decTarget_enc, decWidth_enc, decScope_enc, decOrder_enc, decAOp_enc, decFenceKind_enc, bit1_ofBool1, lift, lift2, lift3, guardE]
  first | rfl | exact if_pos hw | simpa using hw

theorem atom (a : A) : Statement (.atom a) := by
  intro _ hw
  simp only [encode, decode, decodeFields, decMem, encA_29, encA_28, encA_25, decA_enc, lift]
  exact if_pos hw

theorem red (pred : Pred) (lsid : BitVec 4) (wide : Bool) (scope : Scope) (order : RedOrder) (op : AOp) : Statement (.red pred lsid wide scope order op) := by
  intro _ hw
  cases order
  · have f29_3 : fld (encode (.red pred lsid wide scope .none op)) 29 3 = 5#3 := field_up (field_up (field_up (field_up (field_up (field_up (field_up (field_up (by decide))))))))
    have f28_4 : fld (encode (.red pred lsid wide scope .none op)) 28 4 = 10#4 := field_up (field_up (field_up (field_up (field_up (field_up (field_up (field_up (by decide))))))))
    have f25_3 : fld (encode (.red pred lsid wide scope .none op)) 25 3 = 0#3 := field_up (field_up (field_up (field_up (field_up (field_up (field_up (field_up (by decide))))))))
    have f0_8 : fld (encode (.red pred lsid wide scope .none op)) 0 8 = 0xff#8 := field_down (field_all _)
    have f13_1 : fld (encode (.red pred lsid wide scope .none op)) 13 1 = 0#1 := field_up (field_up (field_down (field_all _)))
    have f19_4 : fld (encode (.red pred lsid wide scope .none op)) 19 4 = lsid := field_up (field_up (field_up (field_up (field_up (field_up (field_down (field_all _)))))))
    have f18_1 : fld (encode (.red pred lsid wide scope .none op)) 18 1 = ofBool1 wide := field_up (field_up (field_up (field_up (field_up (field_down (field_all _))))))
    have f14_1 : fld (encode (.red pred lsid wide scope .none op)) 14 1 = 0#1 := field_up (field_up (field_up (field_down (field_all _))))
    have f23_2 : fld (encode (.red pred lsid wide scope .none op)) 23 2 = encPred pred := field_up (field_up (field_up (field_up (field_up (field_up (field_up (field_down (field_all _))))))))
    have f15_3 : fld (encode (.red pred lsid wide scope .none op)) 15 3 = encScope scope := field_up (field_up (field_up (field_up (field_down (field_all _)))))
    have f8_5 : fld (encode (.red pred lsid wide scope .none op)) 8 5 = encAOp op := field_up (field_down (field_all _))
    simp only [decode, decodeFields, decMem2, f29_3, f28_4, f25_3, f0_8, f13_1, f19_4, f18_1, f14_1, f23_2, f15_3, f8_5, decPred_enc, decTarget_enc, decWidth_enc, decScope_enc, decOrder_enc, decAOp_enc, decFenceKind_enc, bit1_ofBool1, lift, lift2, lift3, guardE]
    first | rfl | exact if_pos hw | simpa using hw
  · have f29_3 : fld (encode (.red pred lsid wide scope .rel op)) 29 3 = 5#3 := field_up (field_up (field_up (field_up (field_up (field_up (field_up (field_up (by decide))))))))
    have f28_4 : fld (encode (.red pred lsid wide scope .rel op)) 28 4 = 10#4 := field_up (field_up (field_up (field_up (field_up (field_up (field_up (field_up (by decide))))))))
    have f25_3 : fld (encode (.red pred lsid wide scope .rel op)) 25 3 = 0#3 := field_up (field_up (field_up (field_up (field_up (field_up (field_up (field_up (by decide))))))))
    have f0_8 : fld (encode (.red pred lsid wide scope .rel op)) 0 8 = 0xff#8 := field_down (field_all _)
    have f13_1 : fld (encode (.red pred lsid wide scope .rel op)) 13 1 = 0#1 := field_up (field_up (field_down (field_all _)))
    have f19_4 : fld (encode (.red pred lsid wide scope .rel op)) 19 4 = lsid := field_up (field_up (field_up (field_up (field_up (field_up (field_down (field_all _)))))))
    have f18_1 : fld (encode (.red pred lsid wide scope .rel op)) 18 1 = ofBool1 wide := field_up (field_up (field_up (field_up (field_up (field_down (field_all _))))))
    have f14_1 : fld (encode (.red pred lsid wide scope .rel op)) 14 1 = 1#1 := field_up (field_up (field_up (field_down (field_all _))))
    have f23_2 : fld (encode (.red pred lsid wide scope .rel op)) 23 2 = encPred pred := field_up (field_up (field_up (field_up (field_up (field_up (field_up (field_down (field_all _))))))))
    have f15_3 : fld (encode (.red pred lsid wide scope .rel op)) 15 3 = encScope scope := field_up (field_up (field_up (field_up (field_down (field_all _)))))
    have f8_5 : fld (encode (.red pred lsid wide scope .rel op)) 8 5 = encAOp op := field_up (field_down (field_all _))
    simp only [decode, decodeFields, decMem2, f29_3, f28_4, f25_3, f0_8, f13_1, f19_4, f18_1, f14_1, f23_2, f15_3, f8_5, decPred_enc, decTarget_enc, decWidth_enc, decScope_enc, decOrder_enc, decAOp_enc, decFenceKind_enc, bit1_ofBool1, lift, lift2, lift3, guardE]
    first | rfl | exact if_pos hw | simpa using hw

theorem cas (pred : Pred) (lsid : BitVec 4) (wide : Bool) (scope : Scope) (order : Order) (t0 : Target) : Statement (.cas pred lsid wide scope order t0) := by
  intro _ hw
  have f29_3 : fld (encode (.cas pred lsid wide scope order t0)) 29 3 = 5#3 := field_up (field_up (field_up (field_up (field_up (field_up (field_up (by decide)))))))
  have f28_4 : fld (encode (.cas pred lsid wide scope order t0)) 28 4 = 10#4 := field_up (field_up (field_up (field_up (field_up (field_up (field_up (by decide)))))))
  have f25_3 : fld (encode (.cas pred lsid wide scope order t0)) 25 3 = 1#3 := field_up (field_up (field_up (field_up (field_up (field_up (field_up (by decide)))))))
  have f0_8 : fld (encode (.cas pred lsid wide scope order t0)) 0 8 = encTarget t0 := field_down (field_all _)
  have f13_2 : fld (encode (.cas pred lsid wide scope order t0)) 13 2 = encOrder order := field_up (field_up (field_down (field_all _)))
  have f19_4 : fld (encode (.cas pred lsid wide scope order t0)) 19 4 = lsid := field_up (field_up (field_up (field_up (field_up (field_down (field_all _))))))
  have f18_1 : fld (encode (.cas pred lsid wide scope order t0)) 18 1 = ofBool1 wide := field_up (field_up (field_up (field_up (field_down (field_all _)))))
  have f23_2 : fld (encode (.cas pred lsid wide scope order t0)) 23 2 = encPred pred := field_up (field_up (field_up (field_up (field_up (field_up (field_down (field_all _)))))))
  have f15_3 : fld (encode (.cas pred lsid wide scope order t0)) 15 3 = encScope scope := field_up (field_up (field_up (field_down (field_all _))))
  have f8_5 : fld (encode (.cas pred lsid wide scope order t0)) 8 5 = 0#5 := field_up (field_down (field_all _))
  simp only [decode, decodeFields, decMem2, f29_3, f28_4, f25_3, f0_8, f13_2, f19_4, f18_1, f23_2, f15_3, f8_5, decPred_enc, decTarget_enc, decWidth_enc, decScope_enc, decOrder_enc, decAOp_enc, decFenceKind_enc, bit1_ofBool1, lift, lift2, lift3, guardE]
  first | rfl | exact if_pos hw | simpa using hw

theorem fence (pred : Pred) (lsid : BitVec 4) (kind : FenceKind) (scope : Scope) : Statement (.fence pred lsid kind scope) := by
  intro _ hw
  cases kind
  · have f29_3 : fld (encode (.fence pred lsid .acq scope)) 29 3 = 5#3 := field_up (field_up (field_up (field_up (field_up (field_up (by decide))))))
    have f28_4 : fld (encode (.fence pred lsid .acq scope)) 28 4 = 10#4 := field_up (field_up (field_up (field_up (field_up (field_up (by decide))))))
    have f25_3 : fld (encode (.fence pred lsid .acq scope)) 25 3 = 2#3 := field_up (field_up (field_up (field_up (field_up (field_up (by decide))))))
    have f14_5 : fld (encode (.fence pred lsid .acq scope)) 14 5 = 0#5 := field_up (field_up (field_up (field_down (field_all _))))
    have f0_8 : fld (encode (.fence pred lsid .acq scope)) 0 8 = 0xff#8 := field_down (field_all _)
    have f11_3 : fld (encode (.fence pred lsid .acq scope)) 11 3 = 0#3 := field_up (field_up (field_down (field_all _)))
    have f19_4 : fld (encode (.fence pred lsid .acq scope)) 19 4 = lsid := field_up (field_up (field_up (field_up (field_down (field_all _)))))
    have f23_2 : fld (encode (.fence pred lsid .acq scope)) 23 2 = encPred pred := field_up (field_up (field_up (field_up (field_up (field_down (field_all _))))))
    have f8_3 : fld (encode (.fence pred lsid .acq scope)) 8 3 = encScope scope := field_up (field_down (field_all _))
    simp only [decode, decodeFields, decMem2, f29_3, f28_4, f25_3, f14_5, f0_8, f11_3, f19_4, f23_2, f8_3, decFence, decPred_enc, decTarget_enc, decWidth_enc, decScope_enc, decOrder_enc, decAOp_enc, decFenceKind_enc, bit1_ofBool1, lift, lift2, lift3, guardE]
    first | rfl | exact if_pos hw | simpa using hw
  · have f29_3 : fld (encode (.fence pred lsid .rel scope)) 29 3 = 5#3 := field_up (field_up (field_up (field_up (field_up (field_up (by decide))))))
    have f28_4 : fld (encode (.fence pred lsid .rel scope)) 28 4 = 10#4 := field_up (field_up (field_up (field_up (field_up (field_up (by decide))))))
    have f25_3 : fld (encode (.fence pred lsid .rel scope)) 25 3 = 2#3 := field_up (field_up (field_up (field_up (field_up (field_up (by decide))))))
    have f14_5 : fld (encode (.fence pred lsid .rel scope)) 14 5 = 0#5 := field_up (field_up (field_up (field_down (field_all _))))
    have f0_8 : fld (encode (.fence pred lsid .rel scope)) 0 8 = 0xff#8 := field_down (field_all _)
    have f11_3 : fld (encode (.fence pred lsid .rel scope)) 11 3 = 1#3 := field_up (field_up (field_down (field_all _)))
    have f19_4 : fld (encode (.fence pred lsid .rel scope)) 19 4 = lsid := field_up (field_up (field_up (field_up (field_down (field_all _)))))
    have f23_2 : fld (encode (.fence pred lsid .rel scope)) 23 2 = encPred pred := field_up (field_up (field_up (field_up (field_up (field_down (field_all _))))))
    have f8_3 : fld (encode (.fence pred lsid .rel scope)) 8 3 = encScope scope := field_up (field_down (field_all _))
    simp only [decode, decodeFields, decMem2, f29_3, f28_4, f25_3, f14_5, f0_8, f11_3, f19_4, f23_2, f8_3, decFence, decPred_enc, decTarget_enc, decWidth_enc, decScope_enc, decOrder_enc, decAOp_enc, decFenceKind_enc, bit1_ofBool1, lift, lift2, lift3, guardE]
    first | rfl | exact if_pos hw | simpa using hw
  · have f29_3 : fld (encode (.fence pred lsid .ar scope)) 29 3 = 5#3 := field_up (field_up (field_up (field_up (field_up (field_up (by decide))))))
    have f28_4 : fld (encode (.fence pred lsid .ar scope)) 28 4 = 10#4 := field_up (field_up (field_up (field_up (field_up (field_up (by decide))))))
    have f25_3 : fld (encode (.fence pred lsid .ar scope)) 25 3 = 2#3 := field_up (field_up (field_up (field_up (field_up (field_up (by decide))))))
    have f14_5 : fld (encode (.fence pred lsid .ar scope)) 14 5 = 0#5 := field_up (field_up (field_up (field_down (field_all _))))
    have f0_8 : fld (encode (.fence pred lsid .ar scope)) 0 8 = 0xff#8 := field_down (field_all _)
    have f11_3 : fld (encode (.fence pred lsid .ar scope)) 11 3 = 2#3 := field_up (field_up (field_down (field_all _)))
    have f19_4 : fld (encode (.fence pred lsid .ar scope)) 19 4 = lsid := field_up (field_up (field_up (field_up (field_down (field_all _)))))
    have f23_2 : fld (encode (.fence pred lsid .ar scope)) 23 2 = encPred pred := field_up (field_up (field_up (field_up (field_up (field_down (field_all _))))))
    have f8_3 : fld (encode (.fence pred lsid .ar scope)) 8 3 = encScope scope := field_up (field_down (field_all _))
    simp only [decode, decodeFields, decMem2, f29_3, f28_4, f25_3, f14_5, f0_8, f11_3, f19_4, f23_2, f8_3, decFence, decPred_enc, decTarget_enc, decWidth_enc, decScope_enc, decOrder_enc, decAOp_enc, decFenceKind_enc, bit1_ofBool1, lift, lift2, lift3, guardE]
    first | rfl | exact if_pos hw | simpa using hw
  · have f29_3 : fld (encode (.fence pred lsid .sc scope)) 29 3 = 5#3 := field_up (field_up (field_up (field_up (field_up (field_up (by decide))))))
    have f28_4 : fld (encode (.fence pred lsid .sc scope)) 28 4 = 10#4 := field_up (field_up (field_up (field_up (field_up (field_up (by decide))))))
    have f25_3 : fld (encode (.fence pred lsid .sc scope)) 25 3 = 2#3 := field_up (field_up (field_up (field_up (field_up (field_up (by decide))))))
    have f14_5 : fld (encode (.fence pred lsid .sc scope)) 14 5 = 0#5 := field_up (field_up (field_up (field_down (field_all _))))
    have f0_8 : fld (encode (.fence pred lsid .sc scope)) 0 8 = 0xff#8 := field_down (field_all _)
    have f11_3 : fld (encode (.fence pred lsid .sc scope)) 11 3 = 3#3 := field_up (field_up (field_down (field_all _)))
    have f19_4 : fld (encode (.fence pred lsid .sc scope)) 19 4 = lsid := field_up (field_up (field_up (field_up (field_down (field_all _)))))
    have f23_2 : fld (encode (.fence pred lsid .sc scope)) 23 2 = encPred pred := field_up (field_up (field_up (field_up (field_up (field_down (field_all _))))))
    have f8_3 : fld (encode (.fence pred lsid .sc scope)) 8 3 = encScope scope := field_up (field_down (field_all _))
    simp only [decode, decodeFields, decMem2, f29_3, f28_4, f25_3, f14_5, f0_8, f11_3, f19_4, f23_2, f8_3, decFence, decPred_enc, decTarget_enc, decWidth_enc, decScope_enc, decOrder_enc, decAOp_enc, decFenceKind_enc, bit1_ofBool1, lift, lift2, lift3, guardE]
    first | rfl | exact if_pos hw | simpa using hw

theorem fenceRep (pred : Pred) (lsid : BitVec 4) : Statement (.fenceRep pred lsid) := by
  intro _ hw
  have f29_3 : fld (encode (.fenceRep pred lsid)) 29 3 = 5#3 := field_up (field_up (field_up (field_up (field_up (field_up (by decide))))))
  have f28_4 : fld (encode (.fenceRep pred lsid)) 28 4 = 10#4 := field_up (field_up (field_up (field_up (field_up (field_up (by decide))))))
  have f25_3 : fld (encode (.fenceRep pred lsid)) 25 3 = 2#3 := field_up (field_up (field_up (field_up (field_up (field_up (by decide))))))
  have f14_5 : fld (encode (.fenceRep pred lsid)) 14 5 = 0#5 := field_up (field_up (field_up (field_down (field_all _))))
  have f0_8 : fld (encode (.fenceRep pred lsid)) 0 8 = 0xff#8 := field_down (field_all _)
  have f11_3 : fld (encode (.fenceRep pred lsid)) 11 3 = 4#3 := field_up (field_up (field_down (field_all _)))
  have f19_4 : fld (encode (.fenceRep pred lsid)) 19 4 = lsid := field_up (field_up (field_up (field_up (field_down (field_all _)))))
  have f23_2 : fld (encode (.fenceRep pred lsid)) 23 2 = encPred pred := field_up (field_up (field_up (field_up (field_up (field_down (field_all _))))))
  have f8_3 : fld (encode (.fenceRep pred lsid)) 8 3 = 4#3 := field_up (field_down (field_all _))
  simp only [decode, decodeFields, decMem2, f29_3, f28_4, f25_3, f14_5, f0_8, f11_3, f19_4, f23_2, f8_3, decFence, decPred_enc, decTarget_enc, decWidth_enc, decScope_enc, decOrder_enc, decAOp_enc, decFenceKind_enc, bit1_ofBool1, lift, lift2, lift3, guardE]
  first | rfl | exact if_pos hw | simpa using hw

theorem inval (pred : Pred) (lsid : BitVec 4) (off : BitVec 8) : Statement (.inval pred lsid off) := by
  intro _ hw
  have f29_3 : fld (encode (.inval pred lsid off)) 29 3 = 5#3 := field_up (field_up (field_up (field_up (field_up (by decide)))))
  have f28_4 : fld (encode (.inval pred lsid off)) 28 4 = 10#4 := field_up (field_up (field_up (field_up (field_up (by decide)))))
  have f25_3 : fld (encode (.inval pred lsid off)) 25 3 = 3#3 := field_up (field_up (field_up (field_up (field_up (by decide)))))
  have f16_3 : fld (encode (.inval pred lsid off)) 16 3 = 0#3 := field_up (field_up (field_down (field_all _)))
  have f0_8 : fld (encode (.inval pred lsid off)) 0 8 = 0xff#8 := field_down (field_all _)
  have f19_4 : fld (encode (.inval pred lsid off)) 19 4 = lsid := field_up (field_up (field_up (field_down (field_all _))))
  have f23_2 : fld (encode (.inval pred lsid off)) 23 2 = encPred pred := field_up (field_up (field_up (field_up (field_down (field_all _)))))
  have f8_8 : fld (encode (.inval pred lsid off)) 8 8 = off := field_up (field_down (field_all _))
  simp only [decode, decodeFields, decMem2, f29_3, f28_4, f25_3, f16_3, f0_8, f19_4, f23_2, f8_8, decPred_enc, decTarget_enc, decWidth_enc, decScope_enc, decOrder_enc, decAOp_enc, decFenceKind_enc, bit1_ofBool1, lift, lift2, lift3, guardE]
  first | rfl | exact if_pos hw | simpa using hw

theorem stmap (pred : Pred) (t0 : Target) : Statement (.stmap pred t0) := by
  intro _ hw
  have f29_3 : fld (encode (.stmap pred t0)) 29 3 = 5#3 := field_up (field_up (field_up (field_up (by decide))))
  have f28_4 : fld (encode (.stmap pred t0)) 28 4 = 10#4 := field_up (field_up (field_up (field_up (by decide))))
  have f25_3 : fld (encode (.stmap pred t0)) 25 3 = 7#3 := field_up (field_up (field_up (field_up (by decide))))
  have f16_4 : fld (encode (.stmap pred t0)) 16 4 = 0#4 := field_up (field_up (field_down (by decide)))
  have f20_3 : fld (encode (.stmap pred t0)) 20 3 = 0#3 := field_up (field_up (field_down (by decide)))
  have f8_8 : fld (encode (.stmap pred t0)) 8 8 = 0xff#8 := field_up (field_down (field_all _))
  have f0_8 : fld (encode (.stmap pred t0)) 0 8 = encTarget t0 := field_down (field_all _)
  have f23_2 : fld (encode (.stmap pred t0)) 23 2 = encPred pred := field_up (field_up (field_up (field_down (field_all _))))
  simp only [decode, decodeFields, decMem2, f29_3, f28_4, f25_3, f16_4, f20_3, f8_8, f0_8, f23_2, decMajor57, decPred_enc, decTarget_enc, decWidth_enc, decScope_enc, decOrder_enc, decAOp_enc, decFenceKind_enc, bit1_ofBool1, lift, lift2, lift3, guardE]
  first | rfl | exact if_pos hw | simpa using hw

theorem stunmap (pred : Pred) (t0 : Target) : Statement (.stunmap pred t0) := by
  intro _ hw
  have f29_3 : fld (encode (.stunmap pred t0)) 29 3 = 5#3 := field_up (field_up (field_up (field_up (by decide))))
  have f28_4 : fld (encode (.stunmap pred t0)) 28 4 = 10#4 := field_up (field_up (field_up (field_up (by decide))))
  have f25_3 : fld (encode (.stunmap pred t0)) 25 3 = 7#3 := field_up (field_up (field_up (field_up (by decide))))
  have f16_4 : fld (encode (.stunmap pred t0)) 16 4 = 0#4 := field_up (field_up (field_down (by decide)))
  have f20_3 : fld (encode (.stunmap pred t0)) 20 3 = 1#3 := field_up (field_up (field_down (by decide)))
  have f8_8 : fld (encode (.stunmap pred t0)) 8 8 = 0xff#8 := field_up (field_down (field_all _))
  have f0_8 : fld (encode (.stunmap pred t0)) 0 8 = encTarget t0 := field_down (field_all _)
  have f23_2 : fld (encode (.stunmap pred t0)) 23 2 = encPred pred := field_up (field_up (field_up (field_down (field_all _))))
  simp only [decode, decodeFields, decMem2, f29_3, f28_4, f25_3, f16_4, f20_3, f8_8, f0_8, f23_2, decMajor57, decPred_enc, decTarget_enc, decWidth_enc, decScope_enc, decOrder_enc, decAOp_enc, decFenceKind_enc, bit1_ofBool1, lift, lift2, lift3, guardE]
  first | rfl | exact if_pos hw | simpa using hw

theorem stflush (pred : Pred) (t0 : Target) : Statement (.stflush pred t0) := by
  intro _ hw
  have f29_3 : fld (encode (.stflush pred t0)) 29 3 = 5#3 := field_up (field_up (field_up (field_up (by decide))))
  have f28_4 : fld (encode (.stflush pred t0)) 28 4 = 10#4 := field_up (field_up (field_up (field_up (by decide))))
  have f25_3 : fld (encode (.stflush pred t0)) 25 3 = 7#3 := field_up (field_up (field_up (field_up (by decide))))
  have f16_4 : fld (encode (.stflush pred t0)) 16 4 = 0#4 := field_up (field_up (field_down (by decide)))
  have f20_3 : fld (encode (.stflush pred t0)) 20 3 = 2#3 := field_up (field_up (field_down (by decide)))
  have f8_8 : fld (encode (.stflush pred t0)) 8 8 = 0xff#8 := field_up (field_down (field_all _))
  have f0_8 : fld (encode (.stflush pred t0)) 0 8 = encTarget t0 := field_down (field_all _)
  have f23_2 : fld (encode (.stflush pred t0)) 23 2 = encPred pred := field_up (field_up (field_up (field_down (field_all _))))
  simp only [decode, decodeFields, decMem2, f29_3, f28_4, f25_3, f16_4, f20_3, f8_8, f0_8, f23_2, decMajor57, decPred_enc, decTarget_enc, decWidth_enc, decScope_enc, decOrder_enc, decAOp_enc, decFenceKind_enc, bit1_ofBool1, lift, lift2, lift3, guardE]
  first | rfl | exact if_pos hw | simpa using hw

theorem cpy (pred : Pred) : Statement (.cpy pred) := by
  unfold Statement
  cases pred <;> decide

theorem cpyg (g : G) : Statement (.cpyg g) := by
  intro _ hw
  (simp only [encode, decode, decodeFields, decCopy, encG_29, encG_28, encG_25_4, encG_25_3, encG_16_1, encG_16_2, encG_16_3, encG_16_4, encG_16_7, encG_17_1, encG_17_3, encG_17_6, encG_18_1, encG_18_5, encG_19_1, encG_19_4, encG_20_3, decG_enc, lift, lift2, lift3, guardE]; first | rfl | exact Bool.noConfusion (show false = true from hw))

theorem cpseal (pred : Pred) : Statement (.cpseal pred) := by
  unfold Statement
  cases pred <;> decide

theorem cpwait (pred : Pred) : Statement (.cpwait pred) := by
  unfold Statement
  cases pred <;> decide

theorem kvapp (pred : Pred) (src : MxSrc) : Statement (.kvapp pred src) := by
  unfold Statement
  cases pred <;> cases src <;> decide

theorem mma (pred : Pred) (tile : BitVec 3) (acc : Bool) (group : BitVec 2) : Statement (.mma pred tile acc group) := by
  unfold Statement
  cases pred <;> cases acc <;> (revert tile group; decide)

theorem mmas (pred : Pred) (tile : BitVec 3) (acc : Bool) (group : BitVec 2) : Statement (.mmas pred tile acc group) := by
  unfold Statement
  cases pred <;> cases acc <;> (revert tile group; decide)

theorem mzero (pred : Pred) (tile : BitVec 3) : Statement (.mzero pred tile) := by
  unfold Statement
  cases pred <;> (revert tile; decide)

theorem mdrain (pred : Pred) (tile : BitVec 3) (ep : Bool) (f64 : Bool) (group : BitVec 2) : Statement (.mdrain pred tile ep f64 group) := by
  unfold Statement
  cases pred <;> cases ep <;> cases f64 <;> (revert tile group; decide)

theorem mpeer (pred : Pred) (tile : BitVec 3) (s32 : Bool) : Statement (.mpeer pred tile s32) := by
  unfold Statement
  cases pred <;> cases s32 <;> (revert tile; decide)

theorem mprune (pred : Pred) (group : BitVec 2) : Statement (.mprune pred group) := by
  unfold Statement
  cases pred <;> (revert group; decide)

theorem mwait (pred : Pred) (tile : BitVec 3) : Statement (.mwait pred tile) := by
  unfold Statement
  cases pred <;> (revert tile; decide)

theorem mwaitAll (pred : Pred) : Statement (.mwaitAll pred) := by
  unfold Statement
  cases pred <;> decide

theorem tokpass (pred : Pred) : Statement (.tokpass pred) := by
  unfold Statement
  cases pred <;> decide

theorem barArrive (pred : Pred) (scope : Scope) (rel : Bool) (bytes : Bool) (so : Bool) : Statement (.barArrive pred scope rel bytes so) := by
  unfold Statement
  cases pred <;> cases scope <;> cases rel <;> cases bytes <;> cases so <;> decide

theorem barWait (g : G) (scope : Scope) (par : Bool) : Statement (.barWait g scope par) := by
  intro _ hw
  cases scope <;> cases par <;> (simp only [encode, decode, decodeFields, decSync, encG_29, encG_28, encG_25_4, encG_25_3, encG_16_1, encG_16_2, encG_16_3, encG_16_4, encG_16_7, encG_17_1, encG_17_3, encG_17_6, encG_18_1, encG_18_5, encG_19_1, encG_19_4, encG_20_3, decG_enc, lift, lift2, lift3, guardE]; first | rfl | exact Bool.noConfusion (show false = true from hw))

theorem barReg (pred : Pred) : Statement (.barReg pred) := by
  unfold Statement
  cases pred <;> decide

theorem barDrop (pred : Pred) : Statement (.barDrop pred) := by
  unfold Statement
  cases pred <;> decide

theorem barExpect (pred : Pred) : Statement (.barExpect pred) := by
  unfold Statement
  cases pred <;> decide

theorem plwait (pred : Pred) : Statement (.plwait pred) := by
  unfold Statement
  cases pred <;> decide

theorem yield (pred : Pred) : Statement (.yield pred) := by
  unfold Statement
  cases pred <;> decide

theorem rwrite (pred : Pred) : Statement (.rwrite pred) := by
  unfold Statement
  cases pred <;> decide

theorem rwwait (pred : Pred) (k : BitVec 2) : Statement (.rwwait pred k) := by
  unfold Statement
  cases pred <;> (revert k; decide)

theorem sleep (pred : Pred) : Statement (.sleep pred) := by
  unfold Statement
  cases pred <;> decide

theorem deq (g : G) (group : BitVec 2) : Statement (.deq g group) := by
  intro _ hw
  rcases bv2_cases group with rfl | rfl | rfl | rfl <;> (simp only [encode, decode, decodeFields, decWork, encG_29, encG_28, encG_25_4, encG_25_3, encG_16_1, encG_16_2, encG_16_3, encG_16_4, encG_16_7, encG_17_1, encG_17_3, encG_17_6, encG_18_1, encG_18_5, encG_19_1, encG_19_4, encG_20_3, decG_enc, lift, lift2, lift3, guardE]; first | rfl | exact Bool.noConfusion (show false = true from hw))

theorem enq (g : G) (group : BitVec 2) : Statement (.enq g group) := by
  intro _ hw
  rcases bv2_cases group with rfl | rfl | rfl | rfl <;> (simp only [encode, decode, decodeFields, decWork, encG_29, encG_28, encG_25_4, encG_25_3, encG_16_1, encG_16_2, encG_16_3, encG_16_4, encG_16_7, encG_17_1, encG_17_3, encG_17_6, encG_18_1, encG_18_5, encG_19_1, encG_19_4, encG_20_3, decG_enc, lift, lift2, lift3, guardE]; first | rfl | exact Bool.noConfusion (show false = true from hw))

theorem join (pred : Pred) (counted : Bool) : Statement (.join pred counted) := by
  unfold Statement
  cases pred <;> cases counted <;> decide

theorem sbpost (g : G) : Statement (.sbpost g) := by
  intro _ hw
  (simp only [encode, decode, decodeFields, decWork, encG_29, encG_28, encG_25_4, encG_25_3, encG_16_1, encG_16_2, encG_16_3, encG_16_4, encG_16_7, encG_17_1, encG_17_3, encG_17_6, encG_18_1, encG_18_5, encG_19_1, encG_19_4, encG_20_3, decG_enc, lift, lift2, lift3, guardE]; first | rfl | exact Bool.noConfusion (show false = true from hw))

theorem sbpostFail (g : G) : Statement (.sbpostFail g) := by
  intro _ hw
  (simp only [encode, decode, decodeFields, decWork, encG_29, encG_28, encG_25_4, encG_25_3, encG_16_1, encG_16_2, encG_16_3, encG_16_4, encG_16_7, encG_17_1, encG_17_3, encG_17_6, encG_18_1, encG_18_5, encG_19_1, encG_19_4, encG_20_3, decG_enc, lift, lift2, lift3, guardE]; first | rfl | exact Bool.noConfusion (show false = true from hw))

theorem sbquery (g : G) : Statement (.sbquery g) := by
  intro _ hw
  (simp only [encode, decode, decodeFields, decWork, encG_29, encG_28, encG_25_4, encG_25_3, encG_16_1, encG_16_2, encG_16_3, encG_16_4, encG_16_7, encG_17_1, encG_17_3, encG_17_6, encG_18_1, encG_18_5, encG_19_1, encG_19_4, encG_20_3, decG_enc, lift, lift2, lift3, guardE]; first | rfl | exact Bool.noConfusion (show false = true from hw))

theorem nmcall (pred : Pred) (group : BitVec 2) : Statement (.nmcall pred group) := by
  unfold Statement
  cases pred <;> (revert group; decide)

theorem rred (pred : Pred) : Statement (.rred pred) := by
  unfold Statement
  cases pred <;> decide

theorem nmret (pred : Pred) : Statement (.nmret pred) := by
  unfold Statement
  cases pred <;> decide

theorem nbop (g : G) (op : NbOp) : Statement (.nbop g op) := by
  intro _ hw
  cases op <;> (simp only [encode, decode, decodeFields, decWork, decMajor76, encG_29, encG_28, encG_25_4, encG_25_3, encG_16_1, encG_16_2, encG_16_3, encG_16_4, encG_16_7, encG_17_1, encG_17_3, encG_17_6, encG_18_1, encG_18_5, encG_19_1, encG_19_4, encG_20_3, decG_enc, lift, lift2, lift3, guardE]; first | rfl | exact Bool.noConfusion (show false = true from hw))

theorem nbmode (g : G) (compute : Bool) : Statement (.nbmode g compute) := by
  intro _ hw
  cases compute <;> (simp only [encode, decode, decodeFields, decWork, decMajor76, encG_29, encG_28, encG_25_4, encG_25_3, encG_16_1, encG_16_2, encG_16_3, encG_16_4, encG_16_7, encG_17_1, encG_17_3, encG_17_6, encG_18_1, encG_18_5, encG_19_1, encG_19_4, encG_20_3, decG_enc, lift, lift2, lift3, guardE]; first | rfl | exact Bool.noConfusion (show false = true from hw))

theorem gradq (pred : Pred) : Statement (.gradq pred) := by
  unfold Statement
  cases pred <;> decide

theorem sysrd (g : G) (r : SysReg) : Statement (.sysrd g r) := by
  intro _ hw
  cases r <;> (simp only [encode, decode, decodeFields, decSystem, encG_29, encG_28, encG_25_4, encG_25_3, encG_16_1, encG_16_2, encG_16_3, encG_16_4, encG_16_7, encG_17_1, encG_17_3, encG_17_6, encG_18_1, encG_18_5, encG_19_1, encG_19_4, encG_20_3, decG_enc, lift, lift2, lift3, guardE]; first | rfl | exact Bool.noConfusion (show false = true from hw))

theorem syswr (pred : Pred) : Statement (.syswr pred) := by
  unfold Statement
  cases pred <;> decide

theorem eret (pred : Pred) : Statement (.eret pred) := by
  unfold Statement
  cases pred <;> decide

theorem bkpt (pred : Pred) : Statement (.bkpt pred) := by
  unfold Statement
  cases pred <;> decide

theorem haltDbg (pred : Pred) : Statement (.haltDbg pred) := by
  unfold Statement
  cases pred <;> decide

theorem blockFetch (warp : WarpId) (strand : Nat) : Statement (.blockFetch warp strand) := event_coded rfl

theorem blockCommit  : Statement (.blockCommit) := event_coded rfl

theorem serialTokenGrant (die : Nat) : Statement (.serialTokenGrant die) := event_coded rfl

theorem strandRotation (warp : WarpId) : Statement (.strandRotation warp) := event_coded rfl

theorem backoffEnd (warp : WarpId) : Statement (.backoffEnd warp) := event_coded rfl

theorem watchChange (warp : WarpId) : Statement (.watchChange warp) := event_coded rfl

theorem blockRetry (warp : WarpId) (strand : Nat) : Statement (.blockRetry warp strand) := event_coded rfl

theorem depositApply (warp : WarpId) : Statement (.depositApply warp) := event_coded rfl

theorem sleepEnd (warp : WarpId) (strand : Nat) : Statement (.sleepEnd warp strand) := event_coded rfl

theorem deqTimeout (warp : WarpId) : Statement (.deqTimeout warp) := event_coded rfl

theorem joinRetry (die : Nat) : Statement (.joinRetry die) := event_coded rfl

theorem siblingPageRelease (handle : Nat) (sibling : Nat) : Statement (.siblingPageRelease handle sibling) := event_coded rfl

theorem hostEnqueue (vf : VF) (slot : Nat) (whole : Bool) (record : W512) : Statement (.hostEnqueue vf slot whole record) := event_coded rfl

theorem createContext (vf : VF) (cmd : W512) : Statement (.createContext vf cmd) := event_coded rfl

theorem destroyContext (vf : VF) (cmd : W512) : Statement (.destroyContext vf cmd) := event_coded rfl

theorem createQueue (vf : VF) (cmd : W512) : Statement (.createQueue vf cmd) := event_coded rfl

theorem destroyQueue (vf : VF) (cmd : W512) : Statement (.destroyQueue vf cmd) := event_coded rfl

theorem setClassAndWeight (vf : VF) (cmd : W512) : Statement (.setClassAndWeight vf cmd) := event_coded rfl

theorem queryQueue (vf : VF) (cmd : W512) : Statement (.queryQueue vf cmd) := event_coded rfl

theorem launch (vf : VF) (cmd : W512) : Statement (.launch vf cmd) := event_coded rfl

theorem mapWindow (vf : VF) (cmd : W512) : Statement (.mapWindow vf cmd) := event_coded rfl

theorem unmapWindow (vf : VF) (cmd : W512) : Statement (.unmapWindow vf cmd) := event_coded rfl

theorem bindPodAperture (vf : VF) (cmd : W512) : Statement (.bindPodAperture vf cmd) := event_coded rfl

theorem bindSecondPort (vf : VF) (cmd : W512) : Statement (.bindSecondPort vf cmd) := event_coded rfl

theorem invalidateTranslations (vf : VF) (cmd : W512) : Statement (.invalidateTranslations vf cmd) := event_coded rfl

theorem createSiblingGroup (vf : VF) (cmd : W512) : Statement (.createSiblingGroup vf cmd) := event_coded rfl

theorem swapOut (vf : VF) (cmd : W512) : Statement (.swapOut vf cmd) := event_coded rfl

theorem fill (vf : VF) (cmd : W512) : Statement (.fill vf cmd) := event_coded rfl

theorem swapIn (vf : VF) (cmd : W512) : Statement (.swapIn vf cmd) := event_coded rfl

theorem stop (vf : VF) (cmd : W512) : Statement (.stop vf cmd) := event_coded rfl

theorem start (vf : VF) (cmd : W512) : Statement (.start vf cmd) := event_coded rfl

theorem resumeServiceCall (vf : VF) (cmd : W512) : Statement (.resumeServiceCall vf cmd) := event_coded rfl

theorem restartSaveEngine (vf : VF) (cmd : W512) : Statement (.restartSaveEngine vf cmd) := event_coded rfl

theorem recoverContext (vf : VF) (cmd : W512) : Statement (.recoverContext vf cmd) := event_coded rfl

theorem spillComplete (context : Nat) : Statement (.spillComplete context) := event_coded rfl

theorem saveFault (context : Nat) (core : Nat) (address : W64) (progress : W32) : Statement (.saveFault context core address progress) := event_coded rfl

theorem readSensors (port : Bool) (arglen : BitVec 24) : Statement (.readSensors port arglen) := event_coded rfl

theorem setPowerLimit (port : Bool) (arglen : BitVec 24) : Statement (.setPowerLimit port arglen) := event_coded rfl

theorem attest (port : Bool) (arglen : BitVec 24) : Statement (.attest port arglen) := event_coded rfl

theorem readAlmanac (port : Bool) (arglen : BitVec 24) : Statement (.readAlmanac port arglen) := event_coded rfl

theorem writeUpdateChunk (port : Bool) (arglen : BitVec 24) : Statement (.writeUpdateChunk port arglen) := event_coded rfl

theorem commitUpdate (port : Bool) (arglen : BitVec 24) : Statement (.commitUpdate port arglen) := event_coded rfl

theorem setCalends (port : Bool) (arglen : BitVec 24) : Statement (.setCalends port arglen) := event_coded rfl

theorem warmStart (port : Bool) (arglen : BitVec 24) : Statement (.warmStart port arglen) := event_coded rfl

theorem coldStart (port : Bool) (arglen : BitVec 24) : Statement (.coldStart port arglen) := event_coded rfl

theorem podControlWrite (value : W32) : Statement (.podControlWrite value) := event_coded rfl

theorem fencedClear (module : Nat) : Statement (.fencedClear module) := event_coded rfl

theorem registerWrite (target : RegTarget) (value : W64) : Statement (.registerWrite target value) := event_coded rfl

theorem powerGood  : Statement (.powerGood) := event_coded rfl

theorem powerRemoval  : Statement (.powerRemoval) := event_coded rfl

theorem startStep (ok : Bool) : Statement (.startStep ok) := event_coded rfl

theorem pfReset (port : Bool) : Statement (.pfReset port) := event_coded rfl

theorem functionLevelReset (vf : VF) : Statement (.functionLevelReset vf) := event_coded rfl

theorem controlInterval (sensors : Sensors) : Statement (.controlInterval sensors) := event_coded rfl

theorem throttleEventTimeout (unit : Nat) : Statement (.throttleEventTimeout unit) := event_coded rfl

theorem atsInvalidation (port : Bool) (pasid : Nat) (address : W64) (length : W64) : Statement (.atsInvalidation port pasid address length) := event_coded rfl

theorem atsTranslationCompletion (context : Nat) (page : Nat) (asker : AtsAsker) (entry : Option AtsEntry) : Statement (.atsTranslationCompletion context page asker entry) := event_coded rfl

theorem pageResponse (context : Nat) (page : Nat) (code : PageCode) : Statement (.pageResponse context page code) := event_coded rfl

theorem hostTimeout (what : TimedOut) : Statement (.hostTimeout what) := event_coded rfl

theorem l2Retry (die : Nat) (slice : Nat) (request : Nat) : Statement (.l2Retry die slice request) := event_coded rfl

theorem reservationGrant (die : Nat) (slice : Nat) : Statement (.reservationGrant die slice) := event_coded rfl

theorem stashProbe (core : Nat) (context : Nat) (line : Nat) (invalidate : Bool) : Statement (.stashProbe core context line invalidate) := event_coded rfl

theorem stashAcknowledgement (core : Nat) : Statement (.stashAcknowledgement core) := event_coded rfl

theorem spanWriteArrival (die : Nat) : Statement (.spanWriteArrival die) := event_coded rfl

theorem spanError (dieA : Nat) (dieB : Nat) : Statement (.spanError dieA dieB) := event_coded rfl

theorem ualinkInboundRequest (r : UaRequest) : Statement (.ualinkInboundRequest r) := event_coded rfl

theorem ualinkInboundCompletion (tag : Nat) (epoch : Nat) : Statement (.ualinkInboundCompletion tag epoch) := event_coded rfl

theorem completionTimeout (tag : Nat) : Statement (.completionTimeout tag) := event_coded rfl

theorem outboundCompletionTimeout (module : Nat) : Statement (.outboundCompletionTimeout module) := event_coded rfl

theorem portFailure (port : Nat) : Statement (.portFailure port) := event_coded rfl

theorem reductionPacket (source : PodSource) (aperture : Nat) (packet : W512) : Statement (.reductionPacket source aperture packet) := event_coded rfl

theorem packetCompletion (tag : Nat) (epoch : Nat) (status : PacketStatus) : Statement (.packetCompletion tag epoch status) := event_coded rfl

theorem uncorrectableError (site : ErrorSite) : Statement (.uncorrectableError site) := event_coded rfl

theorem calendsBoundary (context : Nat) : Statement (.calendsBoundary context) := event_coded rfl

theorem earlyBoundary (stack : Nat) : Statement (.earlyBoundary stack) := event_coded rfl

theorem undoOverflow (context : Nat) : Statement (.undoOverflow context) := event_coded rfl

theorem boundaryExchange (context : Nat) (boundaries : List (Nat × Option Nat)) (rollback : Bool) : Statement (.boundaryExchange context boundaries rollback) := event_coded rfl

theorem matrixCommandStart (leader : Nat) : Statement (.matrixCommandStart leader) := event_coded rfl

theorem tileExpected (leader : Nat) : Statement (.tileExpected leader) := event_coded rfl

theorem matrixCommandComplete (leader : Nat) : Statement (.matrixCommandComplete leader) := event_coded rfl

theorem epilogueComplete (leader : Nat) : Statement (.epilogueComplete leader) := event_coded rfl

theorem epilogueStoreFault (core : Nat) : Statement (.epilogueStoreFault core) := event_coded rfl

theorem mpeerAdd (leader : Nat) : Statement (.mpeerAdd leader) := event_coded rfl

theorem mpeerTimeout (leader : Nat) : Statement (.mpeerTimeout leader) := event_coded rfl

theorem copyComplete (core : Nat) : Statement (.copyComplete core) := event_coded rfl

theorem copyFault (core : Nat) : Statement (.copyFault core) := event_coded rfl

theorem nmCallQueued (stack : Nat) : Statement (.nmCallQueued stack) := event_coded rfl

theorem nmCallStart (stack : Nat) : Statement (.nmCallStart stack) := event_coded rfl

theorem nmCallTimeout (stack : Nat) (call : Nat) : Statement (.nmCallTimeout stack call) := event_coded rfl

theorem nmCallReturn (stack : Nat) (call : Nat) : Statement (.nmCallReturn stack call) := event_coded rfl

theorem rowStepEnd (stack : Nat) : Statement (.rowStepEnd stack) := event_coded rfl

theorem modeSwitchComplete (stack : Nat) (pseudo : Nat) : Statement (.modeSwitchComplete stack pseudo) := event_coded rfl

theorem writePerformed  : Statement (.writePerformed) := event_coded rfl

theorem dispatcherSummaryReport (die : Nat) : Statement (.dispatcherSummaryReport die) := event_coded rfl

theorem serviceTrapRetry (warp : WarpId) : Statement (.serviceTrapRetry warp) := event_coded rfl

theorem correctedError (site : ErrorSite) : Statement (.correctedError site) := event_coded rfl

theorem unknownPrivilegedCommand (vf : VF) (cmd : W512) : Statement (.unknownPrivilegedCommand vf cmd) := event_coded rfl

theorem unknownMailboxCommand (port : Bool) (opcode : BitVec 8) (arglen : BitVec 24) : Statement (.unknownMailboxCommand port opcode arglen) := event_coded rfl

end Sys2Proof.Laws.Coded
end

