-- ==== Sys2Proof/Laws/State.lean ====
section
/-!
SUPPORT. What each named update of the state leaves in each field: one lemma for each field and update, true by
definition, so that no later proof unfolds a record update.
-/
set_option Elab.async false
namespace Sys2Proof.Machine

section
variable (s : State) (f : Frame)
@[simp] theorem setFrame_stepNo : (s.setFrame f).stepNo = s.stepNo := rfl
@[simp] theorem setFrame_ticks : (s.setFrame f).ticks = s.ticks := rfl
@[simp] theorem setFrame_cycles : (s.setFrame f).cycles = s.cycles := rfl
@[simp] theorem setFrame_pierCycles : (s.setFrame f).pierCycles = s.pierCycles := rfl
@[simp] theorem setFrame_inputs : (s.setFrame f).inputs = s.inputs := rfl
@[simp] theorem setFrame_power : (s.setFrame f).power = s.power := rfl
@[simp] theorem setFrame_startup : (s.setFrame f).startup = s.startup := rfl
@[simp] theorem setFrame_mailboxes : (s.setFrame f).mailboxes = s.mailboxes := rfl
@[simp] theorem setFrame_lastServed : (s.setFrame f).lastServed = s.lastServed := rfl
@[simp] theorem setFrame_almanac : (s.setFrame f).almanac = s.almanac := rfl
@[simp] theorem setFrame_almanacSeq : (s.setFrame f).almanacSeq = s.almanacSeq := rfl
@[simp] theorem setFrame_calends : (s.setFrame f).calends = s.calends := rfl
@[simp] theorem setFrame_corrected : (s.setFrame f).corrected = s.corrected := rfl
@[simp] theorem setFrame_pod : (s.setFrame f).pod = s.pod := rfl
@[simp] theorem setFrame_packets : (s.setFrame f).packets = s.packets := rfl
@[simp] theorem setFrame_lateArrivals : (s.setFrame f).lateArrivals = s.lateArrivals := rfl
@[simp] theorem setFrame_priv : (s.setFrame f).priv = s.priv := rfl
@[simp] theorem setFrame_contexts : (s.setFrame f).contexts = s.contexts := rfl
@[simp] theorem setFrame_queues : (s.setFrame f).queues = s.queues := rfl
@[simp] theorem setFrame_wrr : (s.setFrame f).wrr = s.wrr := rfl
@[simp] theorem setFrame_joinWaits : (s.setFrame f).joinWaits = s.joinWaits := rfl
@[simp] theorem setFrame_discards : (s.setFrame f).discards = s.discards := rfl
@[simp] theorem setFrame_summaries : (s.setFrame f).summaries = s.summaries := rfl
@[simp] theorem setFrame_groups : (s.setFrame f).groups = s.groups := rfl
@[simp] theorem setFrame_ballotSeq : (s.setFrame f).ballotSeq = s.ballotSeq := rfl
@[simp] theorem setFrame_windows : (s.setFrame f).windows = s.windows := rfl
@[simp] theorem setFrame_apertures : (s.setFrame f).apertures = s.apertures := rfl
@[simp] theorem setFrame_pageRequests : (s.setFrame f).pageRequests = s.pageRequests := rfl
@[simp] theorem setFrame_ats : (s.setFrame f).ats = s.ats := rfl
@[simp] theorem setFrame_tlb : (s.setFrame f).tlb = s.tlb := rfl
@[simp] theorem setFrame_warps : (s.setFrame f).warps = s.warps := rfl
@[simp] theorem setFrame_frames : (s.setFrame f).frames = f :: s.frames.tail := rfl
@[simp] theorem setFrame_early : (s.setFrame f).early = s.early := rfl
@[simp] theorem setFrame_tokens : (s.setFrame f).tokens = s.tokens := rfl
@[simp] theorem setFrame_arbiters : (s.setFrame f).arbiters = s.arbiters := rfl
@[simp] theorem setFrame_clocks : (s.setFrame f).clocks = s.clocks := rfl
@[simp] theorem setFrame_phasers : (s.setFrame f).phasers = s.phasers := rfl
@[simp] theorem setFrame_nextPhaser : (s.setFrame f).nextPhaser = s.nextPhaser := rfl
@[simp] theorem setFrame_copies : (s.setFrame f).copies = s.copies := rfl
@[simp] theorem setFrame_matrix : (s.setFrame f).matrix = s.matrix := rfl
@[simp] theorem setFrame_epilogues : (s.setFrame f).epilogues = s.epilogues := rfl
@[simp] theorem setFrame_tiles : (s.setFrame f).tiles = s.tiles := rfl
@[simp] theorem setFrame_allocs : (s.setFrame f).allocs = s.allocs := rfl
@[simp] theorem setFrame_pieces : (s.setFrame f).pieces = s.pieces := rfl
@[simp] theorem setFrame_nextAlloc : (s.setFrame f).nextAlloc = s.nextAlloc := rfl
@[simp] theorem setFrame_nextWarp : (s.setFrame f).nextWarp = s.nextWarp := rfl
@[simp] theorem setFrame_calls : (s.setFrame f).calls = s.calls := rfl
@[simp] theorem setFrame_nextCall : (s.setFrame f).nextCall = s.nextCall := rfl
@[simp] theorem setFrame_nearBanks : (s.setFrame f).nearBanks = s.nearBanks := rfl
@[simp] theorem setFrame_l1 : (s.setFrame f).l1 = s.l1 := rfl
@[simp] theorem setFrame_stashMaps : (s.setFrame f).stashMaps = s.stashMaps := rfl
@[simp] theorem setFrame_stashLines : (s.setFrame f).stashLines = s.stashLines := rfl
@[simp] theorem setFrame_acks : (s.setFrame f).acks = s.acks := rfl
@[simp] theorem setFrame_probes : (s.setFrame f).probes = s.probes := rfl
@[simp] theorem setFrame_l2 : (s.setFrame f).l2 = s.l2 := rfl
@[simp] theorem setFrame_writes : (s.setFrame f).writes = s.writes := rfl
@[simp] theorem setFrame_nextWrite : (s.setFrame f).nextWrite = s.nextWrite := rfl
@[simp] theorem setFrame_unarrived : (s.setFrame f).unarrived = s.unarrived := rfl
@[simp] theorem setFrame_past : (s.setFrame f).past = s.past := rfl
@[simp] theorem setFrame_moments : (s.setFrame f).moments = s.moments := rfl
@[simp] theorem setFrame_readers : (s.setFrame f).readers = s.readers := rfl
@[simp] theorem setFrame_poisoned : (s.setFrame f).poisoned = s.poisoned := rfl
@[simp] theorem setFrame_rewritten : (s.setFrame f).rewritten = s.rewritten := rfl
@[simp] theorem setFrame_stamps : (s.setFrame f).stamps = s.stamps := rfl
@[simp] theorem setFrame_hbm : (s.setFrame f).hbm = s.hbm := rfl
@[simp] theorem setFrame_host : (s.setFrame f).host = s.host := rfl
@[simp] theorem setFrame_store : (s.setFrame f).store = s.store := rfl
end

section
variable (s : State) (w : Warp)
@[simp] theorem setWarp_stepNo : (s.setWarp w).stepNo = s.stepNo := rfl
@[simp] theorem setWarp_ticks : (s.setWarp w).ticks = s.ticks := rfl
@[simp] theorem setWarp_cycles : (s.setWarp w).cycles = s.cycles := rfl
@[simp] theorem setWarp_pierCycles : (s.setWarp w).pierCycles = s.pierCycles := rfl
@[simp] theorem setWarp_inputs : (s.setWarp w).inputs = s.inputs := rfl
@[simp] theorem setWarp_power : (s.setWarp w).power = s.power := rfl
@[simp] theorem setWarp_startup : (s.setWarp w).startup = s.startup := rfl
@[simp] theorem setWarp_mailboxes : (s.setWarp w).mailboxes = s.mailboxes := rfl
@[simp] theorem setWarp_lastServed : (s.setWarp w).lastServed = s.lastServed := rfl
@[simp] theorem setWarp_almanac : (s.setWarp w).almanac = s.almanac := rfl
@[simp] theorem setWarp_almanacSeq : (s.setWarp w).almanacSeq = s.almanacSeq := rfl
@[simp] theorem setWarp_calends : (s.setWarp w).calends = s.calends := rfl
@[simp] theorem setWarp_corrected : (s.setWarp w).corrected = s.corrected := rfl
@[simp] theorem setWarp_pod : (s.setWarp w).pod = s.pod := rfl
@[simp] theorem setWarp_packets : (s.setWarp w).packets = s.packets := rfl
@[simp] theorem setWarp_lateArrivals : (s.setWarp w).lateArrivals = s.lateArrivals := rfl
@[simp] theorem setWarp_priv : (s.setWarp w).priv = s.priv := rfl
@[simp] theorem setWarp_contexts : (s.setWarp w).contexts = s.contexts := rfl
@[simp] theorem setWarp_queues : (s.setWarp w).queues = s.queues := rfl
@[simp] theorem setWarp_wrr : (s.setWarp w).wrr = s.wrr := rfl
@[simp] theorem setWarp_joinWaits : (s.setWarp w).joinWaits = s.joinWaits := rfl
@[simp] theorem setWarp_discards : (s.setWarp w).discards = s.discards := rfl
@[simp] theorem setWarp_summaries : (s.setWarp w).summaries = s.summaries := rfl
@[simp] theorem setWarp_groups : (s.setWarp w).groups = s.groups := rfl
@[simp] theorem setWarp_ballotSeq : (s.setWarp w).ballotSeq = s.ballotSeq := rfl
@[simp] theorem setWarp_windows : (s.setWarp w).windows = s.windows := rfl
@[simp] theorem setWarp_apertures : (s.setWarp w).apertures = s.apertures := rfl
@[simp] theorem setWarp_pageRequests : (s.setWarp w).pageRequests = s.pageRequests := rfl
@[simp] theorem setWarp_ats : (s.setWarp w).ats = s.ats := rfl
@[simp] theorem setWarp_tlb : (s.setWarp w).tlb = s.tlb := rfl
@[simp] theorem setWarp_warps : (s.setWarp w).warps = update (fun x => x.id = w.id) (fun _ => w) s.warps := rfl
@[simp] theorem setWarp_frames : (s.setWarp w).frames = s.frames := rfl
@[simp] theorem setWarp_early : (s.setWarp w).early = s.early := rfl
@[simp] theorem setWarp_tokens : (s.setWarp w).tokens = s.tokens := rfl
@[simp] theorem setWarp_arbiters : (s.setWarp w).arbiters = s.arbiters := rfl
@[simp] theorem setWarp_clocks : (s.setWarp w).clocks = s.clocks := rfl
@[simp] theorem setWarp_phasers : (s.setWarp w).phasers = s.phasers := rfl
@[simp] theorem setWarp_nextPhaser : (s.setWarp w).nextPhaser = s.nextPhaser := rfl
@[simp] theorem setWarp_copies : (s.setWarp w).copies = s.copies := rfl
@[simp] theorem setWarp_matrix : (s.setWarp w).matrix = s.matrix := rfl
@[simp] theorem setWarp_epilogues : (s.setWarp w).epilogues = s.epilogues := rfl
@[simp] theorem setWarp_tiles : (s.setWarp w).tiles = s.tiles := rfl
@[simp] theorem setWarp_allocs : (s.setWarp w).allocs = s.allocs := rfl
@[simp] theorem setWarp_pieces : (s.setWarp w).pieces = s.pieces := rfl
@[simp] theorem setWarp_nextAlloc : (s.setWarp w).nextAlloc = s.nextAlloc := rfl
@[simp] theorem setWarp_nextWarp : (s.setWarp w).nextWarp = s.nextWarp := rfl
@[simp] theorem setWarp_calls : (s.setWarp w).calls = s.calls := rfl
@[simp] theorem setWarp_nextCall : (s.setWarp w).nextCall = s.nextCall := rfl
@[simp] theorem setWarp_nearBanks : (s.setWarp w).nearBanks = s.nearBanks := rfl
@[simp] theorem setWarp_l1 : (s.setWarp w).l1 = s.l1 := rfl
@[simp] theorem setWarp_stashMaps : (s.setWarp w).stashMaps = s.stashMaps := rfl
@[simp] theorem setWarp_stashLines : (s.setWarp w).stashLines = s.stashLines := rfl
@[simp] theorem setWarp_acks : (s.setWarp w).acks = s.acks := rfl
@[simp] theorem setWarp_probes : (s.setWarp w).probes = s.probes := rfl
@[simp] theorem setWarp_l2 : (s.setWarp w).l2 = s.l2 := rfl
@[simp] theorem setWarp_writes : (s.setWarp w).writes = s.writes := rfl
@[simp] theorem setWarp_nextWrite : (s.setWarp w).nextWrite = s.nextWrite := rfl
@[simp] theorem setWarp_unarrived : (s.setWarp w).unarrived = s.unarrived := rfl
@[simp] theorem setWarp_past : (s.setWarp w).past = s.past := rfl
@[simp] theorem setWarp_moments : (s.setWarp w).moments = s.moments := rfl
@[simp] theorem setWarp_readers : (s.setWarp w).readers = s.readers := rfl
@[simp] theorem setWarp_poisoned : (s.setWarp w).poisoned = s.poisoned := rfl
@[simp] theorem setWarp_rewritten : (s.setWarp w).rewritten = s.rewritten := rfl
@[simp] theorem setWarp_stamps : (s.setWarp w).stamps = s.stamps := rfl
@[simp] theorem setWarp_hbm : (s.setWarp w).hbm = s.hbm := rfl
@[simp] theorem setWarp_host : (s.setWarp w).host = s.host := rfl
@[simp] theorem setWarp_store : (s.setWarp w).store = s.store := rfl
end

section
variable (s : State) (id : WarpId) (k : Warp → Warp)
@[simp] theorem onWarp_stepNo : (s.onWarp id k).stepNo = s.stepNo := rfl
@[simp] theorem onWarp_ticks : (s.onWarp id k).ticks = s.ticks := rfl
@[simp] theorem onWarp_cycles : (s.onWarp id k).cycles = s.cycles := rfl
@[simp] theorem onWarp_pierCycles : (s.onWarp id k).pierCycles = s.pierCycles := rfl
@[simp] theorem onWarp_inputs : (s.onWarp id k).inputs = s.inputs := rfl
@[simp] theorem onWarp_power : (s.onWarp id k).power = s.power := rfl
@[simp] theorem onWarp_startup : (s.onWarp id k).startup = s.startup := rfl
@[simp] theorem onWarp_mailboxes : (s.onWarp id k).mailboxes = s.mailboxes := rfl
@[simp] theorem onWarp_lastServed : (s.onWarp id k).lastServed = s.lastServed := rfl
@[simp] theorem onWarp_almanac : (s.onWarp id k).almanac = s.almanac := rfl
@[simp] theorem onWarp_almanacSeq : (s.onWarp id k).almanacSeq = s.almanacSeq := rfl
@[simp] theorem onWarp_calends : (s.onWarp id k).calends = s.calends := rfl
@[simp] theorem onWarp_corrected : (s.onWarp id k).corrected = s.corrected := rfl
@[simp] theorem onWarp_pod : (s.onWarp id k).pod = s.pod := rfl
@[simp] theorem onWarp_packets : (s.onWarp id k).packets = s.packets := rfl
@[simp] theorem onWarp_lateArrivals : (s.onWarp id k).lateArrivals = s.lateArrivals := rfl
@[simp] theorem onWarp_priv : (s.onWarp id k).priv = s.priv := rfl
@[simp] theorem onWarp_contexts : (s.onWarp id k).contexts = s.contexts := rfl
@[simp] theorem onWarp_queues : (s.onWarp id k).queues = s.queues := rfl
@[simp] theorem onWarp_wrr : (s.onWarp id k).wrr = s.wrr := rfl
@[simp] theorem onWarp_joinWaits : (s.onWarp id k).joinWaits = s.joinWaits := rfl
@[simp] theorem onWarp_discards : (s.onWarp id k).discards = s.discards := rfl
@[simp] theorem onWarp_summaries : (s.onWarp id k).summaries = s.summaries := rfl
@[simp] theorem onWarp_groups : (s.onWarp id k).groups = s.groups := rfl
@[simp] theorem onWarp_ballotSeq : (s.onWarp id k).ballotSeq = s.ballotSeq := rfl
@[simp] theorem onWarp_windows : (s.onWarp id k).windows = s.windows := rfl
@[simp] theorem onWarp_apertures : (s.onWarp id k).apertures = s.apertures := rfl
@[simp] theorem onWarp_pageRequests : (s.onWarp id k).pageRequests = s.pageRequests := rfl
@[simp] theorem onWarp_ats : (s.onWarp id k).ats = s.ats := rfl
@[simp] theorem onWarp_tlb : (s.onWarp id k).tlb = s.tlb := rfl
@[simp] theorem onWarp_warps : (s.onWarp id k).warps = update (fun x => x.id = id) k s.warps := rfl
@[simp] theorem onWarp_frames : (s.onWarp id k).frames = s.frames := rfl
@[simp] theorem onWarp_early : (s.onWarp id k).early = s.early := rfl
@[simp] theorem onWarp_tokens : (s.onWarp id k).tokens = s.tokens := rfl
@[simp] theorem onWarp_arbiters : (s.onWarp id k).arbiters = s.arbiters := rfl
@[simp] theorem onWarp_clocks : (s.onWarp id k).clocks = s.clocks := rfl
@[simp] theorem onWarp_phasers : (s.onWarp id k).phasers = s.phasers := rfl
@[simp] theorem onWarp_nextPhaser : (s.onWarp id k).nextPhaser = s.nextPhaser := rfl
@[simp] theorem onWarp_copies : (s.onWarp id k).copies = s.copies := rfl
@[simp] theorem onWarp_matrix : (s.onWarp id k).matrix = s.matrix := rfl
@[simp] theorem onWarp_epilogues : (s.onWarp id k).epilogues = s.epilogues := rfl
@[simp] theorem onWarp_tiles : (s.onWarp id k).tiles = s.tiles := rfl
@[simp] theorem onWarp_allocs : (s.onWarp id k).allocs = s.allocs := rfl
@[simp] theorem onWarp_pieces : (s.onWarp id k).pieces = s.pieces := rfl
@[simp] theorem onWarp_nextAlloc : (s.onWarp id k).nextAlloc = s.nextAlloc := rfl
@[simp] theorem onWarp_nextWarp : (s.onWarp id k).nextWarp = s.nextWarp := rfl
@[simp] theorem onWarp_calls : (s.onWarp id k).calls = s.calls := rfl
@[simp] theorem onWarp_nextCall : (s.onWarp id k).nextCall = s.nextCall := rfl
@[simp] theorem onWarp_nearBanks : (s.onWarp id k).nearBanks = s.nearBanks := rfl
@[simp] theorem onWarp_l1 : (s.onWarp id k).l1 = s.l1 := rfl
@[simp] theorem onWarp_stashMaps : (s.onWarp id k).stashMaps = s.stashMaps := rfl
@[simp] theorem onWarp_stashLines : (s.onWarp id k).stashLines = s.stashLines := rfl
@[simp] theorem onWarp_acks : (s.onWarp id k).acks = s.acks := rfl
@[simp] theorem onWarp_probes : (s.onWarp id k).probes = s.probes := rfl
@[simp] theorem onWarp_l2 : (s.onWarp id k).l2 = s.l2 := rfl
@[simp] theorem onWarp_writes : (s.onWarp id k).writes = s.writes := rfl
@[simp] theorem onWarp_nextWrite : (s.onWarp id k).nextWrite = s.nextWrite := rfl
@[simp] theorem onWarp_unarrived : (s.onWarp id k).unarrived = s.unarrived := rfl
@[simp] theorem onWarp_past : (s.onWarp id k).past = s.past := rfl
@[simp] theorem onWarp_moments : (s.onWarp id k).moments = s.moments := rfl
@[simp] theorem onWarp_readers : (s.onWarp id k).readers = s.readers := rfl
@[simp] theorem onWarp_poisoned : (s.onWarp id k).poisoned = s.poisoned := rfl
@[simp] theorem onWarp_rewritten : (s.onWarp id k).rewritten = s.rewritten := rfl
@[simp] theorem onWarp_stamps : (s.onWarp id k).stamps = s.stamps := rfl
@[simp] theorem onWarp_hbm : (s.onWarp id k).hbm = s.hbm := rfl
@[simp] theorem onWarp_host : (s.onWarp id k).host = s.host := rfl
@[simp] theorem onWarp_store : (s.onWarp id k).store = s.store := rfl
end

section
variable (s : State) (n : Nat) (k : Context → Context)
@[simp] theorem onContext_stepNo : (s.onContext n k).stepNo = s.stepNo := rfl
@[simp] theorem onContext_ticks : (s.onContext n k).ticks = s.ticks := rfl
@[simp] theorem onContext_cycles : (s.onContext n k).cycles = s.cycles := rfl
@[simp] theorem onContext_pierCycles : (s.onContext n k).pierCycles = s.pierCycles := rfl
@[simp] theorem onContext_inputs : (s.onContext n k).inputs = s.inputs := rfl
@[simp] theorem onContext_power : (s.onContext n k).power = s.power := rfl
@[simp] theorem onContext_startup : (s.onContext n k).startup = s.startup := rfl
@[simp] theorem onContext_mailboxes : (s.onContext n k).mailboxes = s.mailboxes := rfl
@[simp] theorem onContext_lastServed : (s.onContext n k).lastServed = s.lastServed := rfl
@[simp] theorem onContext_almanac : (s.onContext n k).almanac = s.almanac := rfl
@[simp] theorem onContext_almanacSeq : (s.onContext n k).almanacSeq = s.almanacSeq := rfl
@[simp] theorem onContext_calends : (s.onContext n k).calends = s.calends := rfl
@[simp] theorem onContext_corrected : (s.onContext n k).corrected = s.corrected := rfl
@[simp] theorem onContext_pod : (s.onContext n k).pod = s.pod := rfl
@[simp] theorem onContext_packets : (s.onContext n k).packets = s.packets := rfl
@[simp] theorem onContext_lateArrivals : (s.onContext n k).lateArrivals = s.lateArrivals := rfl
@[simp] theorem onContext_priv : (s.onContext n k).priv = s.priv := rfl
@[simp] theorem onContext_contexts : (s.onContext n k).contexts = update (fun c => c.num = n) k s.contexts := rfl
@[simp] theorem onContext_queues : (s.onContext n k).queues = s.queues := rfl
@[simp] theorem onContext_wrr : (s.onContext n k).wrr = s.wrr := rfl
@[simp] theorem onContext_joinWaits : (s.onContext n k).joinWaits = s.joinWaits := rfl
@[simp] theorem onContext_discards : (s.onContext n k).discards = s.discards := rfl
@[simp] theorem onContext_summaries : (s.onContext n k).summaries = s.summaries := rfl
@[simp] theorem onContext_groups : (s.onContext n k).groups = s.groups := rfl
@[simp] theorem onContext_ballotSeq : (s.onContext n k).ballotSeq = s.ballotSeq := rfl
@[simp] theorem onContext_windows : (s.onContext n k).windows = s.windows := rfl
@[simp] theorem onContext_apertures : (s.onContext n k).apertures = s.apertures := rfl
@[simp] theorem onContext_pageRequests : (s.onContext n k).pageRequests = s.pageRequests := rfl
@[simp] theorem onContext_ats : (s.onContext n k).ats = s.ats := rfl
@[simp] theorem onContext_tlb : (s.onContext n k).tlb = s.tlb := rfl
@[simp] theorem onContext_warps : (s.onContext n k).warps = s.warps := rfl
@[simp] theorem onContext_frames : (s.onContext n k).frames = s.frames := rfl
@[simp] theorem onContext_early : (s.onContext n k).early = s.early := rfl
@[simp] theorem onContext_tokens : (s.onContext n k).tokens = s.tokens := rfl
@[simp] theorem onContext_arbiters : (s.onContext n k).arbiters = s.arbiters := rfl
@[simp] theorem onContext_clocks : (s.onContext n k).clocks = s.clocks := rfl
@[simp] theorem onContext_phasers : (s.onContext n k).phasers = s.phasers := rfl
@[simp] theorem onContext_nextPhaser : (s.onContext n k).nextPhaser = s.nextPhaser := rfl
@[simp] theorem onContext_copies : (s.onContext n k).copies = s.copies := rfl
@[simp] theorem onContext_matrix : (s.onContext n k).matrix = s.matrix := rfl
@[simp] theorem onContext_epilogues : (s.onContext n k).epilogues = s.epilogues := rfl
@[simp] theorem onContext_tiles : (s.onContext n k).tiles = s.tiles := rfl
@[simp] theorem onContext_allocs : (s.onContext n k).allocs = s.allocs := rfl
@[simp] theorem onContext_pieces : (s.onContext n k).pieces = s.pieces := rfl
@[simp] theorem onContext_nextAlloc : (s.onContext n k).nextAlloc = s.nextAlloc := rfl
@[simp] theorem onContext_nextWarp : (s.onContext n k).nextWarp = s.nextWarp := rfl
@[simp] theorem onContext_calls : (s.onContext n k).calls = s.calls := rfl
@[simp] theorem onContext_nextCall : (s.onContext n k).nextCall = s.nextCall := rfl
@[simp] theorem onContext_nearBanks : (s.onContext n k).nearBanks = s.nearBanks := rfl
@[simp] theorem onContext_l1 : (s.onContext n k).l1 = s.l1 := rfl
@[simp] theorem onContext_stashMaps : (s.onContext n k).stashMaps = s.stashMaps := rfl
@[simp] theorem onContext_stashLines : (s.onContext n k).stashLines = s.stashLines := rfl
@[simp] theorem onContext_acks : (s.onContext n k).acks = s.acks := rfl
@[simp] theorem onContext_probes : (s.onContext n k).probes = s.probes := rfl
@[simp] theorem onContext_l2 : (s.onContext n k).l2 = s.l2 := rfl
@[simp] theorem onContext_writes : (s.onContext n k).writes = s.writes := rfl
@[simp] theorem onContext_nextWrite : (s.onContext n k).nextWrite = s.nextWrite := rfl
@[simp] theorem onContext_unarrived : (s.onContext n k).unarrived = s.unarrived := rfl
@[simp] theorem onContext_past : (s.onContext n k).past = s.past := rfl
@[simp] theorem onContext_moments : (s.onContext n k).moments = s.moments := rfl
@[simp] theorem onContext_readers : (s.onContext n k).readers = s.readers := rfl
@[simp] theorem onContext_poisoned : (s.onContext n k).poisoned = s.poisoned := rfl
@[simp] theorem onContext_rewritten : (s.onContext n k).rewritten = s.rewritten := rfl
@[simp] theorem onContext_stamps : (s.onContext n k).stamps = s.stamps := rfl
@[simp] theorem onContext_hbm : (s.onContext n k).hbm = s.hbm := rfl
@[simp] theorem onContext_host : (s.onContext n k).host = s.host := rfl
@[simp] theorem onContext_store : (s.onContext n k).store = s.store := rfl
end

section
variable (s : State) (who : Issuer) (k : Warp → Warp)
@[simp] theorem onOwner_stepNo : (s.onOwner who k).stepNo = s.stepNo := rfl
@[simp] theorem onOwner_ticks : (s.onOwner who k).ticks = s.ticks := rfl
@[simp] theorem onOwner_cycles : (s.onOwner who k).cycles = s.cycles := rfl
@[simp] theorem onOwner_pierCycles : (s.onOwner who k).pierCycles = s.pierCycles := rfl
@[simp] theorem onOwner_inputs : (s.onOwner who k).inputs = s.inputs := rfl
@[simp] theorem onOwner_power : (s.onOwner who k).power = s.power := rfl
@[simp] theorem onOwner_startup : (s.onOwner who k).startup = s.startup := rfl
@[simp] theorem onOwner_mailboxes : (s.onOwner who k).mailboxes = s.mailboxes := rfl
@[simp] theorem onOwner_lastServed : (s.onOwner who k).lastServed = s.lastServed := rfl
@[simp] theorem onOwner_almanac : (s.onOwner who k).almanac = s.almanac := rfl
@[simp] theorem onOwner_almanacSeq : (s.onOwner who k).almanacSeq = s.almanacSeq := rfl
@[simp] theorem onOwner_calends : (s.onOwner who k).calends = s.calends := rfl
@[simp] theorem onOwner_corrected : (s.onOwner who k).corrected = s.corrected := rfl
@[simp] theorem onOwner_pod : (s.onOwner who k).pod = s.pod := rfl
@[simp] theorem onOwner_packets : (s.onOwner who k).packets = s.packets := rfl
@[simp] theorem onOwner_lateArrivals : (s.onOwner who k).lateArrivals = s.lateArrivals := rfl
@[simp] theorem onOwner_priv : (s.onOwner who k).priv = s.priv := rfl
@[simp] theorem onOwner_queues : (s.onOwner who k).queues = s.queues := rfl
@[simp] theorem onOwner_wrr : (s.onOwner who k).wrr = s.wrr := rfl
@[simp] theorem onOwner_joinWaits : (s.onOwner who k).joinWaits = s.joinWaits := rfl
@[simp] theorem onOwner_discards : (s.onOwner who k).discards = s.discards := rfl
@[simp] theorem onOwner_summaries : (s.onOwner who k).summaries = s.summaries := rfl
@[simp] theorem onOwner_groups : (s.onOwner who k).groups = s.groups := rfl
@[simp] theorem onOwner_ballotSeq : (s.onOwner who k).ballotSeq = s.ballotSeq := rfl
@[simp] theorem onOwner_windows : (s.onOwner who k).windows = s.windows := rfl
@[simp] theorem onOwner_apertures : (s.onOwner who k).apertures = s.apertures := rfl
@[simp] theorem onOwner_pageRequests : (s.onOwner who k).pageRequests = s.pageRequests := rfl
@[simp] theorem onOwner_ats : (s.onOwner who k).ats = s.ats := rfl
@[simp] theorem onOwner_tlb : (s.onOwner who k).tlb = s.tlb := rfl
@[simp] theorem onOwner_warps : (s.onOwner who k).warps = update (fun w : Warp => w.serial = who.serial) k s.warps := rfl
@[simp] theorem onOwner_frames : (s.onOwner who k).frames = s.frames := rfl
@[simp] theorem onOwner_early : (s.onOwner who k).early = s.early := rfl
@[simp] theorem onOwner_tokens : (s.onOwner who k).tokens = s.tokens := rfl
@[simp] theorem onOwner_arbiters : (s.onOwner who k).arbiters = s.arbiters := rfl
@[simp] theorem onOwner_clocks : (s.onOwner who k).clocks = s.clocks := rfl
@[simp] theorem onOwner_phasers : (s.onOwner who k).phasers = s.phasers := rfl
@[simp] theorem onOwner_nextPhaser : (s.onOwner who k).nextPhaser = s.nextPhaser := rfl
@[simp] theorem onOwner_copies : (s.onOwner who k).copies = s.copies := rfl
@[simp] theorem onOwner_matrix : (s.onOwner who k).matrix = s.matrix := rfl
@[simp] theorem onOwner_epilogues : (s.onOwner who k).epilogues = s.epilogues := rfl
@[simp] theorem onOwner_tiles : (s.onOwner who k).tiles = s.tiles := rfl
@[simp] theorem onOwner_allocs : (s.onOwner who k).allocs = s.allocs := rfl
@[simp] theorem onOwner_pieces : (s.onOwner who k).pieces = s.pieces := rfl
@[simp] theorem onOwner_nextAlloc : (s.onOwner who k).nextAlloc = s.nextAlloc := rfl
@[simp] theorem onOwner_nextWarp : (s.onOwner who k).nextWarp = s.nextWarp := rfl
@[simp] theorem onOwner_calls : (s.onOwner who k).calls = s.calls := rfl
@[simp] theorem onOwner_nextCall : (s.onOwner who k).nextCall = s.nextCall := rfl
@[simp] theorem onOwner_nearBanks : (s.onOwner who k).nearBanks = s.nearBanks := rfl
@[simp] theorem onOwner_l1 : (s.onOwner who k).l1 = s.l1 := rfl
@[simp] theorem onOwner_stashMaps : (s.onOwner who k).stashMaps = s.stashMaps := rfl
@[simp] theorem onOwner_stashLines : (s.onOwner who k).stashLines = s.stashLines := rfl
@[simp] theorem onOwner_acks : (s.onOwner who k).acks = s.acks := rfl
@[simp] theorem onOwner_probes : (s.onOwner who k).probes = s.probes := rfl
@[simp] theorem onOwner_l2 : (s.onOwner who k).l2 = s.l2 := rfl
@[simp] theorem onOwner_writes : (s.onOwner who k).writes = s.writes := rfl
@[simp] theorem onOwner_nextWrite : (s.onOwner who k).nextWrite = s.nextWrite := rfl
@[simp] theorem onOwner_unarrived : (s.onOwner who k).unarrived = s.unarrived := rfl
@[simp] theorem onOwner_past : (s.onOwner who k).past = s.past := rfl
@[simp] theorem onOwner_moments : (s.onOwner who k).moments = s.moments := rfl
@[simp] theorem onOwner_readers : (s.onOwner who k).readers = s.readers := rfl
@[simp] theorem onOwner_poisoned : (s.onOwner who k).poisoned = s.poisoned := rfl
@[simp] theorem onOwner_rewritten : (s.onOwner who k).rewritten = s.rewritten := rfl
@[simp] theorem onOwner_stamps : (s.onOwner who k).stamps = s.stamps := rfl
@[simp] theorem onOwner_hbm : (s.onOwner who k).hbm = s.hbm := rfl
@[simp] theorem onOwner_host : (s.onOwner who k).host = s.host := rfl
@[simp] theorem onOwner_store : (s.onOwner who k).store = s.store := rfl
end

section
variable (s : State) (vf : VF) (q : PrivQueue)
@[simp] theorem setPriv_stepNo : (s.setPriv vf q).stepNo = s.stepNo := rfl
@[simp] theorem setPriv_ticks : (s.setPriv vf q).ticks = s.ticks := rfl
@[simp] theorem setPriv_cycles : (s.setPriv vf q).cycles = s.cycles := rfl
@[simp] theorem setPriv_pierCycles : (s.setPriv vf q).pierCycles = s.pierCycles := rfl
@[simp] theorem setPriv_inputs : (s.setPriv vf q).inputs = s.inputs := rfl
@[simp] theorem setPriv_power : (s.setPriv vf q).power = s.power := rfl
@[simp] theorem setPriv_startup : (s.setPriv vf q).startup = s.startup := rfl
@[simp] theorem setPriv_mailboxes : (s.setPriv vf q).mailboxes = s.mailboxes := rfl
@[simp] theorem setPriv_lastServed : (s.setPriv vf q).lastServed = s.lastServed := rfl
@[simp] theorem setPriv_almanac : (s.setPriv vf q).almanac = s.almanac := rfl
@[simp] theorem setPriv_almanacSeq : (s.setPriv vf q).almanacSeq = s.almanacSeq := rfl
@[simp] theorem setPriv_calends : (s.setPriv vf q).calends = s.calends := rfl
@[simp] theorem setPriv_corrected : (s.setPriv vf q).corrected = s.corrected := rfl
@[simp] theorem setPriv_pod : (s.setPriv vf q).pod = s.pod := rfl
@[simp] theorem setPriv_packets : (s.setPriv vf q).packets = s.packets := rfl
@[simp] theorem setPriv_lateArrivals : (s.setPriv vf q).lateArrivals = s.lateArrivals := rfl
@[simp] theorem setPriv_priv : (s.setPriv vf q).priv = sset ⟨0, [], none⟩ s.priv vf.key q := rfl
@[simp] theorem setPriv_contexts : (s.setPriv vf q).contexts = s.contexts := rfl
@[simp] theorem setPriv_queues : (s.setPriv vf q).queues = s.queues := rfl
@[simp] theorem setPriv_wrr : (s.setPriv vf q).wrr = s.wrr := rfl
@[simp] theorem setPriv_joinWaits : (s.setPriv vf q).joinWaits = s.joinWaits := rfl
@[simp] theorem setPriv_discards : (s.setPriv vf q).discards = s.discards := rfl
@[simp] theorem setPriv_summaries : (s.setPriv vf q).summaries = s.summaries := rfl
@[simp] theorem setPriv_groups : (s.setPriv vf q).groups = s.groups := rfl
@[simp] theorem setPriv_ballotSeq : (s.setPriv vf q).ballotSeq = s.ballotSeq := rfl
@[simp] theorem setPriv_windows : (s.setPriv vf q).windows = s.windows := rfl
@[simp] theorem setPriv_apertures : (s.setPriv vf q).apertures = s.apertures := rfl
@[simp] theorem setPriv_pageRequests : (s.setPriv vf q).pageRequests = s.pageRequests := rfl
@[simp] theorem setPriv_ats : (s.setPriv vf q).ats = s.ats := rfl
@[simp] theorem setPriv_tlb : (s.setPriv vf q).tlb = s.tlb := rfl
@[simp] theorem setPriv_warps : (s.setPriv vf q).warps = s.warps := rfl
@[simp] theorem setPriv_frames : (s.setPriv vf q).frames = s.frames := rfl
@[simp] theorem setPriv_early : (s.setPriv vf q).early = s.early := rfl
@[simp] theorem setPriv_tokens : (s.setPriv vf q).tokens = s.tokens := rfl
@[simp] theorem setPriv_arbiters : (s.setPriv vf q).arbiters = s.arbiters := rfl
@[simp] theorem setPriv_clocks : (s.setPriv vf q).clocks = s.clocks := rfl
@[simp] theorem setPriv_phasers : (s.setPriv vf q).phasers = s.phasers := rfl
@[simp] theorem setPriv_nextPhaser : (s.setPriv vf q).nextPhaser = s.nextPhaser := rfl
@[simp] theorem setPriv_copies : (s.setPriv vf q).copies = s.copies := rfl
@[simp] theorem setPriv_matrix : (s.setPriv vf q).matrix = s.matrix := rfl
@[simp] theorem setPriv_epilogues : (s.setPriv vf q).epilogues = s.epilogues := rfl
@[simp] theorem setPriv_tiles : (s.setPriv vf q).tiles = s.tiles := rfl
@[simp] theorem setPriv_allocs : (s.setPriv vf q).allocs = s.allocs := rfl
@[simp] theorem setPriv_pieces : (s.setPriv vf q).pieces = s.pieces := rfl
@[simp] theorem setPriv_nextAlloc : (s.setPriv vf q).nextAlloc = s.nextAlloc := rfl
@[simp] theorem setPriv_nextWarp : (s.setPriv vf q).nextWarp = s.nextWarp := rfl
@[simp] theorem setPriv_calls : (s.setPriv vf q).calls = s.calls := rfl
@[simp] theorem setPriv_nextCall : (s.setPriv vf q).nextCall = s.nextCall := rfl
@[simp] theorem setPriv_nearBanks : (s.setPriv vf q).nearBanks = s.nearBanks := rfl
@[simp] theorem setPriv_l1 : (s.setPriv vf q).l1 = s.l1 := rfl
@[simp] theorem setPriv_stashMaps : (s.setPriv vf q).stashMaps = s.stashMaps := rfl
@[simp] theorem setPriv_stashLines : (s.setPriv vf q).stashLines = s.stashLines := rfl
@[simp] theorem setPriv_acks : (s.setPriv vf q).acks = s.acks := rfl
@[simp] theorem setPriv_probes : (s.setPriv vf q).probes = s.probes := rfl
@[simp] theorem setPriv_l2 : (s.setPriv vf q).l2 = s.l2 := rfl
@[simp] theorem setPriv_writes : (s.setPriv vf q).writes = s.writes := rfl
@[simp] theorem setPriv_nextWrite : (s.setPriv vf q).nextWrite = s.nextWrite := rfl
@[simp] theorem setPriv_unarrived : (s.setPriv vf q).unarrived = s.unarrived := rfl
@[simp] theorem setPriv_past : (s.setPriv vf q).past = s.past := rfl
@[simp] theorem setPriv_moments : (s.setPriv vf q).moments = s.moments := rfl
@[simp] theorem setPriv_readers : (s.setPriv vf q).readers = s.readers := rfl
@[simp] theorem setPriv_poisoned : (s.setPriv vf q).poisoned = s.poisoned := rfl
@[simp] theorem setPriv_rewritten : (s.setPriv vf q).rewritten = s.rewritten := rfl
@[simp] theorem setPriv_stamps : (s.setPriv vf q).stamps = s.stamps := rfl
@[simp] theorem setPriv_hbm : (s.setPriv vf q).hbm = s.hbm := rfl
@[simp] theorem setPriv_host : (s.setPriv vf q).host = s.host := rfl
@[simp] theorem setPriv_store : (s.setPriv vf q).store = s.store := rfl
end

section
variable (s : State) (q : WorkQueue)
@[simp] theorem putQueue_stepNo : (s.putQueue q).stepNo = s.stepNo := rfl
@[simp] theorem putQueue_ticks : (s.putQueue q).ticks = s.ticks := rfl
@[simp] theorem putQueue_cycles : (s.putQueue q).cycles = s.cycles := rfl
@[simp] theorem putQueue_pierCycles : (s.putQueue q).pierCycles = s.pierCycles := rfl
@[simp] theorem putQueue_inputs : (s.putQueue q).inputs = s.inputs := rfl
@[simp] theorem putQueue_power : (s.putQueue q).power = s.power := rfl
@[simp] theorem putQueue_startup : (s.putQueue q).startup = s.startup := rfl
@[simp] theorem putQueue_mailboxes : (s.putQueue q).mailboxes = s.mailboxes := rfl
@[simp] theorem putQueue_lastServed : (s.putQueue q).lastServed = s.lastServed := rfl
@[simp] theorem putQueue_almanac : (s.putQueue q).almanac = s.almanac := rfl
@[simp] theorem putQueue_almanacSeq : (s.putQueue q).almanacSeq = s.almanacSeq := rfl
@[simp] theorem putQueue_calends : (s.putQueue q).calends = s.calends := rfl
@[simp] theorem putQueue_corrected : (s.putQueue q).corrected = s.corrected := rfl
@[simp] theorem putQueue_pod : (s.putQueue q).pod = s.pod := rfl
@[simp] theorem putQueue_packets : (s.putQueue q).packets = s.packets := rfl
@[simp] theorem putQueue_lateArrivals : (s.putQueue q).lateArrivals = s.lateArrivals := rfl
@[simp] theorem putQueue_priv : (s.putQueue q).priv = s.priv := rfl
@[simp] theorem putQueue_contexts : (s.putQueue q).contexts = s.contexts := rfl
@[simp] theorem putQueue_wrr : (s.putQueue q).wrr = s.wrr := rfl
@[simp] theorem putQueue_joinWaits : (s.putQueue q).joinWaits = s.joinWaits := rfl
@[simp] theorem putQueue_discards : (s.putQueue q).discards = s.discards := rfl
@[simp] theorem putQueue_summaries : (s.putQueue q).summaries = s.summaries := rfl
@[simp] theorem putQueue_groups : (s.putQueue q).groups = s.groups := rfl
@[simp] theorem putQueue_ballotSeq : (s.putQueue q).ballotSeq = s.ballotSeq := rfl
@[simp] theorem putQueue_windows : (s.putQueue q).windows = s.windows := rfl
@[simp] theorem putQueue_apertures : (s.putQueue q).apertures = s.apertures := rfl
@[simp] theorem putQueue_pageRequests : (s.putQueue q).pageRequests = s.pageRequests := rfl
@[simp] theorem putQueue_ats : (s.putQueue q).ats = s.ats := rfl
@[simp] theorem putQueue_tlb : (s.putQueue q).tlb = s.tlb := rfl
@[simp] theorem putQueue_warps : (s.putQueue q).warps = s.warps := rfl
@[simp] theorem putQueue_frames : (s.putQueue q).frames = s.frames := rfl
@[simp] theorem putQueue_early : (s.putQueue q).early = s.early := rfl
@[simp] theorem putQueue_tokens : (s.putQueue q).tokens = s.tokens := rfl
@[simp] theorem putQueue_arbiters : (s.putQueue q).arbiters = s.arbiters := rfl
@[simp] theorem putQueue_clocks : (s.putQueue q).clocks = s.clocks := rfl
@[simp] theorem putQueue_phasers : (s.putQueue q).phasers = s.phasers := rfl
@[simp] theorem putQueue_nextPhaser : (s.putQueue q).nextPhaser = s.nextPhaser := rfl
@[simp] theorem putQueue_copies : (s.putQueue q).copies = s.copies := rfl
@[simp] theorem putQueue_matrix : (s.putQueue q).matrix = s.matrix := rfl
@[simp] theorem putQueue_epilogues : (s.putQueue q).epilogues = s.epilogues := rfl
@[simp] theorem putQueue_tiles : (s.putQueue q).tiles = s.tiles := rfl
@[simp] theorem putQueue_allocs : (s.putQueue q).allocs = s.allocs := rfl
@[simp] theorem putQueue_pieces : (s.putQueue q).pieces = s.pieces := rfl
@[simp] theorem putQueue_nextAlloc : (s.putQueue q).nextAlloc = s.nextAlloc := rfl
@[simp] theorem putQueue_nextWarp : (s.putQueue q).nextWarp = s.nextWarp := rfl
@[simp] theorem putQueue_calls : (s.putQueue q).calls = s.calls := rfl
@[simp] theorem putQueue_nextCall : (s.putQueue q).nextCall = s.nextCall := rfl
@[simp] theorem putQueue_nearBanks : (s.putQueue q).nearBanks = s.nearBanks := rfl
@[simp] theorem putQueue_l1 : (s.putQueue q).l1 = s.l1 := rfl
@[simp] theorem putQueue_stashMaps : (s.putQueue q).stashMaps = s.stashMaps := rfl
@[simp] theorem putQueue_stashLines : (s.putQueue q).stashLines = s.stashLines := rfl
@[simp] theorem putQueue_acks : (s.putQueue q).acks = s.acks := rfl
@[simp] theorem putQueue_probes : (s.putQueue q).probes = s.probes := rfl
@[simp] theorem putQueue_l2 : (s.putQueue q).l2 = s.l2 := rfl
@[simp] theorem putQueue_writes : (s.putQueue q).writes = s.writes := rfl
@[simp] theorem putQueue_nextWrite : (s.putQueue q).nextWrite = s.nextWrite := rfl
@[simp] theorem putQueue_unarrived : (s.putQueue q).unarrived = s.unarrived := rfl
@[simp] theorem putQueue_past : (s.putQueue q).past = s.past := rfl
@[simp] theorem putQueue_moments : (s.putQueue q).moments = s.moments := rfl
@[simp] theorem putQueue_readers : (s.putQueue q).readers = s.readers := rfl
@[simp] theorem putQueue_poisoned : (s.putQueue q).poisoned = s.poisoned := rfl
@[simp] theorem putQueue_rewritten : (s.putQueue q).rewritten = s.rewritten := rfl
@[simp] theorem putQueue_stamps : (s.putQueue q).stamps = s.stamps := rfl
@[simp] theorem putQueue_hbm : (s.putQueue q).hbm = s.hbm := rfl
@[simp] theorem putQueue_host : (s.putQueue q).host = s.host := rfl
@[simp] theorem putQueue_store : (s.putQueue q).store = s.store := rfl
end

section
variable (s : State) (die : Nat) (c : List Nat)
@[simp] theorem setClock_stepNo : (s.setClock die c).stepNo = s.stepNo := rfl
@[simp] theorem setClock_ticks : (s.setClock die c).ticks = s.ticks := rfl
@[simp] theorem setClock_cycles : (s.setClock die c).cycles = s.cycles := rfl
@[simp] theorem setClock_pierCycles : (s.setClock die c).pierCycles = s.pierCycles := rfl
@[simp] theorem setClock_inputs : (s.setClock die c).inputs = s.inputs := rfl
@[simp] theorem setClock_power : (s.setClock die c).power = s.power := rfl
@[simp] theorem setClock_startup : (s.setClock die c).startup = s.startup := rfl
@[simp] theorem setClock_mailboxes : (s.setClock die c).mailboxes = s.mailboxes := rfl
@[simp] theorem setClock_lastServed : (s.setClock die c).lastServed = s.lastServed := rfl
@[simp] theorem setClock_almanac : (s.setClock die c).almanac = s.almanac := rfl
@[simp] theorem setClock_almanacSeq : (s.setClock die c).almanacSeq = s.almanacSeq := rfl
@[simp] theorem setClock_calends : (s.setClock die c).calends = s.calends := rfl
@[simp] theorem setClock_corrected : (s.setClock die c).corrected = s.corrected := rfl
@[simp] theorem setClock_pod : (s.setClock die c).pod = s.pod := rfl
@[simp] theorem setClock_packets : (s.setClock die c).packets = s.packets := rfl
@[simp] theorem setClock_lateArrivals : (s.setClock die c).lateArrivals = s.lateArrivals := rfl
@[simp] theorem setClock_priv : (s.setClock die c).priv = s.priv := rfl
@[simp] theorem setClock_contexts : (s.setClock die c).contexts = s.contexts := rfl
@[simp] theorem setClock_queues : (s.setClock die c).queues = s.queues := rfl
@[simp] theorem setClock_wrr : (s.setClock die c).wrr = s.wrr := rfl
@[simp] theorem setClock_joinWaits : (s.setClock die c).joinWaits = s.joinWaits := rfl
@[simp] theorem setClock_discards : (s.setClock die c).discards = s.discards := rfl
@[simp] theorem setClock_summaries : (s.setClock die c).summaries = s.summaries := rfl
@[simp] theorem setClock_groups : (s.setClock die c).groups = s.groups := rfl
@[simp] theorem setClock_ballotSeq : (s.setClock die c).ballotSeq = s.ballotSeq := rfl
@[simp] theorem setClock_windows : (s.setClock die c).windows = s.windows := rfl
@[simp] theorem setClock_apertures : (s.setClock die c).apertures = s.apertures := rfl
@[simp] theorem setClock_pageRequests : (s.setClock die c).pageRequests = s.pageRequests := rfl
@[simp] theorem setClock_ats : (s.setClock die c).ats = s.ats := rfl
@[simp] theorem setClock_tlb : (s.setClock die c).tlb = s.tlb := rfl
@[simp] theorem setClock_warps : (s.setClock die c).warps = s.warps := rfl
@[simp] theorem setClock_frames : (s.setClock die c).frames = s.frames := rfl
@[simp] theorem setClock_early : (s.setClock die c).early = s.early := rfl
@[simp] theorem setClock_tokens : (s.setClock die c).tokens = s.tokens := rfl
@[simp] theorem setClock_arbiters : (s.setClock die c).arbiters = s.arbiters := rfl
@[simp] theorem setClock_clocks : (s.setClock die c).clocks = (List.range 4).map fun d => if d = die then c else s.clock d := rfl
@[simp] theorem setClock_phasers : (s.setClock die c).phasers = s.phasers := rfl
@[simp] theorem setClock_nextPhaser : (s.setClock die c).nextPhaser = s.nextPhaser := rfl
@[simp] theorem setClock_copies : (s.setClock die c).copies = s.copies := rfl
@[simp] theorem setClock_matrix : (s.setClock die c).matrix = s.matrix := rfl
@[simp] theorem setClock_epilogues : (s.setClock die c).epilogues = s.epilogues := rfl
@[simp] theorem setClock_tiles : (s.setClock die c).tiles = s.tiles := rfl
@[simp] theorem setClock_allocs : (s.setClock die c).allocs = s.allocs := rfl
@[simp] theorem setClock_pieces : (s.setClock die c).pieces = s.pieces := rfl
@[simp] theorem setClock_nextAlloc : (s.setClock die c).nextAlloc = s.nextAlloc := rfl
@[simp] theorem setClock_nextWarp : (s.setClock die c).nextWarp = s.nextWarp := rfl
@[simp] theorem setClock_calls : (s.setClock die c).calls = s.calls := rfl
@[simp] theorem setClock_nextCall : (s.setClock die c).nextCall = s.nextCall := rfl
@[simp] theorem setClock_nearBanks : (s.setClock die c).nearBanks = s.nearBanks := rfl
@[simp] theorem setClock_l1 : (s.setClock die c).l1 = s.l1 := rfl
@[simp] theorem setClock_stashMaps : (s.setClock die c).stashMaps = s.stashMaps := rfl
@[simp] theorem setClock_stashLines : (s.setClock die c).stashLines = s.stashLines := rfl
@[simp] theorem setClock_acks : (s.setClock die c).acks = s.acks := rfl
@[simp] theorem setClock_probes : (s.setClock die c).probes = s.probes := rfl
@[simp] theorem setClock_l2 : (s.setClock die c).l2 = s.l2 := rfl
@[simp] theorem setClock_writes : (s.setClock die c).writes = s.writes := rfl
@[simp] theorem setClock_nextWrite : (s.setClock die c).nextWrite = s.nextWrite := rfl
@[simp] theorem setClock_unarrived : (s.setClock die c).unarrived = s.unarrived := rfl
@[simp] theorem setClock_past : (s.setClock die c).past = s.past := rfl
@[simp] theorem setClock_moments : (s.setClock die c).moments = s.moments := rfl
@[simp] theorem setClock_readers : (s.setClock die c).readers = s.readers := rfl
@[simp] theorem setClock_poisoned : (s.setClock die c).poisoned = s.poisoned := rfl
@[simp] theorem setClock_rewritten : (s.setClock die c).rewritten = s.rewritten := rfl
@[simp] theorem setClock_stamps : (s.setClock die c).stamps = s.stamps := rfl
@[simp] theorem setClock_hbm : (s.setClock die c).hbm = s.hbm := rfl
@[simp] theorem setClock_host : (s.setClock die c).host = s.host := rfl
@[simp] theorem setClock_store : (s.setClock die c).store = s.store := rfl
end

section
variable (s : State) (p : Phaser)
@[simp] theorem setPhaser_stepNo : (s.setPhaser p).stepNo = s.stepNo := rfl
@[simp] theorem setPhaser_ticks : (s.setPhaser p).ticks = s.ticks := rfl
@[simp] theorem setPhaser_cycles : (s.setPhaser p).cycles = s.cycles := rfl
@[simp] theorem setPhaser_pierCycles : (s.setPhaser p).pierCycles = s.pierCycles := rfl
@[simp] theorem setPhaser_inputs : (s.setPhaser p).inputs = s.inputs := rfl
@[simp] theorem setPhaser_power : (s.setPhaser p).power = s.power := rfl
@[simp] theorem setPhaser_startup : (s.setPhaser p).startup = s.startup := rfl
@[simp] theorem setPhaser_mailboxes : (s.setPhaser p).mailboxes = s.mailboxes := rfl
@[simp] theorem setPhaser_lastServed : (s.setPhaser p).lastServed = s.lastServed := rfl
@[simp] theorem setPhaser_almanac : (s.setPhaser p).almanac = s.almanac := rfl
@[simp] theorem setPhaser_almanacSeq : (s.setPhaser p).almanacSeq = s.almanacSeq := rfl
@[simp] theorem setPhaser_calends : (s.setPhaser p).calends = s.calends := rfl
@[simp] theorem setPhaser_corrected : (s.setPhaser p).corrected = s.corrected := rfl
@[simp] theorem setPhaser_pod : (s.setPhaser p).pod = s.pod := rfl
@[simp] theorem setPhaser_packets : (s.setPhaser p).packets = s.packets := rfl
@[simp] theorem setPhaser_lateArrivals : (s.setPhaser p).lateArrivals = s.lateArrivals := rfl
@[simp] theorem setPhaser_priv : (s.setPhaser p).priv = s.priv := rfl
@[simp] theorem setPhaser_contexts : (s.setPhaser p).contexts = s.contexts := rfl
@[simp] theorem setPhaser_queues : (s.setPhaser p).queues = s.queues := rfl
@[simp] theorem setPhaser_wrr : (s.setPhaser p).wrr = s.wrr := rfl
@[simp] theorem setPhaser_joinWaits : (s.setPhaser p).joinWaits = s.joinWaits := rfl
@[simp] theorem setPhaser_discards : (s.setPhaser p).discards = s.discards := rfl
@[simp] theorem setPhaser_summaries : (s.setPhaser p).summaries = s.summaries := rfl
@[simp] theorem setPhaser_groups : (s.setPhaser p).groups = s.groups := rfl
@[simp] theorem setPhaser_ballotSeq : (s.setPhaser p).ballotSeq = s.ballotSeq := rfl
@[simp] theorem setPhaser_windows : (s.setPhaser p).windows = s.windows := rfl
@[simp] theorem setPhaser_apertures : (s.setPhaser p).apertures = s.apertures := rfl
@[simp] theorem setPhaser_pageRequests : (s.setPhaser p).pageRequests = s.pageRequests := rfl
@[simp] theorem setPhaser_ats : (s.setPhaser p).ats = s.ats := rfl
@[simp] theorem setPhaser_tlb : (s.setPhaser p).tlb = s.tlb := rfl
@[simp] theorem setPhaser_warps : (s.setPhaser p).warps = s.warps := rfl
@[simp] theorem setPhaser_frames : (s.setPhaser p).frames = s.frames := rfl
@[simp] theorem setPhaser_early : (s.setPhaser p).early = s.early := rfl
@[simp] theorem setPhaser_tokens : (s.setPhaser p).tokens = s.tokens := rfl
@[simp] theorem setPhaser_arbiters : (s.setPhaser p).arbiters = s.arbiters := rfl
@[simp] theorem setPhaser_clocks : (s.setPhaser p).clocks = s.clocks := rfl
@[simp] theorem setPhaser_phasers : (s.setPhaser p).phasers = update (fun x => x.id = p.id) (fun _ => p) s.phasers := rfl
@[simp] theorem setPhaser_nextPhaser : (s.setPhaser p).nextPhaser = s.nextPhaser := rfl
@[simp] theorem setPhaser_copies : (s.setPhaser p).copies = s.copies := rfl
@[simp] theorem setPhaser_matrix : (s.setPhaser p).matrix = s.matrix := rfl
@[simp] theorem setPhaser_epilogues : (s.setPhaser p).epilogues = s.epilogues := rfl
@[simp] theorem setPhaser_tiles : (s.setPhaser p).tiles = s.tiles := rfl
@[simp] theorem setPhaser_allocs : (s.setPhaser p).allocs = s.allocs := rfl
@[simp] theorem setPhaser_pieces : (s.setPhaser p).pieces = s.pieces := rfl
@[simp] theorem setPhaser_nextAlloc : (s.setPhaser p).nextAlloc = s.nextAlloc := rfl
@[simp] theorem setPhaser_nextWarp : (s.setPhaser p).nextWarp = s.nextWarp := rfl
@[simp] theorem setPhaser_calls : (s.setPhaser p).calls = s.calls := rfl
@[simp] theorem setPhaser_nextCall : (s.setPhaser p).nextCall = s.nextCall := rfl
@[simp] theorem setPhaser_nearBanks : (s.setPhaser p).nearBanks = s.nearBanks := rfl
@[simp] theorem setPhaser_l1 : (s.setPhaser p).l1 = s.l1 := rfl
@[simp] theorem setPhaser_stashMaps : (s.setPhaser p).stashMaps = s.stashMaps := rfl
@[simp] theorem setPhaser_stashLines : (s.setPhaser p).stashLines = s.stashLines := rfl
@[simp] theorem setPhaser_acks : (s.setPhaser p).acks = s.acks := rfl
@[simp] theorem setPhaser_probes : (s.setPhaser p).probes = s.probes := rfl
@[simp] theorem setPhaser_l2 : (s.setPhaser p).l2 = s.l2 := rfl
@[simp] theorem setPhaser_writes : (s.setPhaser p).writes = s.writes := rfl
@[simp] theorem setPhaser_nextWrite : (s.setPhaser p).nextWrite = s.nextWrite := rfl
@[simp] theorem setPhaser_unarrived : (s.setPhaser p).unarrived = s.unarrived := rfl
@[simp] theorem setPhaser_past : (s.setPhaser p).past = s.past := rfl
@[simp] theorem setPhaser_moments : (s.setPhaser p).moments = s.moments := rfl
@[simp] theorem setPhaser_readers : (s.setPhaser p).readers = s.readers := rfl
@[simp] theorem setPhaser_poisoned : (s.setPhaser p).poisoned = s.poisoned := rfl
@[simp] theorem setPhaser_rewritten : (s.setPhaser p).rewritten = s.rewritten := rfl
@[simp] theorem setPhaser_stamps : (s.setPhaser p).stamps = s.stamps := rfl
@[simp] theorem setPhaser_hbm : (s.setPhaser p).hbm = s.hbm := rfl
@[simp] theorem setPhaser_host : (s.setPhaser p).host = s.host := rfl
@[simp] theorem setPhaser_store : (s.setPhaser p).store = s.store := rfl
end

section
variable (s : State) (port : Bool) (m : Mailbox)
@[simp] theorem setMailbox_stepNo : (s.setMailbox port m).stepNo = s.stepNo := rfl
@[simp] theorem setMailbox_ticks : (s.setMailbox port m).ticks = s.ticks := rfl
@[simp] theorem setMailbox_cycles : (s.setMailbox port m).cycles = s.cycles := rfl
@[simp] theorem setMailbox_pierCycles : (s.setMailbox port m).pierCycles = s.pierCycles := rfl
@[simp] theorem setMailbox_inputs : (s.setMailbox port m).inputs = s.inputs := rfl
@[simp] theorem setMailbox_power : (s.setMailbox port m).power = s.power := rfl
@[simp] theorem setMailbox_startup : (s.setMailbox port m).startup = s.startup := rfl
@[simp] theorem setMailbox_mailboxes : (s.setMailbox port m).mailboxes = [if port then s.mailbox false else m, if port then m else s.mailbox true] := rfl
@[simp] theorem setMailbox_lastServed : (s.setMailbox port m).lastServed = s.lastServed := rfl
@[simp] theorem setMailbox_almanac : (s.setMailbox port m).almanac = s.almanac := rfl
@[simp] theorem setMailbox_almanacSeq : (s.setMailbox port m).almanacSeq = s.almanacSeq := rfl
@[simp] theorem setMailbox_calends : (s.setMailbox port m).calends = s.calends := rfl
@[simp] theorem setMailbox_corrected : (s.setMailbox port m).corrected = s.corrected := rfl
@[simp] theorem setMailbox_pod : (s.setMailbox port m).pod = s.pod := rfl
@[simp] theorem setMailbox_packets : (s.setMailbox port m).packets = s.packets := rfl
@[simp] theorem setMailbox_lateArrivals : (s.setMailbox port m).lateArrivals = s.lateArrivals := rfl
@[simp] theorem setMailbox_priv : (s.setMailbox port m).priv = s.priv := rfl
@[simp] theorem setMailbox_contexts : (s.setMailbox port m).contexts = s.contexts := rfl
@[simp] theorem setMailbox_queues : (s.setMailbox port m).queues = s.queues := rfl
@[simp] theorem setMailbox_wrr : (s.setMailbox port m).wrr = s.wrr := rfl
@[simp] theorem setMailbox_joinWaits : (s.setMailbox port m).joinWaits = s.joinWaits := rfl
@[simp] theorem setMailbox_discards : (s.setMailbox port m).discards = s.discards := rfl
@[simp] theorem setMailbox_summaries : (s.setMailbox port m).summaries = s.summaries := rfl
@[simp] theorem setMailbox_groups : (s.setMailbox port m).groups = s.groups := rfl
@[simp] theorem setMailbox_ballotSeq : (s.setMailbox port m).ballotSeq = s.ballotSeq := rfl
@[simp] theorem setMailbox_windows : (s.setMailbox port m).windows = s.windows := rfl
@[simp] theorem setMailbox_apertures : (s.setMailbox port m).apertures = s.apertures := rfl
@[simp] theorem setMailbox_pageRequests : (s.setMailbox port m).pageRequests = s.pageRequests := rfl
@[simp] theorem setMailbox_ats : (s.setMailbox port m).ats = s.ats := rfl
@[simp] theorem setMailbox_tlb : (s.setMailbox port m).tlb = s.tlb := rfl
@[simp] theorem setMailbox_warps : (s.setMailbox port m).warps = s.warps := rfl
@[simp] theorem setMailbox_frames : (s.setMailbox port m).frames = s.frames := rfl
@[simp] theorem setMailbox_early : (s.setMailbox port m).early = s.early := rfl
@[simp] theorem setMailbox_tokens : (s.setMailbox port m).tokens = s.tokens := rfl
@[simp] theorem setMailbox_arbiters : (s.setMailbox port m).arbiters = s.arbiters := rfl
@[simp] theorem setMailbox_clocks : (s.setMailbox port m).clocks = s.clocks := rfl
@[simp] theorem setMailbox_phasers : (s.setMailbox port m).phasers = s.phasers := rfl
@[simp] theorem setMailbox_nextPhaser : (s.setMailbox port m).nextPhaser = s.nextPhaser := rfl
@[simp] theorem setMailbox_copies : (s.setMailbox port m).copies = s.copies := rfl
@[simp] theorem setMailbox_matrix : (s.setMailbox port m).matrix = s.matrix := rfl
@[simp] theorem setMailbox_epilogues : (s.setMailbox port m).epilogues = s.epilogues := rfl
@[simp] theorem setMailbox_tiles : (s.setMailbox port m).tiles = s.tiles := rfl
@[simp] theorem setMailbox_allocs : (s.setMailbox port m).allocs = s.allocs := rfl
@[simp] theorem setMailbox_pieces : (s.setMailbox port m).pieces = s.pieces := rfl
@[simp] theorem setMailbox_nextAlloc : (s.setMailbox port m).nextAlloc = s.nextAlloc := rfl
@[simp] theorem setMailbox_nextWarp : (s.setMailbox port m).nextWarp = s.nextWarp := rfl
@[simp] theorem setMailbox_calls : (s.setMailbox port m).calls = s.calls := rfl
@[simp] theorem setMailbox_nextCall : (s.setMailbox port m).nextCall = s.nextCall := rfl
@[simp] theorem setMailbox_nearBanks : (s.setMailbox port m).nearBanks = s.nearBanks := rfl
@[simp] theorem setMailbox_l1 : (s.setMailbox port m).l1 = s.l1 := rfl
@[simp] theorem setMailbox_stashMaps : (s.setMailbox port m).stashMaps = s.stashMaps := rfl
@[simp] theorem setMailbox_stashLines : (s.setMailbox port m).stashLines = s.stashLines := rfl
@[simp] theorem setMailbox_acks : (s.setMailbox port m).acks = s.acks := rfl
@[simp] theorem setMailbox_probes : (s.setMailbox port m).probes = s.probes := rfl
@[simp] theorem setMailbox_l2 : (s.setMailbox port m).l2 = s.l2 := rfl
@[simp] theorem setMailbox_writes : (s.setMailbox port m).writes = s.writes := rfl
@[simp] theorem setMailbox_nextWrite : (s.setMailbox port m).nextWrite = s.nextWrite := rfl
@[simp] theorem setMailbox_unarrived : (s.setMailbox port m).unarrived = s.unarrived := rfl
@[simp] theorem setMailbox_past : (s.setMailbox port m).past = s.past := rfl
@[simp] theorem setMailbox_moments : (s.setMailbox port m).moments = s.moments := rfl
@[simp] theorem setMailbox_readers : (s.setMailbox port m).readers = s.readers := rfl
@[simp] theorem setMailbox_poisoned : (s.setMailbox port m).poisoned = s.poisoned := rfl
@[simp] theorem setMailbox_rewritten : (s.setMailbox port m).rewritten = s.rewritten := rfl
@[simp] theorem setMailbox_stamps : (s.setMailbox port m).stamps = s.stamps := rfl
@[simp] theorem setMailbox_hbm : (s.setMailbox port m).hbm = s.hbm := rfl
@[simp] theorem setMailbox_host : (s.setMailbox port m).host = s.host := rfl
@[simp] theorem setMailbox_store : (s.setMailbox port m).store = s.store := rfl
end

section
variable (s : State) (m : Nat) (e : PodEntry)
@[simp] theorem setPodEntry_stepNo : (s.setPodEntry m e).stepNo = s.stepNo := rfl
@[simp] theorem setPodEntry_ticks : (s.setPodEntry m e).ticks = s.ticks := rfl
@[simp] theorem setPodEntry_cycles : (s.setPodEntry m e).cycles = s.cycles := rfl
@[simp] theorem setPodEntry_pierCycles : (s.setPodEntry m e).pierCycles = s.pierCycles := rfl
@[simp] theorem setPodEntry_inputs : (s.setPodEntry m e).inputs = s.inputs := rfl
@[simp] theorem setPodEntry_power : (s.setPodEntry m e).power = s.power := rfl
@[simp] theorem setPodEntry_startup : (s.setPodEntry m e).startup = s.startup := rfl
@[simp] theorem setPodEntry_mailboxes : (s.setPodEntry m e).mailboxes = s.mailboxes := rfl
@[simp] theorem setPodEntry_lastServed : (s.setPodEntry m e).lastServed = s.lastServed := rfl
@[simp] theorem setPodEntry_almanac : (s.setPodEntry m e).almanac = s.almanac := rfl
@[simp] theorem setPodEntry_almanacSeq : (s.setPodEntry m e).almanacSeq = s.almanacSeq := rfl
@[simp] theorem setPodEntry_calends : (s.setPodEntry m e).calends = s.calends := rfl
@[simp] theorem setPodEntry_corrected : (s.setPodEntry m e).corrected = s.corrected := rfl
@[simp] theorem setPodEntry_packets : (s.setPodEntry m e).packets = s.packets := rfl
@[simp] theorem setPodEntry_lateArrivals : (s.setPodEntry m e).lateArrivals = s.lateArrivals := rfl
@[simp] theorem setPodEntry_priv : (s.setPodEntry m e).priv = s.priv := rfl
@[simp] theorem setPodEntry_contexts : (s.setPodEntry m e).contexts = s.contexts := rfl
@[simp] theorem setPodEntry_queues : (s.setPodEntry m e).queues = s.queues := rfl
@[simp] theorem setPodEntry_wrr : (s.setPodEntry m e).wrr = s.wrr := rfl
@[simp] theorem setPodEntry_joinWaits : (s.setPodEntry m e).joinWaits = s.joinWaits := rfl
@[simp] theorem setPodEntry_discards : (s.setPodEntry m e).discards = s.discards := rfl
@[simp] theorem setPodEntry_summaries : (s.setPodEntry m e).summaries = s.summaries := rfl
@[simp] theorem setPodEntry_groups : (s.setPodEntry m e).groups = s.groups := rfl
@[simp] theorem setPodEntry_ballotSeq : (s.setPodEntry m e).ballotSeq = s.ballotSeq := rfl
@[simp] theorem setPodEntry_windows : (s.setPodEntry m e).windows = s.windows := rfl
@[simp] theorem setPodEntry_apertures : (s.setPodEntry m e).apertures = s.apertures := rfl
@[simp] theorem setPodEntry_pageRequests : (s.setPodEntry m e).pageRequests = s.pageRequests := rfl
@[simp] theorem setPodEntry_ats : (s.setPodEntry m e).ats = s.ats := rfl
@[simp] theorem setPodEntry_tlb : (s.setPodEntry m e).tlb = s.tlb := rfl
@[simp] theorem setPodEntry_warps : (s.setPodEntry m e).warps = s.warps := rfl
@[simp] theorem setPodEntry_frames : (s.setPodEntry m e).frames = s.frames := rfl
@[simp] theorem setPodEntry_early : (s.setPodEntry m e).early = s.early := rfl
@[simp] theorem setPodEntry_tokens : (s.setPodEntry m e).tokens = s.tokens := rfl
@[simp] theorem setPodEntry_arbiters : (s.setPodEntry m e).arbiters = s.arbiters := rfl
@[simp] theorem setPodEntry_clocks : (s.setPodEntry m e).clocks = s.clocks := rfl
@[simp] theorem setPodEntry_phasers : (s.setPodEntry m e).phasers = s.phasers := rfl
@[simp] theorem setPodEntry_nextPhaser : (s.setPodEntry m e).nextPhaser = s.nextPhaser := rfl
@[simp] theorem setPodEntry_copies : (s.setPodEntry m e).copies = s.copies := rfl
@[simp] theorem setPodEntry_matrix : (s.setPodEntry m e).matrix = s.matrix := rfl
@[simp] theorem setPodEntry_epilogues : (s.setPodEntry m e).epilogues = s.epilogues := rfl
@[simp] theorem setPodEntry_tiles : (s.setPodEntry m e).tiles = s.tiles := rfl
@[simp] theorem setPodEntry_allocs : (s.setPodEntry m e).allocs = s.allocs := rfl
@[simp] theorem setPodEntry_pieces : (s.setPodEntry m e).pieces = s.pieces := rfl
@[simp] theorem setPodEntry_nextAlloc : (s.setPodEntry m e).nextAlloc = s.nextAlloc := rfl
@[simp] theorem setPodEntry_nextWarp : (s.setPodEntry m e).nextWarp = s.nextWarp := rfl
@[simp] theorem setPodEntry_calls : (s.setPodEntry m e).calls = s.calls := rfl
@[simp] theorem setPodEntry_nextCall : (s.setPodEntry m e).nextCall = s.nextCall := rfl
@[simp] theorem setPodEntry_nearBanks : (s.setPodEntry m e).nearBanks = s.nearBanks := rfl
@[simp] theorem setPodEntry_l1 : (s.setPodEntry m e).l1 = s.l1 := rfl
@[simp] theorem setPodEntry_stashMaps : (s.setPodEntry m e).stashMaps = s.stashMaps := rfl
@[simp] theorem setPodEntry_stashLines : (s.setPodEntry m e).stashLines = s.stashLines := rfl
@[simp] theorem setPodEntry_acks : (s.setPodEntry m e).acks = s.acks := rfl
@[simp] theorem setPodEntry_probes : (s.setPodEntry m e).probes = s.probes := rfl
@[simp] theorem setPodEntry_l2 : (s.setPodEntry m e).l2 = s.l2 := rfl
@[simp] theorem setPodEntry_writes : (s.setPodEntry m e).writes = s.writes := rfl
@[simp] theorem setPodEntry_nextWrite : (s.setPodEntry m e).nextWrite = s.nextWrite := rfl
@[simp] theorem setPodEntry_unarrived : (s.setPodEntry m e).unarrived = s.unarrived := rfl
@[simp] theorem setPodEntry_past : (s.setPodEntry m e).past = s.past := rfl
@[simp] theorem setPodEntry_moments : (s.setPodEntry m e).moments = s.moments := rfl
@[simp] theorem setPodEntry_readers : (s.setPodEntry m e).readers = s.readers := rfl
@[simp] theorem setPodEntry_poisoned : (s.setPodEntry m e).poisoned = s.poisoned := rfl
@[simp] theorem setPodEntry_rewritten : (s.setPodEntry m e).rewritten = s.rewritten := rfl
@[simp] theorem setPodEntry_stamps : (s.setPodEntry m e).stamps = s.stamps := rfl
@[simp] theorem setPodEntry_hbm : (s.setPodEntry m e).hbm = s.hbm := rfl
@[simp] theorem setPodEntry_host : (s.setPodEntry m e).host = s.host := rfl
@[simp] theorem setPodEntry_store : (s.setPodEntry m e).store = s.store := rfl
end

section
variable (s : State) (stack : Nat) (n : NearBank)
@[simp] theorem setNearBank_stepNo : (s.setNearBank stack n).stepNo = s.stepNo := rfl
@[simp] theorem setNearBank_ticks : (s.setNearBank stack n).ticks = s.ticks := rfl
@[simp] theorem setNearBank_cycles : (s.setNearBank stack n).cycles = s.cycles := rfl
@[simp] theorem setNearBank_pierCycles : (s.setNearBank stack n).pierCycles = s.pierCycles := rfl
@[simp] theorem setNearBank_inputs : (s.setNearBank stack n).inputs = s.inputs := rfl
@[simp] theorem setNearBank_power : (s.setNearBank stack n).power = s.power := rfl
@[simp] theorem setNearBank_startup : (s.setNearBank stack n).startup = s.startup := rfl
@[simp] theorem setNearBank_mailboxes : (s.setNearBank stack n).mailboxes = s.mailboxes := rfl
@[simp] theorem setNearBank_lastServed : (s.setNearBank stack n).lastServed = s.lastServed := rfl
@[simp] theorem setNearBank_almanac : (s.setNearBank stack n).almanac = s.almanac := rfl
@[simp] theorem setNearBank_almanacSeq : (s.setNearBank stack n).almanacSeq = s.almanacSeq := rfl
@[simp] theorem setNearBank_calends : (s.setNearBank stack n).calends = s.calends := rfl
@[simp] theorem setNearBank_corrected : (s.setNearBank stack n).corrected = s.corrected := rfl
@[simp] theorem setNearBank_pod : (s.setNearBank stack n).pod = s.pod := rfl
@[simp] theorem setNearBank_packets : (s.setNearBank stack n).packets = s.packets := rfl
@[simp] theorem setNearBank_lateArrivals : (s.setNearBank stack n).lateArrivals = s.lateArrivals := rfl
@[simp] theorem setNearBank_priv : (s.setNearBank stack n).priv = s.priv := rfl
@[simp] theorem setNearBank_contexts : (s.setNearBank stack n).contexts = s.contexts := rfl
@[simp] theorem setNearBank_queues : (s.setNearBank stack n).queues = s.queues := rfl
@[simp] theorem setNearBank_wrr : (s.setNearBank stack n).wrr = s.wrr := rfl
@[simp] theorem setNearBank_joinWaits : (s.setNearBank stack n).joinWaits = s.joinWaits := rfl
@[simp] theorem setNearBank_discards : (s.setNearBank stack n).discards = s.discards := rfl
@[simp] theorem setNearBank_summaries : (s.setNearBank stack n).summaries = s.summaries := rfl
@[simp] theorem setNearBank_groups : (s.setNearBank stack n).groups = s.groups := rfl
@[simp] theorem setNearBank_ballotSeq : (s.setNearBank stack n).ballotSeq = s.ballotSeq := rfl
@[simp] theorem setNearBank_windows : (s.setNearBank stack n).windows = s.windows := rfl
@[simp] theorem setNearBank_apertures : (s.setNearBank stack n).apertures = s.apertures := rfl
@[simp] theorem setNearBank_pageRequests : (s.setNearBank stack n).pageRequests = s.pageRequests := rfl
@[simp] theorem setNearBank_ats : (s.setNearBank stack n).ats = s.ats := rfl
@[simp] theorem setNearBank_tlb : (s.setNearBank stack n).tlb = s.tlb := rfl
@[simp] theorem setNearBank_warps : (s.setNearBank stack n).warps = s.warps := rfl
@[simp] theorem setNearBank_frames : (s.setNearBank stack n).frames = s.frames := rfl
@[simp] theorem setNearBank_early : (s.setNearBank stack n).early = s.early := rfl
@[simp] theorem setNearBank_tokens : (s.setNearBank stack n).tokens = s.tokens := rfl
@[simp] theorem setNearBank_arbiters : (s.setNearBank stack n).arbiters = s.arbiters := rfl
@[simp] theorem setNearBank_clocks : (s.setNearBank stack n).clocks = s.clocks := rfl
@[simp] theorem setNearBank_phasers : (s.setNearBank stack n).phasers = s.phasers := rfl
@[simp] theorem setNearBank_nextPhaser : (s.setNearBank stack n).nextPhaser = s.nextPhaser := rfl
@[simp] theorem setNearBank_copies : (s.setNearBank stack n).copies = s.copies := rfl
@[simp] theorem setNearBank_matrix : (s.setNearBank stack n).matrix = s.matrix := rfl
@[simp] theorem setNearBank_epilogues : (s.setNearBank stack n).epilogues = s.epilogues := rfl
@[simp] theorem setNearBank_tiles : (s.setNearBank stack n).tiles = s.tiles := rfl
@[simp] theorem setNearBank_allocs : (s.setNearBank stack n).allocs = s.allocs := rfl
@[simp] theorem setNearBank_pieces : (s.setNearBank stack n).pieces = s.pieces := rfl
@[simp] theorem setNearBank_nextAlloc : (s.setNearBank stack n).nextAlloc = s.nextAlloc := rfl
@[simp] theorem setNearBank_nextWarp : (s.setNearBank stack n).nextWarp = s.nextWarp := rfl
@[simp] theorem setNearBank_calls : (s.setNearBank stack n).calls = s.calls := rfl
@[simp] theorem setNearBank_nextCall : (s.setNearBank stack n).nextCall = s.nextCall := rfl
@[simp] theorem setNearBank_nearBanks : (s.setNearBank stack n).nearBanks = sset NearBank.reset s.nearBanks stack n := rfl
@[simp] theorem setNearBank_l1 : (s.setNearBank stack n).l1 = s.l1 := rfl
@[simp] theorem setNearBank_stashMaps : (s.setNearBank stack n).stashMaps = s.stashMaps := rfl
@[simp] theorem setNearBank_stashLines : (s.setNearBank stack n).stashLines = s.stashLines := rfl
@[simp] theorem setNearBank_acks : (s.setNearBank stack n).acks = s.acks := rfl
@[simp] theorem setNearBank_probes : (s.setNearBank stack n).probes = s.probes := rfl
@[simp] theorem setNearBank_l2 : (s.setNearBank stack n).l2 = s.l2 := rfl
@[simp] theorem setNearBank_writes : (s.setNearBank stack n).writes = s.writes := rfl
@[simp] theorem setNearBank_nextWrite : (s.setNearBank stack n).nextWrite = s.nextWrite := rfl
@[simp] theorem setNearBank_unarrived : (s.setNearBank stack n).unarrived = s.unarrived := rfl
@[simp] theorem setNearBank_past : (s.setNearBank stack n).past = s.past := rfl
@[simp] theorem setNearBank_moments : (s.setNearBank stack n).moments = s.moments := rfl
@[simp] theorem setNearBank_readers : (s.setNearBank stack n).readers = s.readers := rfl
@[simp] theorem setNearBank_poisoned : (s.setNearBank stack n).poisoned = s.poisoned := rfl
@[simp] theorem setNearBank_rewritten : (s.setNearBank stack n).rewritten = s.rewritten := rfl
@[simp] theorem setNearBank_stamps : (s.setNearBank stack n).stamps = s.stamps := rfl
@[simp] theorem setNearBank_hbm : (s.setNearBank stack n).hbm = s.hbm := rfl
@[simp] theorem setNearBank_host : (s.setNearBank stack n).host = s.host := rfl
@[simp] theorem setNearBank_store : (s.setNearBank stack n).store = s.store := rfl
end

section
variable (s : State)
@[simp] theorem wakeWaiting_stepNo : (s.wakeWaiting).stepNo = s.stepNo := rfl
@[simp] theorem wakeWaiting_ticks : (s.wakeWaiting).ticks = s.ticks := rfl
@[simp] theorem wakeWaiting_cycles : (s.wakeWaiting).cycles = s.cycles := rfl
@[simp] theorem wakeWaiting_pierCycles : (s.wakeWaiting).pierCycles = s.pierCycles := rfl
@[simp] theorem wakeWaiting_inputs : (s.wakeWaiting).inputs = s.inputs := rfl
@[simp] theorem wakeWaiting_power : (s.wakeWaiting).power = s.power := rfl
@[simp] theorem wakeWaiting_startup : (s.wakeWaiting).startup = s.startup := rfl
@[simp] theorem wakeWaiting_mailboxes : (s.wakeWaiting).mailboxes = s.mailboxes := rfl
@[simp] theorem wakeWaiting_lastServed : (s.wakeWaiting).lastServed = s.lastServed := rfl
@[simp] theorem wakeWaiting_almanac : (s.wakeWaiting).almanac = s.almanac := rfl
@[simp] theorem wakeWaiting_almanacSeq : (s.wakeWaiting).almanacSeq = s.almanacSeq := rfl
@[simp] theorem wakeWaiting_calends : (s.wakeWaiting).calends = s.calends := rfl
@[simp] theorem wakeWaiting_corrected : (s.wakeWaiting).corrected = s.corrected := rfl
@[simp] theorem wakeWaiting_pod : (s.wakeWaiting).pod = s.pod := rfl
@[simp] theorem wakeWaiting_packets : (s.wakeWaiting).packets = s.packets := rfl
@[simp] theorem wakeWaiting_lateArrivals : (s.wakeWaiting).lateArrivals = s.lateArrivals := rfl
@[simp] theorem wakeWaiting_priv : (s.wakeWaiting).priv = s.priv := rfl
@[simp] theorem wakeWaiting_contexts : (s.wakeWaiting).contexts = s.contexts := rfl
@[simp] theorem wakeWaiting_queues : (s.wakeWaiting).queues = s.queues := rfl
@[simp] theorem wakeWaiting_wrr : (s.wakeWaiting).wrr = s.wrr := rfl
@[simp] theorem wakeWaiting_joinWaits : (s.wakeWaiting).joinWaits = s.joinWaits := rfl
@[simp] theorem wakeWaiting_discards : (s.wakeWaiting).discards = s.discards := rfl
@[simp] theorem wakeWaiting_summaries : (s.wakeWaiting).summaries = s.summaries := rfl
@[simp] theorem wakeWaiting_groups : (s.wakeWaiting).groups = s.groups := rfl
@[simp] theorem wakeWaiting_ballotSeq : (s.wakeWaiting).ballotSeq = s.ballotSeq := rfl
@[simp] theorem wakeWaiting_windows : (s.wakeWaiting).windows = s.windows := rfl
@[simp] theorem wakeWaiting_apertures : (s.wakeWaiting).apertures = s.apertures := rfl
@[simp] theorem wakeWaiting_pageRequests : (s.wakeWaiting).pageRequests = s.pageRequests := rfl
@[simp] theorem wakeWaiting_ats : (s.wakeWaiting).ats = s.ats := rfl
@[simp] theorem wakeWaiting_tlb : (s.wakeWaiting).tlb = s.tlb := rfl
@[simp] theorem wakeWaiting_warps : (s.wakeWaiting).warps = s.warps := rfl
@[simp] theorem wakeWaiting_frames : (s.wakeWaiting).frames = s.frames.map fun f => { f with waiting := false } := rfl
@[simp] theorem wakeWaiting_early : (s.wakeWaiting).early = s.early := rfl
@[simp] theorem wakeWaiting_tokens : (s.wakeWaiting).tokens = s.tokens := rfl
@[simp] theorem wakeWaiting_arbiters : (s.wakeWaiting).arbiters = s.arbiters := rfl
@[simp] theorem wakeWaiting_clocks : (s.wakeWaiting).clocks = s.clocks := rfl
@[simp] theorem wakeWaiting_phasers : (s.wakeWaiting).phasers = s.phasers := rfl
@[simp] theorem wakeWaiting_nextPhaser : (s.wakeWaiting).nextPhaser = s.nextPhaser := rfl
@[simp] theorem wakeWaiting_copies : (s.wakeWaiting).copies = s.copies := rfl
@[simp] theorem wakeWaiting_matrix : (s.wakeWaiting).matrix = s.matrix := rfl
@[simp] theorem wakeWaiting_epilogues : (s.wakeWaiting).epilogues = s.epilogues := rfl
@[simp] theorem wakeWaiting_tiles : (s.wakeWaiting).tiles = s.tiles := rfl
@[simp] theorem wakeWaiting_allocs : (s.wakeWaiting).allocs = s.allocs := rfl
@[simp] theorem wakeWaiting_pieces : (s.wakeWaiting).pieces = s.pieces := rfl
@[simp] theorem wakeWaiting_nextAlloc : (s.wakeWaiting).nextAlloc = s.nextAlloc := rfl
@[simp] theorem wakeWaiting_nextWarp : (s.wakeWaiting).nextWarp = s.nextWarp := rfl
@[simp] theorem wakeWaiting_calls : (s.wakeWaiting).calls = s.calls := rfl
@[simp] theorem wakeWaiting_nextCall : (s.wakeWaiting).nextCall = s.nextCall := rfl
@[simp] theorem wakeWaiting_nearBanks : (s.wakeWaiting).nearBanks = s.nearBanks := rfl
@[simp] theorem wakeWaiting_l1 : (s.wakeWaiting).l1 = s.l1 := rfl
@[simp] theorem wakeWaiting_stashMaps : (s.wakeWaiting).stashMaps = s.stashMaps := rfl
@[simp] theorem wakeWaiting_stashLines : (s.wakeWaiting).stashLines = s.stashLines := rfl
@[simp] theorem wakeWaiting_acks : (s.wakeWaiting).acks = s.acks := rfl
@[simp] theorem wakeWaiting_probes : (s.wakeWaiting).probes = s.probes := rfl
@[simp] theorem wakeWaiting_l2 : (s.wakeWaiting).l2 = s.l2 := rfl
@[simp] theorem wakeWaiting_writes : (s.wakeWaiting).writes = s.writes := rfl
@[simp] theorem wakeWaiting_nextWrite : (s.wakeWaiting).nextWrite = s.nextWrite := rfl
@[simp] theorem wakeWaiting_unarrived : (s.wakeWaiting).unarrived = s.unarrived := rfl
@[simp] theorem wakeWaiting_past : (s.wakeWaiting).past = s.past := rfl
@[simp] theorem wakeWaiting_moments : (s.wakeWaiting).moments = s.moments := rfl
@[simp] theorem wakeWaiting_readers : (s.wakeWaiting).readers = s.readers := rfl
@[simp] theorem wakeWaiting_poisoned : (s.wakeWaiting).poisoned = s.poisoned := rfl
@[simp] theorem wakeWaiting_rewritten : (s.wakeWaiting).rewritten = s.rewritten := rfl
@[simp] theorem wakeWaiting_stamps : (s.wakeWaiting).stamps = s.stamps := rfl
@[simp] theorem wakeWaiting_hbm : (s.wakeWaiting).hbm = s.hbm := rfl
@[simp] theorem wakeWaiting_host : (s.wakeWaiting).host = s.host := rfl
@[simp] theorem wakeWaiting_store : (s.wakeWaiting).store = s.store := rfl
end

section
variable (s : State) (port : Bool) (a : Nat) (bytes : List Byte)
@[simp] theorem writeHost_stepNo : (s.writeHost port a bytes).stepNo = s.stepNo := rfl
@[simp] theorem writeHost_ticks : (s.writeHost port a bytes).ticks = s.ticks := rfl
@[simp] theorem writeHost_cycles : (s.writeHost port a bytes).cycles = s.cycles := rfl
@[simp] theorem writeHost_pierCycles : (s.writeHost port a bytes).pierCycles = s.pierCycles := rfl
@[simp] theorem writeHost_inputs : (s.writeHost port a bytes).inputs = s.inputs := rfl
@[simp] theorem writeHost_power : (s.writeHost port a bytes).power = s.power := rfl
@[simp] theorem writeHost_startup : (s.writeHost port a bytes).startup = s.startup := rfl
@[simp] theorem writeHost_mailboxes : (s.writeHost port a bytes).mailboxes = s.mailboxes := rfl
@[simp] theorem writeHost_lastServed : (s.writeHost port a bytes).lastServed = s.lastServed := rfl
@[simp] theorem writeHost_almanac : (s.writeHost port a bytes).almanac = s.almanac := rfl
@[simp] theorem writeHost_almanacSeq : (s.writeHost port a bytes).almanacSeq = s.almanacSeq := rfl
@[simp] theorem writeHost_calends : (s.writeHost port a bytes).calends = s.calends := rfl
@[simp] theorem writeHost_corrected : (s.writeHost port a bytes).corrected = s.corrected := rfl
@[simp] theorem writeHost_pod : (s.writeHost port a bytes).pod = s.pod := rfl
@[simp] theorem writeHost_packets : (s.writeHost port a bytes).packets = s.packets := rfl
@[simp] theorem writeHost_lateArrivals : (s.writeHost port a bytes).lateArrivals = s.lateArrivals := rfl
@[simp] theorem writeHost_priv : (s.writeHost port a bytes).priv = s.priv := rfl
@[simp] theorem writeHost_contexts : (s.writeHost port a bytes).contexts = s.contexts := rfl
@[simp] theorem writeHost_queues : (s.writeHost port a bytes).queues = s.queues := rfl
@[simp] theorem writeHost_wrr : (s.writeHost port a bytes).wrr = s.wrr := rfl
@[simp] theorem writeHost_joinWaits : (s.writeHost port a bytes).joinWaits = s.joinWaits := rfl
@[simp] theorem writeHost_discards : (s.writeHost port a bytes).discards = s.discards := rfl
@[simp] theorem writeHost_summaries : (s.writeHost port a bytes).summaries = s.summaries := rfl
@[simp] theorem writeHost_groups : (s.writeHost port a bytes).groups = s.groups := rfl
@[simp] theorem writeHost_ballotSeq : (s.writeHost port a bytes).ballotSeq = s.ballotSeq := rfl
@[simp] theorem writeHost_windows : (s.writeHost port a bytes).windows = s.windows := rfl
@[simp] theorem writeHost_apertures : (s.writeHost port a bytes).apertures = s.apertures := rfl
@[simp] theorem writeHost_pageRequests : (s.writeHost port a bytes).pageRequests = s.pageRequests := rfl
@[simp] theorem writeHost_ats : (s.writeHost port a bytes).ats = s.ats := rfl
@[simp] theorem writeHost_tlb : (s.writeHost port a bytes).tlb = s.tlb := rfl
@[simp] theorem writeHost_warps : (s.writeHost port a bytes).warps = s.warps := rfl
@[simp] theorem writeHost_frames : (s.writeHost port a bytes).frames = s.frames := rfl
@[simp] theorem writeHost_early : (s.writeHost port a bytes).early = s.early := rfl
@[simp] theorem writeHost_tokens : (s.writeHost port a bytes).tokens = s.tokens := rfl
@[simp] theorem writeHost_arbiters : (s.writeHost port a bytes).arbiters = s.arbiters := rfl
@[simp] theorem writeHost_clocks : (s.writeHost port a bytes).clocks = s.clocks := rfl
@[simp] theorem writeHost_phasers : (s.writeHost port a bytes).phasers = s.phasers := rfl
@[simp] theorem writeHost_nextPhaser : (s.writeHost port a bytes).nextPhaser = s.nextPhaser := rfl
@[simp] theorem writeHost_copies : (s.writeHost port a bytes).copies = s.copies := rfl
@[simp] theorem writeHost_matrix : (s.writeHost port a bytes).matrix = s.matrix := rfl
@[simp] theorem writeHost_epilogues : (s.writeHost port a bytes).epilogues = s.epilogues := rfl
@[simp] theorem writeHost_tiles : (s.writeHost port a bytes).tiles = s.tiles := rfl
@[simp] theorem writeHost_allocs : (s.writeHost port a bytes).allocs = s.allocs := rfl
@[simp] theorem writeHost_pieces : (s.writeHost port a bytes).pieces = s.pieces := rfl
@[simp] theorem writeHost_nextAlloc : (s.writeHost port a bytes).nextAlloc = s.nextAlloc := rfl
@[simp] theorem writeHost_nextWarp : (s.writeHost port a bytes).nextWarp = s.nextWarp := rfl
@[simp] theorem writeHost_calls : (s.writeHost port a bytes).calls = s.calls := rfl
@[simp] theorem writeHost_nextCall : (s.writeHost port a bytes).nextCall = s.nextCall := rfl
@[simp] theorem writeHost_nearBanks : (s.writeHost port a bytes).nearBanks = s.nearBanks := rfl
@[simp] theorem writeHost_l1 : (s.writeHost port a bytes).l1 = s.l1 := rfl
@[simp] theorem writeHost_stashMaps : (s.writeHost port a bytes).stashMaps = s.stashMaps := rfl
@[simp] theorem writeHost_stashLines : (s.writeHost port a bytes).stashLines = s.stashLines := rfl
@[simp] theorem writeHost_acks : (s.writeHost port a bytes).acks = s.acks := rfl
@[simp] theorem writeHost_probes : (s.writeHost port a bytes).probes = s.probes := rfl
@[simp] theorem writeHost_l2 : (s.writeHost port a bytes).l2 = s.l2 := rfl
@[simp] theorem writeHost_writes : (s.writeHost port a bytes).writes = s.writes := rfl
@[simp] theorem writeHost_nextWrite : (s.writeHost port a bytes).nextWrite = s.nextWrite := rfl
@[simp] theorem writeHost_unarrived : (s.writeHost port a bytes).unarrived = s.unarrived := rfl
@[simp] theorem writeHost_past : (s.writeHost port a bytes).past = s.past := rfl
@[simp] theorem writeHost_moments : (s.writeHost port a bytes).moments = s.moments := rfl
@[simp] theorem writeHost_readers : (s.writeHost port a bytes).readers = s.readers := rfl
@[simp] theorem writeHost_poisoned : (s.writeHost port a bytes).poisoned = s.poisoned := rfl
@[simp] theorem writeHost_rewritten : (s.writeHost port a bytes).rewritten = s.rewritten := rfl
@[simp] theorem writeHost_stamps : (s.writeHost port a bytes).stamps = s.stamps := rfl
@[simp] theorem writeHost_hbm : (s.writeHost port a bytes).hbm = s.hbm := rfl
@[simp] theorem writeHost_host : (s.writeHost port a bytes).host = setBytes s.host (hostAddr port a) bytes := rfl
@[simp] theorem writeHost_store : (s.writeHost port a bytes).store = s.store := rfl
end

end Sys2Proof.Machine
end

