-- ==== Sys2Proof/Tests/Slice0.lean ====
section
/-!
SUPPORT. Tests: ill-formed instructions are refused, words written out from the encodings of spec/ decode to the
instructions they stand for, the worked values of spec/ come out, and every statement with hypotheses has a state that
meets them. The rules' own tables are the source of every expected value.
-/
set_option Elab.async false
namespace Sys2Proof.Tests
open Sys2Proof Sys2Proof.Machine

/-! One ill-formed term for each check of `Instr.wf`, beside a well-formed one. -/

theorem test_wf_lsids : Instr.wf (.blk 0 0 0 1 false 0 false) = false ∧ Instr.wf (.blk 0 0 0 1 false 0 true) = true := by decide
theorem test_wf_uniform : Instr.wf (.rdS ⟨64, false, .none, .none⟩) = false ∧ Instr.wf (.rdS ⟨3, true, .none, .none⟩) = false ∧
    Instr.wf (.wrS ⟨64, false⟩) = false ∧ Instr.wf (.wrS ⟨3, true⟩) = false ∧ Instr.wf (.rdS ⟨62, true, .none, .none⟩) = true := by decide
theorem test_wf_predicate : Instr.wf (.rdP ⟨64, false, .none, .none⟩) = false ∧ Instr.wf (.rdP ⟨2, true, .none, .none⟩) = false ∧
    Instr.wf (.wrP ⟨0x50, false⟩) = false ∧ Instr.wf (.wrP ⟨0x40, true⟩) = false ∧ Instr.wf (.wrP ⟨0x4f, false⟩) = true := by decide
theorem test_wf_special : Instr.wf (.rdX ⟨0x07, false, .none, .none⟩) = false ∧ Instr.wf (.rdX ⟨0x10, false, .none, .none⟩) = false ∧
    Instr.wf (.rdX ⟨0x00, true, .none, .none⟩) = false ∧ Instr.wf (.rdX ⟨0x18, true, .none, .none⟩) = true := by decide
theorem test_wf_vector : Instr.wf (.trap .always 0x3f) = false ∧ Instr.wf (.trap .always 0x40) = true := by decide
theorem test_wf_conversion : Instr.wf (.cvt ⟨.always, .none, .none⟩ .f32 .f32) = false ∧
    Instr.wf (.cvt ⟨.always, .none, .none⟩ .f32 .s32) = false ∧ Instr.wf (.cvt ⟨.always, .none, .none⟩ .s8 .f32) = false ∧
    Instr.wf (.cvtSourceHigh ⟨.always, .none, .none⟩ .f32 .f16) = false ∧
    Instr.wf (.cvtSourceHigh ⟨.always, .none, .none⟩ .f16 .e8m0) = false ∧
    Instr.wf (.cvtSourceHigh ⟨.always, .none, .none⟩ .s32 .z32) = false ∧
    Instr.wf (.cvtSourceHigh ⟨.always, .none, .none⟩ .f32 .e8m0) = true := by decide
theorem test_wf_reduction : Instr.wf (.redux ⟨.always, .none, .none⟩ .fadd .z32) = false ∧
    Instr.wf (.scan ⟨.always, .none, .none⟩ .fadd .s64) = false ∧ Instr.wf (.scan ⟨.always, .none, .none⟩ .fadd .s32) = true := by decide
theorem test_wf_load : Instr.wf (.ld ⟨.always, 0, .b128, 0, .op .c 1⟩) = false ∧ Instr.wf (.ldb ⟨.always, 0, .b128, 0, .op .p 1⟩) = false ∧
    Instr.wf (.ldacq ⟨.always, 0, .b128, .die, .write 15⟩) = false ∧ Instr.wf (.ld ⟨.always, 0, .b128, 0, .write 14⟩) = true := by decide
theorem test_wf_store : Instr.wf (.st ⟨.always, 0, .b32, 0, .write 0⟩) = false ∧ Instr.wf (.stMc ⟨.always, 0, .b32, 0, .op .a 0⟩) = false ∧
    Instr.wf (.strel ⟨.always, 0, .b32, .die, .write 0⟩) = false ∧ Instr.wf (.st ⟨.always, 0, .b32, 0, .none⟩) = true := by decide
theorem test_wf_atomic : Instr.wf (.atom ⟨.always, 0, true, .die, .none, .addF32, .none⟩) = false ∧
    Instr.wf (.atom ⟨.always, 0, false, .die, .none, .addF64, .none⟩) = false ∧
    Instr.wf (.red .always 0 true .die .none .exch) = false ∧ Instr.wf (.red .always 0 true .die .none .addBf16) = false ∧
    Instr.wf (.atom ⟨.always, 0, true, .die, .none, .addF64, .none⟩) = true := by decide
theorem test_wf_drain : Instr.wf (.mdrain .always 0 false true 1) = false ∧ Instr.wf (.mdrain .always 0 true true 1) = true := by decide
theorem test_wf_command : Instr.wf (.createContext ⟨false, 0⟩ 0x02) = false ∧ Instr.wf (.fill ⟨false, 0⟩ 0x0e) = false ∧
    Instr.wf (.launch ⟨false, 0⟩ 0x07) = true ∧ Instr.wf (.unknownPrivilegedCommand ⟨false, 0⟩ 0x10) = false ∧
    Instr.wf (.unknownMailboxCommand false 0x09 0) = false ∧ Instr.wf (.unknownMailboxCommand false 0x0a 0) = true := by decide +kernel

/-- The word decodes to the instruction, and the instruction encodes to the word. -/
def decodes (w : W32) (i : Instr) : Bool := (match decode w with | .ok j => j = i | .error _ => false) && encode i = w

/-- The register words, bit by bit from the encodings of the opcode table. -/
theorem test_decode_register : (
  decodes 0x0353c783 (.blk 0x15 3 0xc 7 true 1 true) &&
  decodes 0x04e5818c (.rdV ⟨0x72, true, .write 1, .write 0xc⟩) &&
  decodes 0x060d8282 (.rdS ⟨6, true, .write 2, .write 2⟩) &&
  decodes 0x08447d8b (.rdP ⟨0x22, false, .op .p 0x1d, .write 0xb⟩) &&
  decodes 0x0a062132 (.rdX ⟨3, false, .op .b 1, .op .b 0x12⟩) &&
  decodes 0x0cf90000 (.wrV ⟨0x7c, true⟩) &&
  decodes 0x0e150000 (.wrS ⟨0xa, true⟩) &&
  decodes 0x10040000 (.wrP ⟨2, false⟩) &&
  decodes 0x135c6963 (.ext 0x15c6963)) = true := by decide

/-- The control words, bit by bit from the encodings of the opcode table. -/
theorem test_decode_control : (
  decodes 0x14000001 (.hintPrio 1) &&
  decodes 0x14400fd3 (.hintYield 0xfd3) &&
  decodes 0x148032f0 (.hintLat 0x32f0) &&
  decodes 0x16a8a689 (.movi .onTrue 0x28a6 (.write 9)) &&
  decodes 0x191bd3ec (.br .onFalse 0x1bd3ec) &&
  decodes 0x1b22faff (.call .onFalse 0x22faff) &&
  decodes 0x1d6fe5c2 (.rjwait .onFalse 0xd 0x7e5c2) &&
  decodes 0x1f000738 (.fan ⟨.onFalse, .op .a 7, .op .b 0x18⟩) &&
  decodes 0x1f10798e (.null ⟨.onFalse, .op .p 0x19, .write 0xe⟩) &&
  decodes 0x1ea0ffff (.brx .onTrue) &&
  decodes 0x1f30ffff (.ret .onFalse) &&
  decodes 0x1f40ffff (.exit .onFalse) &&
  decodes 0x1ed04dff (.trap .onTrue 0x4d) &&
  decodes 0x1ee002ff (.rjenrol .onTrue 2) &&
  decodes 0x1f7009ff (.rjstrike .onFalse 9)) = true := by decide

/-- The integer words, bit by bit from the encodings of the opcode table. -/
theorem test_decode_integer : (
  decodes 0x20818e02 (.add ⟨.onTrue, .write 0xe, .op .a 2⟩ .z32) &&
  decodes 0x20865a89 (.sub ⟨.onTrue, .op .c 0x1a, .write 9⟩ .s64) &&
  decodes 0x21096323 (.mul ⟨.onFalse, .op .p 3, .op .b 3⟩ .z32) &&
  decodes 0x210e0b25 (.mulhi ⟨.onFalse, .op .a 0xb, .op .b 5⟩ .s64) &&
  decodes 0x21128b66 (.mad ⟨.onFalse, .write 0xb, .op .p 6⟩ .s64) &&
  decodes 0x21163385 (.div ⟨.onFalse, .op .b 0x13, .write 5⟩ .s64) &&
  decodes 0x209a2862 (.rem ⟨.onTrue, .op .b 8, .op .p 2⟩ .s64) &&
  decodes 0x211e0673 (.neg ⟨.onFalse, .op .a 6, .op .p 0x13⟩ .s64) &&
  decodes 0x20a2560a (.abs ⟨.onTrue, .op .c 0x16, .op .a 0xa⟩ .s64) &&
  decodes 0x21253689 (.min ⟨.onFalse, .op .b 0x16, .write 9⟩ .z32) &&
  decodes 0x2129652a (.max ⟨.onFalse, .op .p 5, .op .b 0xa⟩ .z32) &&
  decodes 0x20ad8d18 (.lea ⟨.onTrue, .write 0xd, .op .a 0x18⟩ .z32) &&
  decodes 0x22838362 (.and ⟨.onTrue, .write 3, .op .p 2⟩ .z64) &&
  decodes 0x23078233 (.or ⟨.onFalse, .write 2, .op .b 0x13⟩ .z64) &&
  decodes 0x228b4d4a (.xor ⟨.onTrue, .op .c 0xd, .op .c 0xa⟩ .z64) &&
  decodes 0x230f6083 (.andn ⟨.onFalse, .op .p 0, .write 3⟩ .z64) &&
  decodes 0x23135e29 (.not ⟨.onFalse, .op .c 0x1e, .op .b 9⟩ .z64) &&
  decodes 0x22978e6d (.shl ⟨.onTrue, .write 0xe, .op .p 0xd⟩ .z64) &&
  decodes 0x231b3757 (.shr ⟨.onFalse, .op .b 0x17, .op .c 0x17⟩ .z64) &&
  decodes 0x229f855e (.sar ⟨.onTrue, .write 5, .op .c 0x1e⟩ .z64) &&
  decodes 0x22a31a0b (.rotl ⟨.onTrue, .op .a 0x1a, .op .a 0xb⟩ .z64) &&
  decodes 0x22a7298c (.clz ⟨.onTrue, .op .b 9, .write 0xc⟩ .z64) &&
  decodes 0x22ab7b86 (.ctz ⟨.onTrue, .op .p 0x1b, .write 6⟩ .z64) &&
  decodes 0x232f8f37 (.popc ⟨.onFalse, .write 0xf, .op .b 0x17⟩ .z64) &&
  decodes 0x23336909 (.brev ⟨.onFalse, .op .p 9, .op .a 9⟩ .z64) &&
  decodes 0x22b52281 (.bfx ⟨.onTrue, .op .b 2, .write 1⟩ .z32) &&
  decodes 0x22bb3b52 (.bfi ⟨.onTrue, .op .b 0x1b, .op .c 0x12⟩ .z64) &&
  decodes 0x233f0268 (.sel ⟨.onFalse, .op .a 2, .op .p 8⟩ .z64) &&
  decodes 0x24926c54 (.setp ⟨.onTrue, .op .p 0xc, .op .c 0x14⟩ .gt .s64) &&
  decodes 0x26807185 (.pand ⟨.onTrue, .op .p 0x11, .write 5⟩) &&
  decodes 0x27108278 (.por ⟨.onFalse, .write 2, .op .p 0x18⟩) &&
  decodes 0x2720800b (.pxor ⟨.onFalse, .write 0, .op .a 0xb⟩) &&
  decodes 0x2730868c (.pnot ⟨.onFalse, .write 6, .write 0xc⟩) &&
  decodes 0x28806441 (.isect ⟨.onTrue, .op .p 4, .op .c 1⟩) &&
  decodes 0x29108854 (.isectX ⟨.onFalse, .write 8, .op .c 0x14⟩)) = true := by decide

/-- The float words, bit by bit from the encodings of the opcode table. -/
theorem test_decode_float : (
  decodes 0x51025d55 (.fadd ⟨.onFalse, .op .c 0x1d, .op .c 0x15⟩ .f16) &&
  decodes 0x50863815 (.fsub ⟨.onTrue, .op .b 0x18, .op .a 0x15⟩ .f16) &&
  decodes 0x508b5c19 (.fmul ⟨.onTrue, .op .c 0x1c, .op .a 0x19⟩ .bf16) &&
  decodes 0x510e8187 (.ffma ⟨.onFalse, .write 1, .write 7⟩ .f16) &&
  decodes 0x51128f05 (.fmin ⟨.onFalse, .write 0xf, .op .a 5⟩ .f16) &&
  decodes 0x5116873d (.fmax ⟨.onFalse, .write 7, .op .b 0x1d⟩ .f16) &&
  decodes 0x51194e61 (.fdiv ⟨.onFalse, .op .c 0xe, .op .p 1⟩ .f64) &&
  decodes 0x511d7381 (.fsqrt ⟨.onFalse, .op .p 0x13, .write 1⟩ .f64) &&
  decodes 0x51228670 (.fscale ⟨.onFalse, .write 6, .op .p 0x10⟩ .f16) &&
  decodes 0x51257c8e (.fclass ⟨.onFalse, .op .p 0x1c, .write 0xe⟩ .f64) &&
  decodes 0x528e5f80 (.fsetp ⟨.onTrue, .op .c 0x1f, .write 0⟩ .le .f16) &&
  decodes 0x55008688 (.frcp ⟨.onFalse, .write 6, .write 8⟩) &&
  decodes 0x54908d78 (.frsq ⟨.onTrue, .write 0xd, .op .p 0x18⟩) &&
  decodes 0x54a0377e (.fexp2 ⟨.onTrue, .op .b 0x17, .op .p 0x1e⟩) &&
  decodes 0x54b05e1f (.flog2 ⟨.onTrue, .op .c 0x1e, .op .a 0x1f⟩) &&
  decodes 0x54c06080 (.fsin ⟨.onTrue, .op .p 0, .write 0⟩) &&
  decodes 0x54d05b83 (.fcos ⟨.onTrue, .op .c 0x1b, .write 3⟩) &&
  decodes 0x54e00f1e (.ftanh ⟨.onTrue, .op .a 0xf, .op .a 0x1e⟩) &&
  decodes 0x54f0233c (.expsub ⟨.onTrue, .op .b 3, .op .b 0x1c⟩) &&
  decodes 0x56815a43 (.fdot2 ⟨.onTrue, .op .c 0x1a, .op .c 3⟩ .bf16) &&
  decodes 0x59413289 (.cvt ⟨.onFalse, .op .b 0x12, .write 9⟩ .e2m1 .f32) &&
  decodes 0x5aa4866b (.cvtSourceHigh ⟨.onTrue, .write 6, .op .p 0xb⟩ .e4m3 .s64) &&
  decodes 0x5c892082 (.cvtmx ⟨.onTrue, .op .b 0, .write 2⟩ .bf16 .e5m2)) = true := by decide

/-- The lane words, bit by bit from the encodings of the opcode table. -/
theorem test_decode_lane : (
  decodes 0x81051f26 (.shfl ⟨.onFalse, .op .a 0x1f, .op .b 6⟩ true .up) &&
  decodes 0x83108483 (.vote ⟨.onFalse, .write 4, .write 3⟩ .some) &&
  decodes 0x85166013 (.redux ⟨.onFalse, .op .p 0, .op .a 0x13⟩ .xor .s64) &&
  decodes 0x86878251 (.scan ⟨.onTrue, .write 2, .op .c 0x11⟩ .min .z64) &&
  decodes 0x88813a84 (.matchLanes ⟨.onTrue, .op .b 0x1a, .write 4⟩ true) &&
  decodes 0x89106d8d (.elect ⟨.onFalse, .op .p 0xd, .write 0xd⟩) &&
  decodes 0x88a0868e (.actmask ⟨.onTrue, .write 6, .write 0xe⟩)) = true := by decide

/-- The memory words, bit by bit from the encodings of the opcode table. -/
theorem test_decode_memory : (
  decodes 0x90e90585 (.ld ⟨.onTrue, 0xd, .b16, 5, .write 5⟩) &&
  decodes 0x930a1fff (.st ⟨.onFalse, 1, .b32, 0x1f, .none⟩) &&
  decodes 0x95218b8b (.ldb ⟨.onFalse, 4, .b16, 0x8b, .write 0xb⟩) &&
  decodes 0x970a068a (.ldacq ⟨.onFalse, 1, .b32, .sys, .write 0xa⟩) &&
  decodes 0x991c02ff (.strel ⟨.onFalse, 3, .b128, .cls, .none⟩) &&
  decodes 0x9af16fff (.stMc ⟨.onTrue, 0xe, .b16, 0x6f, .none⟩) &&
  decodes 0x9d712aff (.pref .onFalse 0xe true 0x2a) &&
  decodes 0x9f5ce458 (.atom ⟨.onFalse, 0xb, true, .cor, .ar, .maxZ, .op .c 0x18⟩) &&
  decodes 0xa0b6c3ff (.red .onTrue 6 true .pod .rel .maxS) &&
  decodes 0xa367206d (.cas .onFalse 0xc true .sys .acq (.op .p 0xd)) &&
  decodes 0xa55016ff (.fence .onFalse 0xa .ar .sys) &&
  decodes 0xa4b024ff (.fenceRep .onTrue 6) &&
  decodes 0xa6e0e6ff (.inval .onTrue 0xc 0xe6) &&
  decodes 0xae80ff1a (.stmap .onTrue (.op .a 0x1a)) &&
  decodes 0xaf10ff73 (.stunmap .onFalse (.op .p 0x13)) &&
  decodes 0xaea0ff6d (.stflush .onTrue (.op .p 0xd)) &&
  decodes 0xb080ffff (.cpy .onTrue) &&
  decodes 0xb2805c1c (.cpyg ⟨.onTrue, .op .c 0x1c, .op .a 0x1c⟩) &&
  decodes 0xb500ffff (.cpseal .onFalse) &&
  decodes 0xb680ffff (.cpwait .onTrue) &&
  decodes 0xb881ffff (.kvapp .onTrue .bf16)) = true := by decide

/-- The matrix words, bit by bit from the encodings of the opcode table. -/
theorem test_decode_matrix : (
  decodes 0xc13affff (.mma .onFalse 3 true 2) &&
  decodes 0xc2a9ffff (.mmas .onTrue 2 true 1) &&
  decodes 0xc520ffff (.mzero .onFalse 2) &&
  decodes 0xc74effff (.mdrain .onFalse 4 true true 2) &&
  decodes 0xc961ffff (.mpeer .onFalse 6 true) &&
  decodes 0xca82ffff (.mprune .onTrue 2) &&
  decodes 0xcd50ffff (.mwait .onFalse 5) &&
  decodes 0xcd08ffff (.mwaitAll .onFalse) &&
  decodes 0xce80ffff (.tokpass .onTrue)) = true := by decide

/-- The synchronization words, bit by bit from the encodings of the opcode table. -/
theorem test_decode_synchronization : (
  decodes 0xd0beffff (.barArrive .onTrue .die true true true) &&
  decodes 0xd3381c54 (.barWait ⟨.onFalse, .op .a 0x1c, .op .c 0x14⟩ .die true) &&
  decodes 0xd480ffff (.barReg .onTrue) &&
  decodes 0xd510ffff (.barDrop .onFalse) &&
  decodes 0xd4a0ffff (.barExpect .onTrue) &&
  decodes 0xd700ffff (.plwait .onFalse) &&
  decodes 0xd900ffff (.yield .onFalse) &&
  decodes 0xdb00ffff (.rwrite .onFalse) &&
  decodes 0xdd01ffff (.rwwait .onFalse 1) &&
  decodes 0xde80ffff (.sleep .onTrue)) = true := by decide

/-- The work words, bit by bit from the encodings of the opcode table. -/
theorem test_decode_work : (
  decodes 0xe101267b (.deq ⟨.onFalse, .op .b 6, .op .p 0x1b⟩ 1) &&
  decodes 0xe3011885 (.enq ⟨.onFalse, .op .a 0x18, .write 5⟩ 1) &&
  decodes 0xe481ffff (.join .onTrue true) &&
  decodes 0xe6802832 (.sbpost ⟨.onTrue, .op .b 8, .op .b 0x12⟩) &&
  decodes 0xe681805e (.sbpostFail ⟨.onTrue, .write 0, .op .c 0x1e⟩) &&
  decodes 0xe7108d85 (.sbquery ⟨.onFalse, .write 0xd, .write 5⟩) &&
  decodes 0xe882ffff (.nmcall .onTrue 2) &&
  decodes 0xea80ffff (.rred .onTrue) &&
  decodes 0xec80ffff (.nmret .onTrue) &&
  decodes 0xed128177 (.nbop ⟨.onFalse, .write 1, .op .p 0x17⟩ .fmax) &&
  decodes 0xeca1831a (.nbmode ⟨.onTrue, .write 3, .op .a 0x1a⟩ true) &&
  decodes 0xecb0ffff (.gradq .onTrue)) = true := by decide

/-- The system words, bit by bit from the encodings of the opcode table. -/
theorem test_decode_system : (
  decodes 0xf002ff45 (.sysrd ⟨.always, .none, .op .c 5⟩ .ctxnum) &&
  decodes 0xf205ffff (.syswr .always) &&
  decodes 0xf480ffff (.eret .onTrue) &&
  decodes 0xf680ffff (.bkpt .onTrue) &&
  decodes 0xf880ffff (.haltDbg .onTrue)) = true := by decide
/-- The words of the spec's worked blocks (Tables 12.12, 13.5, 15.4; R435, R436, R437, R441). -/
theorem test_decode_examples : (
  decodes 0x02421082 (.blk 4 2 1 0 true 1 false) && decodes 0x04084000 (.rdV ⟨4, false, .op .c 0, .op .a 0⟩) &&
  decodes 0x040aff20 (.rdV ⟨5, false, .none, .op .b 0⟩) && decodes 0x0c080000 (.wrV ⟨4, false⟩) &&
  decodes 0x500c8002 (.ffma ⟨.always, .write 0, .op .a 2⟩ .f32) && decodes 0x16000022 (.movi .always 0 (.op .b 2)) &&
  decodes 0x52086463 (.fsetp ⟨.always, .op .p 4, .op .p 3⟩ .lt .f32) && decodes 0x18800010 (.br .onTrue 16) &&
  decodes 0x19000003 (.br .onFalse 3) && decodes 0x02000000 (.blk 0 0 0 0 false 0 false) &&
  decodes 0x1e40ffff (.exit .always) && decodes 0x0401ff00 (.rdV ⟨0, true, .none, .op .a 0⟩) &&
  decodes 0x1e30ffff (.ret .always) && decodes 0x02410101 (.blk 4 1 0 1 false 0 true) &&
  decodes 0x040d0300 (.rdV ⟨6, true, .op .a 3, .op .a 0⟩) && decodes 0x90020002 (.ld ⟨.always, 0, .b32, 0, .op .a 2⟩) &&
  decodes 0x2001ff23 (.add ⟨.always, .none, .op .b 3⟩ .z32) && decodes 0x920a01ff (.st ⟨.always, 1, .b32, 1, .none⟩) &&
  decodes 0x0610ff07 (.rdS ⟨8, false, .none, .op .a 7⟩) && decodes 0x0e1e0000 (.wrS ⟨15, false⟩) &&
  decodes 0x202dff04 (.lea ⟨.always, .none, .op .a 4⟩ .z32) && decodes 0xc229ffff (.mmas .always 2 true 1) &&
  decodes 0xf480ffff (.eret .onTrue) && decodes 0xf600ffff (.bkpt .always) && decodes 0xf800ffff (.haltDbg .always)) = true := by
  decide

/-- Words that no instruction has: mode 3, an unassigned major, a reserved field, an unassigned operation (R320, R330, R331). -/
theorem test_decode_illegal : ([0, 0x2180ff00, 0x2a00ffff, 0x02000008, 0x20300000, 0x91820002, 0xfa00ffff, 0x1e40fffe].all
  fun w => (match decode w with | .ok _ => false | .error _ => true)) = true := by decide

/-! One slot on a small state: the values of the spec's tables. -/

/-- A shape of one compute slot. -/
def oneSlot : Shape := ⟨1, 0, 0, 1, false, 1, [[]], [], none, []⟩
/-- A token that holds a value in lane 0. -/
def lane0 (x : Option W64) : Token := tokenOf fun l => if l = 0 then x else none
/-- What an operand of slot 0 has collected. -/
def got (o : Opnd) (x : W64) : Collected := ⟨.op o 0, lane0 (some x), List.replicate 32 0⟩
/-- A block of one lane at its one compute slot, with its operands in. -/
def slotFrame (a b c : W64) : Frame :=
  { freshFrame ⟨0, 0⟩ 0 0x4000 [0, 0] oneSlot 1 with at_ := 1, tokens := [got .a a, got .b b, got .c c] }
/-- The same with a payload of `ext` before it. -/
def extFrame (e : BitVec 25) (a b c : W64) : Frame := { slotFrame a b c with exts := [(0, e)] }
/-- A started module with one context, one warp and one block. -/
def withFrame (f : Frame) : State := { State.reset with
  startup := { State.reset.startup with ready := true }
  contexts := [freshContext ⟨false, 0⟩ 0 0 0], warps := [Warp.fresh ⟨0, 0⟩ 1 0 32 0x4000], frames := [f] }
/-- What an instruction sends to write slot 0 in lane 0, and the flags it raises there. -/
def result (i : Instr) (f : Frame) : Option (W64 × List (Nat × BitVec 5)) :=
  match exec i (withFrame f) with
  | .next t => (t.frames.head?).bind fun f => (f.holds (.write 0) 0).map fun v => (v, f.flags)
  | _ => none
/-- Targets: the result to write slot 0. -/
def g0 : G := ⟨.always, .none, .write 0⟩

/-- Table 13.8. -/
theorem test_division : result (.div g0 .s32) (slotFrame 0xfffffff9 2 0) = some (0xfffffffd, []) ∧
    result (.rem g0 .s32) (slotFrame 0xfffffff9 2 0) = some (0xffffffff, []) ∧
    result (.div g0 .s32) (slotFrame 5 0 0) = some (0xffffffff, []) ∧ result (.rem g0 .s32) (slotFrame 5 0 0) = some (5, []) := by decide
/-- Table 13.8. -/
theorem test_overflowing_division : result (.div g0 .s32) (slotFrame 0x80000000 0xffffffff 0) = some (0x80000000, []) ∧
    result (.rem g0 .s32) (slotFrame 0x80000000 0xffffffff 0) = some (0, []) ∧
    result (.abs g0 .s32) (slotFrame 0x80000000 0 0) = some (0x80000000, []) := by decide
/-- Table 13.8: `.sh3` is the modifier 3 of an `ext`. -/
theorem test_high_product_and_address : result (.mulhi g0 .s32) (slotFrame 0xffffffff 1 0) = some (0xffffffff, []) ∧
    result (.mulhi g0 .z32) (slotFrame 0xffffffff 1 0) = some (0, []) ∧
    result (.lea g0 .s32) (extFrame 3 0x00007f4000001000 0xfffffffe 0) = some (0x00007f4000000ff0, []) := by decide

/-- Table 14.6, its rows with an integer destination: a flag of 16 is invalid and one of 1 inexact (Table 11.9). -/
theorem test_conversions_to_integers : result (.cvt g0 .s32 .f32) (slotFrame 0x4f32d05e 0 0) = some (0x7fffffff, [(0, 16)]) ∧
    result (.cvt g0 .z32 .f32) (slotFrame 0xbfc00000 0 0) = some (0, [(0, 16)]) ∧
    result (.cvt g0 .z32 .f32) (slotFrame 0xbecccccd 0 0) = some (0, [(0, 1)]) := by decide
/-- Table 14.6. -/
theorem test_narrowing_conversions : result (.cvt g0 .e4m3 .f32) (slotFrame 0x43fa0000 0 0) = some (0x7e, [(0, 5)]) ∧
    result (.cvt g0 .e2m1 .f32) (slotFrame 0x7fc00000 0 0) = some (0, [(0, 16)]) ∧
    result (.cvt g0 .f16 .f32) (slotFrame 0x49742400 0 0) = some (0x7c00, [(0, 5)]) ∧
    result (.cvt g0 .bf16 .f32) (slotFrame 0x3f808000 0 0) = some (0x3f80, [(0, 1)]) := by decide
/-- Table 14.6. -/
theorem test_scale_conversions : result (.cvt g0 .e8m0 .f32) (slotFrame 0x3f400000 0 0) = some (0x7e, []) ∧
    result (.cvtSourceHigh g0 .f32 .e8m0) (slotFrame 0 0 0) = some (0x00400000, []) ∧
    result (.cvtSourceHigh g0 .f32 .e8m0) (slotFrame 0xff 0 0) = some (0x7fc00000, []) ∧
    result (.cvtSourceHigh g0 .f32 .s8) (slotFrame 0x80 0 0) = some (0xc3000000, []) := by decide +kernel
/-- The worked maxima of chapter 11 (R304). -/
theorem test_maximum : result (.fmax g0 .f32) (slotFrame 0x80000000 0 0) = some (0, []) ∧
    result (.fmax g0 .f32) (slotFrame 0x7fc00001 0xc0400000 0) = some (0xc0400000, []) ∧
    result (.fmax g0 .f32) (slotFrame 0x7f800001 0xc0400000 0) = some (0x7fc00000, [(0, 16)]) ∧
    result (.fmax g0 .f32) (slotFrame 0xff800000 0x7fc00000 0) = some (0xff800000, []) := by decide
/-- SHA-256 of the three bytes "abc", as its standard gives it (R59): the first byte of the hash in bits 7 to 0. -/
theorem test_sha256 : sha256 [0x61, 0x62, 0x63] =
    0xad1500f261ff10b49c7a1796a36103b02322ae5dde404141eacf018fbf1678ba#256 := by decide +kernel
/-! Every statement with hypotheses has a concrete state, and operands, that meet all of them. -/

/-- Nothing but null has been collected, so nothing has been sent. -/
theorem unfed_of (f : Frame) (t : Target) (h : f.collected t = nullToken) : f.Unfed t := by
  intro l; simp [h, tokenAt_null]

/-- The block of the slot statements: 6, 7 and 8 in lane 0. -/
def f0 : Frame := slotFrame 6 7 8
/-- What most statements about one slot assume: the block is at its slot and its targets are free. -/
def SlotOpen : Prop := AtSlot (withFrame f0) f0 ∧ f0.Open g0 ∧ f0.performs .always [.a, .b, .c] 0 = true
theorem at_slot (f : Frame) (h : f.base ≤ f.at_) (hc : f.faults = []) : AtSlot (withFrame f) f := ⟨rfl, h, hc⟩
theorem slot_open : SlotOpen :=
  ⟨at_slot _ (by decide) rfl, ⟨unfed_of _ _ (by decide), unfed_of _ _ (by decide), by decide⟩, by decide⟩

theorem witness_WrappingArithmetic : SlotOpen := slot_open
theorem witness_TypedArithmetic : SlotOpen := slot_open
theorem witness_DivisionAndRemainder : SlotOpen := slot_open
theorem witness_LogicAndShifts : SlotOpen := slot_open
theorem witness_BitCounts : SlotOpen := slot_open
theorem witness_BitFields : SlotOpen := slot_open
theorem witness_Selection : SlotOpen := slot_open
theorem witness_ComparisonsAndPredicates : SlotOpen := slot_open
theorem witness_BitmapIntersection : SlotOpen := slot_open
/-- `movi` has one target. -/
theorem witness_MovesAndAddresses : SlotOpen ∧ g0.t1 = .none := ⟨slot_open, rfl⟩
theorem witness_FloatComparisons : SlotOpen := slot_open
theorem witness_FloatClass : SlotOpen := slot_open
theorem witness_VotesAndMatches : SlotOpen := slot_open
theorem witness_ShuffleMoves : SlotOpen := slot_open
/-- An integer operation. -/
theorem witness_ReductionsAndScans : SlotOpen ∧ ReduxOp.min ≠ .fadd := ⟨slot_open, by decide⟩
/-- One participant, lane 0. -/
theorem witness_FloatReductionsInOrder : SlotOpen ∧ f0.performing g0.pred [.a] = 0 :: [] := ⟨slot_open, by decide⟩

/-- The hypotheses of a statement about the special values of one operand. -/
def OpenAt (f : Frame) : Prop := AtSlot (withFrame f) f ∧ f.Open g0
theorem open_at (a b c : W64) : OpenAt (slotFrame a b c) :=
  ⟨at_slot _ (by simp [slotFrame, freshFrame, Frame.base, oneSlot]) rfl,
    ⟨unfed_of _ _ (by simp [slotFrame, freshFrame, g0, got, Frame.collected]), unfed_of _ _ (by simp [slotFrame, freshFrame, g0, got, Frame.collected]), by decide⟩⟩
/-- One, two and three; minus one divided by zero, and zero by zero; pairs of elements. -/
theorem witness_FloatingPointCompletes : let f := slotFrame 0x3f800000 0x40000000 0x40400000; let z := slotFrame 0xbf800000 0 0
    let h := slotFrame 0x3c003c00 0x40004000 0x3f800000
    OpenAt f ∧ (∀ o ∈ [Opnd.a, .b, .c], (f.fval o 0 FType.f32.fmt).isFinite = true) ∧ (f.fval .b 0 FType2.f32.fmt).isZero = false ∧
    (f.fval .a 0 FType2.f32.fmt).neg = false ∧ OpenAt z ∧ (∀ o ∈ [Opnd.a, .b], (z.fval o 0 FType2.f32.fmt).isFinite = true) ∧
    (z.fval .b 0 FType2.f32.fmt).isZero = true ∧ (z.fval .a 0 FType2.f32.fmt).isZero = false ∧ (z.fval .a 0 FType2.f32.fmt).neg = true ∧
    ((slotFrame 0 0 0).fval .a 0 FType2.f32.fmt).isZero = true ∧ OpenAt h ∧
    (∀ i, i < 2 → ∀ o ∈ [Opnd.a, .b], (readFloat .f16 (low .f16 (h.val o 0 >>> (16 * i)))).isFinite = true) ∧
    (readFloat .f32 (low .f32 (h.val .c 0))).isFinite = true :=
  ⟨open_at .., by decide, by decide, by decide, open_at .., by decide, by decide, by decide, by decide, by decide, open_at .., by decide, by decide⟩
/-- A finite source, an infinity and a NaN; a number and an overflow to an integer; a block of one finite element. -/
theorem witness_ConversionsComplete : let source := fun a : W64 => readFloat .f32 (low .f32 ((slotFrame a 0 0).val .a 0))
    OpenAt (slotFrame 0x40490fdb 0 0) ∧ Fmt.isFloat .f32 = true ∧ (source 0x40490fdb).isFinite = true ∧ (source 0x40490fdb).isZero = false ∧
    source 0xff800000 = .inf true ∧ (source 0x7fc00000).isNan = true ∧ (source 0x80000000).isZero = true ∧
    (slotFrame 0x40490fdb 0 0).performing g0.pred [.a] = [0] ∧ (0x1ff : W64).toNat % 256 = 255 ∧
    source 0x40490fdb = .fin false 13176795 (-22) := ⟨open_at .., by decide⟩
/-- A signalling NaN in each operand, and in an element of a pair. -/
theorem witness_NanOperandsGiveQuietNan : let f := slotFrame 0x7f800001 0x7fc00000 0x7f800001
    OpenAt f ∧ (∀ o ∈ [Opnd.a, .b, .c], (f.fval o 0 FType.f32.fmt).isNan = true) ∧
    (f.fval .a 0 FType.f32.fmt).signals = true ∧ (f.fval .c 0 FType.f32.fmt).signals = true ∧
    (readFloat .f16 (low .f16 ((slotFrame 0x7c010000 0 0).val .a 0 >>> (16 * 1)))).isNan = true := ⟨open_at .., by decide, by decide, by decide, by decide⟩
/-- One at the smallest ulp, and 2^200, which overflows. -/
theorem witness_RoundingModes : Fmt.isFloat .f32 = true ∧ (⟨false, 1, -149, false⟩ : Exact).m ≠ 0 ∧
    (((⟨false, 1, -149, false⟩ : Exact).onGrid .rne (-149)).1 : Rat) * (2 : Rat) ^ (-149 : Int) ≤ (readFloat .f32 (Fmt.maxCode .f32)).magnitude ∧
    (readFloat .f32 (Fmt.maxCode .f32)).magnitude < (((⟨false, 1, 200, false⟩ : Exact).onGrid .rne 177).1 : Rat) * (2 : Rat) ^ (177 : Int) := by
  decide +kernel
/-- Zeros of both signs. -/
theorem witness_MinimumAndMaximum : OpenAt (slotFrame 0x80000000 0 0) ∧
    ((slotFrame 0x80000000 0 0).fval .a 0 FType.f32.fmt).isZero = true ∧
    ((slotFrame 0x80000000 0 0).fval .a 0 FType.f32.fmt).neg = true ∧
    ((slotFrame 0x80000000 0 0).fval .b 0 FType.f32.fmt).neg = false := ⟨open_at .., by decide, by decide, by decide⟩
/-- Half a unit, exact, and a finite operand scaled by 0. -/
theorem witness_RepresentableValuesAreExact : Fmt.isFloat .f32 = true ∧ 0x3f000000 < 2 ^ Fmt.width .f32 ∧
    readFloat .f32 0x3f000000 = .fin false 0x800000 (-24) ∧ OpenAt (slotFrame 0x3f000000 0 0) ∧
    ((slotFrame 0x3f000000 0 0).fval .a 0 FType.f32.fmt).isFinite = true ∧ lo32 ((slotFrame 0x3f000000 0 0).val .b 0) = 0 :=
  ⟨by decide, by decide, by decide, open_at .., by decide, by decide⟩
/-- −0, and for `expsub` infinities and a NaN. -/
theorem witness_SpecialOperands : OpenAt (slotFrame 0x80000000 0 0) ∧ lo32 ((slotFrame 0x80000000 0 0).val .a 0) = 0x80000000 ∧
    OpenAt (slotFrame 0xff800000 0x7f800000 0) ∧ (slotFrame 0xff800000 0x7f800000 0).fval .a 0 .f32 = .inf true ∧
    (slotFrame 0xff800000 0x7f800000 0).fval .b 0 .f32 = .inf false ∧ ((slotFrame 0x7fc00000 0 0).fval .a 0 .f32).isNan = true ∧
    ((slotFrame 0x7fc00000 0 0).fval .b 0 .f32).isFinite = true :=
  ⟨open_at .., by decide, open_at .., by decide, by decide, by decide, by decide⟩

/-- A block at its first read word. -/
def r0 : Frame := { freshFrame ⟨0, 0⟩ 0 0x4000 [0, 0] { oneSlot with nrd := 1 } 1 with at_ := 1 }
/-- A read of register 7, `%v7`, `%s7` and so on, to operand a of slot 0. -/
def rw0 (n : BitVec 8) : RWord := ⟨n, false, .none, .op .a 0⟩
/-- A main-core warp, as launched, and the same with a held record. -/
def w0 : Warp := Warp.fresh ⟨0, 0⟩ 1 0 32 0x4000
def heldRecord : HeldRecord := ⟨0, 0x4000, none⟩
theorem witness_RegisterReads : AtRegisterWord (withFrame r0) r0 ∧ r0.OpenRead (rw0 7) ∧ (withFrame r0).warp? r0.warp = some w0 ∧
    w0.pier = none ∧ w0.id.core < 384 ∧ w0.held = none ∧ w0.lvl[7]? = some 0 :=
  ⟨⟨rfl, by decide, rfl⟩, ⟨unfed_of _ _ (by decide), unfed_of _ _ (by decide), by decide⟩, by decide, by decide, by decide, by decide, by decide⟩
theorem witness_RegisterReads_held : let s := (withFrame r0).onWarp ⟨0, 0⟩ fun w => { w with held := some heldRecord }
    AtRegisterWord s r0 ∧ s.warp? r0.warp = some { w0 with held := some heldRecord } ∧ ({ w0 with held := some heldRecord } : Warp).pier = none ∧ r0.OpenRead (rw0 6) :=
  ⟨⟨rfl, by decide, rfl⟩, rfl, rfl, ⟨unfed_of _ _ (by decide), unfed_of _ _ (by decide), by decide⟩⟩
/-- The first warp of the second pier core of stack 3, and a strand of a warp with a context. -/
theorem witness_RegisterReads_pier : let w : Warp := { Warp.fresh ⟨pierCore 3 1, 0⟩ 1 0 32 0x4000 with pier := some ⟨3, 0, 1⟩ }
    let f := { r0 with warp := ⟨pierCore 3 1, 0⟩ }; let s := { withFrame f with warps := [w] }
    AtRegisterWord s f ∧ f.OpenRead (rw0 2) ∧ s.warp? f.warp = some w ∧ w.id.core = pierCore 3 1 ∧ 3 < 16 ∧ 1 < 16 ∧
    (w0.strand? r0.strand).isSome = true ∧ ((withFrame r0).context? w0.ctx).isSome = true :=
  ⟨⟨rfl, by decide, rfl⟩, ⟨unfed_of _ _ (by decide), unfed_of _ _ (by decide), by decide⟩, by decide, rfl, by decide, by decide, by decide, by decide⟩
theorem witness_HeadersWritesAndHints : AtRegisterWord (withFrame { r0 with at_ := 0 }) { r0 with at_ := 0 } ∧ AtSlot (withFrame f0) f0 ∧
    (1 : BitVec 23) ≠ 0 := ⟨⟨rfl, by decide, rfl⟩, slot_open.1, by decide⟩
/-- A block of two lanes at its one compute slot, with one value in both. -/
def twoLanes (a b : W64) : Frame :=
  let both := fun (o : Opnd) (x : W64) => (⟨.op o 0, tokenOf fun l => if l < 2 then some x else none, List.replicate 32 0⟩ : Collected)
  { slotFrame a b 0 with active := 3, tokens := [both .a a, both .b b] }
/-- A branch by one unit, and an indirect one to 0x5000, in two lanes. -/
theorem witness_ExitsTaken : let f := twoLanes 0x5000 0
    AtSlot (withFrame f) f ∧ successorOk (f.pc + 16 * (1 : BitVec 23).signExtend 64) = true ∧
    successorOk (f.pc + 16 * (1 : BitVec 19).signExtend 64) = true ∧ (∀ l ∈ f.performing .always [.a], successorOk (f.val .a l) = true) ∧
    f.performing .always [.a] = [0, 1] ∧ f.performing .always [] = [0, 1] ∧ successorOk f.following = true :=
  ⟨⟨rfl, by decide, rfl⟩, by decide, by decide, by decide, by decide, by decide, by decide⟩
/-- An address that is no multiple of 16, in two lanes; and a block at the end of the lower half of the addresses. -/
theorem witness_BadSuccessorFaults : let f := twoLanes 0x5001 0; let e := { twoLanes 0 0 with pc := 0x00007ffffffffff0 }
    (AtSlot (withFrame f) f ∧ (f.performing .always [.a]).filter (fun k => !successorOk (f.val .a k)) = 0 :: [1] ∧
      f.StuckAt ([0, 1].map fun k => f.faultAt f.slot .address k (f.val .a k))) ∧
    AtSlot (withFrame e) e ∧ successorOk (e.pc + 16 * (1 : BitVec 23).signExtend 64) = false ∧
    successorOk (e.pc + 16 * (1 : BitVec 19).signExtend 64) = false ∧ successorOk e.following = false ∧
    (e.performing .always []).filter (fun _ => !successorOk e.following) = 0 :: [1] ∧
    e.StuckAt ([0, 1].map fun k => e.faultAt e.slot .address k e.following) ∧
    e.StuckAt ([0, 1].map fun k => e.faultAt e.slot .address k (e.pc + 16 * (1 : BitVec 23).signExtend 64)) :=
  ⟨⟨⟨rfl, by decide, rfl⟩, by decide, rfl⟩, ⟨rfl, by decide, rfl⟩, by decide, by decide, by decide, by decide, rfl, rfl⟩

/-- Page tables of four leaves for the addresses 0 to 0x3fff: a plain page, memory-side and pinned storage, a key-value page
and a page of a host, at frames 0x10000 to 0x13000 (Table 4.15). -/
def tables : List Host.Cell :=
  [(0x1000, 0x2001), (0x2000, 0x3001), (0x3000, 0x4001), (0x4000, 0x1000f), (0x4008, 0x1144f), (0x4010, 0x1208b),
    (0x4018, 0x1310b)].foldl (fun m e => setBytes m e.1 (leBytes 8 e.2)) []
/-- The started module of a block, with a context over those tables. -/
def mapped (f : Frame) : State := { withFrame f with
  contexts := [{ freshContext ⟨false, 0⟩ 0 0 0 with root := 0x1000 }], hbm := tables }
theorem mapped_canonical (f : Frame) : (mapped f).Canonical := ⟨by simp only [mapped]; decide, rfl, rfl, rfl⟩
theorem at_mapped (f : Frame) (h : f.base ≤ f.at_) (hc : f.faults = []) : AtSlot (mapped f) f := ⟨rfl, h, hc⟩
theorem settled_of (s : State) (h1 : s.writes = []) (h2 : s.l1 = []) (h3 : s.stashMaps = []) (h4 : s.stashLines = [])
    (h5 : s.nearBanks = []) (h6 : s.unarrived = []) : s.Settled :=
  ⟨h1, h2, h3, h4, h5, by simp [h6]⟩
theorem mapped_settled (f : Frame) : (mapped f).Settled := settled_of _ rfl rfl rfl rfl rfl rfl
theorem mapped_nothingLost (f : Frame) (h : ((mapped f).frameWarp f).lostHost = 0) (k : ((mapped f).frameWarp f).lostRemote = []) :
    (mapped f).NothingLost f := ⟨h, k, rfl, rfl⟩
/-- The bytes from an offset of the plain page. -/
def plain (o n : Nat) : List Place := (List.range n).map fun i => .hbm (0x10000 + o + i) (entryAttr 0x1000f)

theorem plain_hbm (o n : Nat) : ∀ q ∈ plain o n, ∃ x y, q = .hbm x y := by
  intro q hq
  obtain ⟨i, -, rfl⟩ := List.mem_map.mp hq
  exact ⟨_, _, rfl⟩
theorem plainPlaces (o n : Nat) (h : ((plain o n).map Place.key).Nodup) : PlainPlaces (plain o n) := by
  refine ⟨h, ?_⟩
  intro q hq
  simp only [plain, List.mem_map] at hq
  obtain ⟨i, -, rfl⟩ := hq
  exact ⟨_, _, rfl, rfl⟩
theorem unclaimed_of (f : Frame) (ls : List Nat) (h : f.performed = []) : f.Unclaimed ls := by
  intro x hx; simp [h] at hx

theorem unraced_of (s : State) (core : Nat) (ps : List Place) (h : s.calls = []) : s.Unraced core ps := by
  intro x _; simp [State.racedCall?, h]

/-- A load of 32 bits from 0x100, and one of 128 from there. -/
theorem witness_LoadsComplete : let f := slotFrame 0x100 7 8
    AtSlot (mapped f) f ∧ (mapped f).Settled ∧ f.stores = [] ∧ ((mapped f).warp? f.warp).isSome = true ∧
    swf 0 ((mapped f).reader f.warp).readsFrom = true ∧ f.performing .always [.a] = [0] ∧
    LoadReady (mapped f) f .always .b32 0 (.write 0) (fun _ => plain 0x100 4) ∧
    LoadReady (mapped f) f .always .b128 0 (.write 14) (fun _ => plain 0x100 16) :=
  ⟨at_mapped _ (by decide) rfl, mapped_settled _, rfl, rfl, rfl, by decide,
    ⟨unclaimed_of _ _ rfl, by decide, by decide, unfed_of _ _ (by decide), fun h => nomatch h⟩,
    ⟨unclaimed_of _ _ rfl, by decide, by decide, unfed_of _ _ (by decide), fun _ => ⟨unfed_of _ _ (by decide), by decide⟩⟩⟩

/-- Stores of 8 and of 128 bits at the last bytes of the page. -/
theorem witness_StoresAreBuffered : let f := slotFrame 0xff0 7 8
    AtSlot (mapped f) f ∧ (mapped f).Settled ∧ (mapped f).NothingLost f ∧ f.storing .always .b128 = [0] ∧
    StoreReady (mapped f) f .always .b128 0 (fun _ => plain 0xff0 16) ∧
    StoreReady (mapped f) f .always .b8 15 (fun _ => plain 0xfff 1) ∧ f.Unclaimed (f.performing .always [.a]) :=
  ⟨at_mapped _ (by decide) rfl, mapped_settled _, mapped_nothingLost _ (by decide) (by decide), by decide,
    ⟨unclaimed_of _ _ rfl, by decide⟩, ⟨unclaimed_of _ _ rfl, by decide⟩, unclaimed_of _ _ rfl⟩

/-- A range that starts below the scratch window and ends in it. -/
theorem witness_FencesAndInvalidation_crossing : let f := slotFrame 0xfffffefffffffff0 0x20 0
    AtSlot (mapped f) f ∧ f.performing .always [.a, .b] = 0 :: [] ∧ f.Unclaimed [0] ∧ f.val .b 0 ≠ 0 ∧
    crossesWindow (f.val .a 0).toNat (f.val .a 0 + f.val .b 0 - 1).toNat = true ∧
    (f.claiming [0]).Stuck { f.faultAt f.slot .windowCrossing 0 (f.val .a 0) with lanes := maskOf [0] } :=
  ⟨at_mapped _ (by decide) rfl, by decide, unclaimed_of _ _ rfl, by decide, by decide, rfl⟩
/-- A fence of one lane, `fence.rep` of three pages of the device, and an `inval` of 2^20 bytes. -/
theorem witness_FencesAndInvalidation : let f := slotFrame 0 0x3000 8
    AtSlot (mapped f) f ∧ (mapped f).Settled ∧ (mapped f).NothingLost f ∧ f.performing .always [] ≠ [] ∧
    f.Unclaimed (f.performing .always []) ∧ f.performing .always [.a, .b] = 0 :: [] ∧
    ((f.val .b 0).toNat ≤ 2 ^ 30 ∧ windowOf (f.val .a 0).toNat = .global ∧
      windowOf ((f.val .a 0).toNat + (f.val .b 0).toNat - 1) = .global ∧ canonical (f.val .a 0).toNat = true ∧
      crossesWindow (f.val .a 0).toNat ((f.val .a 0).toNat + (f.val .b 0).toNat - 1) = false ∧
      canonical ((f.val .a 0).toNat + (f.val .b 0).toNat - 1) = true ∧
      ∀ page, (f.val .a 0).toNat / 4096 ≤ page → page ≤ ((f.val .a 0).toNat + (f.val .b 0).toNat - 1) / 4096 →
        ∃ p, (mapped f).translate ((mapped f).who f).ctx (coreDie f.warp.core) .read page = .ok p) ∧
    2 ^ 20 ≤ ((slotFrame 0 0x100000 8).val .b 0).toNat := by
  refine ⟨at_mapped _ (by decide) rfl, mapped_settled _, mapped_nothingLost _ (by decide) (by decide), by decide,
    unclaimed_of _ _ rfl, by decide, ⟨by decide, by decide, by decide, by decide, by decide, by decide, ?_⟩, by decide⟩
  intro page _ h
  have h' : page ≤ 2 := h
  match page, h' with
  | 0, _ => exact ⟨.dev 0x10000 (entryAttr 0x1000f), by decide⟩
  | 1, _ => exact ⟨.dev 0x11000 (entryAttr 0x1144f), by decide⟩
  | 2, _ => exact ⟨.dev 0x12000 (entryAttr 0x1208b), by decide⟩

/-- Operations on 4 and on 8 bytes, with a release, and a `cas`. -/
theorem witness_AtomicsComplete : let f := slotFrame 0x108 7 8
    AtSlot (mapped f) f ∧ (mapped f).Settled ∧ (mapped f).Canonical ∧ (mapped f).Unraced f.warp.core (plain 0x108 8) ∧
    (∀ q ∈ plain 0x108 8, ∃ x y, q = .hbm x y) ∧ f.performing .always [.a, .b] = [0] ∧
    f.performing .always [.a, .b, .c] = [0] ∧ f.Unfed (.write 0) ∧
    AtomicReady (mapped f) f [0] .addF32 false false .rel (fun _ => plain 0x108 4) ∧
    (plain 0x108 4).length = atomBytes .addF32 false ∧ ((plain 0x108 4).map Place.key).Nodup ∧
    AtomicReady (mapped f) f [0] .add true true .none (fun _ => plain 0x108 8) ∧
    (plain 0x108 8).length = 8 ∧ ((plain 0x108 8).map Place.key).Nodup :=
  ⟨at_mapped _ (by decide) rfl, mapped_settled _, mapped_canonical _, unraced_of _ _ _ rfl, plain_hbm _ _, by decide, by decide, unfed_of _ _ (by decide),
    ⟨unclaimed_of _ _ rfl, by decide, by decide, fun _ => mapped_nothingLost _ (by decide) (by decide)⟩, by decide, by decide,
    ⟨unclaimed_of _ _ rfl, by decide, by decide, fun _ => mapped_nothingLost _ (by decide) (by decide)⟩, by decide, by decide⟩

/-- A warp that its unit gave a phaser, two tiles, a stash and scratch, and the first record of each uniform group: a dense
and a sparse FP32 command, an epilogue and a prune command (Tables 17.2, 17.5, 17.6). -/
def richWarp : Warp := { w0 with
  phasers := [0], tiles := [0, 1], stash := some (0x200000, 0x1000), scratch := some (0, 0x100000)
  s := [(4, 32), (5, 0x11), (6, 128), (7, 128), (20, 32), (21, 0x11), (23, 128), (28, 0x40), (38, 1), (52, 32), (53, 0x41),
    (54, 128), (55, 128)] }
/-- The started module of a block whose warp has them, a near-memory window and a gather descriptor at 0x200. -/
def rich (f : Frame) : State := { mapped f with
  warps := [richWarp]
  phasers := [⟨0, 0, 0, 1, 2, 2, 0, 0⟩]
  windows := [⟨0, 0, 0, true, true, 0, 65536, 0x200000, [], [], false⟩]
  hbm := [(0x210, 0xffffff0000000000), (0x218, 0x10004), (0x220, 0x100), (0x2000, 0x60020000)].foldl
    (fun m e => setBytes m (0x10000 + e.1) (leBytes 8 e.2)) tables }
theorem at_rich (f : Frame) (h : f.base ≤ f.at_) (hc : f.faults = []) : AtSlot (rich f) f := ⟨rfl, h, hc⟩
theorem rich_settled (f : Frame) : (rich f).Settled := settled_of _ rfl rfl rfl rfl rfl rfl

/-- Addresses in the plain page, the largest byte count of an arrival, the phaser 0. -/
theorem witness_SynchronizationLeftToCommit : let f := slotFrame 0x100 0x3c 8; let h := slotFrame 0 0x7fffffffffff 0x7fffffffffff
    AtSlot (rich f) f ∧ f.performing .always [] ≠ [] ∧ f.performing .always [.a] = 0 :: [] ∧
    windowOf (f.val .a 0).toNat = .global ∧
    (rich f).access ((rich f).who f) .read (f.val .a 0) 4 = .ok (.hbm 0x10100 (entryAttr 0x1000f) :: plain 0x101 3) ∧
    (∀ q ∈ plain 0x101 3, ∃ x y, q = .hbm x y) ∧
    f.performing .always [.a, .b] = 0 :: [] ∧ f.val32 .b 0 &&& 0xfc00fcc0 = 0 ∧
    AtSlot (rich h) h ∧ (∀ l ∈ h.performing .always [.a, .b], ((rich h).frameWarp h).phaserId? (h.val .a l) = some 0) ∧
    (∀ l ∈ h.performing .always [.a, .b, .c], ((rich h).frameWarp h).phaserId? (h.val .a l) = some 0) ∧
    (∀ l ∈ h.performing .always [.a, .b], (h.val .b l).toNat % 2 ^ 48 < 2 ^ 47) ∧
    (∀ l ∈ h.performing .always [.a, .b, .c], (h.val .c l).toNat % 2 ^ 48 < 2 ^ 47) ∧ (rich h).NothingLost h := by
  exact ⟨at_rich _ (by decide) rfl, by decide, by decide, by decide, by decide, plain_hbm _ _, by decide, by decide,
    at_rich _ (by decide) rfl, by decide, by decide, by decide, by decide, ⟨by decide, by decide, rfl, rfl⟩⟩

/-- A mapping of the whole stash; and an entry that is mapped. -/
theorem witness_StashCopiesAndCallsLeftToCommit_stash : let f := slotFrame 0 0x1000 0
    AtSlot (rich f) f ∧ f.Unfed (.write 0) ∧ f.performing .always [.a, .b, .c] = 0 :: [] ∧ f.performing .always [.a, .b] = 0 :: [] ∧
    (rich f).stashOk ((rich f).frameWarp f) (f.val .a 0) (f.val .b 0) (f.val .c 0) = true ∧
    let s := { rich f with stashMaps := [⟨0, 0, 0, 0x1000, 0x200000, 0, none⟩] }
    AtSlot s f ∧ f.performing .always [.a] = 0 :: [] ∧ ∃ m ∈ s.stashMaps, m.core = (s.frameWarp f).id.core ∧
      m.ctx = (s.frameWarp f).ctx ∧ m.base = (f.val .a 0).toNat ∧ m.owner = none :=
  ⟨at_rich _ (by decide) rfl, unfed_of _ _ (by decide), by decide, by decide, by decide, ⟨rfl, by decide, rfl⟩, by decide,
    _, .head _, rfl, rfl, rfl, rfl⟩
/-- A copy of 16 bytes with a phaser, a `rred` image that holds no operator 2, and a `kvapp` page of FP4. -/
theorem witness_StashCopiesAndCallsLeftToCommit_copies : let f := slotFrame 0x100 0xff0 0x4000000010; let k := slotFrame 0x2000 0x400 0
    AtSlot (rich f) f ∧ (∀ l ∈ f.performing .always [.a, .b, .c], (rich f).checkCopy f (f.val .a l) (f.val .b l) (f.val .c l) = .ok ()) ∧
    AtSlot (rich k) k ∧ (∀ l ∈ k.performing .always [.a, .b, .c], (rich k).checkRred k (k.val .a l) (k.val .b l) (k.val .c l) = .ok ()) ∧
    ∀ l ∈ k.performing .always [.a, .b, .c],
      ({ rich k with hbm := setBytes (rich k).hbm 0x12000 [0, 0, 0x20, 0, 4] }).checkKv k false (k.val .a l) (k.val .b l) = .ok 0x40020 :=
  ⟨at_rich _ (by decide) rfl, by decide, at_rich _ (by decide) rfl, by decide, by decide +kernel⟩
/-- A call that runs in window 0 of stack 0. -/
def runningCall : Call := ⟨0, 0, 0, 0, 0, 0, 0, 0, 0, true, 0, true, 0, false, false, [], none⟩
/-- A near-memory warp of a call with a window, on three rows of its window. -/
theorem witness_StashCopiesAndCallsLeftToCommit_gradq : let f := slotFrame 0 0xfc00 0x400
    let s := { rich f with
      warps := [{ richWarp with pier := some ⟨0, 0, 0⟩ }]
      calls := [runningCall] }
    ∃ win, AtSlot s f ∧ s.callOf f = some win ∧ win.readable = true ∧ win.writable = true ∧ s.poisoned = [] ∧
      (∀ l ∈ f.performing .always [.a, .b, .c], (f.val .a l).toNat % 1024 = 0 ∧ (f.val .b l).toNat % 1024 = 0 ∧
        (f.val .c l).toNat % 64 = 0 ∧ (f.val .a l).toNat + 1024 ≤ win.len ∧ (f.val .b l).toNat + 1024 ≤ win.len ∧
        (f.val .c l).toNat + 64 ≤ win.len) :=
  ⟨_, ⟨rfl, by decide, rfl⟩, rfl, rfl, rfl, rfl, by decide⟩
/-- A call in window 0 of stack 0, a join object, and the gather descriptor. -/
theorem witness_StashCopiesAndCallsLeftToCommit_calls : let f := slotFrame 0x180 0 0; let g := slotFrame 0 0x200 0
    AtSlot (rich f) f ∧ f.performing .always [.a, .b, .c] = 0 :: [] ∧ f.val .b 0 &&& 0xffffffffffc0c0f0 = 0 ∧
    ((rich f).window? ((rich f).frameWarp f).ctx ((f.val .b 0).extractLsb' 0 4).toNat ((f.val .b 0).extractLsb' 8 6).toNat).isSome = true ∧
    ((rich f).frameWarp f).phaserId? (zext ((f.val .b 0).extractLsb' 16 6)) = some 0 ∧ (f.val .c 0).toNat % 16 = 0 ∧
    (f.val .a 0).toNat % 64 = 0 ∧ (rich f).access ((rich f).who f) .write (f.val .a 0) 64 = .ok (plain 0x180 64) ∧
    (∀ l ∈ f.performing .always [.a, .b], (f.val .a l).toNat % 128 = 0 ∧
      (rich f).atomicPlaces ((rich f).who f) .add true false (f.val .a l) = .ok (plain 0x180 8)) ∧
    AtSlot (rich g) g ∧ g.Open g0 ∧ (rich g).Settled ∧ g.performing .always [.a, .b] = 0 :: [] ∧ (g.val .b 0).toNat % 64 = 0 ∧
    (rich g).access ((rich g).who g) .read (g.val .b 0) 64 = .ok (plain 0x200 64) ∧
    (∀ q ∈ plain 0x200 64, (rich g).placePoisoned q = false) ∧
    (rich g).checkGather g (BitVec.ofNat 512 (leNat ((plain 0x200 64).map ((rich g).shows false g.warp.core)))) = .ok () :=
  ⟨at_rich _ (by decide) rfl, by decide, by decide, by decide, by decide, by decide, by decide, by decide, by decide,
    at_rich _ (by decide) rfl, ⟨unfed_of _ _ (by decide), unfed_of _ _ (by decide), by decide⟩, rich_settled _, by decide, by decide,
    by decide, by decide, by decide +kernel⟩

/-- A command of each kind at the last tile it may name. -/
theorem witness_MatrixCommandsLeftToCommit : let f := { slotFrame 23 0x100 0 with uniform := richWarp.s }; let w := (rich f).frameWarp f
    AtSlot (rich f) f ∧ f.performing .always [] = 0 :: [] ∧ checkMma false 1 (f.group 0) w = none ∧ checkMma true 1 (f.group 1) w = none ∧
    w.id.core % 2 = 0 ∧ (1 : BitVec 3).toNat < w.tiles.length ∧ checkEpilogue (rich f) 1 false w (f.group 2) = none ∧
    checkPrune w (f.group 3) = none ∧ f.performing .always [.a] = 0 :: [] ∧ checkDrain 0 true w 0 = none ∧
    f.performing .always [.a, .b] = 0 :: [] ∧ f.val32 .a 0 &&& 0xffe0f8c0 = 0 ∧ ((f.val32 .a 0).extractLsb' 0 5).toNat ≤ 23 ∧
    (f.val .b 0).toNat % 8 = 0 ∧ (rich f).access ((rich f).who f) .atomic (f.val .b 0) 8 = .ok (plain 0x100 8) ∧
    (∀ q ∈ plain 0x100 8, ∃ x y, q = .hbm x y ∧ y.memside = false) := by
  refine ⟨at_rich _ (by decide) rfl, by decide, by decide +kernel, by decide +kernel, by decide, by decide, by decide +kernel, by decide +kernel, by decide,
    by decide, by decide, by decide, by decide, by decide, by decide, ?_⟩
  intro q hq
  simp only [plain, List.mem_map] at hq
  obtain ⟨i, -, rfl⟩ := hq
  exact ⟨_, _, rfl, rfl⟩

/-- A phase behind the current one, and no copy, command or epilogue of the warp. -/
theorem witness_WaitsEnd : let f := slotFrame 0 0 0
    AtSlot (rich f) f ∧ f.Open g0 ∧ (rich f).Settled ∧ (∀ l ∈ f.performing .always [.a, .b],
      ((rich f).frameWarp f).phaserId? (f.val .a l) = some 0 ∧ (rich f).phaser? 0 = some ⟨0, 0, 0, 1, 2, 2, 0, 0⟩ ∧
      (1 : BitVec 16).getLsbD 0 ≠ (f.val .b l).getLsbD 0 ∧
      1 ≤ ((1 : BitVec 16) - (f.val .b l).extractLsb' 0 16).toNat ∧ ((1 : BitVec 16) - (f.val .b l).extractLsb' 0 16).toNat ≤ 2 ^ 15) ∧
    (∀ l ∈ f.performing .always [.a], ∀ c ∈ (rich f).copies, c.who.serial = (rich f).serialOf f.warp → c.coveredBy l (f.val32 .a l) = false) ∧
    (∀ c ∈ (rich f).matrix, c.who.serial ≠ ((rich f).frameWarp f).serial) ∧
    (∀ e ∈ (rich f).epilogues, e.who.serial ≠ ((rich f).frameWarp f).serial) ∧ ((rich f).frameWarp f).heldFault = none :=
  ⟨at_rich _ (by decide) rfl, ⟨unfed_of _ _ (by decide), unfed_of _ _ (by decide), by decide⟩, rich_settled _, by decide,
    by decide, by simp [rich, mapped, withFrame, State.reset], by simp [rich, mapped, withFrame, State.reset], by decide⟩

/-- A phase that is not over, in the one lane in which the wait has been found to be over before. -/
theorem witness_WaitsEnd_before : let f := { slotFrame 0 1 0 with returned := [(0, 0, 1)] }
    f.slot = 0 ∧ (∀ x ∈ f.returned, x.1 = f.slot → x.2.1 ∈ f.performing .always [.a, .b]) ∧
    (f.returned.find? fun x => x.1 = f.slot && x.2.1 = 0) = some (0, 0, 1) := by decide
/-- A strand in its handler, with a trap return, and one that is in none. -/
theorem witness_SystemInstructions : let f := slotFrame 1 2 3
    let lanes := f.performing .always []
    let info := fun (k : Cause) => { f.faultAt f.slot k 0 0 with lanes := maskOf lanes }
    let st : Strand := ⟨0, 0x4000, 0x5000, BitVec.allOnes 32, .active, true, none, [], none, 0⟩
    let s := { mapped f with warps := [{ w0 with strands := [st] }] }
    AtSlot (mapped f) f ∧ (mapped f).warp? f.warp = some w0 ∧ ((mapped f).context? w0.ctx).isSome = true ∧ f.Open g0 ∧
    lanes ≠ [] ∧ f.Stuck (info .illegal) ∧ f.Stuck (info .breakpoint) ∧
    w0.strand? f.strand = some ⟨0, 0x4000, 0, BitVec.allOnes 32, .active, false, none, [], none, 0⟩ ∧
    AtSlot s f ∧ s.warp? f.warp = some { w0 with strands := [st] } ∧ st.inHandler = true ∧ successorOk st.trapRet = true :=
  ⟨at_mapped _ (by decide) rfl, by decide, by decide, (open_at ..).2, by decide, rfl, rfl, by decide,
    ⟨rfl, by decide, rfl⟩, by decide, rfl, by decide⟩

/-- A launch record at 0x300 of the plain page (one level of one warp with 16 vector registers, entry 0x4000) and a work
record at 0x11000 that names it. -/
def workMem : List Host.Cell :=
  [(0x10300, 1), (0x10310, 0x4000), (0x10320, 1), (0x10328, 16), (0x103e0, 0x100000000), (0x11018, 0x300)].foldl
    (fun m e => setBytes m e.1 (leBytes 8 e.2)) tables
/-- A queue of 16 slots over the second page, with one record in it; and the started module with it. -/
def q0 : WorkQueue := ⟨0, 0, 0x1000, [0x11000], 4, 2, 1, 0, some (⟨false, 0⟩, 0), 0, 1, true, 0, 0, 0, 0, none⟩
def working (f : Frame) : State := { mapped f with hbm := workMem, queues := [q0] }

/-- A request for queue 0, its record, and a request that finds none. -/
theorem witness_DequeueDelivers : let f := slotFrame 0x100000000 1 0
    AtSlot (working f) f ∧ f.Open g0 ∧ f.performing .always [.a, .b] = 0 :: [] ∧ MayAsk (working f) f w0 (f.val .a 0) ∧
    Deliverable (working f) w0 0 1 q0 ∧ AtSlot (mapped f) f ∧ MayAsk (mapped f) f w0 (f.val .a 0) ∧
    (∀ q ∈ (mapped f).queues, (mapped f).eligibleQueue w0 0 1 q = false) ∧ f.val32 .b 0 ≠ 0 ∧
    (slotFrame 0x100000000 0 0).val32 .b 0 = 0 :=
  ⟨⟨rfl, by decide, rfl⟩, ⟨unfed_of _ _ (by decide), unfed_of _ _ (by decide), by decide⟩, by decide,
    ⟨by decide, by decide, by decide, by decide, by decide, by decide⟩,
    ⟨by decide +kernel, by decide +kernel, by decide, by decide +kernel, by decide +kernel, by decide +kernel⟩, ⟨rfl, by decide, rfl⟩,
    ⟨by decide, by decide, by decide, by decide, by decide, by decide⟩, by simp [mapped, withFrame, State.reset], by decide, by decide⟩

theorem noneParked (s : State) (w : Warp) (h : s.warps = [w]) (k : w.status = .running) : s.NoneParked := by
  intro x hx r; simp [h] at hx; subst hx; simp [k]

/-- A queue with room, one that holds all the records it may hold, and one that is not enabled. -/
theorem witness_EnqueueStores : let f := slotFrame 0 0 0
    AtSlot (working f) f ∧ f.Open g0 ∧ (working f).Canonical ∧ (working f).Settled ∧ (working f).NoneParked ∧
    (working f).warp? f.warp = some w0 ∧ (working f).kept? f = none ∧ f.performing .always [.a] = 0 :: [] ∧
    (working f).queue? (f.val32 .a 0).toNat = some q0 ∧ q0.ctx = w0.ctx ∧ q0.enable = true ∧ q0.count < 2 ^ q0.log2n - 1 ∧
    let q1 := { q0 with tail := 15 }
    ({ working f with queues := [q1] }).queue? 0 = some q1 ∧ 2 ^ q1.log2n - 1 ≤ q1.count :=
  ⟨⟨rfl, by decide, rfl⟩, ⟨unfed_of _ _ (by decide), unfed_of _ _ (by decide), by decide⟩, ⟨by decide +kernel, rfl, rfl, rfl⟩,
    settled_of _ rfl rfl rfl rfl rfl rfl, noneParked _ w0 rfl rfl, by decide, by decide, by decide, by decide +kernel, rfl, rfl, by decide, by decide +kernel, by decide⟩

/-- A running sibling of a group of two whose quorum is 1. -/
def sib : Sibling := ⟨.running, false, 0, 0, false, false⟩
def gr0 : Group := ⟨1, 0, 1, 0, [], 0, 0, [sib, sib], [], none, 0, 0⟩
def heldOne : HeldRecord := ⟨(1 : W512) <<< 320, 0x4000, none⟩
theorem witness_SiblingPosts : let f := slotFrame 5 0 0; let w := { w0 with held := some heldOne }
    let s := { mapped f with warps := [w], groups := [gr0] }
    AtSlot s f ∧ f.Open g0 ∧ s.warp? f.warp = some w ∧ s.kept? f = none ∧ f.performing .always [.a] = 0 :: [] ∧
    recGroup heldOne.record ≠ 0 ∧ s.group? w.ctx (recGroup heldOne.record) = some gr0 ∧ recSib heldOne.record = 0 ∧
    gr0.siblings[0]? = some sib ∧ sib.state = .running ∧ 0 + 1 = gr0.quorum ∧ gr0.decided = none ∧ gr0.siblings[1]? = some sib :=
  ⟨⟨rfl, by decide, rfl⟩, ⟨unfed_of _ _ (by decide), unfed_of _ _ (by decide), by decide⟩, rfl, by decide +kernel, by decide,
    by decide +kernel, by decide +kernel, by decide +kernel, rfl, rfl, rfl, rfl, rfl⟩

/-- A near-memory warp on its window's last kilobyte; a dot product of rows of 32 elements. -/
theorem witness_NearBankInstructions : let f := slotFrame 0xfc00 0x400 0x2000000000
    let w := { richWarp with pier := some ⟨0, 0, 0⟩ }
    let s := { rich f with warps := [w], calls := [runningCall] }
    let win : Window := ⟨0, 0, 0, true, true, 0, 65536, 0x200000, [], [], false⟩
    AtSlot s f ∧ f.Open g0 ∧ s.warp? f.warp = some w ∧ w.pier = some ⟨0, 0, 0⟩ ∧ f.performing .always [.a] = 0 :: [] ∧
    s.writes = [] ∧ s.poisoned = [] ∧ s.callWindow? ⟨0, 0, 0⟩ = some win ∧ win.readable = true ∧
    (f.val .a 0).toNat % 128 = 0 ∧ (f.val .b 0).toNat % 128 = 0 ∧ 128 ≤ (f.val .b 0).toNat ∧
    (f.val .a 0).toNat + (f.val .b 0).toNat ≤ win.len ∧ f.performing .always [.a, .b] = 0 :: [] ∧ NbOp.isum ≠ .dot ∧
    f.performing .always [.a, .b, .c] = 0 :: [] ∧ w.scratch = some (0, 0x100000) ∧
    let x := ((f.val .c 0).extractLsb' 0 32).toNat; let d := ((f.val .c 0).extractLsb' 32 16).toNat
    let rows := (f.val .b 0).toNat / (4 * d)
    (f.val .c 0).extractLsb' 48 16 = 0 ∧ d % 32 = 0 ∧ 32 ≤ d ∧ d ≤ 2048 ∧ (f.val .b 0).toNat % (4 * d) = 0 ∧ rows ≤ 256 ∧
    x + 4 * d + 4 * rows ≤ 0x100000 :=
  ⟨⟨rfl, by decide, rfl⟩, ⟨unfed_of _ _ (by decide), unfed_of _ _ (by decide), by decide⟩, rfl, rfl, by decide, rfl,
    rfl, by decide, rfl, by decide, by decide, by decide, by decide, by decide, by decide, by decide, rfl, by decide, by decide,
    by decide, by decide, by decide, by decide, by decide⟩

/-- A phaser of two members with one arrival to come and an early one; the greatest counts at which a rule still holds. -/
def ph0 : Phaser := ⟨0, 0, 0, 1, 2, 1, 1, 0⟩
theorem witness_PhaserRules : ph0.yet ≠ 0 ∧ ({ ph0 with yet := 0 } : Phaser).yet = 0 ∧ ph0.early < 255 ∧ ph0.early < ph0.members ∧
    (3 : BitVec 16) ≠ ph0.phase ∧ ({ ph0 with members := 65534 } : Phaser).members < 65535 ∧
    ({ ph0 with yet := 0 } : Phaser).pending = 0 ∧ ({ ph0 with yet := 0 } : Phaser).members ≠ 0 := by decide
/-- The largest finite value, and addends in two orders. -/
theorem witness_ExactAccumulation : 0x7f7fffff < 2 ^ Fmt.width .f32 ∧ (readFloat .f32 0x7f7fffff).isFinite = true ∧
    (0 : Int).natAbs < 2 ^ 510 ∧ [0x7f7fffff, 1].Perm [1, 0x7f7fffff] ∧
    (∀ n ∈ [0x7f7fffff, 1], n < 2 ^ Fmt.width .f32 ∧ (readFloat .f32 n).isFinite = true) ∧ (0 : Int).natAbs < 2 ^ 509 := by
  decide +kernel
/-- A second value for operand a in the last lane. -/
theorem witness_TwoProducers : let f := slotFrame 1 2 3; let g := { f with tokens := [⟨.op .a 0, tokenOf fun _ => some 1, []⟩] }
    Target.op .a 0 ≠ .none ∧ g.holds (.op .a 0) 31 ≠ none ∧ tokenAt (tokenOf fun l => if l = 31 then some 5 else none) 31 ≠ none := by
  decide
/-- A write of the last predicate, and of the rejoin mask 15 with a value in lane 0 and with none. -/
theorem witness_RegisterWritesAtCommit : swf 0 w0.v = true ∧ swf 0 w0.s = true ∧ swf 0 w0.p = true ∧ swf 0 w0.jE = true ∧
    (63 : BitVec 8).toNat < 64 ∧ 64 ≤ (79 : BitVec 8).toNat ∧
    (let f := { f0 with tokens := [⟨.write 0, lane0 (some 3), []⟩] };
      allLanes.findSome? (fun l => if f.active.getLsbD l then tokenAt (f.written 0) l else none) = some 3) ∧
    allLanes.findSome? (fun l => if f0.active.getLsbD l then tokenAt (f0.written 0) l else none) = none := by decide

/-- A block at a read word, one at its end, an event, an input, and nothing to do. -/
theorem witness_StepRunsDecoded :
    let f := { r0 with words := [0, 0x0401ff00, 0x1e40ffff] }
    let e := { r0 with words := [0, 0x0401ff00, 0x1e40ffff], at_ := 3, fired := [0], exits := [(0, 0, .done)] }
    (withFrame f).turn? = some (.block ⟨0, 0⟩ 0) ∧ ((withFrame f).front ⟨0, 0⟩ 0).frames.head? = some f ∧
    f.words[f.at_]? = some 0x0401ff00 ∧ decode 0x0401ff00 = .ok (.rdV ⟨0, true, .none, .op .a 0⟩) ∧
    (withFrame e).turn? = some (.block ⟨0, 0⟩ 0) ∧ ((withFrame e).front ⟨0, 0⟩ 0).frames.head? = some e ∧ e.words.length ≤ e.at_ ∧
    ({ State.reset with startup := { State.reset.startup with ready := true }, acks := [(0, 1)] }).turn? = some (.event (.stashAcknowledgement 0)) ∧
    ({ State.reset with startup := { State.reset.startup with ready := true }, inputs := [.powerGood] }).turn? = some .input ∧
    (let s := { State.reset with
        startup := { State.reset.startup with ready := true }
        mailboxes := [Mailbox.reset, { Mailbox.reset with busy := true, cmd := some (.attest true 0) }] };
      s.turn? = some (.serve true) ∧ (s.mailbox true).cmd = some (.attest true 0)) ∧
    ({ State.reset with startup := { State.reset.startup with ready := true } }).turn? = none := by decide
/-- The first of two read words. -/
theorem witness_ReadsAreOneInstant :
    let f := { r0 with words := [0, 0x0401ff00, 0x0401ff00, 0x1e40ffff], shape := { oneSlot with nrd := 2 } }
    (withFrame f).frames.head? = some f ∧ (withFrame f).warp? f.warp = some w0 ∧ w0.status = .running ∧ f.waiting = false ∧
    0 < f.at_ ∧ f.at_ + 1 < f.base ∧ f.words[f.at_]? = some 0x0401ff00 ∧
    decode 0x0401ff00 = .ok (.rdV ⟨0, true, .none, .op .a 0⟩) ∧
    (match step (withFrame f) with | .next _ => true | _ => false) = true := by decide
/-- The last register of a kind. -/
theorem witness_DecodeEncode : (Instr.wrV ⟨255, false⟩).isWord = true ∧ (Instr.wrV ⟨255, false⟩).wf = true := by decide
/-- Predicate mode 3 in the first and the last major opcode that has a predicate, and words of majors at the ends of the
ranges that are not assigned. -/
theorem witness_IllegalWordsRefused : 0x0b ≤ ((0x17800000 : W32) >>> 25).toNat ∧ (0x17800000 : W32).extractLsb' 23 2 = 3 ∧
    (0xf9800000 : W32).extractLsb' 23 2 = 3 ∧ 0x15 ≤ ((0x2a000000 : W32) >>> 25).toNat ∧ ((0x4e000000 : W32) >>> 25).toNat ≤ 0x27 ∧
    ((0xee000000 : W32) >>> 25).toNat = 0x77 ∧ 0x7d ≤ ((0xfa000000 : W32) >>> 25).toNat := by decide
theorem witness_MemoryStaysCanonical : (withFrame f0).Canonical ∧ (mapped f0).Canonical ∧
    (match step (withFrame { r0 with words := [0, 0x0401ff00, 0x1e40ffff] }) with | .next _ => true | _ => false) = true :=
  ⟨⟨rfl, rfl, rfl, rfl⟩, mapped_canonical _, by decide⟩

/-- A context whose save area is the page 0: its vector 5 goes to a handler at 0x5000, and trap 0x40 to the host. -/
def vectored : State := { mapped f0 with
  hbm := [(0x100a8, 0x5001), (0x10280, 0x6002)].foldl (fun m e => setBytes m e.1 (leBytes 8 e.2)) tables }
def st0 : Strand := ⟨0, 0x4000, 0, BitVec.allOnes 32, .active, false, none, [], none, 0⟩
def st1 : Strand := ⟨1, 0x4000, 0, 1, .active, true, none, [], none, 0⟩
def noInfo : FaultInfo := ⟨.illegal, 0, 1, 0, 16, 0, false, none⟩
/-- A handler of kind 1, a trap of kind 2, another strand in a handler, a strand in its own, the return, and a release. -/
theorem witness_ExceptionsTaken :
    vectored.warp? w0.id = some w0 ∧ w0.strand? st0.id = some st0 ∧ (vectored.context? w0.ctx).isSome = true ∧
    w0.status = .running ∧ (∀ x ∈ w0.strands, x.inHandler = false) ∧ (vectored.vector 0 5).2.2 = 1 ∧
    Cause.illegal ∉ [Cause.nested, .saveFault, .undoOverflow, .uncorrectable] ∧ (vectored.vector 0 0x40).2.2 = 2 ∧
    ((vectored.context? 0).map fun c => c.slotHeld (vectored.headerRing 0)) = some false ∧
    (∃ x ∈ [st0, st1], x.id ≠ st0.id ∧ x.inHandler = true) ∧ st1.inHandler = true ∧
    ((vectored.context? 0).map fun c => (c.state, c.faulting, c.recovering)) = some (.resident, false, false) ∧
    w0.status ≠ .offCore 0 0 0 0 ∧
    (let f := { f0 with exits := (lanesOf st0.mask).map fun l => (l, 0, ExitKind.eret) };
      w0.strand? f.strand = some st0 ∧ (∀ x ∈ w0.strands, x.id < w0.nextStrand) ∧ st0.place = .active ∧ st0.mask ≠ 0 ∧
      f.deferred = [] ∧ (∀ x ∈ f.exits, x.2.2 = .eret) ∧ ∀ l ∈ lanesOf st0.mask, ∃ k, (l, k, .eret) ∈ f.exits) ∧
    let held : List Strand := [{ st0 with held := some (.faulting 2) }, { st0 with id := 1, held := some (.faulting 1) }]
    let s := { vectored with warps := [{ w0 with strands := held }] }
    s.warp? w0.id = some { w0 with strands := held } ∧ ∀ st ∈ held, st.held = none ∨ ∃ n, st.held = some (.faulting n) := by
  refine ⟨by decide, by decide, by decide, by decide, by decide, by decide +kernel, by decide, by decide +kernel, by decide +kernel,
    ⟨st1, by decide, by decide, by decide⟩, rfl, by decide, by decide, ⟨by decide, by decide, by decide, by decide, rfl, ?_, ?_⟩, by decide, ?_⟩
  · intro x hx
    obtain ⟨l, -, rfl⟩ := List.mem_map.mp hx
    rfl
  · exact fun l hl => ⟨0, List.mem_map.mpr ⟨l, hl, rfl⟩⟩
  · intro st hst
    simp only [List.mem_cons, List.not_mem_nil, or_false] at hst
    rcases hst with rfl | rfl
    · exact .inr ⟨2, rfl⟩
    · exact .inr ⟨1, rfl⟩

/-- A block of one `exit` at 0x400 of the plain page, to be fetched; and a strand restarted eight times. -/
theorem witness_BlocksFetchedAndCommitted_fetch : let st := { st0 with pc := 0x400 }; let w := { w0 with strands := [st] }
    let ws : List W32 := [0x02000000, 0x1e40ffff]
    let s := { mapped f0 with frames := [], warps := [w], hbm := setBytes tables 0x10400 [0, 0, 0, 2, 0xff, 0xff, 0x40, 0x1e] }
    let late := { st with restarts := 8 }; let u := { s with warps := [{ w0 with strands := [late] }] }
    (∃ b, decodeBlock ws = some b ∧ Fetchable s w st ws b) ∧
    u.warp? w.id = some { w0 with strands := [late] } ∧ ({ w0 with strands := [late] } : Warp).strand? late.id = some late ∧
    late.place = .active ∧ coreDie w.id.core < 4 ∧ 8 ≤ late.restarts ∧ (u.arbiter 0).holder = none ∧ (u.arbiter 0).serial = [] := by
  refine ⟨⟨_, rfl, ⟨by decide, by decide, by decide +kernel, by decide, rfl, by decide, by decide, ?_, by decide +kernel, rfl, by decide +kernel,
      by decide +kernel, settled_of _ rfl rfl rfl rfl rfl rfl⟩⟩, by decide⟩
  intro i hi
  match i, hi with
  | 0, _ => exact ⟨by decide, plain 0x400 4, by decide +kernel, by decide, by rw [List.getElem_cons_zero]; decide +kernel⟩
  | 1, _ => exact ⟨by decide, plain 0x404 4, by decide +kernel, by decide, by rw [List.getElem_cons_succ, List.getElem_cons_zero]; decide +kernel⟩

/-- The one lane of a block has left it in some way; the strand and the warp that it belongs to; and the module with it. -/
def leftFrame (e : ExitKind) : Frame := { f0 with fired := [0], exits := [(0, 0, e)] }
def one : Strand := { st0 with mask := 1 }
def oneWarp : Warp := { w0 with strands := [one] }
def ending (f : Frame) : State := { working f with warps := [oneWarp] }
/-- The same with one action left to the commit. -/
def acting (d : Deferred) : Frame := { leftFrame (.go 0x5000) with deferred := [(0, d)] }
theorem complete_of (s : State) (f : Frame) (e : ExitKind) (h : s.frames = [f]) (hf : { f with stores := [], deferred := [], shape := oneSlot, readSig := [], writeSig := [] } = leftFrame e)
    (hc : f.shape.cnt = 1) (ha : f.allFired = true) (hw : s.warps = [oneWarp]) (hk : ∀ c ∈ s.copies, c.who.serial ≠ 1) :
    Complete s f oneWarp one e := by
  have hx : f.exits = [(0, 0, e)] := by rw [show f.exits = (leftFrame e).exits by rw [← hf]]; rfl
  have e1 : f.active = 1 := by rw [show f.active = (leftFrame e).active by rw [← hf]]; rfl
  have e2 : f.warp = ⟨0, 0⟩ := by rw [show f.warp = (leftFrame e).warp by rw [← hf]]; rfl
  have e3 : f.words = [0, 0] := by rw [show f.words = (leftFrame e).words by rw [← hf]]; rfl
  have e4 : f.strand = 0 := by rw [show f.strand = (leftFrame e).strand by rw [← hf]]; rfl
  refine ⟨by rw [h]; rfl, ha, by rw [show f.faults = (leftFrame e).faults by rw [← hf]]; rfl, ⟨0, by omega, by rw [hx]; rfl⟩, e1, by decide, ?_,
    by rw [e2]; rfl, rfl, by rw [e4]; rfl, rfl, by decide,
    ⟨by rw [show f.bound = (leftFrame e).bound by rw [← hf]]; rfl, ?_⟩, ⟨rfl, rfl, rfl⟩, hk⟩
  · rw [e2, State.warp?, hw]; rfl
  · rw [e3]; rfl
/-- No copy runs, nobody holds the token, and the block leaves one action. -/
theorem leaves_of (s : State) (d : Deferred) (h : s.frames = [acting d]) (hw : s.warps = [oneWarp]) (hk : ∀ c ∈ s.copies, c.who.serial ≠ 1)
    (ha : s.arbiters = State.reset.arbiters) : Leaves s (acting d) oneWarp one 0x5000 0 d :=
  ⟨complete_of s _ _ h rfl rfl rfl hw hk, rfl, rfl, rfl, Nat.one_pos, by rw [show coreDie (acting d).warp.core = 0 from (by decide : coreDie 0 = 0), State.arbiter, ha]; rfl⟩
theorem no_copies (f : Frame) : ∀ c ∈ (ending f).copies, c.who.serial ≠ 1 := fun _ h => nomatch h
theorem leaves_ending (d : Deferred) : Leaves (ending (acting d)) (acting d) oneWarp one 0x5000 0 d :=
  leaves_of _ _ rfl rfl (no_copies _) rfl
theorem complete_ending (f : Frame) (e : ExitKind) (hf : { f with stores := [], deferred := [], shape := oneSlot, readSig := [], writeSig := [] } = leftFrame e)
    (hc : f.shape.cnt = 1) (ha : f.allFired = true) : Complete (ending f) f oneWarp one e :=
  complete_of _ _ _ rfl hf hc ha rfl (no_copies _)

/-- A block that leaves nothing; one that stores 4 bytes, to the plain page and to the storage of its core. -/
theorem witness_BlocksFetchedAndCommitted_stores : let f := leftFrame (.go 0x5000)
    Complete (ending f) f oneWarp one (.go 0x5000) ∧ f.shape.iso = false ∧ f.Quiet ∧ swf 0 oneWarp.p = true ∧
    ∀ ps, ps = plain 0x100 4 ∨ ps = (List.range 4).map (fun i => .store 0 i) →
      let x : BufStore := ⟨0, 0, 0x100, ps, [1, 2, 3, 4], none, false⟩; let f := { f with stores := [x] }; let s := ending f
      Complete s f oneWarp one (.go 0x5000) ∧ (s.arbiter 0).holder = none ∧ s.Settled ∧ s.Canonical ∧ s.Unraced f.warp.core ps ∧
      x.places.length = x.bytes.length ∧ (x.places.map Place.key).Nodup ∧ x.places ≠ [] ∧ isPier f.warp.core = false ∧
      x.bytes.length ≤ 8 ∧ x.address.toNat % x.bytes.length = 0 := by
  refine ⟨complete_ending _ _ rfl rfl rfl, rfl, ⟨rfl, rfl, rfl⟩, rfl, ?_⟩
  intro ps h x f s
  have hp : ps.length = 4 ∧ (ps.map Place.key).Nodup ∧ ps ≠ [] := by rcases h with rfl | rfl <;> decide
  exact ⟨complete_ending _ _ rfl rfl rfl, rfl, settled_of _ rfl rfl rfl rfl rfl rfl, ⟨by show Memory.wf workMem = true; decide +kernel, rfl, rfl, rfl⟩,
    unraced_of _ _ _ rfl, hp.1, hp.2.1, hp.2.2, rfl, (by decide : 4 ≤ 8), (by decide : (0x100 : W64).toNat % 4 = 0)⟩
theorem plain_kinds : (∀ q ∈ plain 0x100 4, ∃ a y, q = .hbm a y ∧ y.memside = false) ∧
    ∀ q ∈ (List.range 4).map (fun i => Place.store 0 i), ∃ k o, q = .store k o := by
  constructor
  · intro q hq
    obtain ⟨i, -, rfl⟩ := List.mem_map.mp hq
    exact ⟨_, _, rfl, rfl⟩
  · intro q hq
    obtain ⟨i, -, rfl⟩ := List.mem_map.mp hq
    exact ⟨_, _, rfl⟩

/-- Actions on a phaser, a sleep, a hold and a mapping that is entered; and an entry to be dropped. -/
theorem witness_BlocksFetchedAndCommitted_actions :
    (∀ d ∈ [Deferred.barReg [(0, 0, 1)], .barDrop [(0, 0, 1)], .barExpect [(0, 0, 64)], .arrive false true .die [(0, 0, 1, 0)], .sleep 10, .rwwait 1 5],
      let s := { ending (acting d) with phasers := [⟨0, 0, 0, 1, 2, 2, 0, 0⟩] };
      Leaves s (acting d) oneWarp one 0x5000 0 d ∧ s.phaser? 0 = some ⟨0, 0, 0, 1, 2, 2, 0, 0⟩ ∧ s.pod.out = [] ∧ s.packets = [] ∧ s.writes = []) ∧
    (let d := Deferred.stmap 0 0x1000 0; Leaves (ending (acting d)) (acting d) oneWarp one 0x5000 0 d) ∧
    (let d := Deferred.stflush 0 0; Leaves (ending (acting d)) (acting d) oneWarp one 0x5000 0 d) ∧
    let d := Deferred.stunmap 0; let m : StashMap := ⟨0, 0, 0, 0x1000, 0x200000, 0, none⟩; let s := { ending (acting d) with stashMaps := [m] }
    Leaves s (acting d) oneWarp one 0x5000 0 d ∧
      s.stashMaps.filter (fun m => m.core = oneWarp.id.core ∧ m.ctx = oneWarp.ctx ∧ m.base = (0 : W64).toNat) = [m] ∧ m.owner = none := by
  exact ⟨fun d _ => ⟨leaves_of _ d rfl rfl (no_copies (acting d)) rfl, rfl, rfl, rfl, rfl⟩, leaves_ending _, leaves_ending _, leaves_of _ (.stunmap 0) rfl rfl (no_copies (acting (.stunmap 0))) rfl, by decide, rfl⟩

/-- A copy, a gather copy, a matrix command and a call, each with room in its queue and with none. -/
theorem witness_BlocksFetchedAndCommitted_queues :
    let who : Issuer := ⟨⟨0, 0⟩, 2, 0, none, none, []⟩
    let c : Copy := ⟨who, 1, [], 1, .flat 0 0x100 16, none, 16, [], noRun, 0, none⟩
    (∀ n ∈ [0, 256], ∀ d ∈ [Deferred.cpy [(0, 0x200, 0x100, 16)], .cpyg 0 [(0, 0)]],
      let s := { ending (acting d) with copies := List.replicate n c };
      Leaves s (acting d) oneWarp one 0x5000 0 d ∧ (s.runningCopies oneWarp.id.core).length = n) ∧
    (∀ n ∈ [0, 16], let d := Deferred.matrix 0 .zero; let s := { ending (acting d) with matrix := List.replicate n ⟨0, who, 0, 0, .zero, true, none, false, 0⟩ };
      Leaves s (acting d) oneWarp one 0x5000 0 d ∧ (s.matrix.filter fun c => c.leader = oneWarp.id.core).length = n) ∧
    ∀ n ∈ [0, 64], let d := Deferred.nmcall 0x1000 0 0x4000 0 false
      let s := { ending (acting d) with calls := List.replicate n { runningCall with started := false } };
      Leaves s (acting d) oneWarp one 0x5000 0 d ∧ s.waitingCalls 0 = n ∧ s.writes = [] := by
  intro who c
  refine ⟨fun n hn d _ => ⟨leaves_of _ d rfl rfl ?_ rfl, ?_⟩, fun n hn => ⟨leaves_of _ (.matrix 0 .zero) rfl rfl (no_copies (acting (.matrix 0 .zero))) rfl, ?_⟩,
    fun n hn => ⟨leaves_of _ (.nmcall 0x1000 0 0x4000 0 false) rfl rfl (no_copies (acting (.nmcall 0x1000 0 0x4000 0 false))) rfl, ?_, rfl⟩⟩
  · intro x hx
    rw [(List.mem_replicate.mp hx).2]
    decide
  · show ((List.replicate n c).filter fun c => c.who.warp.core = 0 && c.fault.isNone).length = n
    rw [List.filter_replicate]
    simp [c, who]
  · show ((List.replicate n (⟨0, who, 0, 0, .zero, true, none, false, 0⟩ : MatrixCmd)).filter fun c => c.leader = 0).length = n
    rw [List.filter_replicate]
    simp
  · show ((List.replicate n { runningCall with started := false }).filter fun c => c.stack = 0 && !c.started).length = n
    rw [List.filter_replicate]
    simp [runningCall]

/-- A block that leaves a join of 1 on the object at 0x180, whose count is a byte. -/
def joined : List Place := plain 0x180 128
def joining (n : Byte) : State := { ending (acting (.join [(0, 0x180, joined, 1)])) with hbm := setBytes workMem 0x10180 [n] }
theorem joining_leaves (n : Byte) : Leaves (joining n) (acting (.join [(0, 0x180, joined, 1)])) oneWarp one 0x5000 0 (.join [(0, 0x180, joined, 1)]) :=
  leaves_of _ _ rfl rfl (fun _ h => nomatch h) rfl
/-- A count of 1 and of 2, and a queue that has room and one that has none. -/
theorem witness_BlocksFetchedAndCommitted_join :
    (∀ n ∈ [(1 : Byte), 2], (joining n).Settled ∧ (joining n).Canonical ∧ (joining n).Unraced 0 joined ∧ PlainPlaces joined ∧
      (joining n).access oneWarp.issuer .atomic 0x180 128 = .ok joined ∧ (joining n).NoneParked ∧
      BitVec.ofNat 64 (leNat ((joined.take 8).map ((joining n).placeByte 0))) - 1 = (n - 1).setWidth 64 ∧
      (joining n).queue? (leNat (((joined.drop 8).take 4).map ((joining n).placeByte 0))) = some q0) ∧
    0 < (1 : W64).toInt ∧ q0.ctx = oneWarp.ctx ∧ q0.enable = true ∧ q0.count < 2 ^ q0.log2n - 1 ∧
    2 ^ q0.log2n - 1 ≤ ({ q0 with tail := 15 } : WorkQueue).count := by
  refine ⟨fun n hn => ⟨settled_of _ rfl rfl rfl rfl rfl rfl, ⟨?_, rfl, rfl, rfl⟩, unraced_of _ _ _ rfl, plainPlaces _ _ (by decide +kernel), ?_,
    noneParked _ oneWarp rfl rfl, ?_, ?_⟩, by decide, rfl, rfl, by decide, by decide⟩
  all_goals
    simp only [List.mem_cons, List.not_mem_nil, or_false] at hn
    rcases hn with rfl | rfl <;> decide +kernel

/-- A block that parks at mask 2, where it is the only one enrolled and where another lane is; an isolated block behind a
commit that has a line of its own in common with it, and behind none. -/
def isoFrame : Frame := { leftFrame (.go 0x5000) with shape := { oneSlot with iso := true }, readSig := [5] }
theorem witness_BlocksFetchedAndCommitted_rejoin : let f := leftFrame (.rejoin 2 0x5000)
    Complete (ending f) f oneWarp one (.rejoin 2 0x5000) ∧ f.shape.iso = false ∧ f.Quiet ∧ 2 < 16 ∧
    ∀ e ∈ [(1 : W32), 3], let w := { oneWarp with jE := [(2, e)] };
      swf 0 w.jE = true ∧ one.mask &&& (w.applyWrites f).enrol 2 ≠ 0 ∧ (w.applyWrites f).enrol 2 = e := by
  refine ⟨complete_ending _ _ rfl rfl rfl, rfl, ⟨rfl, rfl, rfl⟩, by decide, ?_⟩
  intro e he w
  rw [show w.applyWrites (leftFrame (.rejoin 2 0x5000)) = w from rfl]
  simp only [List.mem_cons, List.not_mem_nil, or_false] at he
  rcases he with rfl | rfl <;> decide
theorem witness_BlocksFetchedAndCommitted_isolated : Complete (ending isoFrame) isoFrame oneWarp one (.go 0x5000) ∧ isoFrame.shape.iso = true ∧
    isoFrame.Quiet ∧ ¬(ending isoFrame).Conflicting isoFrame ∧ (ending isoFrame).writes = [] ∧
    let f := { isoFrame with startCommit := some 0 }
    let s := { ending f with arbiters := [⟨1, [(1, [5])], [], none⟩] }
    Complete s f oneWarp one (.go 0x5000) ∧ s.Conflicting f := by
  refine ⟨complete_ending _ _ rfl rfl rfl, rfl, ⟨rfl, rfl, rfl⟩, ?_, rfl, ⟨rfl, rfl, rfl, ⟨0, by decide, rfl⟩, rfl, by decide, rfl, rfl, rfl, rfl, rfl, by decide,
    ⟨rfl, rfl⟩, ⟨rfl, rfl, rfl⟩, no_copies isoFrame⟩, .inr ⟨(1, [5]), by decide, by decide, 5, by decide⟩⟩
  intro h
  rcases h with h | ⟨x, hx, -⟩
  · exact absurd h (by decide)
  · cases hx

/-- The started module with one running warp and no block. -/
def idle : State := { mapped f0 with frames := [] }
/-- A strand of the warp, waiting or active. -/
def strandOf (n : Nat) (p : StrandPlace) : Strand := ⟨n, 0x4000, 0, 1 <<< n, p, false, none, [], none, 0⟩
def five : List Strand := [strandOf 0 .active, strandOf 1 .active, strandOf 2 .active, strandOf 3 .active, strandOf 4 .waiting]
/-- A strand that asks for the serial token, five strands to rotate, a watched line, a deposit, a sleep and a `deq` that end at
this tick, and a trap whose slot is free. -/
theorem witness_SchedulerEvents_warps :
    (let s := { idle with arbiters := [⟨0, [], [(⟨0, 0⟩, 0)], none⟩] };
      0 < 4 ∧ (s.arbiter 0).holder = none ∧
      (s.arbiter 0).serial.filter (fun r => ((s.warp? r.1).bind fun w => w.strand? r.2).isSome) = (⟨0, 0⟩, 0) :: []) ∧
    (let w := { w0 with strands := five, nextStrand := 5 }; let s := { idle with warps := [w] };
      s.warp? w.id = some w ∧ w.activeCount = 4 ∧ w.strands.find? (fun x => x.place = .active && !s.asksToken w.id x.id) = some (strandOf 0 .active) ∧
      w.strands.find? (fun x => x.place = .waiting) = some (strandOf 4 .waiting) ∧ (w.strands.map Strand.id).Nodup ∧ ∀ f ∈ s.frames, f.warp ≠ w.id) ∧
    (let w := { w0 with watch := some 0x10000, deposits := [⟨0, 0, [(0, 1)]⟩] }; let s := { idle with warps := [w] };
      s.warp? w.id = some w ∧ w.watch.isSome = true ∧ w.lastWatch = none ∧ w.deposits = ⟨0, 0, [(0, 1)]⟩ :: [] ∧ swf 0 w.arrive = true ∧
      swf 0 w.v = true ∧ ([(0, 1)].map (Prod.fst : Nat × Nat → Nat)).Nodup ∧ (∀ f ∈ s.frames, f.warp ≠ w.id)) ∧
    (let st := { st0 with place := .sleeping 7 }; let w := { w0 with strands := [st] }; let s := { idle with warps := [w], ticks := 7 };
      s.warp? w.id = some w ∧ w.strand? st.id = some st ∧ st.place = .sleeping 7 ∧ 7 ≤ s.ticks) ∧
    (let r : DeqRequest := ⟨0, 0, 1, 2, 0⟩; let w := { w0 with status := .parkedDeq r }; let s := { idle with warps := [w], ticks := 200 };
      s.warp? w.id = some w ∧ r.timeout ≠ 0xffffffff ∧ r.since + 100 * r.timeout.toNat ≤ s.ticks ∧ s.answersFor w.ctx = true) ∧
    (let w := { w0 with status := .serviceWait 0x40 1 0 0 0x4000 }; let s := { vectored with frames := [], warps := [w] };
      s.warp? w.id = some w ∧ w.strand? st0.id = some st0 ∧ w.pier = none ∧ (∀ x ∈ w.strands, x.inHandler = false) ∧ (s.vector w.ctx 0x40).2.2 = 2 ∧
      (∃ c, s.context? w.ctx = some c ∧ c.slotHeld (s.headerRing w.ctx) = false) ∧
      (({ s with hbm := setBytes vectored.hbm 0x10280 [1] } : State).vector w.ctx 0x40).2.2 = 1) :=
  ⟨⟨by decide, rfl, by decide⟩, ⟨by decide, by decide, by decide, by decide, by decide, by simp [idle]⟩,
    ⟨by decide, rfl, rfl, rfl, rfl, rfl, by decide, by simp [idle]⟩,
    ⟨by decide, by decide, rfl, by decide⟩, ⟨by decide, by decide, by decide, by decide⟩, by decide +kernel, by decide, rfl, by decide, by decide +kernel,
    ⟨_, rfl, by decide +kernel⟩, by decide +kernel⟩

/-- A page of two, of one and of no holder; a list with room for one entry, and the same list full. -/
theorem witness_SchedulerEvents_pages :
    (∀ n ∈ [0, 1, 2], let e := 0x1000f + n * 2 ^ 52; let s := { idle with hbm := setBytes tables 0x4000 (leBytes 8 e) };
      s.leafOf 0 ((0 : W64).toNat / 4096) = some (e, 0x4000) ∧ leNat (getBytes s.hbm 0x4000 8) = e ∧ s.Canonical ∧ s.stashLines = [] ∧ entryShares e = n) ∧
    ∀ n ∈ [0, 1], let g := { gr0 with freeList := 0x100 }; let s := { idle with hbm := setBytes (setBytes tables 0x10100 [n]) 0x10108 [1] }
      let slot := g.freeList + BitVec.ofNat 64 (0x40 + 8 * s.devNat g.ctx 0 g.freeList 8)
      (s.devNat g.ctx 0 (g.freeList + 8) 8, s.devNat g.ctx 0 g.freeList 8) = (1, n.toNat) ∧
      (n = 0 → s.devPlaces g.ctx 0 .read slot.toNat 8 = .ok (plain 0x140 8) ∧
        (s.devWrite g.ctx 0 slot (leBytes 8 0x2000)).devPlaces g.ctx 0 .read g.freeList.toNat 8 = .ok (plain 0x100 8) ∧
        PlainPlaces (plain 0x140 8 ++ plain 0x100 8) ∧ s.Canonical ∧ s.stashLines = [] ∧ s.Unraced 0 (plain 0x140 8 ++ plain 0x100 8)) := by
  refine ⟨?_, ?_⟩
  · intro n hn e s
    simp only [List.mem_cons, List.not_mem_nil, or_false] at hn
    refine ⟨?_, ?_, ⟨?_, rfl, rfl, rfl⟩, rfl, ?_⟩ <;> rcases hn with rfl | rfl | rfl <;> decide +kernel
  · intro n hn g s slot
    simp only [List.mem_cons, List.not_mem_nil, or_false] at hn
    rcases hn with rfl | rfl
    · refine ⟨by decide +kernel, fun _ => ⟨by decide +kernel, by decide +kernel, ⟨by decide +kernel, ?_⟩, ⟨by decide +kernel, rfl, rfl, rfl⟩, rfl, unraced_of _ _ _ rfl⟩⟩
      intro q hq
      rcases List.mem_append.mp hq with hq | hq
      · exact (plainPlaces 0x140 8 (by decide +kernel)).2 q hq
      · exact (plainPlaces 0x100 8 (by decide +kernel)).2 q hq
    · exact ⟨by decide +kernel, fun h => absurd h (by decide)⟩

/-- A join object at 0x180 whose count is 1, with room in its queue; a sibling that is retired beside one that is not; a
queue with an aperture, enabled and not. -/
theorem witness_SchedulerEvents_work :
    (let j : JoinWait := ⟨0, 0, 0x180⟩; let s := { working f0 with frames := [], joinWaits := [j], hbm := setBytes workMem 0x10180 [1] };
      s.joinWaits.find? (fun x => x.die = j.die) = some j ∧ s.devPlaces j.ctx j.die .atomic j.object.toNat 128 = .ok (plain 0x180 128) ∧
      s.stashLines = [] ∧ (∀ d ∈ s.discards, d.die ≠ j.die) ∧
      s.devNat j.ctx j.die j.object 8 = 1 ∧ s.queue? (s.devNat j.ctx j.die (j.object + 8) 4) = some q0 ∧ q0.ctx = j.ctx ∧
      q0.enable = true ∧ q0.count < 2 ^ q0.log2n - 1 ∧ s.NoneParked) ∧
    (let y := { sib with retired := true }; let g := { gr0 with siblings := [y, sib] }; let s := { idle with groups := [g] };
      s.groups.find? (fun z => z.handle = g.handle) = some g ∧ g.siblings[0]? = some y ∧ y.retired = true ∧ y.released = false ∧
      sib ∈ g.siblings ∧ sib.retired = false) ∧
    swf [] idle.summaries = true ∧
    (let s := { working f0 with frames := [] };
      s.startup.ready = true ∧ s.queues.find? (fun q => q.aperture = some (⟨false, 0⟩, 0)) = some q0 ∧ s.queue? q0.num = some q0 ∧
      s.Canonical ∧ s.Settled ∧ s.NoneParked ∧ q0.enable = true ∧ q0.count < 2 ^ q0.log2n - 1) ∧
    (let q1 := { q0 with enable := false }; let s := { working f0 with frames := [], queues := [q1] };
      s.queues.find? (fun q => q.aperture = some (⟨false, 0⟩, 0)) = some q1 ∧ s.queue? q1.num = some q1 ∧ q1.enable = false) :=
  ⟨⟨by decide, by decide +kernel, rfl, (fun _ h => nomatch h), by decide +kernel, by decide +kernel, rfl, rfl, by decide, noneParked _ w0 rfl rfl⟩,
    ⟨by decide, rfl, rfl, rfl, by decide, rfl⟩, rfl,
    ⟨rfl, by decide, by decide, ⟨by decide +kernel, rfl, rfl, rfl⟩, settled_of _ rfl rfl rfl rfl rfl rfl, noneParked _ w0 rfl rfl, rfl, by decide⟩,
    by decide, by decide, rfl⟩

/-- A command: its opcode and number, its completion address, and its arguments by byte offset. -/
def command (op : Nat) (args : List (Nat × Nat)) : W512 :=
  BitVec.ofNat 512 (op + 0x70000 + 0x300 * 2 ^ 64 + total (args.map fun a => a.2 * 2 ^ (8 * a.1)))
def vf0 : VF := ⟨false, 0⟩
theorem noneBusy (s : State) (h : s.priv = []) : s.NoneBusy := by intro x hx; simp [h] at hx
theorem commanded (s : State) (cmd : W512) (named : List (Nat × Nat)) (h : s.startup.ready = true) (ha : cmdArg cmd 8 8 % 16 = 0)
    (hp : s.priv = []) (hc : cmdClear cmd named = true) : Commanded s vf0 cmd named := ⟨h, ha, noneBusy s hp, hc⟩

/-- Tables that map the first 2^30 bytes by one pinned leaf of 2^30 bytes. -/
def wideTables : List Host.Cell :=
  [(0x1000, 0x2001), (0x2000, 0x4000040b)].foldl (fun m e => setBytes m e.1 (leBytes 8 e.2)) []
/-- The started module whose context 0 has them. -/
def wide : State := { idle with hbm := wideTables, warps := [] }
theorem walk_pages (s : State) (t1 : s.tableEntry 0x1000 0 = 0x2001) (t2 : s.tableEntry 0x2000 0 = 0x4000040b)
    (hu : s.undoBytes = 1375731712) (page : Nat) (h : page < 2 ^ 18) :
    s.walk 4 0x1000 (page % 2 ^ 36) = .leaf 0x4000040b 0x2000 (0x40000000 + page * 4096) := by
  have e0 : page % 2 ^ 36 = page := Nat.mod_eq_of_lt (by omega)
  have e1 : page / 2 ^ (9 * 3) % 512 = 0 := by rw [Nat.div_eq_of_lt (by omega)]
  have e2 : page / 2 ^ (9 * 2) % 512 = 0 := by rw [Nat.div_eq_of_lt (by omega)]
  rw [e0]
  simp only [State.walk, e1, e2, t1]
  simp only [show entryFrame 0x2001 = 0x2000 by decide, t2]
  have f1 : entryBit 0x2001 0 = true := by decide
  have f2 : entryBit 0x2001 3 = false := by decide
  have g1 : entryBit 0x4000040b 0 = true := by decide
  have g2 : entryBit 0x4000040b 3 = true := by decide
  have g3 : entryBit 0x4000040b 8 = false := by decide
  have g4 : entryBit 0x4000040b 11 = false := by decide
  have g5 : entryFrame 0x4000040b = 0x40000000 := by decide
  have hm : page % 2 ^ (9 * 2) = page := Nat.mod_eq_of_lt (by omega)
  have hf : s.frameOk (0x40000000 + page * 4096) = true := by
    have h1 : 0x40000000 + page * 4096 < 2 ^ 40 := by omega
    have h2 : (0x40000000 + page * 4096) % 2 ^ 36 < 2 ^ 36 - 1375731712 := by omega
    unfold State.frameOk
    rw [hu, Config.hbmBytes, decide_eq_true h1, decide_eq_true h2]
    rfl
  have hw : 0x40000000 / (4096 * 2 ^ (9 * 2)) * (4096 * 2 ^ (9 * 2)) + page % 2 ^ (9 * 2) * 4096 = 0x40000000 + page * 4096 := by omega
  simp only [f1, f2, g1, g2, g3, g4, g5, hw, hf]
  simp [Config.hbmBytes]
/-- A handler of kind 1 whose record has its 64 bytes in the pinned gigabyte. -/
theorem witness_ExceptionsTaken_record : let s := { wide with warps := [w0], hbm := setBytes wideTables 0x400000a8 (leBytes 8 0x5001) }
    let c : Context := { freshContext ⟨false, 0⟩ 0 0 0 with root := 0x1000 }
    let ps : List Place := (List.range 64).map fun i => .hbm (0x40011b20 + i) (entryAttr 0x4000040b)
    s.warp? w0.id = some w0 ∧ s.context? w0.ctx = some c ∧ (s.vector 0 5).2.2 = 1 ∧
    s.savePlaces c (warpArea w0.id.core w0.id.slot + 0xb20) 64 = .ok ps ∧ (ps.map Place.key).Nodup ∧ s.Canonical ∧ s.stashLines = [] ∧ s.Unraced 0 ps :=
  ⟨by decide +kernel, by decide +kernel, by decide +kernel, by decide +kernel, by decide +kernel, ⟨by decide +kernel, rfl, rfl, rfl⟩, rfl, unraced_of _ _ _ rfl⟩
theorem walk_wide (page : Nat) (h : page < 2 ^ 18) :
    wide.walk 4 0x1000 (page % 2 ^ 36) = .leaf 0x4000040b 0x2000 (0x40000000 + page * 4096) :=
  walk_pages wide (by decide +kernel) (by decide +kernel) (by decide +kernel) page h
theorem wide_meets (s : State) (t1 : s.tableEntry 0x1000 0 = 0x2001) (t2 : s.tableEntry 0x2000 0 = 0x4000040b)
    (hu : s.undoBytes = 1375731712) : s.rangeMeets 0x1000 0 604045312 ⟨true, false⟩ = true := by
  rw [State.rangeMeets, List.all_eq_true]
  intro i hi
  rw [List.mem_range] at hi
  have e : 0 / 4096 + i = i := by omega
  rw [State.pageMeets, e, walk_pages s t1 t2 hu i (by omega)]
  rfl

def ctx0 : Context := { freshContext vf0 0 0 0 with root := 0x1000 }
/-- A second context, with its tables and a save area of its own size at the start of the pinned gigabyte. -/
def createCommand : W512 := command 1 [(0x10, 1), (0x18, 0x1000), (0x28, 604045312)]
theorem witness_PrivilegedCommands_create : Commanded wide vf0 createCommand [(0x10, 4), (0x18, 24)] ∧ cmdArg createCommand 0x10 4 < 2 ^ 20 ∧
    wide.contextRefusal vf0 createCommand = none := by
  have a1 : cmdArg createCommand 0x18 8 = 0x1000 := by decide +kernel
  have a2 : cmdArg createCommand 0x20 8 = 0 := by decide +kernel
  have a3 : cmdArg createCommand 0x28 8 = 604045312 := by decide +kernel
  have hm := wide_meets wide (by decide +kernel) (by decide +kernel) (by decide +kernel)
  refine ⟨commanded _ _ _ rfl (by decide +kernel) rfl (by decide +kernel), by decide +kernel, ?_⟩
  unfold State.contextRefusal
  simp only [a1, a2, a3, Config.saveBytes, hm]
  decide +kernel

/-- The commands for a context that its function owns: its end, its second port, a queue on the pinned page, a launch. -/
theorem witness_PrivilegedCommands_context : OwnContext idle vf0 0 ctx0 ∧
    Commanded idle vf0 (command 2 []) [(0x10, 2)] ∧ cmdArg (command 2 []) 0x10 2 = 0 ∧
    (let cmd := command 6 [(0x14, 1), (0x15, 4), (0x16, 1023), (0x18, 0x1000)]; let arg := cmdArg cmd;
      Commanded idle vf0 cmd [(0x10, 8), (0x18, 8)] ∧ arg 0x10 2 = 0 ∧ arg 0x12 1 ≤ 3 ∧ arg 0x13 1 ≤ 3 ∧ arg 0x14 1 ≠ 0 ∧ 4 ≤ arg 0x15 1 ∧
      arg 0x15 1 ≤ 20 ∧ arg 0x18 8 % (64 * 2 ^ arg 0x15 1) = 0 ∧ rangeCanonical (arg 0x18 8) (64 * 2 ^ arg 0x15 1) = true ∧
      (arg 0x16 2 < 1024 ∧ ∀ q ∈ idle.queues, q.aperture ≠ some (vf0, arg 0x16 2)) ∧ (∀ q ∈ idle.queues, q.num ≠ 0) ∧
      idle.rangeMeets ctx0.root (arg 0x18 8) (64 * 2 ^ arg 0x15 1) ⟨true, true⟩ = true ∧
      idle.devicePages ctx0.num (arg 0x12 1) (arg 0x18 8) (64 * 2 ^ arg 0x15 1) = some [0x11000]) ∧
    (let cmd := command 9 [(0x18, 0x300), (0x24, 1)]; let s := { idle with hbm := workMem };
      Commanded s vf0 cmd [(0x10, 2), (0x18, 16)] ∧ cmdArg cmd 0x18 8 % 256 = 0 ∧ ctx0.state = .resident ∧ ctx0.recovering = false ∧
      ∃ bs u n, s.devRead 0 0 (BitVec.ofNat 64 (cmdArg cmd 0x18 8)) 256 = some bs ∧ launchOk bs = true ∧
        cmdArg cmd 0x20 4 + cmdArg cmd 0x24 4 ≤ lvExtent (levelDesc bs 0) ∧
        s.launchUnits 0 bs (cmdArg cmd 0x20 4) (cmdArg cmd 0x24 4) = some (u, n)) := by
  refine ⟨⟨by decide +kernel, rfl⟩, commanded _ _ _ rfl (by decide +kernel) rfl (by decide +kernel), by decide +kernel,
    ⟨commanded _ _ _ rfl (by decide +kernel) rfl (by decide +kernel), by decide +kernel⟩,
    commanded _ _ _ rfl (by decide +kernel) rfl (by decide +kernel), by decide +kernel, rfl, rfl, ?_⟩
  have h : (({ idle with hbm := workMem } : State).devRead 0 0 (BitVec.ofNat 64 (cmdArg (command 9 [(0x18, 0x300), (0x24, 1)]) 0x18 8)) 256).any
      (fun bs => launchOk bs && decide (cmdArg (command 9 [(0x18, 0x300), (0x24, 1)]) 0x20 4 + cmdArg (command 9 [(0x18, 0x300), (0x24, 1)]) 0x24 4 ≤ lvExtent (levelDesc bs 0)) &&
        (({ idle with hbm := workMem } : State).launchUnits 0 bs (cmdArg (command 9 [(0x18, 0x300), (0x24, 1)]) 0x20 4)
          (cmdArg (command 9 [(0x18, 0x300), (0x24, 1)]) 0x24 4)).isSome) = true := by decide +kernel
  generalize hd : State.devRead _ _ _ _ _ = d at h ⊢
  match d, h with
  | some bs, h =>
  simp only [Option.any_some, Bool.and_eq_true, decide_eq_true_eq] at h
  obtain ⟨⟨u, n⟩, hu⟩ := Option.isSome_iff_exists.mp h.2
  exact ⟨bs, u, n, rfl, h.1.1, h.1.2, hu⟩

/-- A window of 64 KiB, its end, translations dropped, and a group of two with one shared page. -/
theorem witness_PrivilegedCommands_windows :
    (let cmd := command 11 [(0x14, 3), (0x20, 65536)]; let arg := cmdArg cmd;
      OwnContext wide vf0 (arg 0x10 2) ctx0 ∧ Commanded wide vf0 cmd [(0x10, 5), (0x18, 16)] ∧ (arg 0x14 1 < 4 ∧ arg 0x12 1 ≤ 15 ∧ arg 0x13 1 ≤ 63 ∧
      arg 0x18 8 % 65536 = 0 ∧ arg 0x20 8 % 65536 = 0 ∧ 0 < arg 0x20 8 ∧ arg 0x20 8 ≤ 2 ^ 34 ∧ rangeCanonical (arg 0x18 8) (arg 0x20 8) = true ∧
      (∀ x ∈ wide.windows, ¬(x.ctx = ctx0.num ∧ x.stack = arg 0x12 1 ∧ x.idx = arg 0x13 1)) ∧
      wide.anyReplicated ctx0.root (arg 0x18 8) (arg 0x20 8) = false ∧
      wide.rangeMeets ctx0.root (arg 0x18 8) (arg 0x20 8) ⟨decide (arg 0x14 1 / 2 = 1), true⟩ = true) ∧
      (∀ i, i < arg 0x20 8 / 4096 → ∃ e a, wide.walk 4 ctx0.root ((arg 0x18 8 / 4096 + i) % 2 ^ 36) = .leaf e a (0x40000000 + 4096 * i)) ∧
      0x40000000 % 2 ^ 21 = 0 ∧ stackOf 0x40000000 = arg 0x12 1 ∧ stackOf (0x40000000 + arg 0x20 8 - 1) = arg 0x12 1) ∧
    (let cmd := command 12 []; let s := rich f0;
      Commanded s vf0 cmd [(0x10, 4)] ∧ OwnContext s vf0 (cmdArg cmd 0x10 2) ctx0 ∧
      (s.window? 0 (cmdArg cmd 0x12 1) (cmdArg cmd 0x13 1)).isSome = true ∧ s.calls = []) ∧
    Commanded idle vf0 (command 13 [(0x18, 0x1000), (0x20, 0x1000)]) [(0x10, 2), (0x18, 16)] := by
  have b1 : cmdArg (command 11 [(0x14, 3), (0x20, 65536)]) 0x20 8 = 65536 := by decide +kernel
  have b2 : cmdArg (command 11 [(0x14, 3), (0x20, 65536)]) 0x18 8 = 0 := by decide +kernel
  refine ⟨⟨⟨by decide +kernel, rfl⟩, commanded _ _ _ rfl (by decide +kernel) rfl (by decide +kernel), by decide +kernel, ?_, by decide +kernel⟩,
    ⟨commanded _ _ _ rfl (by decide +kernel) rfl (by decide +kernel), ⟨by decide +kernel, rfl⟩, by decide +kernel, rfl⟩,
    commanded _ _ _ rfl (by decide +kernel) rfl (by decide +kernel)⟩
  intro i hi
  rw [b1] at hi
  rw [b2, show 0 / 4096 + i = i by omega]
  exact ⟨_, _, by rw [show 0x40000000 + 4096 * i = 0x40000000 + i * 4096 by omega]; exact walk_wide i (by omega)⟩

/-- A group of two siblings with one shared page, its record and lists on the pinned page. -/
theorem witness_PrivilegedCommands_group :
    let cmd := command 15 [(0x12, 2), (0x14, 1), (0x18, 0x1000), (0x20, 0x1100), (0x28, 0x1180), (0x30, 0x1200)]; let arg := cmdArg cmd
    let s := { idle with hbm := setBytes tables 0x11100 (leBytes 8 0x2000) }
    Commanded s vf0 cmd [(0x10, 40)] ∧ OwnContext s vf0 (arg 0x10 2) ctx0 ∧ s.readWords 0 (arg 0x20 8) (arg 0x14 4) = some [0x2000] ∧
    1 ≤ arg 0x12 1 ∧ arg 0x12 1 ≤ 64 ∧ arg 0x13 1 = 0 ∧ arg 0x12 1 / 2 + 1 ≤ arg 0x12 1 ∧ arg 0x18 8 % 128 = 0 ∧ arg 0x20 8 % 8 = 0 ∧
    arg 0x28 8 % 64 = 0 ∧ arg 0x30 8 % 16 = 0 ∧
    (∀ x ∈ [(arg 0x18 8, 128 + 8 * arg 0x12 1, true), (arg 0x20 8, 8 * arg 0x14 4, false), (arg 0x28 8, 64, true),
        (arg 0x28 8, 64 + 8 * s.devNat 0 0 (BitVec.ofNat 64 (arg 0x28 8 + 8)) 8, true), (arg 0x30 8, 16 * arg 0x12 1, false)],
      rangeCanonical x.1 x.2.1 = true ∧ s.rangeMeets ctx0.root x.1 x.2.1 ⟨x.2.2, false⟩ = true) ∧ (∀ p ∈ [0x2000], s.shareOk 0 (arg 0x12 1) [0x2000] p = true) ∧ s.groups = [] :=
  ⟨commanded _ _ _ rfl (by decide +kernel) rfl (by decide +kernel), ⟨by decide +kernel, rfl⟩, by decide +kernel⟩

/-- Pod apertures over memory and over a reduction record; a queue's commands; and an opcode that no table lists. -/
theorem witness_PrivilegedCommands_pod :
    (let cmd := command 16 [(0x10, 255), (0x14, 3), (0x18, 0x2000), (0x20, 0x1000)]; let arg := cmdArg cmd;
      OwnContext idle vf0 (arg 0x12 2) ctx0 ∧ Commanded idle vf0 cmd [(0x10, 5), (0x18, 16)] ∧ arg 0x14 1 < 4 ∧ arg 0x10 2 ≤ 255 ∧ arg 0x20 8 ≠ 0 ∧
      rangeCanonical (arg 0x18 8) (arg 0x20 8) = true ∧ idle.apertures = []) ∧
    (let cmd := command 16 [(0x14, 4), (0x18, 0x1000)]; let arg := cmdArg cmd;
      Commanded idle vf0 cmd [(0x10, 5), (0x18, 16)] ∧ 4 ≤ arg 0x14 1 ∧ arg 0x14 1 < 8 ∧ arg 0x10 2 ≤ 255 ∧
      idle.walk 4 ctx0.root (arg 0x18 8 / 4096 % 2 ^ 36) = .leaf 0x1144f 0x4008 0x11000 ∧ entryBit 0x1144f 6 = true ∧ entryBit 0x1144f 10 = true ∧
      arg 0x18 8 % 256 = 0 ∧ canonical (arg 0x18 8) = true ∧ arg 0x20 8 = 0) ∧
    (let s := { working f0 with frames := [] };
      s.ownQueue? vf0 (cmdArg (command 7 []) 0x10 4) = some q0 ∧ Commanded s vf0 (command 7 []) [(0x10, 4)] ∧
      Commanded s vf0 (command 8 [(0x14, 3), (0x15, 1)]) [(0x10, 6)] ∧ cmdArg (command 8 [(0x14, 3), (0x15, 1)]) 0x14 1 ≤ 3 ∧
      cmdArg (command 8 [(0x14, 3), (0x15, 1)]) 0x15 1 ≠ 0 ∧ Commanded s vf0 (command 10 [(0x18, 0x400)]) [(0x10, 4), (0x18, 8)]) ∧
    idle.startup.ready = true ∧ cmdArg (command 0x11 []) 8 8 % 16 = 0 ∧ idle.NoneBusy ∧ 0x10 < cmdArg (command 0x11 []) 0 1 :=
  ⟨⟨⟨by decide +kernel, rfl⟩, commanded _ _ _ rfl (by decide +kernel) rfl (by decide +kernel), by decide +kernel⟩,
    ⟨commanded _ _ _ rfl (by decide +kernel) rfl (by decide +kernel), by decide +kernel⟩,
    ⟨by decide +kernel, commanded _ _ _ rfl (by decide +kernel) rfl (by decide +kernel), commanded _ _ _ rfl (by decide +kernel) rfl (by decide +kernel),
      by decide +kernel, by decide +kernel, commanded _ _ _ rfl (by decide +kernel) rfl (by decide +kernel)⟩,
    rfl, by decide +kernel, noneBusy _ rfl, by decide +kernel⟩

/-- A save of one warp with nothing else. -/
def save0 : Saved := ⟨[w0], [], [], [], [], [], [], [], []⟩
def cmd0 : W512 := command 3 []
theorem unheld0 : Unheld w0.strands := by intro st hst; simp [w0, Warp.fresh] at hst; subst hst; rfl
/-- A context with a state and a save, and the module with it and no warp on the cores. -/
def holding (c : Context) : State := { idle with contexts := [c], warps := [] }
/-- A swap-ready context on its cores; one that is saved and is filled; and a filled one that is put in. -/
theorem witness_SavedContexts_swap : Commanded idle vf0 cmd0 [(0x10, 3), (0x18, 8)] ∧
    (let c := { ctx0 with swapReady := true }; let s := { idle with contexts := [c] };
      OwnContext s vf0 (cmdArg cmd0 0x10 2) c ∧ c.state = .resident ∧ c.swapReady = true ∧ c.recovering = false ∧
      s.swapRefused c.num (s.contextCores c.num) = false) ∧
    (let c := { ctx0 with state := .saved, swapReady := true, saved := some save0 }; let s := holding c;
      OwnContext s vf0 (cmdArg cmd0 0x10 2) c ∧ s.readSaved c save0 = save0 ∧
      s.shadowTaken c.num (dedup ((save0.warps.map fun w => w.id.core) ++ save0.allocs.map fun a => a.core)) = false ∧
      s.roomFor c.num true save0.warps save0.allocs = true ∧ (s.placeStorage c.num true save0.warps save0.allocs).isSome = true) ∧
    (let c := { ctx0 with state := .filled, saved := some save0 }; let s := holding c;
      OwnContext s vf0 (cmdArg cmd0 0x10 2) c ∧ c.saved = some save0 ∧ (∀ w ∈ save0.warps, Unheld w.strands) ∧
      (s.sharing c.num (s.contextCores c.num)).filter (fun x => x.state = .resident) = [] ∧ s.warps = [] ∧
      s.swapRefused c.num (dedup (s.contextCores c.num ++ (([] : List Context).map fun x => s.contextCores x.num).flatten)) = false) := by
  have hu : ∀ w ∈ save0.warps, Unheld w.strands := by intro w hw; simp [save0] at hw; subst hw; exact unheld0
  exact ⟨commanded _ _ _ rfl (by decide +kernel) rfl (by decide +kernel),
    ⟨⟨by decide +kernel, rfl⟩, rfl, rfl, rfl, by decide +kernel⟩,
    ⟨⟨by decide +kernel, rfl⟩, by decide +kernel, by decide +kernel, by decide +kernel, by decide +kernel⟩,
    ⟨⟨by decide +kernel, rfl⟩, rfl, hu, by decide +kernel, rfl, by decide +kernel⟩⟩
/-- A context stopped with no block and with one, a start from a save, and a service call that returns. -/
theorem witness_SavedContexts_run :
    (OwnContext idle vf0 (cmdArg cmd0 0x10 2) ctx0 ∧ ctx0.state = .resident ∧ ctx0.recovering = false ∧ idle.frames = []) ∧
    (Commanded (mapped f0) vf0 (command 0x0e []) [(0x10, 3), (0x18, 8)] ∧ OwnContext (mapped f0) vf0 (cmdArg (command 0x0e []) 0x10 2) ctx0 ∧
      cmdArg (command 0x0e []) 0 1 = 0x0e) ∧
    (∃ f ∈ (mapped f0).frames, ∃ w, (mapped f0).warp? f.warp = some w ∧ w.ctx = ctx0.num ∧ w.pier = none ∧
      ∀ x ∈ (mapped f0).frames, x.warp = f.warp → x.strand = f.strand → x.waiting = false) ∧
    (let c := { ctx0 with state := .faulted, saved := some save0 }; let s := holding c;
      OwnContext s vf0 (cmdArg cmd0 0x10 2) c ∧ s.readSaved c save0 = save0 ∧ s.roomFor c.num c.swapReady save0.warps save0.allocs = true ∧
      s.slotsFree save0 = true ∧ (s.placeStorage c.num c.swapReady save0.warps save0.allocs).isSome = true ∧
      (∀ x ∈ s.sharing c.num (dedup ((save0.warps.map fun w => w.id.core) ++ save0.allocs.map fun a => a.core)), x.state ≠ .saveIncomplete) ∧
      ∀ w ∈ save0.warps, Unheld w.strands) ∧
    (let c := { ctx0 with requests := [(0, ⟨0, 0⟩)] }; let w := { w0 with status := .offCore 0 1 0x40 0 }
      let s := { idle with contexts := [c], warps := [w] };
      OwnContext s vf0 (cmdArg cmd0 0x10 2) c ∧ c.state ≠ .saveIncomplete ∧
      c.requests.find? (fun x => x.1 = BitVec.ofNat 64 (cmdArg cmd0 0x18 8)) = some (0, ⟨0, 0⟩) ∧
      s.warps.find? (fun x => x.id = ⟨0, 0⟩ && x.ctx = c.num && x.pier.isNone) = some w ∧ s.warp? ⟨0, 0⟩ = some w ∧
      Unheld (s.readWarp c.num w).strands) ∧
    (let c := { ctx0 with state := .saveIncomplete }; let s := holding c;
      Commanded s vf0 cmd0 [(0x10, 2)] ∧ OwnContext s vf0 (cmdArg cmd0 0x10 2) c) := by
  refine ⟨⟨⟨by decide +kernel, rfl⟩, rfl, rfl, rfl⟩,
    ⟨commanded _ _ _ rfl (by decide +kernel) rfl (by decide +kernel), ⟨by decide +kernel, rfl⟩, by decide +kernel⟩, ⟨f0, .head _, w0, by decide +kernel, rfl, rfl, by decide⟩,
    ⟨⟨by decide +kernel, rfl⟩, by decide +kernel, by decide +kernel, by decide +kernel, by decide +kernel, by decide +kernel, ?_⟩,
    ⟨⟨by decide +kernel, rfl⟩, by decide +kernel, by decide +kernel, by decide +kernel, by decide +kernel, ?_⟩,
    ⟨commanded _ _ _ rfl (by decide +kernel) rfl (by decide +kernel), ⟨by decide +kernel, rfl⟩⟩⟩
  · intro w hw
    simp [save0] at hw
    subst hw
    exact unheld0
  · have e : (({ idle with contexts := [{ ctx0 with requests := [(0, ⟨0, 0⟩)] }], warps := [{ w0 with status := .offCore 0 1 0x40 0 }] } : State).readWarp 0
      { w0 with status := .offCore 0 1 0x40 0 }).strands.all (fun st => st.held = none) = true := by decide +kernel
    exact fun st hst => of_decide_eq_true (List.all_eq_true.mp e st hst)
/-- Recover context, for a save area at the start of the pinned gigabyte; the module with that save, and where it lies. -/
def recoverCommand : W512 := command 17 [(0x10, 1), (0x18, 0x1000), (0x28, 604045312), (0x30, 5), (0x38, 3)]
def former5 : State := { wide with
  calends := { wide.calends with snapshots := [⟨true, 5, 3, { ctx0 with num := 5 }⟩] }
  hbm := setBytes wideTables 0x40000008 (leBytes 8 0x500000001 ++ leBytes 8 3) }
theorem capture_former (n : Nat) (h : n < 2 ^ 18) :
    (List.range (n + 1)).foldl (former5.capturePage 0x1000 0) [] = [⟨0, n + 1, 0x40000000, entryAttr 0x4000040b⟩] := by
  have walks := walk_pages former5 (by decide +kernel) (by decide +kernel) (by decide +kernel)
  have bit : entryBit 0x4000040b 8 = false := by decide
  induction n with
  | zero =>
    rw [Nat.zero_add, List.range_one, List.foldl_cons, List.foldl_nil, State.capturePage, Nat.zero_div, Nat.zero_add, walks 0 (by omega)]
    simp [bit]
  | succ n ih =>
    rw [List.range_succ, List.foldl_append, ih (by omega), List.foldl_cons, List.foldl_nil, State.capturePage, Nat.zero_div, Nat.zero_add,
      walks (n + 1) (by omega)]
    have e : 0x40000000 + 4096 * (n + 1) = 0x40000000 + (n + 1) * 4096 := by omega
    simp [bit, e]
theorem capture_save : former5.captureSave (cmdArg recoverCommand 0x18 8) (cmdArg recoverCommand 0x20 8) =
    [⟨0, 147472, 0x40000000, entryAttr 0x4000040b⟩] := by
  have a1 : cmdArg recoverCommand 0x18 8 = 0x1000 := by decide +kernel
  have a2 : cmdArg recoverCommand 0x20 8 = 0 := by decide +kernel
  rw [State.captureSave, a1, a2, show Config.saveBytes / 4096 = 147471 + 1 by decide, capture_former 147471 (by decide)]
  rfl
/-- The context that is recovered under a number, and the module with it beside the one it has. -/
def recovered (n : Nat) : Context :=
  { freshContext vf0 recoverCommand n former5.ticks with capture := [⟨0, 147472, 0x40000000, entryAttr 0x4000040b⟩] }
def recovering (n : Nat) : State := { former5 with contexts := former5.contexts ++ [recovered n] }
theorem canonical_low (a : Nat) (h : a < 2 ^ 30) : canonical a = true := by
  unfold canonical
  simp only [Bool.or_eq_true, decide_eq_true_eq]
  exact .inl (by omega)
theorem recovering_context (n : Nat) (h : n ≠ 0) : (recovering n).context? n = some (recovered n) := by
  have : ¬0 = n := fun e => h e.symm
  simp [State.context?, recovering, former5, wide, idle, mapped, freshContext, recovered, this]
theorem placesBy_page (tr : Nat → Res PageBase) (x n : Nat) (p : PageBase) (h : 0 < n) (hx : x + n ≤ 4096) (hp : tr 0 = .ok p) :
    placesBy tr x n = .ok ((List.range n).map fun k => p.place (x + k)) := by
  unfold placesBy
  rw [canonical_low x (by omega), canonical_low (x + n - 1) (by omega), show (x + n - 1) / 4096 - x / 4096 + 1 = 1 by omega]
  simp [show x / 4096 = 0 by omega, hp, Res.bind, show Nat.min (x + n) 4096 = x + n from Nat.min_eq_left hx]
theorem recovering_bytes (n x m : Nat) (h : 0 < m) (hx : x + m ≤ 4096) : (recovering n).saveBytes (recovered n) x m =
    some ((List.range m).map fun k => former5.placeByte 0 (.hbm (0x40000000 + (x + k)) (entryAttr 0x4000040b))) := by
  unfold State.saveBytes State.savePlaces
  rw [placesBy_page _ x m _ h hx (show (recovering n).savePage (recovered n) 0 = .ok (.dev 0x40000000 (entryAttr 0x4000040b)) by simp [State.savePage, recovered])]
  simp only [List.map_map]
  rfl
theorem recovering_header (n : Nat) (h : n ≠ 0) : (recovering n).headerDiffers (recovering n) n 5 3 = false := by
  unfold State.headerDiffers State.readSave
  simp only [recovering_context n h, Option.bind_some, recovering_bytes n 0 0x20 (by decide) (by decide), recovering_bytes n 0x10 8 (by decide) (by decide)]
  decide +kernel
/-- A recovery from the save of context 5 at boundary 3, its header in the save area; the end of a spill, and a spill that
meets a page that is not there. -/
theorem witness_SavedContexts_recover :
    (let cmd := recoverCommand
      let s := former5
      let former := cmdArg cmd 0x30 2
      let b := BitVec.ofNat 64 (cmdArg cmd 0x38 8)
      let u := fun (n : Nat) => { s with contexts := s.contexts ++ [{ freshContext vf0 cmd n s.ticks with
        capture := s.captureSave (cmdArg cmd 0x18 8) (cmdArg cmd 0x20 8) }] }
      Commanded s vf0 cmd [(0x10, 4), (0x18, 24), (0x30, 2), (0x38, 8)] ∧ cmdArg cmd 0x10 4 < 2 ^ 20 ∧ s.contextRefusal vf0 cmd = none ∧
      (s.snapshot? true former b).isSome = true ∧
      ∀ n < 1024, (∀ x ∈ s.contexts, x.num ≠ n) → (u n).undoPoisoned true former b.toNat = false ∧
        (u n).headerDiffers ((u n).replaySegments true former b) n former b = false) ∧
    (let c := { ctx0 with state := .spilling }; let s := { wide with contexts := [c] };
      s.context? c.num = some c ∧ s.NoneBusy ∧ c.recovering = false ∧ s.spillReady c.num = true ∧
      s.saveOk c (s.contextCores c.num) = true ∧ c.boundaryDue = false) ∧
    (let c := { ctx0 with state := .spilling, saved := some save0 }; let s := holding c;
      s.context? c.num = some c ∧ s.NoneBusy ∧ s.spillReady c.num = true ∧ (s.contextCores c.num).contains 0 = true ∧
      c.engineOver 0 = false ∧ ((0x10000 : W64) - c.save).toNat = sectionAt 0 + (0 : W32).toNat ∧
      s.savePageOk c (((0x10000 : W64) - c.save).toNat / 4096 * 4096) = false) := by
  have hm := wide_meets former5 (by decide +kernel) (by decide +kernel) (by decide +kernel)
  have a1 : cmdArg recoverCommand 0x18 8 = 0x1000 := by decide +kernel
  have a2 : cmdArg recoverCommand 0x20 8 = 0 := by decide +kernel
  have a3 : cmdArg recoverCommand 0x28 8 = 604045312 := by decide +kernel
  refine ⟨⟨commanded _ _ _ rfl (by decide +kernel) rfl (by decide +kernel), by decide +kernel, ?_, by decide +kernel, ?_⟩,
    ⟨by decide +kernel, noneBusy _ rfl, rfl, by decide +kernel, by decide +kernel, rfl⟩,
    ⟨by decide +kernel, noneBusy _ rfl, by decide +kernel, by decide +kernel, by decide, by decide +kernel, by decide +kernel⟩⟩
  · unfold State.contextRefusal
    simp only [a1, a2, a3, Config.saveBytes, hm]
    decide +kernel
  · intro n _ h
    have h0 : n ≠ 0 := fun e => h ctx0 (.head _) e.symm
    dsimp only
    rw [capture_save, show cmdArg recoverCommand 0x30 2 = 5 by decide +kernel, show BitVec.ofNat 64 (cmdArg recoverCommand 0x38 8) = 3 by decide +kernel]
    exact ⟨rfl, recovering_header n h0⟩

/-- The module with a port's mailbox holding two 32-bit arguments. -/
def mailed (x y : Nat) : State := { State.reset with
  mailboxes := [{ Mailbox.reset with busy := true, serving := true, data := setBytes [] 0 (leBytes 4 x ++ leBytes 4 y) }, Mailbox.reset] }
/-- The started module that serves a port's mailbox. -/
def serving0 : State := { idle with mailboxes := [{ Mailbox.reset with busy := true, serving := true }, Mailbox.reset] }
def cool : Sensors := ⟨0, [949, 950, 1050, 1149], [], List.replicate 16 1000, 0, 0, 4000, []⟩
/-- A mailbox that is served, with limits at the ends of their ranges and outside them, before and after the start. -/
theorem witness_Management :
    Mailed (mailed 2000 0) false 4 false ∧ Mailed (mailed 2000 0) false 4036 true ∧
    leNat (getBytes ((mailed 2000 0).mailbox false).data 0 4) = 2000 ∧ leNat (getBytes ((mailed 0 128).mailbox false).data 4 4) = 128 ∧
    leNat (getBytes ((mailed 10 100).mailbox false).data 0 4) = 10 ∧ leNat (getBytes ((mailed 10 100).mailbox false).data 4 4) = 100 ∧
    (mailed 0 0).startup.ready = false ∧ serving0.startup.ready = true ∧ Mailed serving0 false 0 false ∧ serving0.power.tripped = false ∧
    (State.reset.power.auxiliary = true ∧ (State.reset.mailbox true).serving = false) ∧
    (let s := { State.reset with power := { State.reset.power with on := false } };
      s.power.on = false ∧ s.power.tripped = false) ∧
    State.reset.power.on = true ∧ State.reset.startup.locked = false ∧ State.reset.startup.step ≠ 3 ∧ State.reset.startup.step < 10 ∧
    State.reset.startup.fails < 2 ∧ ({ State.reset.startup with fails := 2 } : Startup).fails = 2 ∧
    ({ State.reset.startup with locked := true } : Startup).locked = true ∧
    (∃ d, d < 4 ∧ 1150 ≤ ({ cool with dieTemp := [1150] } : Sensors).die d) ∧
    ((∀ d, d < 4 → cool.die d < 1150) ∧ (∀ k, k < 16 → cool.stack k < 1100) ∧ 4000 ≤ cool.flow ∧
      State.reset.power.dieClock.length = 4 ∧ State.reset.power.refresh.length = 16 ∧ State.reset.power.gated.length = 16 ∧
      950 ≤ cool.die 1 ∧ 1050 ≤ cool.die 2 ∧ ¬1050 ≤ cool.die 1 ∧
      ({ State.reset with ticks := 10000 } : State).power.controlAt + 10000 ≤ ({ State.reset with ticks := 10000 } : State).ticks) ∧
    State.reset.NoneBusy ∧ swf ⟨0, [], none⟩ State.reset.priv = true ∧
    (let e : ThrottleEvent := ⟨2, 1, false, 1750, 1725, 0, 1⟩
      let s := { State.reset with ticks := 1000000, power := { State.reset.power with events := [e] } };
      s.power.auxiliary = true ∧ s.power.events.find? (fun x => x.unit = 2 && decide (x.first + 1000000 ≤ s.ticks)) = some e) :=
  ⟨⟨rfl, rfl, fun _ => rfl, by decide⟩, ⟨rfl, rfl, (fun h => nomatch h), by decide⟩, by decide, by decide, by decide, by decide, rfl, rfl,
    ⟨rfl, rfl, fun _ => rfl, by decide⟩, rfl, ⟨rfl, rfl⟩, ⟨rfl, rfl⟩, rfl, rfl, by decide, by decide, by decide, rfl, rfl, ⟨0, by decide, by decide⟩,
    ⟨by decide, by decide, by decide, by decide, by decide, by decide, by decide, by decide, by decide, by decide⟩, noneBusy _ rfl, rfl, rfl, by decide⟩

/-- The module in a pod, with an aperture over the plain page. -/
def pod0 : State := { idle with
  pod := { idle.pod with enable := true, out := [⟨7, 3, 0, 0, 0, 100, ⟨⟨0, 0⟩, 1, 0, none, none, []⟩, 0, 0, 0, false⟩] }
  apertures := [⟨0, 0, true, true, false, 0, 0x1000⟩] }
def out0 : UaRequestOut := ⟨7, 3, 0, 0, 0, 100, ⟨⟨0, 0⟩, 1, 0, none, none, []⟩, 0, 0, 0, false⟩
def ua (k : UaKind) : UaRequest := ⟨⟨3, 0⟩, 0, 0x140, 64, k⟩
/-- A fenced peer, an inbound read and write of 64 bytes, and an outstanding request whose time is over. -/
theorem witness_LinksAndPod_requests : 3 < 1024 ∧
    (let e : PodEntry := ⟨true, true, 0, 0, 0xfffe⟩; let s := { pod0 with pod := { pod0.pod with entries := [(3, e)] } };
      s.podEntry 3 = e ∧ e.fenced = true ∧ e.epoch ≠ 0xffff ∧ swf ⟨false, false, 0, 0, 0⟩ s.pod.entries = true) ∧
    swf ⟨0, [], none⟩ pod0.priv = true ∧ 0x1000 ≤ 0x1ff8 ∧ 0x1ff8 + 8 ≤ 0x2000 ∧
    (pod0.answers = true ∧ pod0.power.auxiliary = true ∧ pod0.startup.ready = true ∧ pod0.pod.enable = true ∧ (pod0.podEntry 3).fenced = false ∧
    pod0.podAperture? 0 = some ⟨0, 0, true, true, false, 0, 0x1000⟩ ∧ (ua .read).supported = true ∧
    (ua (.write (List.replicate 64 (some 1)))).supported = true ∧ pod0.inboundPlaces ⟨0, 0, true, true, false, 0, 0x1000⟩ (ua .read) = some (plain 0x140 64) ∧
    pod0.inboundPlaces ⟨0, 0, true, true, false, 0, 0x1000⟩ (ua (.write (List.replicate 64 (some 1)))) = some (plain 0x140 64)) ∧
    pod0.Settled ∧ pod0.Canonical ∧ pod0.poisoned = [] ∧ pod0.Unraced 0 (plain 0x140 64) ∧ (ua .unsupported).supported = false ∧
    ({ ua .read with offset := 0x1000 } : UaRequest).supported = true ∧
    pod0.inboundPlaces ⟨0, 0, true, true, false, 0, 0x1000⟩ { ua .read with offset := 0x1000 } = none ∧ (List.replicate 64 (some (1 : Byte))).length = (plain 0x140 64).length ∧ PlainPlaces (plain 0x140 64) ∧
    pod0.podAperture? 1 = none ∧ pod0.pod.out.find? (fun x => x.tag = out0.tag) = some out0 ∧ out0.dead = false ∧
    (pod0.podEntry out0.module_).fenced = false ∧ out0.epoch = (pod0.podEntry out0.module_).epoch ∧ pod0.serialWarp out0.who.serial = some w0 ∧
    PacketStatus.poison ∉ [PacketStatus.ok, .late] ∧ pod0.pod.out.find? (fun x => x.tag = out0.tag && !x.dead) = some out0 ∧
    out0.issued + out0.timeout ≤ ({ pod0 with ticks := 100 } : State).ticks :=
  ⟨by decide +kernel, ⟨by decide +kernel, rfl, by decide +kernel, by decide +kernel⟩, rfl, by decide +kernel, by decide +kernel, by decide +kernel, settled_of _ rfl rfl rfl rfl rfl rfl, ⟨by decide +kernel, rfl, rfl, rfl⟩, rfl, unraced_of _ _ _ rfl, by decide, by decide, by decide +kernel, by decide +kernel, plainPlaces _ _ (by decide +kernel),
    by decide +kernel⟩

def win0 : Window := ⟨0, 0, 0, true, true, 0, 65536, 0x200000, [], List.replicate 16 true, false⟩
def win32 : Window := ⟨0, 0, 32, true, true, (shadowAddress .addF32 0).toNat, 1048576, 0x400000, [], [], false⟩
/-- A reduction record on the memory-side page, the windows of its elements and shadows, and a packet of one element. -/
theorem witness_LinksAndPod_packet :
    let p : W512 := BitVec.ofNat 512 1
    let s := { pod0 with
      windows := [win0, win32]
      hbm := setBytes tables 0x11004 (leBytes 4 0xffffffff) }
    let r : PacketRun := ⟨0, 0x1000, p, win0, win32, 0, false, ⟨3, 0⟩, none⟩
    (pod0.outerPlaces 0 .write 0 64 = some (plain 0 64) ∧ (plain 0 64).length = 64 ∧ PlainPlaces (plain 0 64) ∧ 64 ≤ 0x1000 ∧ pod0.Unraced 0 (plain 0 64)) ∧
    PacketReady s 0 0x1000 p ∧ packetMalformed (0 : W512) = true ∧
    ({ s with packets := [r, { r with next := 12 }] } : State).packets[0]? = some r ∧ s.poisoned = [] ∧ r.next < packetCount r.packet ∧
    packetCount ({ r with next := 12 } : PacketRun).packet ≤ 12 ∧ r.sender = none :=
  ⟨⟨by decide +kernel, by decide, plainPlaces _ _ (by decide +kernel), by decide, unraced_of _ _ _ rfl⟩,
    ⟨by decide +kernel, ⟨(win0, win32), by decide +kernel, by decide +kernel⟩, (fun h => absurd h (by decide +kernel)), by decide +kernel, by decide +kernel, rfl⟩,
    by decide +kernel, rfl, rfl, by decide +kernel, by decide +kernel, rfl⟩

/-- A block whose load of a host page has performed, a host write that is pending, a copy that runs, a page that may be asked
for and one with `PIN`, and a page request of a parked warp. -/
theorem witness_LinksAndPod_host :
    (let f := { f0 with performed := [(0, 0, 0)] }; let s := mapped f;
      s.frames.find? (fun x => x.warp = f.warp && x.strand = f.strand && x.performed.any fun p => p.2.2 = 0) = some f) ∧
    (let p : PendingWrite := ⟨0, 0, 0, 0, 0, 0, ⟨0, 0⟩, 1, [], [], [], 0, [.host false 0x13000], [1], false, [], none⟩; let s := { idle with writes := [p] };
      s.warp? w0.id = some w0 ∧ s.pendingHost w0.id = some p) ∧
    (let c : Copy := ⟨⟨⟨0, 0⟩, 1, 0, none, none, []⟩, 1, [(0, 0)], 0, .flat 0 0x3000 16, none, 16, [], noRun, 0, none⟩
      let s := { idle with copies := [c] };
      s.runningCopies 0 = [c] ∧ s.owner? c.who = some w0 ∧ w0.living &&& c.lanes ≠ 0) ∧
    (∃ c ∈ idle.contexts, c.pasid = 0 ∧ c.vf.port = false) ∧ 15 < 16 ∧ 15 ∉ idle.pod.portsDown ∧ (idle.context? 0).isSome = true ∧
    (AtsAsker.die ⟨3, true⟩) < 4 ∧ (∃ e a, idle.leafOf 0 1 = some (e, a) ∧ entryBit e 10 = true) ∧
    (idle.leafOf 0 3).all (fun x => entryBit x.1 10 = false) = true ∧ (idle.pageRequests.filter fun r => !r.answered).length < 4096 ∧
    (let r : PageRequest := ⟨0, 0, 0, false, [⟨0, 0⟩]⟩; let w := { w0 with status := .parkedPage 0 0 noInfo }
      let s := { idle with pageRequests := [r], warps := [w] };
      s.pageRequests.find? (fun x => x.ctx = r.ctx && x.page = r.page && !x.answered) = some r ∧ s.pagePresent r.ctx r.page = true ∧
      s.warp? ⟨0, 0⟩ = some w) :=
  ⟨by decide +kernel, ⟨by decide +kernel, by decide +kernel⟩, ⟨by decide +kernel, by decide +kernel, by decide +kernel⟩,
    ⟨ctx0, .head _, by decide +kernel, rfl⟩, by decide +kernel, by decide +kernel, by decide +kernel, by decide,
    ⟨0x1144f, 0x4008, by decide +kernel, by decide⟩, by decide +kernel, by decide, by decide +kernel, by decide +kernel, by decide +kernel⟩

/-- A byte of a page of this die's storage that a stash line, an unarrived write and a pending write hold. -/
def line0 : StashLine := ⟨0, 0, 0x100, 0x10100, List.replicate 64 1, [0, 63], false, false, [], (0, 0)⟩
def write0 : PendingWrite := ⟨0, 0, 0, 0, 0, 0, ⟨0, 0⟩, 1, [], [], [], 0, plain 0x100 2, [1, 2], false, [], none⟩
def late0 : Unarrived := ⟨1, 0x10100, 0, 4, 4, none, [1, 0, 0, 0], [], false, false⟩
/-- Requesters that hold a grant, that are refused a second and a last time, and that wait; a dirty stash line; a write to
arrive and one to perform. -/
theorem witness_MemoryEvents_traffic :
    (let x : L2Slice := ⟨0, 0, [(6, 2), (7, 3)], [8], [5]⟩; let s := { idle with l2 := [x] };
      s.l2Slice 0 0 = x ∧ 5 ∈ x.granted ∧ 6 ∉ x.granted ∧ 6 ∉ x.queue ∧ sget 0 x.refusals 6 + 1 < 4 ∧ 7 ∉ x.granted ∧ 7 ∉ x.queue ∧
      3 ≤ sget 0 x.refusals 7 ∧ x.queue = 8 :: []) ∧
    (let s := { idle with stashLines := [line0], acks := [(0, 1)] };
      s.Canonical ∧ s.stashLines.filter (fun y => y.line = lineOf 0x10100 && (y.core = 0 && y.ctx = 0)) = [line0] ∧ line0.dirty.Nodup ∧
      line0.dirty ≠ [] ∧ swf 0 s.acks = true) ∧
    (let s := { idle with unarrived := [late0] }; ∃ u ∈ s.unarrived, u.die = 1) ∧
    (let s := { idle with writes := [write0] };
      (∃ p ∈ s.writes, s.eligible p = true) ∧ s.Canonical ∧ s.stashLines = [] ∧ write0.rmw = none ∧ write0.bytes.length = write0.places.length ∧
      PlainPlaces write0.places ∧ s.Unraced write0.core write0.places) :=
  ⟨⟨by decide, by decide, by decide, by decide, by decide, by decide, by decide, by decide, rfl⟩,
    ⟨⟨by decide +kernel, rfl, rfl, rfl⟩, by decide, by decide, by decide, by decide⟩, ⟨late0, .head _, rfl⟩,
    ⟨write0, .head _, by decide +kernel⟩, ⟨by decide +kernel, rfl, rfl, rfl⟩, rfl, rfl, by decide, plainPlaces _ _ (by decide), unraced_of _ _ _ rfl⟩
/-- Tables on die 0, scratch and tiles of a context, a context whose boundary is due, and one whose calends completed. -/
theorem witness_MemoryEvents_errors : (∃ c ∈ idle.contexts, idle.tableOn [0, 1] 4 c.root = true) ∧
    (let s := { idle with allocs := [⟨0, 0, some (0x1000000, 0x100), none, [1], [], [1]⟩], pieces := [⟨0, 0, false, 0x1000000, 0x100, 0x200⟩] };
      s.context? ctx0.num = some ctx0 ∧ s.storeOwner 0 0x1ff = some ctx0.num ∧ s.tileOwner 0 0x8000 = some ctx0.num) ∧
    (let s := { idle with ticks := 20000000 };
      s.context? ctx0.num = some ctx0 ∧ ctx0.state = .resident ∧ ctx0.recovering = false ∧ ctx0.boundaryDue = false ∧
      ctx0.boundaryAt + 100000 * s.calends.interval ≤ s.ticks) ∧
    (let old : Context := ctx0; let s := { idle with
        pod := { idle.pod with enable := true, entries := [(7, ⟨true, false, 0, 0, 0⟩), (8, ⟨true, false, 0, 0, 0⟩)] }
        calends := { idle.calends with complete := [(0, 4)], snapshots := [⟨false, 0, 3, old⟩] } }
      let heard : List (Nat × Option Nat) := [(7, some 3), (8, none)]
      let b := ((heard.filter fun x => s.takesPart x.1 && heard.all fun y => y.1 != x.1 || y.2.isSome).filterMap fun x => x.2).foldl Nat.min (4 : W64).toNat;
      s.takesPart 8 = true ∧ (8, none) ∈ heard ∧
      s.context? ctx0.num = some ctx0 ∧ s.calends.complete.find? (fun x => x.1 = ctx0.num) = some (ctx0.num, 4) ∧ s.NoneBusy ∧
      s.snapshot? false ctx0.num (BitVec.ofNat 64 b) = some old ∧ old.num = ctx0.num ∧ old.saved = none ∧ s.poisoned = [] ∧
      s.snapshot? false ctx0.num 2 = none) :=
  ⟨⟨ctx0, by decide +kernel, by decide +kernel⟩, ⟨by decide +kernel, by decide +kernel, by decide +kernel⟩,
    ⟨by decide +kernel, rfl, rfl, rfl, by decide⟩, by decide +kernel, by decide, by decide +kernel, by decide +kernel, noneBusy _ rfl, by decide +kernel, rfl, rfl, rfl, by decide +kernel⟩
/-- An undo region of stack 0 that is full. -/
theorem witness_MemoryEvents_undo :
    let u : UndoLine := ⟨0, false, 0, 1, .hbm 0x10000 (entryAttr 0), 0x10000, []⟩
    let s := { idle with ticks := 100000001, calends := { idle.calends with lines := List.replicate 21495808 u, waits := [(0, 0, 0)] } }
    (∃ u ∈ s.undoLines 0, u.ctx = ctx0.num ∧ u.former = false) ∧ 3 * s.undoBytes ≤ 4 * (64 * (s.undoLines 0).length) ∧
      ∃ x ∈ s.calends.waits, x.1 = ctx0.num ∧ s.undoFull x.2.1 = true ∧ x.2.2 + 100000000 < s.ticks := by
  have hb : idle.undoBytes = 1375731712 := by decide +kernel
  generalize hn : 21495808 = n
  intro u s
  have hl : s.undoLines 0 = List.replicate n u := by
    simp [s, u, State.undoLines]
  have hs : s.undoBytes = 1375731712 := hb
  refine ⟨?_, ?_, (0, 0, 0), by simp [s], rfl, ?_, by show 0 + 100000000 < 100000001; decide⟩
  · rw [hl]
    exact ⟨u, List.mem_replicate.mpr ⟨by omega, rfl⟩, rfl, rfl⟩
  · rw [hl, hs, List.length_replicate]
    omega
  · simp only [State.undoFull, decide_eq_true_eq, hl, hs, List.length_replicate]
    omega

/-- A dense and a sparse FP32 command of K = 32, row length 128, and an S8 one. -/
def dense32 : W512 := BitVec.ofNat 512 (32 * 2 ^ 128 + 0x11 * 2 ^ 160 + 128 * 2 ^ 192 + 128 * 2 ^ 224)
def sparse32 : W512 := BitVec.ofNat 512 (32 * 2 ^ 128 + 0x11 * 2 ^ 160 + 64 * 2 ^ 192 + 128 * 2 ^ 224 + 0x40 * 2 ^ 384)
def denseS8 : W512 := BitVec.ofNat 512 (32 * 2 ^ 128 + 0xee * 2 ^ 160 + 32 * 2 ^ 192 + 32 * 2 ^ 224)
def who0 : Issuer := ⟨⟨0, 0⟩, 1, 0, none, none, []⟩
def cmdOf (o : MatrixOp) : MatrixCmd := ⟨0, who0, 0, 0, o, true, none, false, 0⟩
def withCommand (c : MatrixCmd) : State := { wide with warps := [w0], matrix := [c] }
theorem ends {α : Type} (r : State × Res α) (p : α → Bool) (h : (match r with | (_, .ok x) => p x | _ => false) = true) :
    ∃ u x, r = (u, .ok x) ∧ p x = true := by
  match r, h with
  | (u, .ok x), h => exact ⟨u, x, rfl, h⟩
/-- Commands that start: a dense one, a sparse one whose header keeps 2 of 4, and a zero. -/
theorem witness_Engines_start :
    (let c := { cmdOf (.mma false true dense32) with started := false }; (withCommand c).headCommand c.leader = some c ∧ c.started = false) ∧
    (let c := { cmdOf (.mma true true sparse32) with started := false }
      let s := { withCommand c with hbm := setBytes wideTables 0x40000040 (leBytes 8 (8 + 2048 * 2 ^ 16)) };
      ∃ u h, s.fetchRange c.who (groupAddr sparse32 12).toNat 8 = (u, .ok h) ∧ headerOk h (mmaK sparse32) = true ∧ sparseStride sparse32 h = true) ∧
    (let c := { cmdOf .zero with started := false }; (withCommand c).headCommand c.leader = some c) ∧
    (let c := { cmdOf .zero with predicted := some 40 }; (withCommand c).headCommand c.leader = some c ∧ c.predicted = some 40 ∧
      40 ≤ (withCommand c).cyclesOf (coreDie c.leader) + 40) := by
  refine ⟨⟨by decide +kernel, rfl⟩, ?_, by decide +kernel, by decide +kernel, rfl, by decide⟩
  obtain ⟨u, x, hr, hx⟩ := ends (({ withCommand { cmdOf (.mma true true sparse32) with started := false } with
      hbm := setBytes wideTables 0x40000040 (leBytes 8 (8 + 2048 * 2 ^ 16)) } : State).fetchRange who0 (groupAddr sparse32 12).toNat 8)
    (fun h => headerOk h (mmaK sparse32) && sparseStride sparse32 h) (by decide +kernel)
  rw [Bool.and_eq_true] at hx
  exact ⟨u, x, hr, hx.1, hx.2⟩

theorem settled_command (c : MatrixCmd) : (withCommand c).Settled := settled_of _ rfl rfl rfl rfl rfl rfl
theorem global_low (a : Nat) (h : a < 2 ^ 30) : windowOf a = .global := by
  unfold windowOf
  have h1 : ¬scratchBase ≤ a := by simp only [scratchBase]; omega
  have h2 : ¬clusterBase ≤ a := by simp only [clusterBase]; omega
  rw [if_neg fun x => h1 x.1, if_neg fun x => h2 x.1]
/-- A state that has the tables of the pinned gigabyte, and context 0 over them. -/
structure Mapped (s : State) : Prop where
  root : s.tableEntry 0x1000 0 = 0x2001
  leaf : s.tableEntry 0x2000 0 = 0x4000040b
  undo : s.undoBytes = 1375731712
  ctx : s.context? 0 = some ctx0
  sound : s.poisoned = []
  cold : s.tlb = []
theorem mapped_wide : Mapped wide := ⟨by decide +kernel, by decide +kernel, by decide +kernel, by decide +kernel, rfl, rfl⟩
theorem mapped_command (c : MatrixCmd) : Mapped (withCommand c) :=
  ⟨mapped_wide.root, mapped_wide.leaf, mapped_wide.undo, mapped_wide.ctx, rfl, rfl⟩
/-- An issuer of context 0 on a main core of die 0. -/
structure Plain (who : Issuer) : Prop where
  pier : who.pier = none
  ctx : who.ctx = 0
  die : coreDie who.warp.core = 0
/-- Part of a line of the first 2^30 bytes may be read and written. -/
theorem mapped_access (s : State) (h : Mapped s) (who : Issuer) (hw : Plain who) (kind : AKind) (hk : kind ≠ .fetch) (a n : Nat) (h0 : 0 < n) (hp : a % 4096 + n ≤ 4096)
    (ha : a + n ≤ 2 ^ 30) : s.access who kind (BitVec.ofNat 64 a) n =
      .ok ((List.range n).map fun k => .hbm (0x40000000 + a / 4096 * 4096 + (a % 4096 + k)) (entryAttr 0x4000040b)) := by
  have hx : (BitVec.ofNat 64 a).toNat = a := by rw [BitVec.toNat_ofNat, Nat.mod_eq_of_lt (by omega)]
  have hy : (a + n - 1) % 2 ^ 64 = a + n - 1 := Nat.mod_eq_of_lt (by omega)
  have ht : s.translate 0 0 kind (a / 4096) = .ok (.dev (0x40000000 + a / 4096 * 4096) (entryAttr 0x4000040b)) := by
    unfold State.translate
    rw [h.ctx]
    simp only [State.lookup_cold h.cold, show ctx0.root = 0x1000 from rfl]
    rw [walk_pages s h.root h.leaf h.undo (a / 4096) (by omega)]
    have e1 : (entryAttr 0x4000040b).w = true := by decide
    have e2 : (entryAttr 0x4000040b).repl = false := by decide
    have e3 : entryBit 0x4000040b 8 = false := by decide
    simp [e1, e2, e3, hk]
  unfold State.access
  simp only [hx, hy, hw.pier, hw.ctx, hw.die]
  rw [global_low a (by omega), global_low (a + n - 1) (by omega), canonical_low a (by omega), canonical_low (a + n - 1) (by omega)]
  have hg : s.globalPlaces 0 0 kind a n =
      .ok ((List.range n).map fun k => .hbm (0x40000000 + a / 4096 * 4096 + (a % 4096 + k)) (entryAttr 0x4000040b)) := by
    unfold State.globalPlaces placesBy
    rw [canonical_low a (by omega), canonical_low (a + n - 1) (by omega)]
    have e1 : (a + n - 1) / 4096 - a / 4096 + 1 = 1 := by omega
    have e2 : Nat.max a ((a / 4096 + 0) * 4096) = a := Nat.max_eq_left (by omega)
    have e3 : Nat.min (a + n) ((a / 4096 + 0) * 4096 + 4096) = a + n := Nat.min_eq_left (by omega)
    have e4 : a - a / 4096 * 4096 = a % 4096 := by omega
    rw [e1]
    simp only [List.range_one, List.foldl_cons, List.foldl_nil, Res.bind, Nat.add_zero, ht]
    simp only [Nat.add_zero] at e2 e3
    simp only [e2, e3, PageBase.place, List.nil_append, show a + n - a = n by omega, e4]
    rfl
  simp [hg]
  omega
theorem mapped_range (s : State) (h : Mapped s) (who : Issuer) (hw : Plain who) (a n : Nat) (ha : a + n ≤ 2 ^ 30) : s.rangeOk who a n = true := by
  unfold State.rangeOk linePieces
  split
  · rfl
  · rw [List.all_eq_true]
    intro p hp
    obtain ⟨i, hi, rfl⟩ := List.mem_map.mp hp
    rw [List.mem_range] at hi
    have h1 : Nat.max a ((a / 64 + i) * 64) = if a ≤ (a / 64 + i) * 64 then (a / 64 + i) * 64 else a := Nat.max_def ..
    have h2 : Nat.min (a + n) ((a / 64 + i) * 64 + 64) = if a + n ≤ (a / 64 + i) * 64 + 64 then a + n else (a / 64 + i) * 64 + 64 := Nat.min_def ..
    dsimp only
    rw [h1, h2]
    generalize hlo : (if a ≤ (a / 64 + i) * 64 then (a / 64 + i) * 64 else a) = lo
    generalize hhi : (if a + n ≤ (a / 64 + i) * 64 + 64 then a + n else (a / 64 + i) * 64 + 64) = hi'
    have b1 : lo < hi' := by split at hlo <;> split at hhi <;> omega
    have b2 : lo % 4096 + (hi' - lo) ≤ 4096 := by split at hlo <;> split at hhi <;> omega
    have b3 : hi' ≤ 2 ^ 30 := by split at hhi <;> omega
    have hx : (BitVec.ofNat 64 lo).toNat = lo := by rw [BitVec.toNat_ofNat, Nat.mod_eq_of_lt (by omega)]
    unfold State.pieceOk
    rw [mapped_access s h who hw .read (by decide) lo (hi' - lo) (by omega) b2 (by omega)]
    have g1 : inRegisters (BitVec.ofNat 64 lo) = false := by
      unfold inRegisters; rw [hx, global_low lo (by omega)]; rfl
    have g2 : s.hostPage who.ctx lo = false := by
      unfold State.hostPage
      rw [hw.ctx, h.ctx]
      simp only [State.lookup_cold h.cold, show ctx0.root = 0x1000 from rfl]
      rw [walk_pages s h.root h.leaf h.undo (lo / 4096) (by omega)]
      rfl
    rw [g1, g2, global_low lo (by omega)]
    simp [State.isPoisoned, h.sound, show (entryAttr 0x4000040b).memside = false by decide]
theorem mapped_ranges (s : State) (h : Mapped s) (who : Issuer) (hw : Plain who) (rs : List (Nat × Nat)) (hr : rs.all (fun p => decide (p.1 % 2 ^ 64 + p.2 ≤ 2 ^ 30)) = true) :
    rs.all (fun p => s.rangeOk who (p.1 % 2 ^ 64) p.2) = true := by
  rw [List.all_eq_true] at hr ⊢
  exact fun p hp => mapped_range s h who hw _ _ (of_decide_eq_true (hr p hp))

/-- An FP64 command of K = 32 at tiles 0 and 1. -/
def dense64 : W512 := BitVec.ofNat 512 (32 * 2 ^ 128 + 256 * 2 ^ 192 + 256 * 2 ^ 224)
/-- Commands that complete: `zero`, a product of S8 and one of FP64, and a drain. -/
theorem witness_Engines_mma :
    (let s := withCommand (cmdOf .zero); s.headCommand 0 = some (cmdOf .zero) ∧ (cmdOf .zero).started = true) ∧
    (∃ x, (withCommand (cmdOf (.mma false true denseS8))).fetchMma who0 false denseS8 = (withCommand (cmdOf (.mma false true denseS8)), .ok x) ∧ x.fa ≠ .f64) ∧
    (let c := { cmdOf (.mma false true dense64) with partner := 1 };
      (∃ x, (withCommand c).fetchMma who0 false dense64 = (withCommand c, .ok x) ∧ x.fa = .f64) ∧ c.tile ≠ c.partner ∧ c.tile < 8 ∧ c.partner < 8) ∧
    (let s := withCommand (cmdOf (.drain true 0 1)); s.serialWarp who0.serial = some w0 ∧ swf 0 w0.v = true) := by
  refine ⟨⟨by decide +kernel, rfl⟩, ?_, ⟨?_, by decide, by decide, by decide⟩, by decide +kernel, rfl⟩
  · exact ⟨_, fetchMma_dense _ (settled_command _) who0 denseS8 .s8 .s8 (by decide +kernel) (by decide +kernel)
      (mapped_ranges _ (mapped_command _) who0 ⟨rfl, rfl, rfl⟩ _ (by decide +kernel)), by decide⟩
  · exact ⟨_, fetchMma_dense _ (settled_command _) who0 dense64 .f64 .f64 (by decide +kernel) (by decide +kernel)
      (mapped_ranges _ (mapped_command _) who0 ⟨rfl, rfl, rfl⟩ _ (by decide +kernel)), rfl⟩

/-- A peer's tile whose sequence word has come up to index 0, and one whose word has not in 1 ms; index 1 in the latter. -/
theorem witness_Engines_peer :
    (let w := { w0 with tiles := [0] }; let c := cmdOf (.peer true 0 0x100); let s := { withCommand c with warps := [w] };
      s.access c.who .atomic 0x100 8 = .ok ((List.range 8).map fun k => .hbm (0x40000100 + k) (entryAttr 0x4000040b)) ∧
      s.peerTile 0 (peerLeader 0 0) 0 = some 0 ∧ s.Settled ∧ s.Canonical ∧
      leNat (((List.range 8).map fun k => Place.hbm (0x40000100 + k) (entryAttr 0x4000040b)).map (s.placeByte 0)) = 0 ∧ peerLeader 0 0 = 0) ∧
    PlainPlaces ((List.range 8).map fun k => .hbm (0x40000100 + k) (entryAttr 0x4000040b)) ∧
    (let c := cmdOf (.peer true 0x10000 0x100); let s := { withCommand c with ticks := 100000 };
      s.access c.who .atomic 0x100 8 = .ok ((List.range 8).map fun k => .hbm (0x40000100 + k) (entryAttr 0x4000040b)) ∧
      s.serialWarp who0.serial = some w0 ∧ w0.heldFault = none ∧
      leNat (((List.range 8).map fun k => Place.hbm (0x40000100 + k) (entryAttr 0x4000040b)).map (s.placeByte 0)) ≠ ((0x10000 : W32).extractLsb' 16 5).toNat ∧
      c.since + 100000 ≤ s.ticks) := by
  refine ⟨⟨by decide +kernel, by decide +kernel, settled_of _ rfl rfl rfl rfl rfl rfl, ⟨by decide +kernel, rfl, rfl, rfl⟩, by decide +kernel, by decide⟩,
    ⟨by decide +kernel, ?_⟩, by decide +kernel, by decide +kernel, rfl, by decide +kernel, by decide⟩
  intro q hq
  obtain ⟨i, -, rfl⟩ := List.mem_map.mp hq
  exact ⟨_, _, rfl, by decide⟩

/-- Epilogues of both cores that have nothing left to store, and one whose destination does not exist. -/
def ep (core total : Nat) (d : W512) : Epilogue := ⟨core, 0, who0, 0, false, d, [], 0, total, [], none, false⟩
theorem witness_Engines_epilogue :
    (let a := ep 0 0 0; let b := ep 1 0 0; let s := { wide with epilogues := [a, b], warps := [w0] };
      s.epilogues.filter (fun e => e.leader = 0 && e.fault.isNone) = [a, b] ∧ s.runEpilogue a = (s, a, .ok ()) ∧
      (s.putEpilogue a none).runEpilogue b = (s.putEpilogue a none, b, .ok ())) ∧
    (let e := ep 0 32 (BitVec.ofNat 512 (0x800000000000 + 0xa * 2 ^ 192)); let s := { wide with epilogues := [e], warps := [w0] };
      s.epilogues.find? (fun x => x.core = e.core && x.fault.isNone) = some e ∧
      ∃ u e' a, s.runEpilogue e = (u, e', .bad .address a) ∧ (u.owner? e.who).isSome = true) := by
  refine ⟨⟨by decide +kernel, rfl, rfl⟩, by decide +kernel, ?_⟩
  have h : (match ({ wide with epilogues := [ep 0 32 (BitVec.ofNat 512 (0x800000000000 + 0xa * 2 ^ 192))], warps := [w0] } : State).runEpilogue
      (ep 0 32 (BitVec.ofNat 512 (0x800000000000 + 0xa * 2 ^ 192))) with
    | (u, _, .bad .address _) => (u.owner? who0).isSome
    | _ => false) = true := by decide +kernel
  generalize hr : State.runEpilogue _ _ = r at h ⊢
  match r, h with
  | (u, e', .bad .address a), h => exact ⟨u, e', a, rfl, h⟩

/-- A copy of 16 bytes of the gigabyte to another line, and one whose destination does not exist. -/
def copyOf (dst : W64) : Copy := ⟨who0, 1, [(0, 0)], 0, .flat dst 0x100 16, some 0, 16, [], noRun, 0, none⟩
def copying (dst : W64) : State := { wide with copies := [copyOf dst], warps := [w0] }
theorem witness_Engines_copy :
    (copying 0x200).runningCopies 0 = [copyOf 0x200] ∧ (∃ u, (copying 0x200).runCopy (copyOf 0x200) = (u, .done)) ∧
    (∃ u a, (copying 0x800000000000).runCopy (copyOf 0x800000000000) = (u, .fault .address a) ∧ u.owner? who0 = some w0 ∧ w0.living &&& 1 ≠ 0) ∧
    (copying 0x200).access who0 .read 0x100 16 = .ok ((List.range 16).map fun k => .hbm (0x40000100 + k) (entryAttr 0x4000040b)) ∧
    (copying 0x200).access who0 .write 0x200 16 = .ok ((List.range 16).map fun k => .hbm (0x40000200 + k) (entryAttr 0x4000040b)) ∧
    (copying 0x200).Settled ∧ (copying 0x200).Canonical ∧ (copying 0x200).poisoned = [] ∧ (copying 0x200).calls = [] ∧ (copying 0x200).unarrived = [] ∧
    (∀ i < 16, ∀ j < 16, 0x40000100 + i ≠ 0x40000200 + j) ∧
    PlainPlaces ((List.range 16).map fun k => .hbm (0x40000200 + k) (entryAttr 0x4000040b)) := by
  refine ⟨by decide +kernel, ?_, ?_, by decide +kernel, by decide +kernel, settled_of _ rfl rfl rfl rfl rfl rfl, ⟨by decide +kernel, rfl, rfl, rfl⟩, rfl, rfl, rfl, by intro i hi j hj; omega, by decide +kernel, ?_⟩
  · have h : (match (copying 0x200).runCopy (copyOf 0x200) with | (_, .done) => true | _ => false) = true := by decide +kernel
    generalize State.runCopy _ _ = r at h ⊢
    match r, h with
    | (u, .done), _ => exact ⟨u, rfl⟩
  · have h : (match (copying 0x800000000000).runCopy (copyOf 0x800000000000) with
      | (u, .fault .address _) => decide (u.owner? who0 = some w0) | _ => false) = true := by decide +kernel
    generalize State.runCopy _ _ = r at h ⊢
    match r, h with
    | (u, .fault .address a), h => exact ⟨u, a, rfl, of_decide_eq_true h, by decide⟩
  · intro q hq
    obtain ⟨i, -, rfl⟩ := List.mem_map.mp hq
    exact ⟨_, _, rfl, by decide⟩

/-- A call on its way, one that is refused because its window is gone, one that starts, one whose time is over, and one
whose warps have ended; and a stack in compute mode. -/
def callOf (queued started : Bool) : Call := ⟨0, 0, 0, 0, 0, 0x4000, 0x101, 0x1000, 0, queued, 0, started, 0, false, false, [], none⟩
theorem witness_Engines_calls :
    (let c := callOf false false; let s := { rich f0 with frames := [], calls := [c] };
      s.call? c.stack c.id = some c ∧ s.calls.find? (fun x => x.stack = c.stack && !x.queued) = some c) ∧
    (let c := callOf true false; let s := { rich f0 with frames := [], calls := [c] };
      s.calls.find? (fun x => x.stack = c.stack && x.queued && !x.started) = some c ∧ s.callRefused c = false ∧ s.callFits c = true ∧
      ({ s with windows := [] } : State).callRefused c = true) ∧
    (let c := callOf true true; let s := { rich f0 with frames := [], calls := [c], ticks := 100000000, warps := [{ richWarp with pier := some ⟨0, 0, 0⟩ }] };
      s.call? c.stack c.id = some c ∧ c.started = true ∧ s.callWarps c ≠ [] ∧ c.since + 100000000 ≤ s.ticks) ∧
    (let c := callOf true true; let s := { rich f0 with frames := [], calls := [c] };
      s.call? c.stack c.id = some c ∧ s.callWarps c = [] ∧ s.NoneBusy ∧ (s.phaser? c.phaser).isSome = true ∧ s.Settled ∧
      s.devPlaces c.ctx (coreDie c.core) .read c.ret.toNat 64 = .ok ((List.range 64).map fun i => .hbm (0x11000 + i) (entryAttr 0x1144f)) ∧ s.Canonical ∧
      s.Unraced 0 ((List.range 64).map fun i => .hbm (0x11000 + i) (entryAttr 0x1144f))) ∧
    PlainPlaces ((List.range 64).map fun i => .hbm (0x11000 + i) (entryAttr 0x1144f)) ∧
    (let n : NearBank := ⟨1, 2, 2, 0, 0, [5], []⟩; let s := { idle with nearBanks := [(0, n)] };
      s.nearBank 0 = n ∧ n.rows ≠ [] ∧ 63 < 64 ∧ swf NearBank.reset s.nearBanks = true) := by
  refine ⟨⟨by decide +kernel, by decide +kernel⟩, ⟨by decide +kernel, by decide +kernel, by decide +kernel, by decide +kernel⟩,
    ⟨by decide +kernel, rfl, by decide +kernel, by decide⟩,
    ⟨by decide +kernel, by decide +kernel, noneBusy _ rfl, by decide +kernel, settled_of _ rfl rfl rfl rfl rfl rfl, by decide +kernel, ⟨by decide +kernel, rfl, rfl, rfl⟩, by unfold State.Unraced; decide +kernel⟩,
    ⟨by decide +kernel, ?_⟩, by decide, by decide, by decide, by decide⟩
  intro q hq
  obtain ⟨i, -, rfl⟩ := List.mem_map.mp hq
  exact ⟨_, _, rfl, by decide⟩

/-- An issuer with scratch. -/
def whoScratch : Issuer := { who0 with scratch := some (0, 0x10000) }
/-- What an access to the first 4 MiB of the scratch window answers does not depend on the machine. -/
theorem scratch_access (s : State) (kind : AKind) (a : W64) (n : Nat) (h : scratchBase ≤ a.toNat ∧ a.toNat < scratchBase + 0x400000) :
    s.access whoScratch kind a n = State.reset.access whoScratch kind a n := by
  have hw : windowOf a.toNat = .scratch := by
    unfold windowOf
    exact if_pos ⟨h.1, by simp only [clusterBase]; simp only [scratchBase] at h; omega⟩
  have ho : a.toNat - scratchBase < 0x400000 := by omega
  have e : ∀ s : State, s.windowPlaces whoScratch a.toNat n =
      if a.toNat - scratchBase + n ≤ 0x10000 then .ok ((List.range n).map fun i => .store 0 (0 + (a.toNat - scratchBase) + i))
      else .bad .address (BitVec.ofNat 64 a.toNat) := by
    intro s
    unfold State.windowPlaces
    rw [hw]
    simp only [ho, true_or, if_true]
    rfl
  unfold State.access
  simp only [show whoScratch.pier = none from rfl]
  rw [hw, e, e]
  simp
/-- Writes that all lie in the scratch all take place. -/
theorem scratch_writes (l : List (W64 × List Byte))
    (h : l.all (fun x => decide (scratchBase ≤ x.1.toNat ∧ x.1.toNat < scratchBase + 0x400000) &&
      (match State.reset.access whoScratch .write x.1 x.2.length with | .ok _ => true | _ => false)) = true) (s : State) :
    ∃ u, runUntil s l (fun s x => s.writeElement whoScratch none x.1 x.2) = (u, .ok ()) := by
  unfold runUntil
  induction l generalizing s with
  | nil => exact ⟨s, rfl⟩
  | cons x l ih =>
    rw [List.all_cons, Bool.and_eq_true, Bool.and_eq_true, decide_eq_true_eq] at h
    obtain ⟨⟨h1, h2⟩, h3⟩ := h
    rw [List.foldl_cons]
    have e : ∃ u, s.writeElement whoScratch none x.1 x.2 = (u, .ok ()) := by
      unfold State.writeElement
      rw [scratch_access s .write x.1 _ h1]
      cases hr : State.reset.access whoScratch .write x.1 x.2.length with
      | ok qs => exact ⟨_, rfl⟩
      | bad c a => simp [hr] at h2
      | absent p => simp [hr] at h2
      | wait => simp [hr] at h2
    obtain ⟨u, hu⟩ := e
    dsimp only
    rw [hu]
    exact ih h3 u
/-- What a prune writes, given its pattern and rows of a format without scales. -/
def pruneWrites (d : W512) (rows : List Nat) (p : Bool × List (List Nat)) : List (W64 × List Byte) :=
  let f := pruneFmt d
  let m := pruneM d
  let n := pruneN d
  let h := groupAddr d 8
  let iw := if m = 4 then 2 else 4
  let codes := (p.2.map fun row => row.map fun q => q % m).flatten
  ((List.range 128).map fun i => (groupAddr d 2 + BitVec.ofNat 64 (i * groupWord d 7),
    leBytes (packedLen f (mmaK d * n / m)) (packCodes f.width (((p.2[i]?).getD []).map fun q => packedAt f (nth rows i) q)))) ++
  [(h + 64, leBytes ((codes.length * iw + 7) / 8) (packCodes iw codes)),
    (h, leBytes 8 (bits (groupWord d 5) 5 4 + n * 4 + (if p.1 then 128 else 0) + (if m = 4 then 0 else 256) + codes.length * 2 ^ 16))]
theorem runPrune_writes (s : State) (c : MatrixCmd) (d : W512) (rows : List Nat) (h3 : isNarrow (pruneFmt d) = false)
    (h : s.fetchRanges c.who ((List.range 128).map fun i => ((groupAddr d 0).toNat + i * groupWord d 6, packedLen (pruneFmt d) (mmaK d))) = (s, .ok rows)) :
    s.runPrune c d = runUntil s (pruneWrites d rows (prunePattern d rows [])) fun s x => s.writeElement c.who none x.1 x.2 := by
  have h4 : s.fetchRanges c.who [] = (s, .ok []) := rfl
  unfold State.runPrune pruneWrites
  simp only [h3, h, h4, andThen, Bool.false_eq_true, if_false]
/-- A prune of 128 rows of 32 S8 elements, keeping 1 of 4, into the scratch. -/
def prune0 : W512 := BitVec.ofNat 512 (0xffffff0000000000 * 2 ^ 64 + 32 * 2 ^ 128 + (0xe + 64) * 2 ^ 160 + 32 * 2 ^ 192 + 16 * 2 ^ 224 +
  0xffffff0000001000 * 2 ^ 256)
def pruneCmd : MatrixCmd := ⟨0, whoScratch, 0, 0, .prune prune0, true, none, false, 0⟩
theorem prune_rows : ((List.range 128).map fun i => ((groupAddr prune0 0).toNat + i * groupWord prune0 6, packedLen (pruneFmt prune0) (mmaK prune0))).map
    (fun p => (withCommand pruneCmd).rangeValue whoScratch (p.1 % 2 ^ 64) p.2) = List.replicate 128 0 := by decide +kernel
theorem prune_mag (i k : Nat) : pruneMag prune0 (List.replicate 128 0) [] i k = elementVal .s8 0 := by
  have h1 : pruneFmt prune0 = .s8 := by decide +kernel
  have h2 : isNarrow .s8 = false := by decide
  have h3 : nth (List.replicate 128 0) i = 0 := by
    unfold nth; rw [List.getElem?_replicate]; split <;> rfl
  have h4 : packedAt .s8 0 k = 0 := by unfold packedAt bits; simp
  unfold pruneMag
  simp only [h1, h2, h3, h4, Bool.false_eq_true, if_false]
theorem prune_greedy : greedy 1 4 (fun _ _ => elementVal .s8 0) = [(0, 0), (1, 1), (2, 2), (3, 3)] := by decide +kernel
theorem prune_pattern : prunePattern prune0 (List.replicate 128 0) [] =
    (true, (List.range 128).map fun i => (List.range 8).map fun g => 4 * g + i % 4) := by
  have h1 : pruneM prune0 = 4 := by decide +kernel
  have h2 : pruneN prune0 = 1 := by decide +kernel
  have h3 : mmaK prune0 = 32 := by decide +kernel
  unfold prunePattern
  simp only [prune_mag, h1, h2, h3, prune_greedy]
  decide +kernel
theorem prune_writes : (pruneWrites prune0 (List.replicate 128 0) (true, (List.range 128).map fun i => (List.range 8).map fun g => 4 * g + i % 4)).all
    (fun x => decide (scratchBase ≤ x.1.toNat ∧ x.1.toNat < scratchBase + 0x400000) &&
      (match State.reset.access whoScratch .write x.1 x.2.length with | .ok _ => true | _ => false)) = true := by decide +kernel
theorem witness_Engines_prune : pruneCmd.op = .prune prune0 ∧ ∃ u, (withCommand pruneCmd).runPrune pruneCmd prune0 = (u, .ok ()) := by
  refine ⟨rfl, ?_⟩
  have h1 := fetchRanges_ok (withCommand pruneCmd) (settled_command _) whoScratch _ (mapped_ranges (withCommand pruneCmd) (mapped_command _) whoScratch ⟨rfl, rfl, rfl⟩
    ((List.range 128).map fun i => ((groupAddr prune0 0).toNat + i * groupWord prune0 6, packedLen (pruneFmt prune0) (mmaK prune0))) (by decide +kernel))
  rw [prune_rows] at h1
  rw [runPrune_writes (withCommand pruneCmd) pruneCmd prune0 _ (by decide +kernel) h1, prune_pattern]
  exact scratch_writes _ prune_writes _

end Sys2Proof.Tests
end

section
/-!
PROOFS. Integer division and bit fields (spec/13_isa_block_control_integer.md R358, R361): what the two shared operand forms
make of an instruction word, then the two statements.
-/
namespace Sys2Proof.Proofs.Integer
open Sys2Proof.Machine Sys2Proof.Laws.Integer

theorem exec_div (g : G) (t : IType) (s : State) : exec (.div g t) s = binop g s (divide t) := rfl

theorem exec_rem (g : G) (t : IType) (s : State) : exec (.rem g t) s = binop g s (remainder t) := rfl

theorem exec_bfx (g : G) (t : IType) (s : State) : exec (.bfx g t) s = binop g s (extractField t) := rfl

theorem exec_bfi (g : G) (t : ZType) (s : State) : exec (.bfi g t) s = triop g s (insertField t) := rfl

/-- A word that means a function of two operands sends that function's value in every performing lane (R147). -/
theorem runs_of_exec_eq_binop {i : Instr} {s : State} {f : Frame} {g : G} {r : W64 → W64 → W64}
    (hi : exec i s = binop g s r) (hs : AtSlot s f) (ho : f.Open g) : Runs i s (f.Sent g (f.lane2 g.pred r)) := by
  obtain ⟨f', hsent, hnext⟩ := binop_sent hs g ho r
  exact ⟨f', hsent, hi.trans hnext⟩

/-- A word that means a function of three operands sends that function's value in every performing lane (R147). -/
theorem runs_of_exec_eq_triop {i : Instr} {s : State} {f : Frame} {g : G} {r : W64 → W64 → W64 → W64}
    (hi : exec i s = triop g s r) (hs : AtSlot s f) (ho : f.Open g) : Runs i s (f.Sent g (f.lane3 g.pred r)) := by
  obtain ⟨f', hsent, hnext⟩ := triop_sent hs g ho r
  exact ⟨f', hsent, hi.trans hnext⟩

/-- `divide` by its corner of R358: all ones of the width for a divisor of 0, else the quotient of the width's words. -/
theorem divide_eq_ite_allOnes (t : IType) (a b : W64) :
    divide t a b = if t.keep b = 0 then t.keep (BitVec.allOnes 64) else (t.divided a b).1 := by
  have hones : (-1 : W64) = BitVec.allOnes 64 := BitVec.neg_one_eq_allOnes
  rw [divide_eq, hones]

/-- Settles O3: division and remainder of integers, wrapped to the width, are those of words of the width, the overflowing
signed division included; a divisor whose low bits are 0 is the one corner apart. -/
theorem divisionAndRemainder : Obligations.DivisionAndRemainder := by
  intro s f g t hs ho
  constructor
  · rw [← funext₂ (divide_eq_ite_allOnes t)]
    exact runs_of_exec_eq_binop (exec_div g t s) hs ho
  · rw [← funext₂ (remainder_eq t)]
    exact runs_of_exec_eq_binop (exec_rem g t s) hs ho

/-- Settles O6: the two functions are the model's own, and their bits are read off one by one. -/
theorem bitFields : Obligations.BitFields := by
  refine ⟨extractField, insertField, extract_bit, insert_bit, fun s f g hs ho => ⟨fun t => ?_, fun t => ?_⟩⟩
  · exact runs_of_exec_eq_binop (exec_bfx g t s) hs ho
  · exact runs_of_exec_eq_triop (exec_bfi g t s) hs ho

end Sys2Proof.Proofs.Integer
end

section
/-!
PROOFS. The class of a floating-point operand (spec/14_isa_float_lane.md R373): what value a code of a format with infinities
stands for, by the range in which its magnitude lies (Table 11.2), then the class of that value, then the statement.
-/
namespace Sys2Proof.Proofs.FloatClass
open Sys2Proof.Machine

/-! The ranges of magnitudes of a format with infinities: zero, subnormals, normals, infinity, NaNs. -/

theorem hasInf_fmt (t : FType) : t.fmt.hasInf = true := by
  cases t <;> rfl

/-- A format with infinities has a mantissa bit, and two exponent bits or more beside its sign. -/
theorem man_bounds {f : Fmt} (hf : f.hasInf = true) : 0 < f.man ∧ f.man + 1 ≤ f.width - 1 := by
  revert hf
  cases f <;> decide

theorem two_pow_man_le_infCode {f : Fmt} (hf : f.hasInf = true) : 2 ^ f.man ≤ f.infCode := by
  have hpow : 2 ^ (f.man + 1) ≤ 2 ^ (f.width - 1) := Nat.pow_le_pow_right Nat.two_pos (man_bounds hf).2
  rw [pow_succ] at hpow
  unfold Fmt.infCode
  omega

/-- The first mantissa bit, which tells the quiet NaNs from the signalling ones, is a bit of the code (Table 11.2). -/
theorem mantissa_top_eq_zero_iff {f : Fmt} (hf : f.hasInf = true) (n : Nat) :
    magOf f n % 2 ^ f.man / 2 ^ (f.man - 1) = 0 ↔ n.testBit (f.man - 1) = false := by
  obtain ⟨hpos, hle⟩ := man_bounds hf
  have hmod : magOf f n % 2 ^ f.man = n % (2 ^ (f.man - 1) * 2) := by
    rw [← pow_succ, Nat.sub_add_cancel hpos]
    exact Nat.mod_mod_of_dvd n (pow_dvd_pow 2 (by omega))
  rw [hmod, Nat.mod_mul_right_div_self, Nat.testBit_eq_decide_div_mod_eq, decide_eq_false_iff_not]
  omega

theorem readFloat_of_infCode_lt {f : Fmt} (hf : f.hasInf = true) {n : Nat} (h : f.infCode < magOf f n) :
    readFloat f n = .nan (!n.testBit (f.man - 1)) := by
  simp [readFloat, hf, h, h.ne', mantissa_top_eq_zero_iff hf]

theorem readFloat_of_eq_infCode {f : Fmt} (hf : f.hasInf = true) {n : Nat} (h : magOf f n = f.infCode) :
    readFloat f n = .inf (signOf f n) := by
  simp [readFloat, hf, h]

theorem readFloat_of_normal {f : Fmt} (hf : f.hasInf = true) {n : Nat} (h : magOf f n < f.infCode)
    (hn : 2 ^ f.man ≤ magOf f n) :
    ∃ e, readFloat f n = .fin (signOf f n) (2 ^ f.man + magOf f n % 2 ^ f.man) e := by
  have hexp : magOf f n / 2 ^ f.man ≠ 0 := (Nat.div_pos hn (Nat.two_pow_pos _)).ne'
  simp [readFloat, hf, h.ne, h.not_gt, hexp]

theorem readFloat_of_lt_two_pow_man {f : Fmt} (hf : f.hasInf = true) {n : Nat} (h : magOf f n < 2 ^ f.man) :
    readFloat f n = .fin (signOf f n) (magOf f n) f.qmin := by
  have hinf : magOf f n < f.infCode := h.trans_le (two_pow_man_le_infCode hf)
  simp [readFloat, hf, hinf.ne, hinf.not_gt, Nat.div_eq_of_lt h, Nat.mod_eq_of_lt h]

theorem isSubnormal_iff {f : Fmt} {n : Nat} : isSubnormal f n = true ↔ 0 < magOf f n ∧ magOf f n < 2 ^ f.man := by
  simp [isSubnormal, Nat.pos_iff_ne_zero, and_comm]

/-! The class bit in each range (R373). -/

theorem classBit_of_nan {f : Fmt} (hf : f.hasInf = true) {n : Nat} (h : f.infCode < magOf f n) :
    classBit f n = if n.testBit (f.man - 1) then 1 else 0 := by
  cases hq : n.testBit (f.man - 1) <;> simp [classBit, readFloat_of_infCode_lt hf h, hq]

theorem classBit_of_infinity {f : Fmt} (hf : f.hasInf = true) {n : Nat} (h : magOf f n = f.infCode) :
    classBit f n = if signOf f n then 2 else 9 := by
  simp [classBit, readFloat_of_eq_infCode hf h]

theorem classBit_of_normal {f : Fmt} (hf : f.hasInf = true) {n : Nat} (h : magOf f n < f.infCode)
    (hn : 2 ^ f.man ≤ magOf f n) : classBit f n = if signOf f n then 3 else 8 := by
  obtain ⟨e, hval⟩ := readFloat_of_normal hf h hn
  have hsub : ¬ isSubnormal f n = true := fun hs => hn.not_gt (isSubnormal_iff.mp hs).2
  simp [classBit, hval, hsub]

theorem classBit_of_subnormal {f : Fmt} (hf : f.hasInf = true) {n : Nat} (hpos : 0 < magOf f n)
    (h : magOf f n < 2 ^ f.man) : classBit f n = if signOf f n then 4 else 7 := by
  simp [classBit, readFloat_of_lt_two_pow_man hf h, hpos.ne', isSubnormal_iff.mpr ⟨hpos, h⟩]

theorem classBit_of_zero {f : Fmt} (hf : f.hasInf = true) {n : Nat} (h : magOf f n = 0) :
    classBit f n = if signOf f n then 5 else 6 := by
  have hlt : magOf f n < 2 ^ f.man := h ▸ Nat.two_pow_pos _
  simp [classBit, readFloat_of_lt_two_pow_man hf hlt, h]

/-- There are ten classes. -/
theorem classBit_le (f : Fmt) (n : Nat) : classBit f n ≤ 9 := by
  unfold classBit
  repeat' split
  all_goals decide

/-! The mask that `fclass` sends: the class bit alone. -/

/-- What `fclass` sends for an operand. -/
def classMask (f : Fmt) (a : W64) : W64 := BitVec.ofNat 64 (2 ^ classBit f (low f a))

theorem classMask_eq_one_shiftLeft (f : Fmt) (a : W64) : classMask f a = (1 <<< classBit f (low f a) : Nat) := by
  rw [classMask, Nat.one_shiftLeft, BitVec.natCast_eq_ofNat]

theorem exec_fclass (g : G) (t : FType) (s : State) : exec (.fclass g t) s = unop g s (classMask t.fmt) := rfl

/-- A mask whose class bit is one of two has one of two values. -/
theorem classMask_of_classBit_eq_ite {f : Fmt} {a : W64} {p : Bool} {j k : Nat}
    (h : classBit f (low f a) = if p then j else k) : classMask f a = if p then BitVec.ofNat 64 (2 ^ j) else BitVec.ofNat 64 (2 ^ k) := by
  rw [classMask, h]
  cases p <;> rfl

/-- Settles O20: the mask is one bit shifted to the class bit, and each range of magnitudes has its class by the sign, or by
the quiet bit of a NaN. -/
theorem floatClass : Obligations.FloatClass := by
  intro s f g t hs ho
  obtain ⟨f', hsent, hnext⟩ := unop_sent hs g ho (classMask t.fmt)
  have hf := hasInf_fmt t
  refine ⟨f', ⟨classMask t.fmt, hsent, fun a => ⟨?_, ?_, ?_, ?_, ?_, ?_⟩⟩, (exec_fclass g t s).trans hnext⟩
  · exact ⟨classBit t.fmt (low t.fmt a), classBit_le .., classMask_eq_one_shiftLeft ..⟩
  · exact fun h => classMask_of_classBit_eq_ite (classBit_of_nan hf h)
  · exact fun h => classMask_of_classBit_eq_ite (classBit_of_infinity hf h)
  · exact fun h hn => classMask_of_classBit_eq_ite (classBit_of_normal hf h hn)
  · exact fun hpos h => classMask_of_classBit_eq_ite (classBit_of_subnormal hf hpos h)
  · exact fun h => classMask_of_classBit_eq_ite (classBit_of_zero hf h)

end Sys2Proof.Proofs.FloatClass
end
